-- ==== Sys2Proof/Word.lean ====
section
/-!
DEFINITION. The words of the CTCR engine and its real numbers: bytes, 32-bit registers, 64-bit
register pairs, and the values of IEEE 754 binary64 (spec/00_scope.md R8, R9).
-/

namespace Sys2Proof

/-- One byte of sample memory (20_memory.md R70). -/
abbrev Byte := BitVec 8

/-- One register of the register block; also a command word (10_state.md R22, 30_encoding.md R100). -/
abbrev Word := BitVec 32

/-- A binary64 pattern: two consecutive registers, low word first (10_state.md R22). -/
abbrev DWord := BitVec 64

/-- A 3x3 array of binary64 patterns, row major: element (k, j) stands at 3k + j
(40_color_transform.md R132). -/
abbrev Mat3 := Vector DWord 9

/-- The values of binary64 (00_scope.md R9). A finite value is `± mag · 2^-1074`: `mag` counts the
smallest positive binary64 number, so each value has exactly one term. The two zeros are
distinct terms. A binary32 value is a binary64 value, so the same type serves for both.
There is one `nan`: which NaN is STORED in a sample is open (93_implementation_defined.md U6)
and is settled where a sample is written, with a free value. -/
inductive Fp where
  | nan
  | inf (neg : Bool)
  | fin (neg : Bool) (mag : Nat)
  deriving DecidableEq, Repr, Inhabited

end Sys2Proof
end

