-- ==== Sys2Proof/Syntax.lean ====
section
/-!
DEFINITION. The ten commands of spec/opcode_table.json (spec/30_encoding.md R102), one
constructor each. An operand is kept as wide as its field in format C (R100), so that the
values the spec calls illegal can be written; Sys2Proof/WellFormed.lean refuses them.
-/

namespace Sys2Proof

/-- A command of the engine. `fdo` and `fdi` are the 4-bit slot fields, `cp` and `lvl` the
8-bit `ARG` field (30_encoding.md R100, R103). -/
inductive Instr where
  /-- `CT.SETUP` -/
  | ctSetup
  /-- `CT.PROC fdo, fdi` -/
  | ctProc (fdo fdi : BitVec 4)
  /-- `CT.GETM cp` -/
  | ctGetm (cp : BitVec 8)
  /-- `CT.GETY cp` -/
  | ctGety (cp : BitVec 8)
  /-- `CR.SETUP` -/
  | crSetup
  /-- `CR.DN.GEN fdo, fdi, lvl` -/
  | crDnGen (fdo fdi : BitVec 4) (lvl : BitVec 8)
  /-- `CR.DN.BND fdo, fdi` -/
  | crDnBnd (fdo fdi : BitVec 4)
  /-- `CR.DN.ADP fdo, fdi` -/
  | crDnAdp (fdo fdi : BitVec 4)
  /-- `CR.UP.GEN fdo, fdi, lvl` -/
  | crUpGen (fdo fdi : BitVec 4) (lvl : BitVec 8)
  /-- `CR.UP.BND fdo, fdi` -/
  | crUpBnd (fdo fdi : BitVec 4)
  deriving DecidableEq, Repr, Inhabited

end Sys2Proof
end

