-- ==== Sys2Proof/WellFormed.lean ====
section
/-!
DEFINITION. Which terms of `Instr` are commands: slot numbers below 4, a primaries code of four
bits, a bounding level of two bits (spec/30_encoding.md R101, R103).
-/

namespace Sys2Proof

/-- A slot operand names one of `FD[0]` to `FD[3]`: "FDO and FDI values 4 to 15 are illegal in
every command" (30_encoding.md R101). -/
def slotOk (x : BitVec 4) : Bool := x.toNat < 4

/-- `ARG[7:4]` must be 0 in `CT.GETM` and `CT.GETY` (30_encoding.md R103). -/
def primariesOk (cp : BitVec 8) : Bool := cp.toNat < 16

/-- `ARG[7:2]` must be 0 in `CR.DN.GEN` and `CR.UP.GEN` (30_encoding.md R103). -/
def levelOk (lvl : BitVec 8) : Bool := lvl.toNat < 4

/-- Every operand of the command is one the encoding admits. -/
def Instr.wellFormed : Instr → Bool
  | .ctSetup => true
  | .ctProc o i => slotOk o && slotOk i
  | .ctGetm cp => primariesOk cp
  | .ctGety cp => primariesOk cp
  | .crSetup => true
  | .crDnGen o i l => slotOk o && slotOk i && levelOk l
  | .crDnBnd o i => slotOk o && slotOk i
  | .crDnAdp o i => slotOk o && slotOk i
  | .crUpGen o i l => slotOk o && slotOk i && levelOk l
  | .crUpBnd o i => slotOk o && slotOk i

/-- The slots a command names. -/
def Instr.slots : Instr → List (BitVec 4)
  | .ctSetup | .ctGetm _ | .ctGety _ | .crSetup => []
  | .ctProc o i | .crDnGen o i _ | .crDnBnd o i | .crDnAdp o i | .crUpGen o i _ | .crUpBnd o i =>
    [o, i]

end Sys2Proof
end

