-- ==== Sys2Proof/Decode.lean ====
section
/-!
DEFINITION. Format C (spec/30_encoding.md R100 to R106): the decoder, total on every 32-bit
word and refusing by the names of R104, and the encoder of R107.
-/

namespace Sys2Proof

/-- Why a word is no command (30_encoding.md R104). -/
inductive DecodeError where
  /-- (a) `OPC` is not one of the ten. -/
  | opcode
  /-- (b) a must-be-zero bit is 1, or a slot is above 3. -/
  | rsvd
  deriving DecidableEq, Repr

/-- `OPC`, bits 31:24. -/
def opcField (w : Word) : BitVec 8 := w.extractLsb' 24 8

/-- `FDO`, bits 23:20. -/
def fdoField (w : Word) : BitVec 4 := w.extractLsb' 20 4

/-- `FDI`, bits 19:16. -/
def fdiField (w : Word) : BitVec 4 := w.extractLsb' 16 4

/-- `ARG`, bits 15:8. -/
def argField (w : Word) : BitVec 8 := w.extractLsb' 8 8

/-- `Z`, bits 7:0, must be zero in every command. -/
def zField (w : Word) : BitVec 8 := w.extractLsb' 0 8

/-- The command an opcode byte names, with the operand fields of `w` and 0 in every field the
command does not use; `none` for an undefined opcode (30_encoding.md R102). -/
def opcodeInstr (w : Word) : Option Instr :=
  match (opcField w).toNat with
  | 0x10 => some .ctSetup
  | 0x11 => some (.ctProc (fdoField w) (fdiField w))
  | 0x12 => some (.ctGetm (argField w))
  | 0x13 => some (.ctGety (argField w))
  | 0x20 => some .crSetup
  | 0x21 => some (.crDnGen (fdoField w) (fdiField w) (argField w))
  | 0x22 => some (.crDnBnd (fdoField w) (fdiField w))
  | 0x23 => some (.crDnAdp (fdoField w) (fdiField w))
  | 0x24 => some (.crUpGen (fdoField w) (fdiField w) (argField w))
  | 0x25 => some (.crUpBnd (fdoField w) (fdiField w))
  | _ => none

/-- The fields a command does not use are 0 in `w` (30_encoding.md R101). -/
def unusedZero (w : Word) : Instr → Bool
  | .ctSetup => fdoField w == 0 && fdiField w == 0 && argField w == 0 && zField w == 0
  | .ctProc _ _ => argField w == 0 && zField w == 0
  | .ctGetm _ => fdoField w == 0 && fdiField w == 0 && zField w == 0
  | .ctGety _ => fdoField w == 0 && fdiField w == 0 && zField w == 0
  | .crSetup => fdoField w == 0 && fdiField w == 0 && argField w == 0 && zField w == 0
  | .crDnGen _ _ _ => zField w == 0
  | .crDnBnd _ _ => argField w == 0 && zField w == 0
  | .crDnAdp _ _ => argField w == 0 && zField w == 0
  | .crUpGen _ _ _ => zField w == 0
  | .crUpBnd _ _ => argField w == 0 && zField w == 0

/-- Decoding: "The opcode is examined first, then the must-be-zero bits" (30_encoding.md R105). -/
def decode (w : Word) : Except DecodeError Instr :=
  match opcodeInstr w with
  | none => .error .opcode
  | some i => if i.wellFormed && unusedZero w i then .ok i else .error .rsvd

/-- `OPC << 24 | fdo << 20 | fdi << 16 | arg << 8` (30_encoding.md R107). -/
def formatC (opc : BitVec 8) (fdo fdi : BitVec 4) (arg : BitVec 8) : Word :=
  opc ++ fdo ++ fdi ++ arg ++ (0 : BitVec 8)

/-- The word of a well-formed command (30_encoding.md R102, R107). -/
def encode : Instr → Word
  | .ctSetup => formatC 0x10 0 0 0
  | .ctProc o i => formatC 0x11 o i 0
  | .ctGetm cp => formatC 0x12 0 0 cp
  | .ctGety cp => formatC 0x13 0 0 cp
  | .crSetup => formatC 0x20 0 0 0
  | .crDnGen o i l => formatC 0x21 o i l
  | .crDnBnd o i => formatC 0x22 o i 0
  | .crDnAdp o i => formatC 0x23 o i 0
  | .crUpGen o i l => formatC 0x24 o i l
  | .crUpBnd o i => formatC 0x25 o i 0

/-- The command read from the low `nbits` bits of `w`, every higher bit 0. A command is one
32-bit register write, so there is no byte order to lay out. -/
def decodeTableWord (nbits w : Nat) : Option Instr :=
  match decode (BitVec.ofNat 32 (w % 2 ^ nbits)) with
  | .ok i => some i
  | .error _ => none

end Sys2Proof
end

