-- ==== Sys2Proof/Config.lean ====
section
/-!
DEFINITION. What one instance of the hardware fixes and no command changes: the tables of
spec/00_scope.md R7 as plain data, and the free values, opaque constants that stand for what
the spec leaves open. The default tables are in Sys2Proof/Machine/Tables.lean.
-/

namespace Sys2Proof

/-- The clip policies 0, 1, 2 (10_state.md R48). Code 3 "never produced" has no term. -/
inductive ClipPolicy where
  /-- 0: no clip. -/
  | none
  /-- 1: clip to the bounds `CT_MIN`, `CT_MAX`. -/
  | bounds
  /-- 2: clip negative values to zero. -/
  | nonneg
  deriving DecidableEq, Repr, Inhabited

/-- One entry of `MTAB` (40_color_transform.md R132). `dividers` is `(cbDiv, crDiv)`: both
present or both absent. -/
structure MatEntry where
  fwd : Mat3
  inv : Mat3
  dividers : Option (DWord × DWord)
  deriving DecidableEq, Repr, Inhabited

/-- One mapped tuple of `RESOLVE` (40_color_transform.md R135, R136). `hiprec = none` is the
"any" of the table. -/
structure ResolveRow where
  ics : BitVec 3
  ocs : BitVec 3
  icp : BitVec 4
  ocp : BitVec 4
  hiprec : Option (BitVec 2)
  mode : Nat
  isFwd : Bool
  clip : ClipPolicy
  deriving DecidableEq, Repr, Inhabited

/-- `CLK`: the constant-luminance constants (40_color_transform.md R147). -/
structure Clk where
  pb : DWord
  nb : DWord
  pr : DWord
  nr : DWord
  deriving DecidableEq, Repr, Inhabited

/-- What an instance has for `CLK`. -/
inductive ClkSource where
  /-- not supplied: mode 5 is refused (40_color_transform.md R147) -/
  | absent
  /-- supplied, with constants the spec does not give -/
  | unstated
  /-- supplied, these constants -/
  | given (k : Clk)
  deriving DecidableEq, Repr, Inhabited

/-- What an instance has for `DOT3`. -/
inductive DotKind where
  /-- the default of 00_scope.md R10: the products are added from left to right -/
  | leftToRight
  /-- another function, of which only R10's bound on its error is known -/
  | unstated
  deriving DecidableEq, Repr, Inhabited

/-- A `ScaleFilter` (41_filter_primitives.md R191). The tap count is the length of `fcoef`.
`fcoef` and `fscale` are binary32 patterns, `icoef` and `ioffset` signed 32-bit numbers. -/
structure ScaleFilter where
  fcoef : List Word
  icoef : List Word
  posOffset : Int
  phase : Nat
  clip : Bool
  fscale : Word
  ishift : Nat
  ioffset : Word
  deriving DecidableEq, Repr, Inhabited

/-- A filter bank (41_filter_primitives.md R197). A member the bank lacks is `none` or the
empty list; an up-sampling member holds phase 0 and phase 1. -/
structure FilterBank where
  gdh : Option ScaleFilter
  gdv : Option ScaleFilter
  guh : Option (ScaleFilter × ScaleFilter)
  guv : Option (ScaleFilter × ScaleFilter)
  bdh : List ScaleFilter
  bdv : List ScaleFilter
  buh : List ScaleFilter × List ScaleFilter
  buv : List ScaleFilter × List ScaleFilter
  adh : List ScaleFilter
  adv : List ScaleFilter
  auh : Option (ScaleFilter × ScaleFilter)
  auv : Option (ScaleFilter × ScaleFilter)
  deriving DecidableEq, Repr, Inhabited

/-- One defined point of the partial function `FBANK(loc, dnsel, upsel)`. -/
structure BankRow where
  loc : BitVec 3
  dn : BitVec 4
  up : BitVec 4
  bank : FilterBank
  deriving DecidableEq, Repr, Inhabited

/-- The parameters of 00_scope.md R7, "arguments of the model, fixed for one instance of the
hardware, never changed by any command". Plain data, so that they can ride in `State`
(log 2). Mode 0 is the identity in every instance (R133) and is not listed. -/
structure Tables where
  /-- `MTAB` entries 1 to 6; `none` is an entry the spec does not give (R134). Entries 1 and 2 have
  dividers (R133; `Tables.mtabOk`). -/
  mode1 : MatEntry
  mode2 : MatEntry
  mode3 : Option MatEntry
  mode4 : Option MatEntry
  mode5 : Option MatEntry
  mode6 : Option MatEntry
  /-- `MTAB` entries 7 and up, so that `NMODES = 7 + moreModes.length`. -/
  moreModes : List MatEntry
  /-- The tuples `RESOLVE` maps beyond the rows of R136. -/
  moreRows : List ResolveRow
  /-- `XYZMODE`, indexed by primaries code; a missing entry is mode 0. -/
  xyzModes : List Nat
  /-- `CLK` (R147). -/
  clkSource : ClkSource
  /-- `DOT3` (00_scope.md R10). -/
  dotKind : DotKind
  noopSetsFrameNo : Bool
  /-- The defined points of `FBANK` beyond `F0` for both selects (R197). -/
  banks : List BankRow
  /-- `EDGE_THR`, a binary64 pattern. -/
  edgeThr : DWord
  /-- `EDGE_THR_INT`, indexed by bit depth. -/
  edgeThrInt : List Nat
  /-- `BOUND_TRIM` for levels 1, 2, 3. -/
  boundTrim : Nat × Nat × Nat
  /-- `NFD`: how many of the four slots of the register map exist; the encoding allows no more
  (92_eei_decisions.md D6). -/
  nfd : Nat
  /-- `AW`: sample memory has 2^`AW` bytes (20_memory.md R70). -/
  aw : Nat
  maxSamples : Nat
  /-- Where the register window stands in sample memory, on a platform where the two address
  spaces are one (20_memory.md R88; what a host access does there: log 30); `none` where they
  are two. -/
  regBase : Option Nat
  deriving DecidableEq, Repr, Inhabited

/-- FREE VALUE (log 3). An `MTAB` entry the spec leaves open ("Entries 3 and up: not in D0,
open", 40_color_transform.md R134), by mode number. -/
opaque Config.openEntry : Nat → MatEntry

/-- FREE VALUE (log 4). The constants `PB`, `NB`, `PR`, `NR`, which D0 names and does not give
(40_color_transform.md R147). -/
opaque Config.openClk : Clk

/-- FREE VALUE (log 8). A `DOT3` that is not stated: row and vector, three values each, and the
binary64 pattern it answers (00_scope.md R7: "row -> vec -> binary64"). The model uses its answer
only within the error 00_scope.md R10 allows. -/
opaque Config.openDot : (row : Fp × Fp × Fp) → (vec : Fp × Fp × Fp) → DWord

/-- FREE VALUE (log 5). The sign and payload of the NaN stored at an address, drawn anew by each
command (93_implementation_defined.md U6: "a stored sample is some NaN"). -/
opaque Config.freeNan : (draw : Nat) → (addr : Nat) → Word

/-- FREE VALUE (log 6). The integer that stands for a result that is no finite number, before
the clamp of 40_color_transform.md R144. -/
opaque Config.freeInt : (draw : Nat) → (addr : Nat) → Int

/-- FREE VALUE (log 7). Whether the zero that `MINMAX` returns is negative when its support
holds zeros of both signs (41_filter_primitives.md R202 compares numerically). -/
opaque Config.zeroTie : (support : List Fp) → (isMax : Bool) → Bool

end Sys2Proof
end

