-- ==== Sys2Proof/Machine/Float.lean ====
section
/-!
DEFINITION. The arithmetic of spec/00_scope.md R9: binary64 operations "each rounded once to
nearest ties-to-even, with no fused multiply-add, no flush-to-zero and IEEE default
NaN/infinity behaviour", the narrowing to binary32, and the patterns of both formats. Every
operation computes the exact result on naturals and rounds once, in `roundMag`.
-/

namespace Sys2Proof

/-- The number 1 in units of the smallest binary64 number 2^-1074. -/
def Fp.one : Nat := 2 ^ 1074

/-- `num / den` rounded to nearest, ties to even, to `prec` significant bits, where no multiple
finer than `2 ^ quantum` may be used (the format's subnormal spacing). -/
def roundMag (prec quantum num den : Nat) : Nat :=
  let k := max quantum (Nat.log2 (num / den) + 1 - prec)
  let d := den * 2 ^ k
  let q := num / d
  let r := num % d
  (if d < 2 * r ∨ (d = 2 * r ∧ q % 2 = 1) then q + 1 else q) * 2 ^ k

/-- The binary64 number nearest to `± num / den` (in units of 2^-1074); from 2^1024 up it is an
infinity. -/
def Fp.round64 (neg : Bool) (num den : Nat) : Fp :=
  let m := roundMag 53 0 num den
  if 2 ^ 2098 ≤ m then .inf neg else .fin neg m

/-- `f32(x)`: rounding to binary32, nearest ties-to-even, overflow to the infinity of the same
sign (00_scope.md R9). The result is a binary32 value. -/
def Fp.toF32 : Fp → Fp
  | .nan => .nan
  | .inf n => .inf n
  | .fin n m =>
    let r := roundMag 24 925 m 1
    if 2 ^ 1202 ≤ r then .inf n else .fin n r

/-- A finite value as an integer count of 2^-1074; the two zeros agree. -/
def Fp.signed (neg : Bool) (mag : Nat) : Int := if neg then -(mag : Int) else (mag : Int)

/-- Sign change. -/
def Fp.neg : Fp → Fp
  | .nan => .nan
  | .inf n => .inf (!n)
  | .fin n m => .fin (!n) m

/-- `+d`. An exact zero sum is -0 only when both operands are -0. -/
def Fp.add : Fp → Fp → Fp
  | .nan, _ => .nan
  | _, .nan => .nan
  | .inf a, .inf b => if a = b then .inf a else .nan
  | .inf a, .fin _ _ => .inf a
  | .fin _ _, .inf b => .inf b
  | .fin a m, .fin b n =>
    let s := Fp.signed a m + Fp.signed b n
    if s = 0 then .fin (a && b) 0 else Fp.round64 (s < 0) s.natAbs 1

/-- `-d`. -/
def Fp.sub (x y : Fp) : Fp := x.add y.neg

/-- `*d`. -/
def Fp.mul : Fp → Fp → Fp
  | .nan, _ => .nan
  | _, .nan => .nan
  | .inf a, .inf b => .inf (a != b)
  | .inf a, .fin b n => if n = 0 then .nan else .inf (a != b)
  | .fin a m, .inf b => if m = 0 then .nan else .inf (a != b)
  | .fin a m, .fin b n => Fp.round64 (a != b) (m * n) Fp.one

/-- `/d`. -/
def Fp.div : Fp → Fp → Fp
  | .nan, _ => .nan
  | _, .nan => .nan
  | .inf _, .inf _ => .nan
  | .inf a, .fin b _ => .inf (a != b)
  | .fin a _, .inf b => .fin (a != b) 0
  | .fin a m, .fin b n =>
    if n = 0 then (if m = 0 then .nan else .inf (a != b))
    else Fp.round64 (a != b) (m * Fp.one) n

/-- IEEE `<`: false when an operand is a NaN; the zeros are equal. -/
def Fp.lt : Fp → Fp → Bool
  | .nan, _ => false
  | _, .nan => false
  | .inf a, .inf b => a && !b
  | .inf a, .fin _ _ => a
  | .fin _ _, .inf b => !b
  | .fin a m, .fin b n => Fp.signed a m < Fp.signed b n

/-- IEEE `<=`. -/
def Fp.le : Fp → Fp → Bool
  | .nan, _ => false
  | _, .nan => false
  | .inf a, .inf b => a || !b
  | .inf a, .fin _ _ => a
  | .fin _ _, .inf b => !b
  | .fin a m, .fin b n => Fp.signed a m ≤ Fp.signed b n

def Fp.isNan : Fp → Bool
  | .nan => true
  | _ => false

def Fp.isFinite : Fp → Bool
  | .fin _ _ => true
  | _ => false

/-- The magnitude of a finite value in units of 2^-1074; 0 for the others. -/
def Fp.mag : Fp → Nat
  | .fin _ m => m
  | _ => 0

/-- A finite value as a count of 2^-1074; 0 for the others. -/
def Fp.units : Fp → Int
  | .fin n m => Fp.signed n m
  | _ => 0

/-- The integer a finite integral value is; 0 for the others. -/
def Fp.int : Fp → Int
  | .fin n m => Fp.signed n (m / Fp.one)
  | _ => 0

/-- `f64(n)` of an unsigned integer, exact for every sample (00_scope.md R9, 20_memory.md R76). -/
def Fp.ofNat (n : Nat) : Fp := .fin false (n * Fp.one)

/-- `+0.0`. -/
def Fp.zero : Fp := .fin false 0

/-- The binary64 pattern of 0.5 as a value: the half that 40_color_transform.md R144 adds. -/
def Fp.half : Fp := .fin false (2 ^ 1073)

/-- The value of a binary64 pattern. -/
def Fp.ofBits64 (b : DWord) : Fp :=
  let neg := b.getLsbD 63
  let e := (b.extractLsb' 52 11).toNat
  let f := (b.extractLsb' 0 52).toNat
  if e = 2047 then (if f = 0 then .inf neg else .nan)
  else if e = 0 then .fin neg f
  else .fin neg ((2 ^ 52 + f) * 2 ^ (e - 1))

/-- `f32bits(w)` followed by the exact `f64` (00_scope.md R9): the value of a binary32 pattern. -/
def Fp.ofBits32 (w : Word) : Fp :=
  let neg := w.getLsbD 31
  let e := (w.extractLsb' 23 8).toNat
  let f := (w.extractLsb' 0 23).toNat
  if e = 255 then (if f = 0 then .inf neg else .nan)
  else if e = 0 then .fin neg (f * 2 ^ 925)
  else .fin neg ((2 ^ 23 + f) * 2 ^ (925 + (e - 1)))

/-- Every NaN pattern, and nothing else, is `nanBits w` for some `w`: sign and payload of `w`,
with payload 0 (which would be an infinity) replaced. -/
def nanBits (w : Word) : Word :=
  let f := w.extractLsb' 0 23
  (w.extractLsb' 31 1) ++ (0xFF : BitVec 8) ++ (if f = 0 then (0x400000 : BitVec 23) else f)

/-- `bits32` of a binary32 value (00_scope.md R9); a NaN takes the pattern `nanBits w` of the
free word `w` (93_implementation_defined.md U6). -/
def Fp.toBits32 (w : Word) : Fp → Word
  | .nan => nanBits w
  | .inf n => BitVec.ofNat 32 (n.toNat * 2 ^ 31 + 255 * 2 ^ 23)
  | .fin n m =>
    let u := m / 2 ^ 925
    let e := Nat.log2 u - 23
    BitVec.ofNat 32 (n.toNat * 2 ^ 31 + (if u < 2 ^ 23 then u else e * 2 ^ 23 + u / 2 ^ e))

/-- The largest integer not above a finite value; nothing for an infinity or a NaN. -/
def Fp.floor? : Fp → Option Int
  | .fin n m => some (Fp.signed n m / (Fp.one : Int))
  | _ => none

end Sys2Proof
end

