-- ==== Sys2Proof/Machine/Tables.lean ====
section
/-!
DEFINITION. The look-ups of the read-only tables (spec/10_state.md R49) and the default tables
of spec/00_scope.md R7. The constraints the spec puts on a supplied `RESOLVE`, `XYZMODE` and
`FBANK` hold by construction of the look-ups; those on `MTAB` are `Tables.mtabOk`,
which the machine's invariant holds of every instance.
-/

namespace Sys2Proof

/-- Mode 0, `IDENTITY`: `fwd = inv = I`, no dividers (40_color_transform.md R133, R134). -/
def identityMat : Mat3 :=
  #v[0x3FF0000000000000, 0, 0,
     0, 0x3FF0000000000000, 0,
     0, 0, 0x3FF0000000000000]

def identityEntry : MatEntry := { fwd := identityMat, inv := identityMat, dividers := none }

/-- `NMODES` (00_scope.md R7). -/
def Tables.nModes (t : Tables) : Nat := 7 + t.moreModes.length

/-- Element (k, j) of a matrix as a count of 2^-1074. -/
def matUnits (m : Mat3) (k j : Fin 3) : Int := (Fp.ofBits64 (m.get ⟨3 * k.val + j.val, by omega⟩)).units

/-- Row k of `fwd` agrees with `(e_i - fwd[0]) / d` "up to rounding": multiplied out, the two sides
differ by at most 2^-50 of the magnitudes that meet in them. The 2^-50 is the model's reading
of the words (40_color_transform.md R132; log 3). -/
def rowAgrees (fwd : Mat3) (k i : Fin 3) (d : DWord) : Bool :=
  [(0 : Fin 3), 1, 2].all fun j =>
    let lhs := matUnits fwd k j * (Fp.ofBits64 d).units
    let e : Int := if i = j then Fp.one else 0
    let rhs := (e - matUnits fwd 0 j) * Fp.one
    (lhs - rhs).natAbs * 2 ^ 50 ≤
      lhs.natAbs + (e.natAbs + (matUnits fwd 0 j).natAbs) * Fp.one

/-- The constraints on an entry of `MTAB`: every element finite, the dividers not zero, and with
dividers the rows 1 and 2 of `fwd` those of the `transformPrecision` path
(40_color_transform.md R132). -/
def MatEntry.ok (e : MatEntry) : Bool :=
  e.fwd.toList.all (fun b => (Fp.ofBits64 b).isFinite) &&
  e.inv.toList.all (fun b => (Fp.ofBits64 b).isFinite) &&
  (match e.dividers with
   | none => true
   | some (cb, cr) =>
     [cb, cr].all (fun d => (Fp.ofBits64 d).isFinite && (Fp.ofBits64 d).units != 0) &&
     rowAgrees e.fwd 1 2 cb && rowAgrees e.fwd 2 0 cr)

/-- An open `MTAB` entry: any entry within the constraints of 40_color_transform.md R132 (log 3). -/
def openEntry (m : Nat) : MatEntry :=
  if (Config.openEntry m).ok then Config.openEntry m else identityEntry

/-- `MTAB[m]` (40_color_transform.md R132, R133). No look-up below yields an `m` at or above
`NMODES`. -/
def Tables.entry (t : Tables) : Nat → MatEntry
  | 0 => identityEntry
  | 1 => t.mode1
  | 2 => t.mode2
  | 3 => t.mode3.getD (openEntry 3)
  | 4 => t.mode4.getD (openEntry 4)
  | 5 => t.mode5.getD (openEntry 5)
  | 6 => t.mode6.getD (openEntry 6)
  | n + 7 => t.moreModes.getD n identityEntry

/-- A mode `RESOLVE` may answer: below `NMODES`, and in the 8 bits of `CT_MODE.MODE`
(40_color_transform.md R135 (P3), 10_state.md R32; DEDUCED, log 20). -/
def Tables.modeOk (t : Tables) (m : Nat) : Bool := m < t.nModes && m < 256

/-- `CLK`, or nothing when the instance does not supply it (40_color_transform.md R147). -/
def Tables.clk (t : Tables) : Option Clk :=
  match t.clkSource with
  | .absent => none
  | .unstated => some Config.openClk
  | .given k => some k

/-- The rows of `RESOLVE` every instance has (40_color_transform.md R135 (P4), R136). -/
def baselineRows : List ResolveRow :=
  [⟨0, 1, 0, 0, none, 1, true, .none⟩,
   ⟨1, 0, 0, 0, none, 1, false, .none⟩,
   ⟨0, 1, 2, 2, some 0, 2, true, .none⟩,
   ⟨0, 1, 2, 2, some 1, 3, true, .none⟩,
   ⟨0, 1, 2, 2, some 2, 4, true, .none⟩,
   ⟨1, 0, 2, 2, some 0, 2, false, .none⟩,
   ⟨1, 0, 2, 2, some 1, 3, false, .none⟩,
   ⟨1, 0, 2, 2, some 2, 4, false, .none⟩,
   ⟨0, 4, 2, 2, none, 5, true, .none⟩,
   ⟨4, 0, 2, 2, none, 6, false, .none⟩]

/-- The row maps the tuple. -/
def ResolveRow.covers (r : ResolveRow) (ics ocs : BitVec 3) (icp ocp : BitVec 4)
    (hp : BitVec 2) : Bool :=
  r.ics == ics && r.ocs == ocs && r.icp == icp && r.ocp == ocp &&
    (match r.hiprec with
     | none => true
     | some h => h == hp)

/-- The tuple holds no reserved code (10_state.md R48): colour spaces 0 to 4, primaries 0 to 8. -/
def codesOk (ics ocs : BitVec 3) (icp ocp : BitVec 4) : Bool :=
  ics.toNat < 5 && ocs.toNat < 5 && icp.toNat < 9 && ocp.toNat < 9

/-- The row of `RESOLVE` that maps a tuple; `none` is "unmapped" (40_color_transform.md R135
(P2), R137). A tuple with a reserved code is never mapped. -/
def Tables.resolve (t : Tables) (ics ocs : BitVec 3) (icp ocp : BitVec 4)
    (hp : BitVec 2) : Option ResolveRow :=
  if codesOk ics ocs icp ocp then
    (baselineRows ++ t.moreRows).find? fun r => r.covers ics ocs icp ocp hp && t.modeOk r.mode
  else none

/-- `XYZMODE(cp)`: the RGB to XYZ mode of a primaries code, 0 when there is none, reserved codes
9 to 15 included (40_color_transform.md R152, R153). That a missing entry, and one at or above
`NMODES`, counts as none is the model's reading (DEDUCED, log 29). -/
def Tables.xyzMode (t : Tables) (cp : Nat) : Nat :=
  let m := t.xyzModes.getD cp 0
  if cp < 9 && m < t.nModes then m else 0

/-- The preset `F0`, "trivial nearest" (41_filter_primitives.md R196). R196 gives every field but
`phase`, since `F0` serves both phases: the 0 there is the model's choice, and nothing reads it
(log 31). -/
def filterF0 : ScaleFilter :=
  { fcoef := [0x3F800000], icoef := [1], posOffset := 0, phase := 0, clip := false,
    fscale := 0x3F800000, ishift := 0, ioffset := 0 }

/-- A bank without any member. -/
def emptyBank : FilterBank :=
  { gdh := none, gdv := none, guh := none, guv := none, bdh := [], bdv := [],
    buh := ([], []), buv := ([], []), adh := [], adv := [], auh := none, auv := none }

/-- Preset 0 is `F0` for every location and both phases (41_filter_primitives.md R196, R197). -/
def FilterBank.withF0 (dn up : BitVec 4) (b : FilterBank) : FilterBank :=
  { b with
    gdh := if dn = 0 then some filterF0 else b.gdh
    gdv := if dn = 0 then some filterF0 else b.gdv
    guh := if up = 0 then some (filterF0, filterF0) else b.guh
    guv := if up = 0 then some (filterF0, filterF0) else b.guv }

/-- `FBANK(loc, dnsel, upsel)`, a partial function, "defined at least for dnsel = upsel = 0"
(41_filter_primitives.md R197), on the legal locations 0 to 5. -/
def Tables.bank (t : Tables) (loc : BitVec 3) (dn up : BitVec 4) : Option FilterBank :=
  if 5 < loc.toNat then none
  else
    match t.banks.find? (fun r => r.loc == loc && r.dn == dn && r.up == up) with
    | some r => some (r.bank.withF0 dn up)
    | none => if dn = 0 ∧ up = 0 then some (emptyBank.withF0 dn up) else none

/-- The number of descriptor slots, `NFD`, of which the encoding admits at most four
(30_encoding.md R101, 92_eei_decisions.md D6). -/
def Tables.slots (t : Tables) : Nat := min t.nfd 4

/-- `EDGE_THR_INT(b)` (41_filter_primitives.md R208). -/
def Tables.edgeInt (t : Tables) (depth : Nat) : Nat := t.edgeThrInt.getD depth 0

/-- `BOUND_TRIM[level - 1]` (42_chroma_down.md R237). -/
def Tables.trim (t : Tables) (level : Nat) : Nat :=
  match level with
  | 0 | 1 => t.boundTrim.1
  | 2 => t.boundTrim.2.1
  | _ => t.boundTrim.2.2

/-- Every entry an instance supplies is within the constraints of 40_color_transform.md R132, and
modes 1 and 2 have dividers (R133: "matrix, dividers present"). -/
def Tables.mtabOk (t : Tables) : Bool :=
  ([t.mode1, t.mode2] ++ t.mode3.toList ++ t.mode4.toList ++ t.mode5.toList ++
    t.mode6.toList).all MatEntry.ok &&
    t.moreModes.all MatEntry.ok && t.mode1.dividers.isSome && t.mode2.dividers.isSome

/-- `MTAB[1]`, BT.709 (40_color_transform.md R134). -/
def entry709 : MatEntry :=
  { fwd := #v[0x3FCB367A0F9096BC, 0x3FE6E2EB1C432CA5, 0x3FB27BB2FEC56D5D,
              0xBFBD5498F88CD493, 0xBFD8AAD9C1DCCADB, 0x3FE0000000000000,
              0x3FE0000000000000, 0xBFDD10D75C23A21A, 0xBFA779451EE2EF29]
    inv := #v[0x3FF0000000000000, 0, 0x3FF932617C1BDA51,
              0x3FF0000000000000, 0xBFC7FA3DE4FDF778, 0xBFDDF5BF82ACDBCA,
              0x3FF0000000000000, 0x3FFDB089A0275254, 0]
    dividers := some (0x3FFDB089A0275254, 0x3FF932617C1BDA51) }

/-- `MTAB[2]`, BT.2020 with `HIPREC` 0 (40_color_transform.md R134). -/
def entry2020 : MatEntry :=
  { fwd := #v[0x3FD0D013A92A3055, 0x3FE5B22D0E560419, 0x3FAE5C91D14E3BCD,
              0xBFC1DF65DC757465, 0xBFD7104D11C545CE, 0x3FE0000000000000,
              0x3FE0000000000001, 0xBFDD6D21051AA199, 0xBFA496F7D72AF342]
    inv := #v[0x3FF0000000000000, 0, 0x3FF797F62B6AE7D5,
              0x3FF0000000000000, 0xBFC51013AD1FC019, 0xBFE248865A4858E1,
              0x3FF0000000000000, 0x3FFE1A36E2EB1C43, 0]
    dividers := some (0x3FFE1A36E2EB1C43, 0x3FF797F62B6AE7D5) }

/-- `EDGE_THR_INT(b) = floor(0.15 * (2^b - 1))` for bit depths 0 to 16
(41_filter_primitives.md R208). -/
def defaultEdgeInt : List Nat := (List.range 17).map fun b => 15 * (2 ^ b - 1) / 100

/-- The default tables of 00_scope.md R7: baseline `MTAB` entries 0 to 2 and `RESOLVE` rows, the
open entries and `CLK` as free values, every primaries code without an XYZ mode, `F0` the
only filter. -/
def Tables.default : Tables :=
  { mode1 := entry709
    mode2 := entry2020
    mode3 := none
    mode4 := none
    mode5 := none
    mode6 := none
    moreModes := []
    moreRows := []
    xyzModes := []
    clkSource := .unstated
    dotKind := .leftToRight
    noopSetsFrameNo := false
    banks := []
    edgeThr := 0x3FC3333333333333
    edgeThrInt := defaultEdgeInt
    boundTrim := (0, 1, 2)
    nfd := 4
    aw := 32
    maxSamples := 2 ^ 28
    regBase := none }

end Sys2Proof
end

