-- ==== Sys2Proof/Machine/State.lean ====
section
/-!
DEFINITION. The state of the CTCR engine as plain data (spec/10_state.md), the reasons a step can
stop, and the machine after reset (10_state.md R53, 70_reset_and_hazards.md R361).
-/

namespace Sys2Proof.Machine

open Sys2Proof

/-- The flags of `STATUS` (10_state.md R26). The word the host reads is `Status.word`; the
reserved bits, which "read 0 and ignore writes" (R22), have no storage. -/
structure Status where
  /-- bit 0 -/
  fatal : Bool
  /-- bit 1 -/
  cmdErr : Bool
  /-- bit 2 -/
  unsup : Bool
  /-- bit 3 -/
  warnIdent : Bool
  /-- bit 4 -/
  noop : Bool
  /-- bit 8 -/
  ctValid : Bool
  /-- bit 9 -/
  crValid : Bool
  /-- bit 10 -/
  crLocked : Bool
  deriving DecidableEq, Repr

/-- The parameter registers of the CTU (10_state.md R28 to R31), each as wide as its fields. -/
structure CtParams where
  ics : BitVec 3
  ocs : BitVec 3
  icp : BitVec 4
  ocp : BitVec 4
  /-- `CT_CTRL.HIPREC` -/
  hiprec : BitVec 2
  /-- `CT_CTRL.TPREC` -/
  tprec : Bool
  /-- `CT_MIN` -/
  min : Word
  /-- `CT_MAX` -/
  max : Word
  deriving DecidableEq, Repr

/-- What `CT.SETUP` caches, "replaced as a whole by each completing CT.SETUP" (10_state.md R32,
R33, R34, R57): the fields of `CT_MODE`, `CT_T`, `CT_CBDIV`, `CT_CRDIV`. -/
structure CtObject where
  mode : BitVec 8
  isFwd : Bool
  clip : ClipPolicy
  /-- `CT_MODE.CLF`, constant-luminance forward -/
  clf : Bool
  /-- `CT_MODE.CLI`, constant-luminance inverse -/
  cli : Bool
  /-- `CT_MODE.TPACT` -/
  tpAct : Bool
  mat : Mat3
  cbDiv : DWord
  crDiv : DWord
  deriving DecidableEq, Repr

/-- The parameter registers of the CRU (10_state.md R36 to R38). -/
structure CrParams where
  locTop : BitVec 3
  locBot : BitVec 3
  dnSel : BitVec 4
  upSel : BitVec 4
  /-- `CR_FMIN` -/
  fmin : Word
  /-- `CR_FMAX` -/
  fmax : Word
  deriving DecidableEq, Repr

/-- The construction state of the CRU (10_state.md R39, R50, R58): the hidden latches `CR_LLOC`,
`CR_LDN`, `CR_LUP` and the size lock `CR_LOCKW`, `CR_LOCKH`. -/
structure CrObject where
  loc : BitVec 3
  dn : BitVec 4
  up : BitVec 4
  lockW : Word
  lockH : Word
  deriving DecidableEq, Repr

/-- One frame-descriptor slot (10_state.md R40 to R46). `fmt` keeps its register layout; its
reserved bits are 0. Plane 3 is storage only (R44). -/
structure FrameDesc where
  fmt : Word
  frameNo : Word
  width : Vector Word 4
  height : Vector Word 4
  compSize : Vector Word 4
  base : Vector Word 4
  minPel : Vector Word 4
  maxPel : Vector Word 4
  midPel : Vector Word 4
  deriving DecidableEq, Repr

/-- Sample memory (10_state.md R51): the written bytes, addresses strictly rising. A byte that
is not listed is unwritten and has no value (20_memory.md R72). -/
abbrev Memory := List Host.Cell

/-- How wide a host access is (30_encoding.md R107: `.B`, `.H`, `.W`). -/
inductive Width where
  | byte
  | half
  | word
  deriving DecidableEq, Repr

/-- What the host, or the platform for `reset`, can do to the engine (20_memory.md R70,
30_encoding.md R107, 70_reset_and_hazards.md R360). -/
inductive BusOp where
  /-- `WR`: a write of a register at a byte offset. A command is a write of `CMD`. -/
  | regWrite (w : Width) (off : Word) (v : Word)
  /-- `RD`: a read of a register at a byte offset. -/
  | regRead (w : Width) (off : Word)
  /-- `ST`: a host store to sample memory. -/
  | store (w : Width) (addr : Nat) (v : Word)
  /-- `LD`: a host load from sample memory. -/
  | load (w : Width) (addr : Nat)
  /-- The reset input. -/
  | reset
  deriving DecidableEq, Repr

/-- The state of the machine (10_state.md R20). The last four fields are the model's own. -/
structure State where
  /-- `STATUS`, R26 -/
  status : Status
  /-- `CAUSE[7:0]`, R27 -/
  cause : Byte
  ctPar : CtParams
  ctObj : CtObject
  /-- `MRES`, R35 -/
  mres : Mat3
  crPar : CrParams
  crObj : CrObject
  /-- `FD[0]` to `FD[3]`, R40 -/
  fd : Vector FrameDesc 4
  /-- sample memory, R51 -/
  mem : Memory
  /-- The read-only tables, R49: the argument of the model, changed by nothing (log 2). -/
  cfg : Tables
  /-- The bus operations the host has yet to perform, in its program order (log 1). -/
  pending : List BusOp
  /-- What the latest bus read returned (log 24). -/
  busData : Option Word
  /-- The counter free values are drawn with (log 5). -/
  draws : Nat
  deriving DecidableEq, Repr

/-- A host access to a place that does not exist. The engine itself never faults: "there are no
access faults" (60_exceptions.md R322). -/
inductive Fault where
  /-- A register access at an offset at or above 0x300 (10_state.md R56: "outside the block; the
  spec gives an access there no meaning"). Raised by a host register access. Safe. -/
  | outsideRegisterBlock
  /-- A host load or store that reaches past the top of sample memory (20_memory.md R70). Raised
  by a host load or store. Safe. -/
  | outsideSampleMemory
  deriving DecidableEq, Repr

/-- The situations the spec refuses: it "gives the situation no meaning; a model must not assign
one" (00_scope.md R12). All are safe: nothing can be proved of a run through one. -/
inductive Refusal where
  /-- An instruction without a meaning in this model. No arm of `exec` raises it. Safe. -/
  | notModelled (mnemonic : String)
  /-- X13: a register access that is not an aligned 32-bit word (10_state.md R22). Raised by a
  host register access. Safe. -/
  | registerAccess
  /-- X1: a command, or a host load, reads a byte that was never written (20_memory.md R72).
  Raised by `CT.PROC`, the conversion commands and host loads. Safe. -/
  | unwrittenByte
  /-- X2: a plane base that is not a multiple of the sample size (20_memory.md R74). Raised by
  `CT.PROC` and the conversion commands. Safe. -/
  | misalignedPlane
  /-- X3: a plane that passes the top of sample memory or overlaps the register window
  (20_memory.md R86, R88). Raised by `CT.PROC` and the conversion commands. Safe. -/
  | planeOutOfSpace
  /-- X4: output planes that overlap an input plane or each other, or `fdo = fdi`
  (20_memory.md R81). Raised by `CT.PROC` and the conversion commands. Safe. -/
  | overlap
  /-- X5: a descriptor that is not well formed in a field the command reads: a reserved `KIND`
  (10_state.md R41), counts (R43), clamp bounds (R46), `BITDEPTH` in a conversion (R41); R47
  refuses it. Raised by `CT.PROC` and the conversion commands. Safe. -/
  | illFormedDescriptor
  /-- X6, X9: input and output of different storage kinds (40_color_transform.md R145,
  41_filter_primitives.md R211). Raised by `CT.PROC` and the conversion commands. Safe. -/
  | kindMismatch
  /-- X7: float clip bounds that are not finite or not in order (10_state.md R31, R38). Raised by
  `CT.PROC` and the conversion commands. Safe. -/
  | clipBounds
  /-- X8: constant-luminance forward without `CLK` (40_color_transform.md R147). Raised by
  `CT.PROC`. Safe. -/
  | noClk
  /-- X9: odd or unequal plane-0 dimensions, or chroma planes of the wrong size
  (41_filter_primitives.md R211). Raised by the conversion commands. Safe. -/
  | geometry
  /-- X10: a frame of other dimensions than the locked ones (70_reset_and_hazards.md R372).
  Raised by the conversion commands. Safe. -/
  | sizeLock
  /-- X11: a fixed-path number outside int32 (41_filter_primitives.md R206). Raised by the
  conversion commands. Safe. -/
  | int32Overflow
  /-- X12: a supplied bank that breaks (W1) to (W4) (41_filter_primitives.md R192). Raised by the
  conversion commands. Safe. -/
  | badBank
  /-- U7: a NaN in the support of `MINMAX`, or a NaN distortion (41_filter_primitives.md R202,
  42_chroma_down.md R248). Raised by the conversion commands. Safe. -/
  | nanOrder
  deriving DecidableEq, Repr

/-- A step, and the meaning of an instruction, as the host reads it. -/
abbrev Outcome := Host.Outcome State Fault Refusal

/-- A slot with every register 0 (10_state.md R53). -/
def FrameDesc.zero : FrameDesc :=
  { fmt := 0, frameNo := 0
    width := #v[0, 0, 0, 0], height := #v[0, 0, 0, 0], compSize := #v[0, 0, 0, 0]
    base := #v[0, 0, 0, 0], minPel := #v[0, 0, 0, 0], maxPel := #v[0, 0, 0, 0]
    midPel := #v[0, 0, 0, 0] }

/-- Nine times +0.0. -/
def zeroMat : Mat3 := #v[0, 0, 0, 0, 0, 0, 0, 0, 0]

/-- The machine after reset at power-on: every register 0 (10_state.md R53), every byte of sample
memory unwritten (20_memory.md R72), no bus operation pending, the default tables (log 2). -/
def State.reset : State :=
  { status := ⟨false, false, false, false, false, false, false, false⟩
    cause := 0
    ctPar := ⟨0, 0, 0, 0, 0, false, 0, 0⟩
    ctObj := ⟨0, false, .none, false, false, false, zeroMat, 0, 0⟩
    mres := zeroMat
    crPar := ⟨0, 0, 0, 0, 0, 0⟩
    crObj := ⟨0, 0, 0, 0, 0⟩
    fd := #v[FrameDesc.zero, FrameDesc.zero, FrameDesc.zero, FrameDesc.zero]
    mem := []
    cfg := Tables.default
    pending := []
    busData := none
    draws := 0 }

end Sys2Proof.Machine
end

