-- ==== Sys2Proof/Machine/Flags.lean ====
section
/-!
DEFINITION. The flags: the words `STATUS` and `CT_MODE` as the host reads them, the W1C write of
`STATUS`, and the setting of each flag (spec/10_state.md R26, R32; 60_exceptions.md R334).
There are no condition codes (10_state.md R54).
-/

namespace Sys2Proof.Machine

open Sys2Proof

/-- `STATUS` as a read returns it: the flags at their bits, every other bit 0 (10_state.md R26). -/
def Status.word (f : Status) : Word :=
  BitVec.ofNat 32
    (f.fatal.toNat + 2 * f.cmdErr.toNat + 4 * f.unsup.toNat + 8 * f.warnIdent.toNat +
      16 * f.noop.toNat + 256 * f.ctValid.toNat + 512 * f.crValid.toNat +
      1024 * f.crLocked.toNat)

/-- The W1C write of `STATUS`: a 1 clears `CMDERR`, `UNSUP`, `WARN_IDENT`, `NOOP`; the other
flags are RO (10_state.md R22, R26). -/
def Status.clear (f : Status) (v : Word) : Status :=
  { f with
    cmdErr := f.cmdErr && !v.getLsbD 1
    unsup := f.unsup && !v.getLsbD 2
    warnIdent := f.warnIdent && !v.getLsbD 3
    noop := f.noop && !v.getLsbD 4 }

/-- The code of a clip policy (10_state.md R48). -/
def clipCode : ClipPolicy → Nat
  | .none => 0
  | .bounds => 1
  | .nonneg => 2

/-- `CT_MODE` as a read returns it (10_state.md R32). -/
def CtObject.modeWord (c : CtObject) : Word :=
  BitVec.ofNat 32
    (c.mode.toNat + 256 * c.isFwd.toNat + 512 * clipCode c.clip + 2048 * c.clf.toNat +
      4096 * c.cli.toNat + 8192 * c.tpAct.toNat)

/-- Set `STATUS.WARN_IDENT` when `warn` holds; it is never cleared by a command
(60_exceptions.md R334). -/
def Status.warn (f : Status) (warn : Bool) : Status := { f with warnIdent := f.warnIdent || warn }

/-- `STATUS.NOOP <- 1` (60_exceptions.md R334). -/
def Status.setNoop (f : Status) : Status := { f with noop := true }

/-- `STATUS.CT_VALID <- 1` (40_color_transform.md R138). -/
def Status.setCtValid (f : Status) : Status := { f with ctValid := true }

/-- `STATUS.CR_VALID <- 1; STATUS.CR_LOCKED <- 0` (41_filter_primitives.md R198). -/
def Status.setCrValid (f : Status) : Status := { f with crValid := true, crLocked := false }

/-- `STATUS.CR_LOCKED <- 1` (41_filter_primitives.md R212). -/
def Status.setCrLocked (f : Status) : Status := { f with crLocked := true }

end Sys2Proof.Machine
end

