-- ==== Sys2Proof/Machine/Ops.lean ====
section
/-!
DEFINITION. The shared operations: event entry and what ends an event's effect
(spec/60_exceptions.md R320 to R337, 10_state.md R53), sample memory (20_memory.md R71, R72), and
the frame every command has (60_exceptions.md R325 steps 1 to 3).
-/

namespace Sys2Proof.Machine

open Sys2Proof

/-! ## Events -/

/-- The events that end a command early, by the names of 60_exceptions.md R321. -/
inductive Event where
  | fKind
  | fDepth
  | fSize
  | eOpcode
  | eRsvd
  | eNotCfg
  | eBadLoc
  | eBadParam
  | uClInv
  deriving DecidableEq, Repr

/-- The three event classes (60_exceptions.md R320). -/
inductive EventClass where
  | fatal
  | cmdErr
  | unsup
  deriving DecidableEq, Repr

/-- The class of an event (60_exceptions.md R321). -/
def Event.cls : Event → EventClass
  | .fKind | .fDepth | .fSize => .fatal
  | .eOpcode | .eRsvd | .eNotCfg | .eBadLoc | .eBadParam => .cmdErr
  | .uClInv => .unsup

/-- The cause code of an event (60_exceptions.md R321). -/
def Event.code : Event → Byte
  | .fKind => 0x01
  | .fDepth => 0x02
  | .fSize => 0x03
  | .eOpcode => 0x10
  | .eRsvd => 0x11
  | .eNotCfg => 0x12
  | .eBadLoc => 0x13
  | .eBadParam => 0x14
  | .uClInv => 0x20

/-- The flag an event class sets (60_exceptions.md R327, R330, R333). -/
def Status.mark (f : Status) : EventClass → Status
  | .fatal => { f with fatal := true }
  | .cmdErr => { f with cmdErr := true }
  | .unsup => { f with unsup := true }

/-- TAKING AN EVENT: the class's flag is set, `CAUSE` takes the code, nothing else changes: "no
state is saved, there is no handler, no vector, no mode change" (60_exceptions.md R327, R330,
R333). There is no return (R337): the host clears a flag with `Status.clear`, and `State.restart`
leaves the fatal stop. -/
def State.raise (s : State) (e : Event) : State :=
  { s with status := s.status.mark e.cls, cause := e.code }

/-- The reset input: every register and latch takes its reset value, sample memory is kept
(10_state.md R53, 70_reset_and_hazards.md R360 to R362). The tables, the host's queue and the
model's own fields are no registers and stay (log 26). -/
def State.restart (s : State) : State :=
  { State.reset with
    mem := s.mem, cfg := s.cfg, pending := s.pending, busData := s.busData, draws := s.draws }

/-- The slot exists in this instance (10_state.md R40). -/
def State.hasSlot (s : State) (x : BitVec 4) : Bool := x.toNat < s.cfg.slots

/-- The operands are ones the encoding admits, and the slots they name exist (30_encoding.md R101,
R103; for an instance of fewer than four slots, log 18). -/
def State.admits (s : State) (i : Instr) : Bool := i.wellFormed && i.slots.all s.hasSlot

/-- The head of every command: an engine in the fatal stop ignores it (10_state.md R55), a word
with an operand that is not admitted is `E_RSVD` (30_encoding.md R104); then the command runs
(60_exceptions.md R325). -/
def command (i : Instr) (s : State) (run : Outcome) : Outcome :=
  if s.status.fatal then .next s
  else if s.admits i then run
  else .next (s.raise .eRsvd)

/-! ## Sample memory -/

/-- One byte of sample memory; `none` when it is unwritten (20_memory.md R72). -/
def Memory.read : Memory → Nat → Option Byte
  | [], _ => none
  | (b, v) :: m, a => if a = b then some v else Memory.read m a

/-- Write one byte, keeping the addresses strictly rising. -/
def Memory.write : Memory → Nat → Byte → Memory
  | [], a, x => [(a, x)]
  | (b, v) :: m, a, x =>
    if a < b then (a, x) :: (b, v) :: m
    else if a = b then (a, x) :: m
    else (b, v) :: Memory.write m a x

/-- The canonical form: addresses strictly rising and within the 2^`aw` bytes of sample memory, all
of which the model takes to exist (log 30). No entry can equal what an unlisted address reads as,
since that is no value. -/
def Memory.wf (aw : Nat) : Memory → Bool
  | [] => true
  | [(a, _)] => a < 2 ^ aw
  | (a, _) :: (b, v) :: m => a < b && Memory.wf aw ((b, v) :: m)

/-- `MemRead(a, n)`: n bytes, little-endian; `none` when one of them is unwritten
(00_scope.md R8, 20_memory.md R71, R72). -/
def Memory.readLE (m : Memory) (a : Nat) : Nat → Option Nat
  | 0 => some 0
  | n + 1 =>
    match Memory.read m a, Memory.readLE m (a + 1) n with
    | some b, some r => some (b.toNat + 256 * r)
    | _, _ => none

/-- `MemWrite(a, n, v)`: the low n bytes of v, little-endian (00_scope.md R8, 20_memory.md R71). -/
def Memory.writeLE (m : Memory) (a : Nat) : (n : Nat) → (v : Nat) → Memory
  | 0, _ => m
  | n + 1, v => Memory.writeLE (Memory.write m a (BitVec.ofNat 8 v)) (a + 1) n (v / 256)

/-- `MemRead` of `count` samples of `size` bytes from address `a` on (20_memory.md R75, R76). -/
def Memory.readSamples (m : Memory) (a size : Nat) : (count : Nat) → Option (List Nat)
  | 0 => some []
  | n + 1 =>
    match Memory.readLE m a size, Memory.readSamples m (a + size) size n with
    | some v, some vs => some (v :: vs)
    | _, _ => none

/-- `MemWrite` of samples of `size` bytes from address `a` on (20_memory.md R75, R77). -/
def Memory.writeSamples (m : Memory) (a size : Nat) : List Nat → Memory
  | [] => m
  | v :: vs => Memory.writeSamples (Memory.writeLE m a size v) (a + size) size vs

/-! ## Computations that may be refused -/

/-- `f` on every element, in order; the first refusal stops it. -/
def mapE {α β : Type} (f : α → Except Refusal β) : List α → Except Refusal (List β)
  | [] => .ok []
  | a :: as =>
    match f a with
    | .error r => .error r
    | .ok b =>
      match mapE f as with
      | .error r => .error r
      | .ok bs => .ok (b :: bs)

/-- The reason of the first duty that does not hold. -/
def firstProblem : List (Bool × Refusal) → Option Refusal
  | [] => none
  | (ok, r) :: ds => if ok then firstProblem ds else some r

end Sys2Proof.Machine
end

