-- ==== Sys2Proof/Machine/Operands.lean ====
section
/-!
DEFINITION. The operands of a command: slots and descriptors (spec/10_state.md R40 to R47), the host
duties on them, the samples of a plane (20_memory.md R73 to R81), and the writes a command
makes to its output frame.
-/

namespace Sys2Proof.Machine

open Sys2Proof

/-! ## Descriptor fields -/

/-- Storage kinds (10_state.md R41, R48). -/
inductive Kind where
  | u8
  | u16
  | f32
  | reserved
  deriving DecidableEq, Repr

/-- `size(KIND)` in bytes (20_memory.md R73). -/
def Kind.size : Kind → Nat
  | .u8 => 1
  | .u16 => 2
  | .f32 => 4
  | .reserved => 0

/-- `FMT.KIND`, bits 1:0. -/
def FrameDesc.kind (f : FrameDesc) : Kind :=
  match (f.fmt.extractLsb' 0 2).toNat with
  | 0 => .u8
  | 1 => .u16
  | 2 => .f32
  | _ => .reserved

/-- `FMT.BITDEPTH`, bits 7:2. -/
def FrameDesc.depth (f : FrameDesc) : Nat := (f.fmt.extractLsb' 2 6).toNat

/-- `FMT.AVAIL`, bit 31. -/
def FrameDesc.avail (f : FrameDesc) : Bool := f.fmt.getLsbD 31

/-- `isFloat(s)` (10_state.md R41). -/
def FrameDesc.isFloat (f : FrameDesc) : Bool := f.kind == .f32

/-- The defined bits of `FMT`: 1:0, 7:2, 9:8, 14:12, 19:16, 22:20 and 31 (10_state.md R41). -/
def fmtMask : Word := 0x807F73FF

def FrameDesc.w (f : FrameDesc) (p : Fin 4) : Nat := (f.width.get p).toNat
def FrameDesc.h (f : FrameDesc) (p : Fin 4) : Nat := (f.height.get p).toNat
def FrameDesc.count (f : FrameDesc) (p : Fin 4) : Nat := (f.compSize.get p).toNat
def FrameDesc.addr (f : FrameDesc) (p : Fin 4) : Nat := (f.base.get p).toNat
def FrameDesc.lo (f : FrameDesc) (p : Fin 4) : Nat := (f.minPel.get p).toNat
def FrameDesc.hi (f : FrameDesc) (p : Fin 4) : Nat := (f.maxPel.get p).toNat

/-- The bytes a plane occupies (20_memory.md R75). -/
def FrameDesc.bytes (f : FrameDesc) (p : Fin 4) : Nat := f.count p * f.kind.size

/-- The planes a command touches (10_state.md R44: never plane 3). -/
def planes : List (Fin 4) := [0, 1, 2]

/-- The slot a 4-bit field names; a well-formed command has a field below 4. -/
def slotIdx (x : BitVec 4) : Fin 4 := ⟨x.toNat % 4, Nat.mod_lt _ (by decide)⟩

def State.slot (s : State) (x : Fin 4) : FrameDesc := s.fd.get x

def State.setSlot (s : State) (x : Fin 4) (f : FrameDesc) : State :=
  { s with fd := s.fd.set x.val f x.isLt }

/-! ## Host duties -/

/-- `BITDEPTH` is 1 to 8 for U8 and 1 to 16 for U16 (10_state.md R41). -/
def FrameDesc.depthOk (f : FrameDesc) : Bool :=
  match f.kind with
  | .u8 => 1 ≤ f.depth && f.depth ≤ 8
  | .u16 => 1 ≤ f.depth && f.depth ≤ 16
  | .f32 => true
  | .reserved => false

/-- `COMPSIZE = WIDTH * HEIGHT <= MAXSAMPLES` for planes 0 to 2 (10_state.md R43). -/
def FrameDesc.countsOk (max : Nat) (f : FrameDesc) : Bool :=
  planes.all fun p => f.count p == f.w p * f.h p && f.count p ≤ max

/-- `MINPEL <= MAXPEL <= 2^BITDEPTH - 1` for integer frames, on the planes `ps` (10_state.md R46). -/
def FrameDesc.pelsOk (ps : List (Fin 4)) (f : FrameDesc) : Bool :=
  f.isFloat || ps.all fun p => f.lo p ≤ f.hi p && f.hi p ≤ 2 ^ f.depth - 1

/-- Plane bases are multiples of the sample size (10_state.md R45, 20_memory.md R74). -/
def FrameDesc.alignedOk (f : FrameDesc) : Bool :=
  planes.all fun p => f.addr p % f.kind.size == 0

/-- No sample of a plane lies past the top of sample memory, 2^`aw` bytes (20_memory.md R86). -/
def FrameDesc.inSpace (aw : Nat) (f : FrameDesc) : Bool :=
  planes.all fun p => f.bytes p == 0 || f.addr p + f.bytes p ≤ 2 ^ aw

/-- Two byte ranges, start and length, share no byte. -/
def disjoint (a la b lb : Nat) : Bool := la == 0 || lb == 0 || a + la ≤ b || b + lb ≤ a

/-- No plane overlaps the register window, where it stands in sample memory (20_memory.md R88). -/
def FrameDesc.clearOfRegs (regBase : Option Nat) (f : FrameDesc) : Bool :=
  match regBase with
  | none => true
  | some r => planes.all fun p => disjoint (f.addr p) (f.bytes p) r 0x300

/-- The duties that make a descriptor well formed, each with the refusal of a command that reads the
field that breaks it (10_state.md R47): `depth` tells whether the command reads `BITDEPTH`, `ps`
on which planes it reads `MINPEL` and `MAXPEL`. No command reads `FMT.CHROMA`, which "is not
consulted" (40_color_transform.md R141, 41_filter_primitives.md R211; log 9). -/
def FrameDesc.duties (depth : Bool) (ps : List (Fin 4)) (t : Tables) (f : FrameDesc) :
    List (Bool × Refusal) :=
  [(f.kind != .reserved, .illFormedDescriptor),
   (!depth || f.depthOk, .illFormedDescriptor),
   (f.countsOk t.maxSamples, .illFormedDescriptor),
   (f.pelsOk ps, .illFormedDescriptor),
   (f.alignedOk, .misalignedPlane),
   (f.inSpace t.aw, .planeOutOfSpace),
   (f.clearOfRegs t.regBase, .planeOutOfSpace)]

/-- The output planes are disjoint from the input planes and from each other, and the slots
differ (20_memory.md R81). -/
def planesDisjoint (s : State) (o i : Fin 4) : Bool :=
  let fo := s.slot o
  let fi := s.slot i
  o != i &&
  (planes.all fun p => planes.all fun q =>
    disjoint (fo.addr p) (fo.bytes p) (fi.addr q) (fi.bytes q)) &&
  (planes.all fun p => planes.all fun q =>
    p == q || disjoint (fo.addr p) (fo.bytes p) (fo.addr q) (fo.bytes q))

/-- The duties every command with an output and an input slot puts on the host: both descriptors
well formed, the same kind, disjoint planes (40_color_transform.md R140, R145;
41_filter_primitives.md R211). `depth`: the command reads `BITDEPTH`; `ps`: the planes it clamps
to the output's `MINPEL` and `MAXPEL`. -/
def frameDuties (depth : Bool) (ps : List (Fin 4)) (s : State) (o i : Fin 4) :
    List (Bool × Refusal) :=
  (s.slot i).duties depth [] s.cfg ++ (s.slot o).duties depth ps s.cfg ++
  [((s.slot i).kind == (s.slot o).kind, .kindMismatch), (planesDisjoint s o i, .overlap)]

/-! ## Samples -/

/-- The samples of a plane as stored words, index order; refused when a byte is unwritten
(20_memory.md R72, R75, R76). -/
def State.readPlane (s : State) (f : FrameDesc) (p : Fin 4) : Except Refusal (List Nat) :=
  match s.mem.readSamples (f.addr p) f.kind.size (f.count p) with
  | some ws => .ok ws
  | none => .error .unwrittenByte

/-- `Sd`: a stored word as a binary64 value, exact; integer samples are unsigned
(20_memory.md R73, R76). -/
def Kind.value (k : Kind) (w : Nat) : Fp :=
  match k with
  | .f32 => Fp.ofBits32 (BitVec.ofNat 32 w)
  | _ => Fp.ofNat w

/-- `bits32` of the binary32 values of a plane at address `a` on; a NaN takes the free pattern of
its address (20_memory.md R77; 93_implementation_defined.md U6). -/
def floatWords (draw a : Nat) : List Fp → List Nat
  | [] => []
  | v :: vs => (v.toBits32 (Config.freeNan draw a)).toNat :: floatWords draw (a + 4) vs

/-- `clampi(v, lo, hi)` (00_scope.md R9). -/
def clampi (v lo hi : Int) : Int := if v < lo then lo else if hi < v then hi else v

/-- A clamp of a binary64 value by IEEE comparisons, which a NaN passes
(40_color_transform.md R143, 41_filter_primitives.md R203, 42_chroma_down.md R237). -/
def clampf (v lo hi : Fp) : Fp := if v.lt lo then lo else if hi.lt v then hi else v

/-- Float clip bounds that a clip may use: finite and in order (10_state.md R31, R38). -/
def boundsOk (lo hi : Fp) : Bool := lo.isFinite && hi.isFinite && lo.le hi

/-- The output descriptor of a command that proceeds: `FRAMENO` copied, `AVAIL` set
(40_color_transform.md R149, 41_filter_primitives.md R212). -/
def FrameDesc.stamp (fo fi : FrameDesc) : FrameDesc :=
  { fo with frameNo := fi.frameNo, fmt := fo.fmt ||| 0x80000000 }

/-- Memory after planes 0, 1, 2 of a frame are written. -/
def Memory.writePlanes (m : Memory) (f : FrameDesc) (p0 p1 p2 : List Nat) : Memory :=
  let z := f.kind.size
  ((m.writeSamples (f.addr 0) z p0).writeSamples (f.addr 1) z p1).writeSamples (f.addr 2) z p2

/-- The effects of a completing frame command on the output frame: the stamp and the samples of
planes 0, 1, 2, nothing else (10_state.md R40, R44). Each such command draws its own free values. -/
def State.commit (s : State) (o i : Fin 4) (p0 p1 p2 : List Nat) : State :=
  { s.setSlot o ((s.slot o).stamp (s.slot i)) with
    mem := s.mem.writePlanes (s.slot o) p0 p1 p2
    draws := s.draws + 1 }

end Sys2Proof.Machine
end

