-- ==== Sys2Proof/Machine/Filter.lean ====
section
/-!
DEFINITION. The 1-D primitives of the chroma-resampling unit (spec/41_filter_primitives.md R191 to
R208, 42_chroma_down.md R237, R241, R246 to R248): supports, sums, bounds, selection, and the
well-formedness of a filter bank.
-/

namespace Sys2Proof.Machine

open Sys2Proof

/-! ## Supports -/

/-- "tap count" (41_filter_primitives.md R191). -/
def taps (F : ScaleFilter) : Nat := F.fcoef.length

/-- `cl(n, t)`: the index of the tap at `t`, or of the nearest end sample
(41_filter_primitives.md R193). -/
def clampIdx (n : Nat) (t : Int) : Nat := if t < 0 then 0 else min t.toNat (n - 1)

/-- `sup(F, n, c)` (41_filter_primitives.md R194). -/
def support (F : ScaleFilter) (n c : Nat) : List Nat :=
  (List.range (taps F)).map fun k => clampIdx n ((c : Int) + k - F.posOffset)

/-- The samples at the support of F on the line x at centre c. -/
def tapValues {α : Type} [Inhabited α] (F : ScaleFilter) (x : List α) (c : Nat) : List α :=
  (support F x.length c).map fun t => x.getD t default

/-- The taps `tr <= k < taps - tr` of a support, `tr = min(trim, (taps - 1) / 2)`
(41_filter_primitives.md R202). -/
def trimmed {α : Type} (F : ScaleFilter) (trim : Nat) (vs : List α) : List α :=
  let tr := min trim ((taps F - 1) / 2)
  (vs.drop tr).take (taps F - 2 * tr)

/-! ## Float path -/

/-- The accumulation of `FSUM`, tap by tap (41_filter_primitives.md R200). -/
def fsumFrom (acc : Fp) : List (Word × Fp) → Fp
  | [] => acc
  | (k, v) :: rest => fsumFrom (acc.add ((Fp.ofBits32 k).mul v)) rest

/-- `FSUM(F, x, c)` (41_filter_primitives.md R200). -/
def fsum (F : ScaleFilter) (x : List Fp) (c : Nat) : Fp :=
  (fsumFrom Fp.zero (F.fcoef.zip (tapValues F x c))).mul (.ofBits32 F.fscale)

/-- The extremum of two numbers among a support `vs`. Two zeros of different sign compare equal,
so which of them is the extremum is free (log 7). -/
def extremum (isMax : Bool) (vs : List Fp) (a b : Fp) : Fp :=
  if a.lt b then (if isMax then b else a)
  else if b.lt a then (if isMax then a else b)
  else if a = b then a
  else .fin (Config.zeroTie vs isMax) 0

/-- The smallest and largest of the numbers of a trimmed support; a NaN among them is refused
(41_filter_primitives.md R202, 93_implementation_defined.md U7). -/
def extremaF (vs : List Fp) : Except Refusal (Fp × Fp) :=
  if vs.any Fp.isNan then .error .nanOrder
  else
    match vs with
    | [] => .error .nanOrder
    | v :: rest => .ok (rest.foldl (extremum false vs) v, rest.foldl (extremum true vs) v)

/-- `MINMAX(F, x, c, trim)` on a float line (41_filter_primitives.md R202). -/
def minmaxF (F : ScaleFilter) (x : List Fp) (c trim : Nat) : Except Refusal (Fp × Fp) :=
  extremaF (trimmed F trim (tapValues F x c))

/-- What the conversion commands read of registers and tables: the bounding window, the float
clip bounds, the thresholds. -/
structure CrEnv where
  /-- the trim of the bounding level, or none at level 0 (42_chroma_down.md R237) -/
  trim : Option Nat
  fmin : Fp
  fmax : Fp
  /-- `EDGE_THR` -/
  thrF : Fp
  /-- `EDGE_THR_INT(BITDEPTH)` -/
  thrI : Nat
  deriving Repr

/-- `bound` in the float path (42_chroma_down.md R237). -/
def boundF (e : CrEnv) (F : ScaleFilter) (x : List Fp) (c : Nat) (v : Fp) : Except Refusal Fp :=
  match e.trim with
  | none => .ok v
  | some t =>
    match minmaxF F x c t with
    | .error r => .error r
    | .ok (mn, mx) => .ok (clampf v mn mx)

/-- First-pass float output (41_filter_primitives.md R201). -/
def firstF (e : CrEnv) (F : ScaleFilter) (x : List Fp) (c : Nat) : Except Refusal Fp :=
  match boundF e F x c (fsum F x c) with
  | .error r => .error r
  | .ok v => .ok v.toF32

/-- The clip of the final pass, against `CR_FMIN`, `CR_FMAX` when the filter clips
(41_filter_primitives.md R203, 10_state.md R38). -/
def clipF (e : CrEnv) (F : ScaleFilter) (v : Fp) : Except Refusal Fp :=
  if F.clip then
    if boundsOk e.fmin e.fmax then .ok (clampf v e.fmin e.fmax) else .error .clipBounds
  else .ok v

/-- Final-pass float output (41_filter_primitives.md R203). -/
def finalF (e : CrEnv) (F : ScaleFilter) (x : List Fp) (c : Nat) : Except Refusal Fp :=
  match boundF e F x c (fsum F x c) with
  | .error r => .error r
  | .ok v =>
    match clipF e F v with
    | .error r => .error r
    | .ok u => .ok u.toF32

/-! ## Fixed-point path -/

/-- A number that fits int32 (41_filter_primitives.md R206). -/
def int32? (v : Int) : Except Refusal Int :=
  if -(2 ^ 31) ≤ v ∧ v < 2 ^ 31 then .ok v else .error .int32Overflow

/-- The exact sum of products, every product and partial sum within int32
(41_filter_primitives.md R204, R206). -/
def isumFrom (acc : Int) : List (Word × Int) → Except Refusal Int
  | [] => .ok acc
  | (k, v) :: rest =>
    match int32? (k.toInt * v), int32? (acc + k.toInt * v) with
    | .ok _, .ok acc' => isumFrom acc' rest
    | _, _ => .error .int32Overflow

/-- `ISUM(F, x, c)` (41_filter_primitives.md R204). -/
def isum (F : ScaleFilter) (x : List Int) (c : Nat) : Except Refusal Int :=
  isumFrom 0 (F.icoef.zip (tapValues F x c))

/-- The gain of a filter, `sum icoef` (41_filter_primitives.md R192). -/
def gain (F : ScaleFilter) : Int := (F.icoef.map BitVec.toInt).sum

/-- `MINMAX(F, x, c, trim)` on an integer line (41_filter_primitives.md R202). -/
def minmaxI (F : ScaleFilter) (x : List Int) (c trim : Nat) : Int × Int :=
  match trimmed F trim (tapValues F x c) with
  | [] => (0, 0)
  | v :: rest => (rest.foldl min v, rest.foldl max v)

/-- `bound` in the fixed path, on the raw sum and before offset and shift (42_chroma_down.md R237;
41_filter_primitives.md R204, R205). -/
def boundI (e : CrEnv) (F : ScaleFilter) (x : List Int) (c : Nat) (v : Int) :
    Except Refusal Int :=
  match e.trim with
  | none => .ok v
  | some t =>
    let (mn, mx) := minmaxI F x c t
    match int32? (mn * gain F), int32? (mx * gain F) with
    | .ok a, .ok b => .ok (clampi v a b)
    | _, _ => .error .int32Overflow

/-- First-pass fixed output: the raw sum (41_filter_primitives.md R204). -/
def firstI (e : CrEnv) (F : ScaleFilter) (x : List Int) (c : Nat) : Except Refusal Int :=
  match isum F x c with
  | .error r => .error r
  | .ok v => boundI e F x c v

/-- `asr(v, n)` (00_scope.md R9). -/
def asr (v : Int) (n : Nat) : Int := v / 2 ^ n

/-- Final-pass fixed output: bound, offset, arithmetic shift, unconditional clamp
(41_filter_primitives.md R205). `ISUM + ioffset` must be int32 (R206), and so must the number R205
shifts, `bound(ISUM) + ioffset`, which is another one at bounding levels 1 to 3 only (log 12). -/
def finalI (e : CrEnv) (lo hi : Int) (F : ScaleFilter) (x : List Int) (c : Nat) :
    Except Refusal Int :=
  match isum F x c with
  | .error r => .error r
  | .ok v =>
    match int32? (v + F.ioffset.toInt), boundI e F x c v with
    | .ok _, .ok S =>
      match int32? (S + F.ioffset.toInt) with
      | .error r => .error r
      | .ok t => .ok (clampi (asr t F.ishift) lo hi)
    | _, _ => .error .int32Overflow

/-! ## Selection -/

/-- `SELECT` over a test that rejects a candidate; the last candidate is taken without a test
(42_chroma_down.md R241). -/
def select (rejects : ScaleFilter → Except Refusal Bool) : List ScaleFilter → Except Refusal Nat
  | [] => .ok 0
  | [_] => .ok 0
  | F :: G :: rest =>
    match rejects F with
    | .error r => .error r
    | .ok false => .ok 0
    | .ok true =>
      match select rejects (G :: rest) with
      | .error r => .error r
      | .ok q => .ok (q + 1)

/-- The float test: the spread of the support exceeds the threshold (41_filter_primitives.md R208,
42_chroma_down.md R241). -/
def rejectsF (thr : Fp) (x : List Fp) (c : Nat) (F : ScaleFilter) : Except Refusal Bool :=
  match minmaxF F x c 0 with
  | .error r => .error r
  | .ok (mn, mx) => .ok (thr.lt (mx.sub mn))

/-- The fixed test (41_filter_primitives.md R208, 42_chroma_down.md R241). -/
def rejectsI (thr : Int) (x : List Int) (c : Nat) (F : ScaleFilter) : Except Refusal Bool :=
  let (mn, mx) := minmaxI F x c 0
  .ok (thr < mx - mn)

/-- The output of the selected candidate. -/
def selected {α : Type} (rejects : List α → Nat → ScaleFilter → Except Refusal Bool)
    (out : ScaleFilter → List α → Nat → Except Refusal α) (L : List ScaleFilter)
    (x : List α) (c : Nat) : Except Refusal α :=
  match select (rejects x c) L with
  | .error r => .error r
  | .ok q => out (L.getD q filterF0) x c

/-! ## Lines and the two passes -/

/-- Down-sampling of a line: output i has centre 2i (41_filter_primitives.md R194). -/
def downLine {α : Type} (out : List α → Nat → Except Refusal α) (x : List α) :
    Except Refusal (List α) :=
  mapE (fun i => out x (2 * i)) (List.range (x.length / 2))

/-- Up-sampling of a line: output 2i + ph has centre i and phase ph (41_filter_primitives.md R194). -/
def upLine {α : Type} (out : Nat → List α → Nat → Except Refusal α) (x : List α) :
    Except Refusal (List α) :=
  mapE (fun t => out (t % 2) x (t / 2)) (List.range (2 * x.length))

/-- The first `n` columns of a list of rows. -/
def columns {α : Type} [Inhabited α] (n : Nat) (rows : List (List α)) : List (List α) :=
  (List.range n).map fun i => rows.map fun r => r.getD i default

/-- The rows of a plane of width `w` and height `h` (20_memory.md R75). -/
def rowsOf {α : Type} (w h : Nat) (xs : List α) : List (List α) :=
  (List.range h).map fun y => (xs.drop (y * w)).take w

/-- The two line functions of a conversion. -/
structure Passes (α : Type) where
  first : List α → Except Refusal (List α)
  final : List α → Except Refusal (List α)

/-- Horizontal pass into a scratch plane of `wOut` columns, then vertical pass; the output plane
row by row (41_filter_primitives.md R207, 42_chroma_down.md R232). -/
def horizontalThenVertical {α : Type} [Inhabited α] (p : Passes α) (wOut hOut : Nat)
    (rows : List (List α)) : Except Refusal (List α) :=
  match mapE p.first rows with
  | .error r => .error r
  | .ok scratch =>
    match mapE p.final (columns wOut scratch) with
    | .error r => .error r
    | .ok cols => .ok (columns hOut cols).flatten

/-- Vertical pass into a scratch plane of `hOut` rows, then horizontal pass
(41_filter_primitives.md R207, 43_chroma_up.md R271). -/
def verticalThenHorizontal {α : Type} [Inhabited α] (p : Passes α) (wIn hOut : Nat)
    (rows : List (List α)) : Except Refusal (List α) :=
  match mapE p.first (columns wIn rows) with
  | .error r => .error r
  | .ok cols =>
    match mapE p.final (columns hOut cols) with
    | .error r => .error r
    | .ok out => .ok out.flatten

/-! ## Well-formed banks -/

/-- The exponent of a positive power of two. -/
def log2? (v : Int) : Option Nat :=
  let n := v.toNat
  if 0 < v ∧ 2 ^ Nat.log2 n = n then some (Nat.log2 n) else none

/-- (W1), (W4) and the field ranges of R191 (41_filter_primitives.md R191, R192). -/
def filterOk (F : ScaleFilter) : Bool :=
  let vs := F.fcoef.map Fp.ofBits32
  let mags := vs.map Fp.mag
  let ints := vs.map Fp.int
  1 ≤ taps F && F.icoef.length == taps F && F.ishift ≤ 30 &&
  (0 ≤ F.posOffset && F.posOffset < (taps F : Int)) &&
  vs.all Fp.isFinite && mags.all (fun m => m % Fp.one == 0) &&
  mags.sum < 2 ^ 20 * Fp.one &&
  (match log2? ints.sum with
   | some n => Fp.ofBits32 F.fscale == .fin false (Fp.one / 2 ^ n)
   | none => false)

/-- The offset a shift rounds with (41_filter_primitives.md R192 (W3)). -/
def halfOf (shift : Nat) : Int := if shift = 0 then 0 else 2 ^ (shift - 1)

/-- The `s1` a chain carries into its final pass: that of its first filter or, without a first pass,
the one the first final filter's shift supposes (41_filter_primitives.md R192, log 17). -/
def chainGain : (first final : List ScaleFilter) → Option Nat
  | A :: _, _ => log2? (gain A)
  | [], B :: _ =>
    match log2? (gain B) with
    | none => none
    | some s2 => if s2 ≤ B.ishift then some (B.ishift - s2) else none
  | [], [] => some 0

/-- (W3): a final filter undoes the gain `2^s1` of the line and its own gain `2^s2`
(41_filter_primitives.md R192). -/
def finalOk (s1 : Nat) (F : ScaleFilter) : Bool :=
  match log2? (gain F) with
  | none => false
  | some s2 => F.ishift == s1 + s2 && F.ioffset.toInt == halfOf (s1 + s2)

/-- (W2) and (W3): all first-pass filters share one gain, and every final filter undoes it and its
own; a final pass without a first pass is held to (W3) for one `s1` too
(41_filter_primitives.md R192, 43_chroma_up.md R271). -/
def chainOk (first final : List ScaleFilter) : Bool :=
  match chainGain first final with
  | none => false
  | some s1 => first.all (fun F => gain F == 2 ^ s1) && final.all (finalOk s1)

/-- An Adaptive member is self-contained: its own shift undoes its own gain (42_chroma_down.md
R246). -/
def selfContained (F : ScaleFilter) : Bool := gain F == 2 ^ F.ishift

/-- The filters of an optional phase pair. -/
def pairList : Option (ScaleFilter × ScaleFilter) → List ScaleFilter
  | none => []
  | some (a, b) => [a, b]

/-- A bank that meets (W1) to (W4) (41_filter_primitives.md R192, R197). -/
def bankOk (b : FilterBank) : Bool :=
  (b.gdh.toList ++ b.gdv.toList ++ pairList b.guh ++ pairList b.guv ++ b.bdh ++ b.bdv ++
    b.buh.1 ++ b.buh.2 ++ b.buv.1 ++ b.buv.2 ++ b.adh ++ b.adv ++ pairList b.auh ++
    pairList b.auv).all filterOk &&
  chainOk b.gdh.toList b.gdv.toList &&
  chainOk (pairList b.guv) (pairList b.guh) &&
  chainOk b.bdh b.bdv &&
  chainOk (b.buv.1 ++ b.buv.2) (b.buh.1 ++ b.buh.2) &&
  (b.adh ++ b.adv ++ pairList b.auh ++ pairList b.auv).all selfContained

end Sys2Proof.Machine
end

