-- ==== Sys2Proof/Machine/Resample.lean ====
section
/-!
DEFINITION. The chroma-resampling unit: `CR.SETUP`, the common preamble of the conversion commands
and the effects they share (spec/41_filter_primitives.md R198, R210 to R212;
70_reset_and_hazards.md R372).
-/

namespace Sys2Proof.Machine

open Sys2Proof

/-! ## CR.SETUP -/

/-- The bank the CRU holds: `FBANK(CR_LLOC, CR_LDN, CR_LUP)` (10_state.md R50). -/
def State.crBank (s : State) : Option FilterBank := s.cfg.bank s.crObj.loc s.crObj.dn s.crObj.up

/-- The effects of a completing `CR.SETUP`: the latches, `CR_VALID`, and a fresh size lock
(41_filter_primitives.md R198, 10_state.md R58). -/
def crLatch (s : State) : State :=
  { s with
    status := s.status.setCrValid
    crObj := ⟨s.crPar.locTop, s.crPar.dnSel, s.crPar.upSel, 0, 0⟩ }

/-- `CR.SETUP` (41_filter_primitives.md R198). -/
def execCrSetup (s : State) : Outcome :=
  command .crSetup s <|
    if s.crPar.locTop ≠ s.crPar.locBot ∨ 5 < s.crPar.locTop.toNat then .next (s.raise .eBadLoc)
    else
      match s.cfg.bank s.crPar.locTop s.crPar.dnSel s.crPar.upSel with
      | none => .next (s.raise .eBadParam)
      | some _ => .next (crLatch s)

/-! ## The preamble -/

/-- The three fatal preconditions, in the order D0 lists them (41_filter_primitives.md R210). They
read only `KIND`, `BITDEPTH` and `COMPSIZE[0]`. -/
def fatalCheck (fo fi : FrameDesc) : Option Event :=
  if fi.isFloat != fo.isFloat then some .fKind
  else if !fi.isFloat && fi.depth != fo.depth then some .fDepth
  else if fi.count 0 != fo.count 0 then some .fSize
  else none

/-- Planes 1 and 2 of the frame are `w` by `h`. -/
def chromaSize (f : FrameDesc) (w h : Nat) : Bool := [1, 2].all fun p => f.w p == w && f.h p == h

/-- Equal, even plane-0 dimensions; full-size chroma on the 4:4:4 side, half-size on the 4:2:0
side, which is the input of an up-conversion (41_filter_primitives.md R211). -/
def geometryOk (up : Bool) (fo fi : FrameDesc) : Bool :=
  let w := fi.w 0
  let h := fi.h 0
  fo.w 0 == w && fo.h 0 == h && w % 2 == 0 && h % 2 == 0 &&
  (if up then chromaSize fi (w / 2) (h / 2) && chromaSize fo w h
   else chromaSize fi w h && chromaSize fo (w / 2) (h / 2))

/-- The size lock: a locked CRU takes frames of the locked dimensions only
(70_reset_and_hazards.md R372). -/
def lockOk (s : State) (fi : FrameDesc) : Bool :=
  !s.status.crLocked || (fi.width.get 0 == s.crObj.lockW && fi.height.get 0 == s.crObj.lockH)

/-- The host duties of a conversion command, which clamps planes 1 and 2 and copies plane 0
(41_filter_primitives.md R211, R212, R192; 70_reset_and_hazards.md R372). Frames without samples
pass; the slots of reset do not, because `BITDEPTH` 0 is outside the container (DEDUCED, log
33). -/
def crDuties (up : Bool) (s : State) (o i : Fin 4) : List (Bool × Refusal) :=
  frameDuties true [1, 2] s o i ++
  [(geometryOk up (s.slot o) (s.slot i), .geometry),
   (lockOk s (s.slot i), .sizeLock),
   ((match s.crBank with
     | none => true
     | some b => bankOk b), .badBank)]

/-- The first conversion after `CR.SETUP` locks the frame size (41_filter_primitives.md R212 (1),
10_state.md R39). -/
def lockSize (s : State) (i : Fin 4) : State :=
  if s.status.crLocked then s
  else
    { s with
      status := s.status.setCrLocked
      crObj := { s.crObj with
        lockW := (s.slot i).width.get 0
        lockH := (s.slot i).height.get 0 } }

/-! ## Conversion -/

/-- How a command filters, in the float and in the fixed path (42_chroma_down.md R232: "distinct
typed code paths"); the fixed path clamps to the bounds of the output plane. -/
structure Plan where
  float : CrEnv → Passes Fp
  fixed : CrEnv → (lo hi : Int) → Passes Int

/-- What a conversion at bounding level `lvl` reads of registers and tables. -/
def crEnv (s : State) (fi : FrameDesc) (lvl : Nat) : CrEnv :=
  { trim := if lvl = 0 then none else some (s.cfg.trim lvl)
    fmin := .ofBits32 s.crPar.fmin
    fmax := .ofBits32 s.crPar.fmax
    thrF := .ofBits64 s.cfg.edgeThr
    thrI := s.cfg.edgeInt fi.depth }

/-- The two passes in the order of the direction, on a plane given by rows, in a frame of plane-0
size `w` by `h` (41_filter_primitives.md R207; 42_chroma_down.md R230; 43_chroma_up.md R270). -/
def runPasses {α : Type} [Inhabited α] (up : Bool) (p : Passes α) (w h : Nat)
    (rows : List (List α)) : Except Refusal (List α) :=
  if up then verticalThenHorizontal p (w / 2) h rows
  else horizontalThenVertical p (w / 2) (h / 2) rows

/-- The stored words of chroma plane p of the output, from the stored words of the input plane
(42_chroma_down.md R232, 43_chroma_up.md R271). -/
def crPlane (up : Bool) (plan : Plan) (lvl : Nat) (s : State) (fo fi : FrameDesc) (p : Fin 4)
    (ws : List Nat) : Except Refusal (List Nat) :=
  let e := crEnv s fi lvl
  if fi.isFloat then
    match runPasses up (plan.float e) (fi.w 0) (fi.h 0)
        (rowsOf (fi.w p) (fi.h p) (ws.map fi.kind.value)) with
    | .error r => .error r
    | .ok vs => .ok (floatWords s.draws (fo.addr p) vs)
  else
    match runPasses up (plan.fixed e (fo.lo p) (fo.hi p)) (fi.w 0) (fi.h 0)
        (rowsOf (fi.w p) (fi.h p) (ws.map Int.ofNat)) with
    | .error r => .error r
    | .ok vs => .ok (vs.map Int.toNat)

/-- A conversion past its checks: lock, stamp, luma copied bit for bit, both chroma planes
converted (41_filter_primitives.md R212). All three input planes are read whole: R374 says so of
plane 0, and of the chroma planes it is the model's reading of the lines that 42_chroma_down.md
R232 and 43_chroma_up.md R271 bind (DEDUCED; log 32). -/
def crTransform (up : Bool) (plan : Plan) (lvl : Nat) (s : State) (o i : Fin 4) : Outcome :=
  let fo := s.slot o
  let fi := s.slot i
  match s.readPlane fi 0, s.readPlane fi 1, s.readPlane fi 2 with
  | .ok w0, .ok w1, .ok w2 =>
    match crPlane up plan lvl s fo fi 1 w1, crPlane up plan lvl s fo fi 2 w2 with
    | .ok u, .ok v => .next ((lockSize s i).commit o i w0 u v)
    | .error r, _ => .refused r
    | _, .error r => .refused r
  | _, _, _ => .refused .unwrittenByte

/-- A conversion command on slots o and i, in the order of 60_exceptions.md R325: setup, fatal
checks, host duties, missing bank members, effects. `plan` is `none` where the bank lacks a
member the command needs (41_filter_primitives.md R198, R210 to R212). -/
def crConvert (up : Bool) (plan : FilterBank → Option Plan) (lvl : Nat) (s : State)
    (o i : Fin 4) : Outcome :=
  if !s.status.crValid then .next (s.raise .eNotCfg)
  else
    match fatalCheck (s.slot o) (s.slot i) with
    | some e => .next (s.raise e)
    | none =>
      match firstProblem (crDuties up s o i) with
      | some r => .refused r
      | none =>
        match s.crBank.bind plan with
        | none => .next (s.raise .eBadParam)
        | some p => crTransform up p lvl s o i

end Sys2Proof.Machine
end

