-- ==== Sys2Proof/Machine/ChromaDown.lean ====
section
/-!
DEFINITION. The 4:4:4 to 4:2:0 converters (spec/42_chroma_down.md): `CR.DN.GEN`, `CR.DN.BND`,
`CR.DN.ADP`.
-/

namespace Sys2Proof.Machine

open Sys2Proof

/-! ## CR.DN.GEN -/

/-- One filter for each pass (42_chroma_down.md R236). -/
def dnGenPlan (b : FilterBank) : Option Plan :=
  match b.gdh, b.gdv with
  | some H, some V =>
    some
      { float := fun e => ⟨downLine (firstF e H), downLine (finalF e V)⟩
        fixed := fun e lo hi => ⟨downLine (firstI e H), downLine (finalI e lo hi V)⟩ }
  | _, _ => none

/-- `CR.DN.GEN fdo, fdi, lvl` (42_chroma_down.md R236). -/
def execCrDnGen (fdo fdi : BitVec 4) (lvl : BitVec 8) (s : State) : Outcome :=
  command (.crDnGen fdo fdi lvl) s
    (crConvert false dnGenPlan lvl.toNat s (slotIdx fdo) (slotIdx fdi))

/-! ## CR.DN.BND -/

/-- The gain `G1` that the candidates of a first-pass list share (41_filter_primitives.md R192). -/
def listGain (L : List ScaleFilter) : Int := gain (L.getD 0 filterF0)

/-- The second-pass test in the fixed path: the line carries the gain `G1`, so the threshold does
too (41_filter_primitives.md R206, R208). -/
def rejectsScaled (e : CrEnv) (g1 : Int) (x : List Int) (c : Nat) (F : ScaleFilter) :
    Except Refusal Bool :=
  match int32? (e.thrI * g1) with
  | .error r => .error r
  | .ok t => rejectsI t x c F

/-- A candidate list for each pass, selection per output sample (42_chroma_down.md R240). -/
def dnBndPlan (b : FilterBank) : Option Plan :=
  if b.bdh.isEmpty || b.bdv.isEmpty then none
  else
    some
      { float := fun e =>
          ⟨downLine (selected (rejectsF e.thrF) (firstF e) b.bdh),
           downLine (selected (rejectsF e.thrF) (finalF e) b.bdv)⟩
        fixed := fun e lo hi =>
          ⟨downLine (selected (rejectsI e.thrI) (firstI e) b.bdh),
           downLine (selected (rejectsScaled e (listGain b.bdh)) (finalI e lo hi) b.bdv)⟩ }

/-- `CR.DN.BND fdo, fdi` (42_chroma_down.md R240). -/
def execCrDnBnd (fdo fdi : BitVec 4) (s : State) : Outcome :=
  command (.crDnBnd fdo fdi) s
    (crConvert false dnBndPlan 0 s (slotIdx fdo) (slotIdx fdi))

/-! ## CR.DN.ADP -/

/-- The distortion of a float line, from +0.0 in index order (42_chroma_down.md R247). -/
def distFrom (acc : Fp) : List (Fp × Fp) → Fp
  | [] => acc
  | (u, x) :: rest => distFrom (acc.add ((u.sub x).mul (u.sub x))) rest

/-- The distortion of an integer line (42_chroma_down.md R247). -/
def distInt (ps : List (Int × Int)) : Int := (ps.map fun (u, x) => (u - x) * (u - x)).sum

/-- One candidate: its down-sampled line and the line reconstructed from it (42_chroma_down.md R246,
R247). -/
def roundTrip {α : Type} (smp : ScaleFilter → List α → Nat → Except Refusal α)
    (U : ScaleFilter × ScaleFilter) (x : List α) (F : ScaleFilter) :
    Except Refusal (List α × List α) :=
  match downLine (smp F) x with
  | .error r => .error r
  | .ok d =>
    match upLine (fun ph => smp (if ph = 0 then U.1 else U.2)) d with
    | .error r => .error r
    | .ok u => .ok (d, u)

/-- `BEST`: the first index whose distortion is at most every other (42_chroma_down.md R248). -/
def best {δ : Type} (le : δ → δ → Bool) (ds : List δ) : Nat := ds.findIdx fun d => ds.all (le d)

/-- A line of a pass of the Adaptive converter on integers (42_chroma_down.md R245, R248). -/
def adaptI (e : CrEnv) (lo hi : Int) (L : List ScaleFilter) (U : ScaleFilter × ScaleFilter)
    (x : List Int) : Except Refusal (List Int) :=
  match mapE (roundTrip (finalI e lo hi) U x) L with
  | .error r => .error r
  | .ok cs =>
    .ok ((cs.getD (best (· ≤ ·) (cs.map fun c => distInt (c.2.zip x))) ([], [])).1)

/-- A line of a pass of the Adaptive converter on binary32 values; a NaN distortion is refused
(42_chroma_down.md R245, R248; 93_implementation_defined.md U7). -/
def adaptF (e : CrEnv) (L : List ScaleFilter) (U : ScaleFilter × ScaleFilter) (x : List Fp) :
    Except Refusal (List Fp) :=
  match mapE (roundTrip (finalF e) U x) L with
  | .error r => .error r
  | .ok cs =>
    let ds := cs.map fun c => distFrom Fp.zero (c.2.zip x)
    if ds.any Fp.isNan then .error .nanOrder
    else .ok ((cs.getD (best Fp.le ds) ([], [])).1)

/-- Five candidates for each pass and the pair that reconstructs, chosen per line
(42_chroma_down.md R245). -/
def dnAdpPlan (b : FilterBank) : Option Plan :=
  match b.auh, b.auv with
  | some UH, some UV =>
    if b.adh.length = 5 ∧ b.adv.length = 5 then
      some
        { float := fun e => ⟨adaptF e b.adh UH, adaptF e b.adv UV⟩
          fixed := fun e lo hi => ⟨adaptI e lo hi b.adh UH, adaptI e lo hi b.adv UV⟩ }
    else none
  | _, _ => none

/-- `CR.DN.ADP fdo, fdi` (42_chroma_down.md R245). -/
def execCrDnAdp (fdo fdi : BitVec 4) (s : State) : Outcome :=
  command (.crDnAdp fdo fdi) s
    (crConvert false dnAdpPlan 0 s (slotIdx fdo) (slotIdx fdi))

end Sys2Proof.Machine
end

