-- ==== Sys2Proof/Machine/ChromaUp.lean ====
section
/-!
DEFINITION. The 4:2:0 to 4:4:4 converters (spec/43_chroma_up.md): `CR.UP.GEN`, `CR.UP.BND`.
-/

namespace Sys2Proof.Machine

open Sys2Proof

/-- The member of a phase pair (41_filter_primitives.md R197). -/
def ofPhase {α : Type} (p : α × α) (ph : Nat) : α := if ph = 0 then p.1 else p.2

/-- One filter for each pass and phase (43_chroma_up.md R273). -/
def upGenPlan (b : FilterBank) : Option Plan :=
  match b.guh, b.guv with
  | some H, some V =>
    some
      { float := fun e =>
          ⟨upLine fun ph => firstF e (ofPhase V ph), upLine fun ph => finalF e (ofPhase H ph)⟩
        fixed := fun e lo hi =>
          ⟨upLine fun ph => firstI e (ofPhase V ph),
           upLine fun ph => finalI e lo hi (ofPhase H ph)⟩ }
  | _, _ => none

/-- `CR.UP.GEN fdo, fdi, lvl` (43_chroma_up.md R273). -/
def execCrUpGen (fdo fdi : BitVec 4) (lvl : BitVec 8) (s : State) : Outcome :=
  command (.crUpGen fdo fdi lvl) s
    (crConvert true upGenPlan lvl.toNat s (slotIdx fdo) (slotIdx fdi))

/-- A candidate list for each pass and phase, selection per output sample (43_chroma_up.md R277).
All first-pass candidates of both phases share the gain `G1` (R271). -/
def upBndPlan (b : FilterBank) : Option Plan :=
  if b.buv.1.isEmpty || b.buv.2.isEmpty || b.buh.1.isEmpty || b.buh.2.isEmpty then none
  else
    some
      { float := fun e =>
          ⟨upLine fun ph => selected (rejectsF e.thrF) (firstF e) (ofPhase b.buv ph),
           upLine fun ph => selected (rejectsF e.thrF) (finalF e) (ofPhase b.buh ph)⟩
        fixed := fun e lo hi =>
          ⟨upLine fun ph => selected (rejectsI e.thrI) (firstI e) (ofPhase b.buv ph),
           upLine fun ph =>
             selected (rejectsScaled e (listGain b.buv.1)) (finalI e lo hi) (ofPhase b.buh ph)⟩ }

/-- `CR.UP.BND fdo, fdi` (43_chroma_up.md R277). -/
def execCrUpBnd (fdo fdi : BitVec 4) (s : State) : Outcome :=
  command (.crUpBnd fdo fdi) s
    (crConvert true upBndPlan 0 s (slotIdx fdo) (slotIdx fdi))

end Sys2Proof.Machine
end

