-- ==== Sys2Proof/Machine/ColorTransform.lean ====
section
/-!
DEFINITION. The colour-transform unit (spec/40_color_transform.md): `CT.SETUP`, `CT.PROC`, `CT.GETM`,
`CT.GETY`.
-/

namespace Sys2Proof.Machine

open Sys2Proof

/-! ## CT.SETUP -/

/-- What `CT.SETUP` caches for a resolved mode (40_color_transform.md R138, R139). -/
def ctObjectOf (t : Tables) (tprec : Bool) (mode : Nat) (fwd : Bool) (clip : ClipPolicy) :
    CtObject :=
  let e := t.entry mode
  let tp := tprec && fwd && e.dividers.isSome && mode != 5 && mode != 6
  let d := if tp then e.dividers.getD (0, 0) else (0, 0)
  { mode := BitVec.ofNat 8 mode
    isFwd := fwd
    clip := clip
    clf := mode == 5
    cli := mode == 6
    tpAct := tp
    mat := if fwd then e.fwd else e.inv
    cbDiv := d.1
    crDiv := d.2 }

/-- `CT.SETUP` past its check: resolve, cache, `CT_VALID`; an unmapped tuple is the identity mode
and warns (40_color_transform.md R135 (P2), R137, R138). -/
def ctResolve (s : State) : State :=
  let c := s.ctPar
  match s.cfg.resolve c.ics c.ocs c.icp c.ocp c.hiprec with
  | some r =>
    { s with
      status := s.status.setCtValid
      ctObj := ctObjectOf s.cfg c.tprec r.mode r.isFwd r.clip }
  | none =>
    { s with
      status := (s.status.warn true).setCtValid
      ctObj := ctObjectOf s.cfg c.tprec 0 true .none }

/-- `CT.SETUP` (40_color_transform.md R138). -/
def execCtSetup (s : State) : Outcome :=
  command .ctSetup s <|
    if s.ctPar.hiprec = 3 then .next (s.raise .eBadParam) else .next (ctResolve s)

/-! ## CT.PROC -/

/-- A vector of three components. -/
structure V3 where
  x0 : Fp
  x1 : Fp
  x2 : Fp
  deriving DecidableEq, Repr

/-- Every component is a finite number. -/
def V3.isFinite (v : V3) : Bool := v.x0.isFinite && v.x1.isFinite && v.x2.isFinite

/-- Component k. -/
def V3.get (v : V3) : Nat → Fp
  | 0 => v.x0
  | 1 => v.x1
  | _ => v.x2

/-- The default `DOT3`, left to right (00_scope.md R10). -/
def dotLeft (t a : V3) : Fp := ((t.x0.mul a.x0).add (t.x1.mul a.x1)).add (t.x2.mul a.x2)

/-- Within "the error of three roundings of the exact sum" (00_scope.md R10), in the model's reading
(log 8): with `S` the exact sum of the products, `M` the sum of their magnitudes and
`u = 2^-53`, `|r - S| ≤ ((1 + u)^3 - 1) M + 2^-1073`, the last term for products below the
binary64 range. The comparison is exact, in units of 2^-2307. -/
def nearDot (t a : V3) (r : Fp) : Bool :=
  let p0 := t.x0.units * a.x0.units
  let p1 := t.x1.units * a.x1.units
  let p2 := t.x2.units * a.x2.units
  let err := (r.units * Fp.one - (p0 + p1 + p2)).natAbs
  err * 2 ^ 159 ≤
    (p0.natAbs + p1.natAbs + p2.natAbs) * ((2 ^ 53 + 1) ^ 3 - 2 ^ 159) + 2 * Fp.one * 2 ^ 159

/-- `DOT3` (00_scope.md R7, R10). One that is not stated answers any binary64 number within the error
R10 allows; where an operand is no finite number there is no such bound, and the default's answer
stands (log 8). -/
def dot3 (k : DotKind) (t a : V3) : Fp :=
  match k with
  | .leftToRight => dotLeft t a
  | .unstated =>
    let r := Fp.ofBits64 (Config.openDot (t.x0, t.x1, t.x2) (a.x0, a.x1, a.x2))
    if t.isFinite && a.isFinite && r.isFinite && nearDot t a r then r else dotLeft t a

/-- Row k of the cached matrix as values (10_state.md R33). -/
def matRow (m : Mat3) (k : Fin 3) : V3 :=
  ⟨.ofBits64 (m.get ⟨3 * k.val, by omega⟩), .ofBits64 (m.get ⟨3 * k.val + 1, by omega⟩),
   .ofBits64 (m.get ⟨3 * k.val + 2, by omega⟩)⟩

/-- The generic matrix path (40_color_transform.md R142). -/
def matPath (k : DotKind) (c : CtObject) (a : V3) : V3 :=
  ⟨dot3 k (matRow c.mat 0) a, dot3 k (matRow c.mat 1) a, dot3 k (matRow c.mat 2) a⟩

/-- The `transformPrecision` path (40_color_transform.md R146). -/
def tPath (k : DotKind) (c : CtObject) (a : V3) : V3 :=
  let v0 := dot3 k (matRow c.mat 0) a
  ⟨v0, (a.x2.sub v0).div (.ofBits64 c.cbDiv), (a.x0.sub v0).div (.ofBits64 c.crDiv)⟩

/-- The BT.2020 luma weights 0.2627, 0.6780, 0.0593 (40_color_transform.md R147). -/
def clWeights : V3 :=
  ⟨.ofBits64 0x3FD0D013A92A3055, .ofBits64 0x3FE5B22D0E560419, .ofBits64 0x3FAE5C91D14E3BCD⟩

/-- The value-dependent division of one constant-luminance chroma difference: `-2 N` on the
negative side, zero included, `2 P` above (40_color_transform.md R147). -/
def clScale (d : Fp) (n p : DWord) : Fp :=
  d.div (if d.le .zero then (Fp.fin true (2 * Fp.one)).mul (.ofBits64 n)
    else (Fp.fin false (2 * Fp.one)).mul (.ofBits64 p))

/-- The constant-luminance forward path (40_color_transform.md R147). -/
def clPath (k : DotKind) (c : Clk) (a : V3) : V3 :=
  let v0 := dot3 k clWeights a
  ⟨v0, clScale (a.x2.sub v0) c.nb c.pb, clScale (a.x0.sub v0) c.nr c.pr⟩

/-- The three outputs of one pixel (40_color_transform.md R140). Without `CLK` the duties of
`ctDuties` refuse the command before this is reached with `clf`. -/
def ctPixel (s : State) (a : V3) : V3 :=
  if s.ctObj.clf then clPath s.cfg.dotKind (s.cfg.clk.getD Config.openClk) a
  else if s.ctObj.tpAct then tPath s.cfg.dotKind s.ctObj a
  else matPath s.cfg.dotKind s.ctObj a

/-- The float clip of `OUT` (40_color_transform.md R143). -/
def ctClip (s : State) (v : Fp) : Fp :=
  match s.ctObj.clip with
  | .none => v
  | .bounds => clampf v (.ofBits32 s.ctPar.min) (.ofBits32 s.ctPar.max)
  | .nonneg => if v.lt .zero then .zero else v

/-- The integer of `OUT`: `floor(v + 0.5)`, clamped (40_color_transform.md R144). For a value that
is no finite number the spec states no integer: a free one, clamped like any other (log 6). -/
def ctRound (draw a : Nat) (lo hi : Nat) (v : Fp) : Nat :=
  let q := ((v.add .half).floor?).getD (Config.freeInt draw a)
  (clampi q lo hi).toNat

/-- `OUT` on a whole plane (40_color_transform.md R143, R144): the stored words of the values `vs`
of plane p of the output slot. `MemWrite` stores the low bytes of an integer (00_scope.md R8). -/
def ctOut (s : State) (fo : FrameDesc) (p : Fin 4) (vs : List Fp) : List Nat :=
  if fo.isFloat then floatWords s.draws (fo.addr p) (vs.map fun v => (ctClip s v).toF32)
  else
    vs.zipIdx.map fun (v, i) =>
      ctRound s.draws (fo.addr p + i * fo.kind.size) (fo.lo p) (fo.hi p) v

/-- The pixels of three planes. -/
def pixels (k : Kind) (w0 w1 w2 : List Nat) : List V3 :=
  (w0.zip (w1.zip w2)).map fun (a, b, c) => ⟨k.value a, k.value b, k.value c⟩

/-- What `CT.PROC` needs of the host: the frames, where "`BITDEPTH` is not read"
(40_color_transform.md R145); clip bounds for policy 1 on float output (10_state.md R31); `CLK`
in mode 5 (40_color_transform.md R147). Frames without samples pass, the slots of reset among
them (DEDUCED, log 33). -/
def ctDuties (s : State) (o i : Fin 4) : List (Bool × Refusal) :=
  frameDuties false planes s o i ++
  [(s.ctObj.clip != .bounds || !(s.slot o).isFloat ||
      boundsOk (.ofBits32 s.ctPar.min) (.ofBits32 s.ctPar.max), .clipBounds),
   (!s.ctObj.clf || s.cfg.clk.isSome, .noClk)]

/-- All six sample counts are equal; otherwise the command is a no-op (40_color_transform.md R141). -/
def countsEqual (fo fi : FrameDesc) : Bool :=
  planes.all fun p => fo.count p == fi.count 0 && fi.count p == fi.count 0

/-- The no-op: `STATUS.NOOP`, and the stamp only where `NOOP_SETS_FRAMENO` says so
(40_color_transform.md R140, R141). -/
def ctNoop (s : State) (o i : Fin 4) : State :=
  let s' := { s with status := s.status.setNoop }
  if s.cfg.noopSetsFrameNo then s'.setSlot o ((s.slot o).stamp (s.slot i)) else s'

/-- `CT.PROC` past its checks: every pixel of the frame (40_color_transform.md R140, R149). -/
def ctTransform (s : State) (o i : Fin 4) : Outcome :=
  let fo := s.slot o
  let fi := s.slot i
  match s.readPlane fi 0, s.readPlane fi 1, s.readPlane fi 2 with
  | .ok w0, .ok w1, .ok w2 =>
    let vs := (pixels fi.kind w0 w1 w2).map (ctPixel s)
    .next (s.commit o i (ctOut s fo 0 (vs.map V3.x0)) (ctOut s fo 1 (vs.map V3.x1))
      (ctOut s fo 2 (vs.map V3.x2)))
  | _, _, _ => .refused .unwrittenByte

/-- `CT.PROC` on slots o and i, in the order of 60_exceptions.md R325 (40_color_transform.md R140,
R141, R150). -/
def ctProc (s : State) (o i : Fin 4) : Outcome :=
  if !s.status.ctValid then .next (s.raise .eNotCfg)
  else
    match firstProblem (ctDuties s o i) with
    | some r => .refused r
    | none =>
      if !countsEqual (s.slot o) (s.slot i) then .next (ctNoop s o i)
      else if s.ctObj.cli then .next (s.raise .uClInv)
      else ctTransform s o i

/-- `CT.PROC fdo, fdi` (40_color_transform.md R140). -/
def execCtProc (fdo fdi : BitVec 4) (s : State) : Outcome :=
  command (.ctProc fdo fdi) s (ctProc s (slotIdx fdo) (slotIdx fdi))

/-! ## CT.GETM and CT.GETY -/

/-- `CT.GETM cp`: all nine elements of the RGB to XYZ matrix (40_color_transform.md R152, R153). -/
def execCtGetm (cp : BitVec 8) (s : State) : Outcome :=
  command (.ctGetm cp) s <|
    let m := s.cfg.xyzMode cp.toNat
    .next { s with mres := (s.cfg.entry m).fwd, status := s.status.warn (m == 0) }

/-- Row 0 of `r` replaced by row 1 of `m`; rows 1 and 2 of `r` stay (40_color_transform.md R154). -/
def lumaRow (m r : Mat3) : Mat3 :=
  #v[m[3], m[4], m[5], r[3], r[4], r[5], r[6], r[7], r[8]]

/-- `CT.GETY cp`: the luma row only (40_color_transform.md R154). -/
def execCtGety (cp : BitVec 8) (s : State) : Outcome :=
  command (.ctGety cp) s <|
    let m := s.cfg.xyzMode cp.toNat
    .next { s with mres := lumaRow (s.cfg.entry m).fwd s.mres, status := s.status.warn (m == 0) }

end Sys2Proof.Machine
end

