-- ==== Sys2Proof/Machine/Dispatch.lean ====
section
/-! DEFINITION. One arm for each of the ten commands (spec/30_encoding.md R102). -/

namespace Sys2Proof.Machine

open Sys2Proof

def exec (i : Instr) (s : State) : Host.Outcome State Fault Refusal :=
  match i with
  | .ctSetup => Sys2Proof.Machine.execCtSetup s
  | .ctProc fdo fdi => Sys2Proof.Machine.execCtProc fdo fdi s
  | .ctGetm cp => Sys2Proof.Machine.execCtGetm cp s
  | .ctGety cp => Sys2Proof.Machine.execCtGety cp s
  | .crSetup => Sys2Proof.Machine.execCrSetup s
  | .crDnGen fdo fdi lvl => Sys2Proof.Machine.execCrDnGen fdo fdi lvl s
  | .crDnBnd fdo fdi => Sys2Proof.Machine.execCrDnBnd fdo fdi s
  | .crDnAdp fdo fdi => Sys2Proof.Machine.execCrDnAdp fdo fdi s
  | .crUpGen fdo fdi lvl => Sys2Proof.Machine.execCrUpGen fdo fdi lvl s
  | .crUpBnd fdo fdi => Sys2Proof.Machine.execCrUpBnd fdo fdi s

end Sys2Proof.Machine
end

