-- ==== Sys2Proof/Machine/Registers.lean ====
section
/-!
DEFINITION. The register block (spec/10_state.md R22 to R46): the register at each offset, what a
read of it returns and what a write of it does. `CMD`, whose write runs a command, is
completed in Sys2Proof/Machine/Bus.lean.
-/

namespace Sys2Proof.Machine

open Sys2Proof

/-- The per-plane registers of a descriptor slot, in the order of their offsets (10_state.md R23). -/
inductive PlaneReg where
  | width
  | height
  | compSize
  | base
  | minPel
  | maxPel
  | midPel
  deriving DecidableEq, Repr

/-- A word of the register block (10_state.md R23). `hi` selects the high word of a binary64
register. -/
inductive Reg where
  | id
  | cmd
  | status
  | cause
  | ctIcs
  | ctOcs
  | ctIcp
  | ctOcp
  | ctCtrl
  | ctMin
  | ctMax
  | ctMode
  | ctT (e : Fin 9) (hi : Bool)
  | ctCbDiv (hi : Bool)
  | ctCrDiv (hi : Bool)
  | mres (e : Fin 9) (hi : Bool)
  | crLoc
  | crCtrl
  | crFmin
  | crFmax
  | crLockW
  | crLockH
  | fdFmt (s : Fin 4)
  | fdFrameNo (s : Fin 4)
  | fdPlane (s : Fin 4) (r : PlaneReg) (p : Fin 4)
  | reserved
  deriving DecidableEq, Repr

/-- The per-plane register with number `n` in a slot; the eighth place is reserved. -/
def planeRegAt : Nat → Option PlaneReg
  | 0 => some .width
  | 1 => some .height
  | 2 => some .compSize
  | 3 => some .base
  | 4 => some .minPel
  | 5 => some .maxPel
  | 6 => some .midPel
  | _ => none

/-- The register of word `n` (offset `4n`) of a descriptor slot (10_state.md R23). -/
def slotRegAt (s : Fin 4) (n : Nat) : Reg :=
  if n = 0 then .fdFmt s
  else if n = 1 then .fdFrameNo s
  else
    match planeRegAt ((n - 2) / 4) with
    | some r => .fdPlane s r ⟨(n - 2) % 4, Nat.mod_lt _ (by decide)⟩
    | none => .reserved

/-- The register of a word `n` from 0x030 on that belongs to a 3x3 array: element and half. -/
def arrayElem (n : Nat) : Fin 9 × Bool := (⟨n / 2 % 9, Nat.mod_lt _ (by decide)⟩, n % 2 == 1)

/-- The register at word number `n`, that is at offset `4n` below 0x300 (10_state.md R23). -/
def regAt (n : Nat) : Reg :=
  if 0x40 ≤ n then slotRegAt ⟨(n - 0x40) / 0x20 % 4, Nat.mod_lt _ (by decide)⟩ ((n - 0x40) % 0x20)
  else if 0x0C ≤ n ∧ n < 0x1E then .ctT (arrayElem (n - 0x0C)).1 (arrayElem (n - 0x0C)).2
  else if 0x22 ≤ n ∧ n < 0x34 then .mres (arrayElem (n - 0x22)).1 (arrayElem (n - 0x22)).2
  else
    match n with
    | 0x00 => .id
    | 0x01 => .cmd
    | 0x02 => .status
    | 0x03 => .cause
    | 0x04 => .ctIcs
    | 0x05 => .ctOcs
    | 0x06 => .ctIcp
    | 0x07 => .ctOcp
    | 0x08 => .ctCtrl
    | 0x09 => .ctMin
    | 0x0A => .ctMax
    | 0x0B => .ctMode
    | 0x1E => .ctCbDiv false
    | 0x1F => .ctCbDiv true
    | 0x20 => .ctCrDiv false
    | 0x21 => .ctCrDiv true
    | 0x34 => .crLoc
    | 0x35 => .crCtrl
    | 0x36 => .crFmin
    | 0x37 => .crFmax
    | 0x38 => .crLockW
    | 0x39 => .crLockH
    | _ => .reserved

/-- The registers of a slot the instance lacks are reserved offsets (10_state.md R40, log 18). -/
def Reg.ofSlots (n : Nat) (r : Reg) : Reg :=
  match r with
  | .fdFmt x => if x.val < n then r else .reserved
  | .fdFrameNo x => if x.val < n then r else .reserved
  | .fdPlane x _ _ => if x.val < n then r else .reserved
  | r => r

/-- The register at a byte offset below 0x300 of the block (10_state.md R22, R23). -/
def State.regOf (s : State) (off : Word) : Reg := (regAt (off.toNat / 4)).ofSlots s.cfg.slots

/-- The low or the high word of a binary64 register (10_state.md R22). -/
def halfWord (d : DWord) (hi : Bool) : Word := if hi then d.extractLsb' 32 32 else d.extractLsb' 0 32

/-- A per-plane register of a slot. -/
def FrameDesc.plane (f : FrameDesc) : PlaneReg → Vector Word 4
  | .width => f.width
  | .height => f.height
  | .compSize => f.compSize
  | .base => f.base
  | .minPel => f.minPel
  | .maxPel => f.maxPel
  | .midPel => f.midPel

/-- A slot with one per-plane register written. -/
def FrameDesc.setPlane (f : FrameDesc) (r : PlaneReg) (p : Fin 4) (v : Word) : FrameDesc :=
  match r with
  | .width => { f with width := f.width.set p.val v p.isLt }
  | .height => { f with height := f.height.set p.val v p.isLt }
  | .compSize => { f with compSize := f.compSize.set p.val v p.isLt }
  | .base => { f with base := f.base.set p.val v p.isLt }
  | .minPel => { f with minPel := f.minPel.set p.val v p.isLt }
  | .maxPel => { f with maxPel := f.maxPel.set p.val v p.isLt }
  | .midPel => { f with midPel := f.midPel.set p.val v p.isLt }

/-- What a read of a register returns; WO and reserved registers return 0, reserved bits read 0
(10_state.md R22, R24 to R46). A read changes nothing. -/
def State.readReg (s : State) : Reg → Word
  | .id => 0x43544352
  | .cmd => 0
  | .status => s.status.word
  | .cause => s.cause.setWidth 32
  | .ctIcs => s.ctPar.ics.setWidth 32
  | .ctOcs => s.ctPar.ocs.setWidth 32
  | .ctIcp => s.ctPar.icp.setWidth 32
  | .ctOcp => s.ctPar.ocp.setWidth 32
  | .ctCtrl => BitVec.ofNat 32 (s.ctPar.hiprec.toNat + 4 * s.ctPar.tprec.toNat)
  | .ctMin => s.ctPar.min
  | .ctMax => s.ctPar.max
  | .ctMode => s.ctObj.modeWord
  | .ctT e hi => halfWord (s.ctObj.mat.get e) hi
  | .ctCbDiv hi => halfWord s.ctObj.cbDiv hi
  | .ctCrDiv hi => halfWord s.ctObj.crDiv hi
  | .mres e hi => halfWord (s.mres.get e) hi
  | .crLoc => BitVec.ofNat 32 (s.crPar.locTop.toNat + 16 * s.crPar.locBot.toNat)
  | .crCtrl => BitVec.ofNat 32 (s.crPar.dnSel.toNat + 16 * s.crPar.upSel.toNat)
  | .crFmin => s.crPar.fmin
  | .crFmax => s.crPar.fmax
  | .crLockW => s.crObj.lockW
  | .crLockH => s.crObj.lockH
  | .fdFmt x => (s.slot x).fmt
  | .fdFrameNo x => (s.slot x).frameNo
  | .fdPlane x r p => ((s.slot x).plane r).get p
  | .reserved => 0

/-- What a write of a register other than `CMD` does: RO and reserved registers and reserved bits
ignore it, `STATUS` is W1C (10_state.md R22, R26 to R46). -/
def State.writeReg (s : State) (r : Reg) (v : Word) : State :=
  match r with
  | .status => { s with status := s.status.clear v }
  | .ctIcs => { s with ctPar := { s.ctPar with ics := v.extractLsb' 0 3 } }
  | .ctOcs => { s with ctPar := { s.ctPar with ocs := v.extractLsb' 0 3 } }
  | .ctIcp => { s with ctPar := { s.ctPar with icp := v.extractLsb' 0 4 } }
  | .ctOcp => { s with ctPar := { s.ctPar with ocp := v.extractLsb' 0 4 } }
  | .ctCtrl =>
    { s with ctPar := { s.ctPar with hiprec := v.extractLsb' 0 2, tprec := v.getLsbD 2 } }
  | .ctMin => { s with ctPar := { s.ctPar with min := v } }
  | .ctMax => { s with ctPar := { s.ctPar with max := v } }
  | .crLoc =>
    { s with crPar := { s.crPar with locTop := v.extractLsb' 0 3, locBot := v.extractLsb' 4 3 } }
  | .crCtrl =>
    { s with crPar := { s.crPar with dnSel := v.extractLsb' 0 4, upSel := v.extractLsb' 4 4 } }
  | .crFmin => { s with crPar := { s.crPar with fmin := v } }
  | .crFmax => { s with crPar := { s.crPar with fmax := v } }
  | .fdFmt x => s.setSlot x { s.slot x with fmt := v &&& fmtMask }
  | .fdFrameNo x => s.setSlot x { s.slot x with frameNo := v }
  | .fdPlane x f p => s.setSlot x ((s.slot x).setPlane f p v)
  | .id | .cmd | .cause | .ctMode | .ctT _ _ | .ctCbDiv _ | .ctCrDiv _ | .mres _ _ | .crLockW
  | .crLockH | .reserved => s

end Sys2Proof.Machine
end

