-- ==== Sys2Proof/Machine/Bus.lean ====
section
/-!
DEFINITION. What each bus operation does (spec/10_state.md R22, R25, R55; 20_memory.md R70 to R72;
70_reset_and_hazards.md R360): the register accesses, among them the `CMD` write that runs a
command, the host's loads and stores, and reset.
-/

namespace Sys2Proof.Machine

open Sys2Proof

/-- The number of bytes of an access. -/
def Width.bytes : Width → Nat
  | .byte => 1
  | .half => 2
  | .word => 4

/-- A write of `CMD` (10_state.md R25): an illegal word is `E_OPCODE` or `E_RSVD` (30_encoding.md
R104), a legal one runs. The fatal stop ignores both (60_exceptions.md R325 step 1). -/
def writeCmd (w : Word) (s : State) : Outcome :=
  if s.status.fatal then .next s
  else
    match decode w with
    | .ok i => exec i s
    | .error .opcode => .next (s.raise .eOpcode)
    | .error .rsvd => .next (s.raise .eRsvd)

/-- A register access the spec gives a meaning: an aligned 32-bit word (10_state.md R22), inside
the block (R56). -/
def regAccess (w : Width) (off : Word) (s : State) (k : Reg → Outcome) : Outcome :=
  if w ≠ .word ∨ off.toNat % 4 ≠ 0 then .refused .registerAccess
  else if 0x300 ≤ off.toNat then .fault .outsideRegisterBlock
  else k (s.regOf off)

/-- A register write; in the fatal stop every one is ignored (10_state.md R55). -/
def busWrite (w : Width) (off v : Word) (s : State) : Outcome :=
  regAccess w off s fun r =>
    match r with
    | .cmd => writeCmd v s
    | r => if s.status.fatal then .next s else .next (s.writeReg r v)

/-- A register read; it works in the fatal stop too (10_state.md R55). -/
def busRead (w : Width) (off : Word) (s : State) : Outcome :=
  regAccess w off s fun r => .next { s with busData := some (s.readReg r) }

/-- A host store to sample memory, little-endian (20_memory.md R70, R71). R70 leaves to the platform
which addresses exist and, where the two address spaces are one, what an access inside the
register window does: here all 2^`AW` exist, and a store is to sample memory everywhere (log 30). -/
def busStore (w : Width) (addr : Nat) (v : Word) (s : State) : Outcome :=
  if 2 ^ s.cfg.aw < addr + w.bytes then .fault .outsideSampleMemory
  else .next { s with mem := s.mem.writeLE addr w.bytes v.toNat }

/-- A host load from sample memory, zero-extended; of an unwritten byte the spec gives no value
(20_memory.md R70 to R72, log 13). As for a store, every address exists and is sample memory
(log 30). -/
def busLoad (w : Width) (addr : Nat) (s : State) : Outcome :=
  if 2 ^ s.cfg.aw < addr + w.bytes then .fault .outsideSampleMemory
  else
    match s.mem.readLE addr w.bytes with
    | none => .refused .unwrittenByte
    | some v => .next { s with busData := some (BitVec.ofNat 32 v) }

/-- One bus operation. -/
def perform (op : BusOp) (s : State) : Outcome :=
  match op with
  | .regWrite w off v => busWrite w off v s
  | .regRead w off => busRead w off s
  | .store w addr v => busStore w addr v s
  | .load w addr => busLoad w addr s
  | .reset => .next s.restart

/-- The next bus operation, taken from the front of the queue. With none pending the engine does
nothing: "No operation suspends, blocks on I/O, or spawns work" (10_state.md R20). -/
def busStep (s : State) : Outcome :=
  match s.pending with
  | [] => .next s
  | op :: rest => perform op { s with pending := rest }

/-- The offset of `CMD` (10_state.md R23). -/
def cmdOffset : Word := 0x004

/-- A queue that begins with the write of the low `nbits` bits of `w` to `CMD`. -/
def pushCommand (nbits w : Nat) (q : List BusOp) : List BusOp :=
  .regWrite .word cmdOffset (BitVec.ofNat 32 (w % 2 ^ nbits)) :: q

end Sys2Proof.Machine
end

