-- ==== Sys2Proof/Machine/Step.lean ====
section
/-!
DEFINITION. The step of the machine: the next bus operation of the host, performed to completion
(spec/10_state.md R20, R21; 20_memory.md R82). There is no program counter and no fetch: the order
of commands is the order of the host's `CMD` writes.
-/

namespace Sys2Proof.Machine

/-- One step. -/
def step (s : State) : Host.Outcome State Fault Refusal := busStep s

/-- `s` with the command word `w` as the host's next `CMD` write (log 1). -/
def State.withFetchWord (s : State) (nbits w : Nat) : State :=
  { s with pending := pushCommand nbits w s.pending }

end Sys2Proof.Machine
end

