-- ==== Sys2Proof/Safety.lean ====
section
/-!
DEFINITION. What a legal state of the engine is, and when a command runs to its own effect, in the
terms the statements use.
-/

namespace Sys2Proof.Machine

open Sys2Proof

/-- What the spec says of every state the engine can be in. Each field names its rule; every step
keeps them all. -/
structure State.Inv (s : State) : Prop where
  /-- Sample memory is in its one canonical form. -/
  mem_wf : s.mem.wf s.cfg.aw = true
  /-- `MTAB` is one a model may be instantiated with (40_color_transform.md R132, R133). -/
  mtab_ok : s.cfg.mtabOk = true
  /-- "reserved bits of a defined register read 0" (10_state.md R22, R41). -/
  fmt_reserved : ∀ x : Fin 4, (s.slot x).fmt &&& ~~~fmtMask = 0
  /-- "All other code values are never written" (60_exceptions.md R321). -/
  cause_legal : s.cause.toNat ∈ [0x00, 0x01, 0x02, 0x03, 0x10, 0x11, 0x12, 0x13, 0x14, 0x20]
  /-- In the fatal stop `CAUSE` "names the fatal cause for ever" (60_exceptions.md R335). -/
  fatal_cause : s.status.fatal = true → s.cause.toNat ∈ [0x01, 0x02, 0x03]
  /-- The dividers are +0.0 unless `TPACT` (10_state.md R34). -/
  dividers_zero : s.ctObj.tpAct = false → s.ctObj.cbDiv = 0 ∧ s.ctObj.crDiv = 0
  /-- `TPACT` only forward and in a matrix mode (40_color_transform.md R139). -/
  tpAct_forward : s.ctObj.tpAct = true →
    s.ctObj.isFwd = true ∧ s.ctObj.clf = false ∧ s.ctObj.cli = false
  /-- `CLF` is mode 5 (40_color_transform.md R138). -/
  clf_mode : s.ctObj.clf = true ↔ s.ctObj.mode = 5
  /-- `CLI` is mode 6 (40_color_transform.md R138). -/
  cli_mode : s.ctObj.cli = true ↔ s.ctObj.mode = 6
  /-- `MODE` is below `NMODES` (40_color_transform.md R135 (P3)). -/
  mode_lt : s.ctObj.mode.toNat < s.cfg.nModes
  /-- A valid CRU holds a legal location and a defined bank (41_filter_primitives.md R198). -/
  bank_defined : s.status.crValid = true → s.crObj.loc.toNat ≤ 5 ∧ s.crBank.isSome = true
  /-- `CR_LOCKW` and `CR_LOCKH` are "0 while `STATUS.CR_LOCKED` = 0" (10_state.md R39). -/
  lock_zero : s.status.crLocked = false → s.crObj.lockW = 0 ∧ s.crObj.lockH = 0
  /-- Only a set-up CRU is locked (41_filter_primitives.md R198, R210, R212). -/
  locked_valid : s.status.crLocked = true → s.status.crValid = true

/-- Address `a` lies in plane p of the frame (20_memory.md R75). -/
def FrameDesc.inPlane (f : FrameDesc) (p : Fin 4) (a : Nat) : Prop :=
  f.addr p ≤ a ∧ a < f.addr p + f.bytes p

/-- Address `a` lies in one of the planes a command may touch. -/
def FrameDesc.covers (f : FrameDesc) (a : Nat) : Prop := ∃ p ∈ planes, f.inPlane p a

/-- Every sample byte of planes 0 to 2 has been written (20_memory.md R72, 70_reset_and_hazards.md
R374; of the chroma planes of a conversion, log 32). -/
def State.written (s : State) (f : FrameDesc) : Prop :=
  ∀ a, f.covers a → (s.mem.read a).isSome = true

/-- The address of sample `n` of plane p (20_memory.md R75). -/
def FrameDesc.sampleAddr (f : FrameDesc) (p : Fin 4) (n : Nat) : Nat := f.addr p + n * f.kind.size

/-- The stored word of sample `n` of plane p, when its bytes are written (20_memory.md R76). -/
def State.sample (s : State) (f : FrameDesc) (p : Fin 4) (n : Nat) : Option Nat :=
  s.mem.readLE (f.sampleAddr p n) f.kind.size

/-- When `CT.PROC` transforms a frame (40_color_transform.md R140): the unit is set up, the host
duties hold, the counts are equal, the mode is not the unsupported inverse, the input is
written. -/
structure State.ctReady (s : State) (o i : Fin 4) : Prop where
  running : s.status.fatal = false
  valid : s.status.ctValid = true
  duties : firstProblem (ctDuties s o i) = none
  counts : countsEqual (s.slot o) (s.slot i) = true
  notInverse : s.ctObj.cli = false
  input : s.written (s.slot i)

/-- When a conversion command gets past its checks (41_filter_primitives.md R210, R211): the unit
is set up, D0's three preconditions and the host duties hold, the input is written. -/
structure State.crReady (up : Bool) (s : State) (o i : Fin 4) : Prop where
  running : s.status.fatal = false
  valid : s.status.crValid = true
  sameKind : (s.slot i).isFloat = (s.slot o).isFloat
  sameDepth : (s.slot i).isFloat = true ∨ (s.slot i).depth = (s.slot o).depth
  sameCount : (s.slot i).count 0 = (s.slot o).count 0
  duties : firstProblem (crDuties up s o i) = none
  input : s.written (s.slot i)

/-! ## What a completing frame command leaves -/

/-- What every `CT.PROC` that proceeds and every completing conversion does to the rest of the
machine: it writes the planes 0 to 2 of its output frame and, of the descriptors, `FRAMENO` and
`AVAIL` of its output slot, and nothing else (10_state.md R40, R42, R44). `STATUS` and the size
lock are said by each command. -/
structure CommandFrame (s t : State) (o i : Fin 4) : Prop where
  mem : ∀ a, ¬ (s.slot o).covers a → t.mem.read a = s.mem.read a
  outSlot : t.slot o =
    { s.slot o with frameNo := (s.slot i).frameNo, fmt := (s.slot o).fmt ||| 0x80000000 }
  otherSlots : ∀ x, x ≠ o → t.slot x = s.slot x
  cause : t.cause = s.cause
  ctPar : t.ctPar = s.ctPar
  ctObj : t.ctObj = s.ctObj
  mres : t.mres = s.mres
  crPar : t.crPar = s.crPar
  cfg : t.cfg = s.cfg
  pending : t.pending = s.pending
  busData : t.busData = s.busData

/-- What every completing conversion does beside the chroma planes: the size lock, the stamp, the
luma copy bit for bit (41_filter_primitives.md R212). -/
structure Converted (s t : State) (o i : Fin 4) : Prop extends CommandFrame s t o i where
  status : t.status = { s.status with crLocked := true }
  crObj : t.crObj =
    { s.crObj with lockW := (s.slot i).width.get 0, lockH := (s.slot i).height.get 0 }
  luma : ∀ n, n < (s.slot i).count 0 → t.sample (s.slot o) 0 n = s.sample (s.slot i) 0 n

/-! ## Samples and lines as numbers -/

/-- The stored word of a sample, for a frame whose bytes are written. -/
def State.num (s : State) (f : FrameDesc) (p : Fin 4) (n : Nat) : Nat := (s.sample f p n).getD 0

/-- `Sd(s, p, i)`: a sample as a binary64 value (20_memory.md R76). -/
def State.value (s : State) (f : FrameDesc) (p : Fin 4) (n : Nat) : Fp :=
  f.kind.value (s.num f p n)

/-- Row y of a plane as integers (20_memory.md R75). -/
def State.rowI (s : State) (f : FrameDesc) (p : Fin 4) (y : Nat) : List Int :=
  (List.range (f.w p)).map fun x => (s.num f p (y * f.w p + x) : Int)

/-- Row y of a plane as binary64 values. -/
def State.rowF (s : State) (f : FrameDesc) (p : Fin 4) (y : Nat) : List Fp :=
  (List.range (f.w p)).map fun x => s.value f p (y * f.w p + x)

/-- Column x of a plane as integers. -/
def State.colI (s : State) (f : FrameDesc) (p : Fin 4) (x : Nat) : List Int :=
  (List.range (f.h p)).map fun y => (s.num f p (y * f.w p + x) : Int)

/-- Column x of a plane as binary64 values. -/
def State.colF (s : State) (f : FrameDesc) (p : Fin 4) (x : Nat) : List Fp :=
  (List.range (f.h p)).map fun y => s.value f p (y * f.w p + x)

/-! ## The two-pass skeletons, sample by sample -/

/-- The skeleton of the down-converters (42_chroma_down.md R232): `scratch[y][i]` is the first pass
on row y at centre 2i, `out[j][i]` the final pass on column i of the scratch plane at centre 2j. -/
def DownSkeleton {α : Type} (first final : List α → Nat → Except Refusal α) (w h : Nat)
    (row : Nat → List α) (out : Nat → Nat → α) : Prop :=
  ∃ scratch : Nat → Nat → α,
    (∀ y, y < h → ∀ i, i < w / 2 → first (row y) (2 * i) = .ok (scratch y i)) ∧
    (∀ i, i < w / 2 → ∀ j, j < h / 2 →
      final ((List.range h).map fun y => scratch y i) (2 * j) = .ok (out j i))

/-- The skeleton of the Adaptive converter, whose choice is per line (42_chroma_down.md R245). -/
def LineSkeleton {α : Type} (first final : List α → Except Refusal (List α)) (w h : Nat)
    (row : Nat → List α) (out : Nat → Nat → α) : Prop :=
  ∃ scratch : Nat → Nat → α,
    (∀ y, y < h → first (row y) = .ok ((List.range (w / 2)).map (scratch y))) ∧
    (∀ i, i < w / 2 → final ((List.range h).map fun y => scratch y i) =
      .ok ((List.range (h / 2)).map fun j => out j i))

/-- The skeleton of the up-converters (43_chroma_up.md R271): `scratch[2j+ph][i]` is the first pass
of phase ph on column i at centre j, `out[y][2i+ph]` the final pass of phase ph on row y of the
scratch plane at centre i. -/
def UpSkeleton {α : Type} (first final : Nat → List α → Nat → Except Refusal α) (w h : Nat)
    (col : Nat → List α) (out : Nat → Nat → α) : Prop :=
  ∃ scratch : Nat → Nat → α,
    (∀ i, i < w / 2 → ∀ j, j < h / 2 → ∀ ph, ph < 2 →
      first ph (col i) j = .ok (scratch (2 * j + ph) i)) ∧
    (∀ y, y < h → ∀ i, i < w / 2 → ∀ ph, ph < 2 →
      final ph ((List.range (w / 2)).map (scratch y)) i = .ok (out y (2 * i + ph)))

/-- The chroma planes of the output after a fixed-point conversion, `w` samples a row. -/
def ChromaIs (t : State) (f : FrameDesc) (w h : Nat) (out : Fin 4 → Nat → Nat → Int) : Prop :=
  ∀ p, p = 1 ∨ p = 2 → ∀ y, y < h → ∀ x, x < w →
    t.sample f p (y * w + x) = some (out p y x).toNat ∧ 0 ≤ out p y x

/-- The chroma planes of the output after a float conversion: each word is the binary32 pattern of
the value, and any NaN pattern for a NaN (93_implementation_defined.md U6). -/
def ChromaIsF (t : State) (f : FrameDesc) (w h : Nat) (out : Fin 4 → Nat → Nat → Fp) : Prop :=
  ∀ p, p = 1 ∨ p = 2 → ∀ y, y < h → ∀ x, x < w →
    ∃ q : Word, t.sample f p (y * w + x) = some ((out p y x).toBits32 q).toNat

/-! ## Groups of commands -/

/-- The five conversion commands (41_filter_primitives.md R210). -/
def conversionCommands (fdo fdi : BitVec 4) (lvl : BitVec 8) : List Instr :=
  [.crDnGen fdo fdi lvl, .crDnBnd fdo fdi, .crDnAdp fdo fdi, .crUpGen fdo fdi lvl,
   .crUpBnd fdo fdi]

/-- Every filter of a bank (41_filter_primitives.md R197). -/
def bankFilters (b : FilterBank) : List ScaleFilter :=
  b.gdh.toList ++ b.gdv.toList ++ pairList b.guh ++ pairList b.guv ++ b.bdh ++ b.bdv ++ b.buh.1 ++
    b.buh.2 ++ b.buv.1 ++ b.buv.2 ++ b.adh ++ b.adv ++ pairList b.auh ++ pairList b.auv

/-- The bits of a register a host write reaches: the defined fields of a RW register; `none` for a
register that ignores writes (10_state.md R22 to R46). `CMD` and `STATUS` have rules of their own. -/
def Reg.writable : Reg → Option Word
  | .ctIcs | .ctOcs => some 0x7
  | .ctIcp | .ctOcp => some 0xF
  | .ctCtrl => some 0x7
  | .ctMin | .ctMax | .crFmin | .crFmax => some 0xFFFFFFFF
  | .crLoc => some 0x77
  | .crCtrl => some 0xFF
  | .fdFmt _ => some 0x807F73FF
  | .fdFrameNo _ | .fdPlane _ _ _ => some 0xFFFFFFFF
  | .id | .cmd | .status | .cause | .ctMode | .ctT _ _ | .ctCbDiv _ | .ctCrDiv _ | .mres _ _
  | .crLockW | .crLockH | .reserved => none

end Sys2Proof.Machine
end

