-- ==== Sys2Proof/Certificates/Slice0/Obligations.lean ====
section
/-!
DEFINITION. The statements for the provers. Each docstring names the rules of spec/ it formalises;
"log n" is notes/assumptions/n.md.
-/

open Sys2Proof Sys2Proof.Machine

/-! ## Encoding -/

/-- Decode and encode agree: the word of every well-formed command decodes to that command, with
every operand at every value the encoding admits (30_encoding.md R102, R107). -/
def Obligations.DecodeOfEncode : Prop :=
  ∀ i : Instr, i.wellFormed = true → decode (encode i) = .ok i

/-- A word that decodes is the word of the well-formed command it decodes to, so no two words stand
for one command (30_encoding.md R100, R105). -/
def Obligations.EncodeOfDecode : Prop :=
  ∀ (w : Word) (i : Instr), decode w = .ok i → i.wellFormed = true ∧ encode i = w

/-- The ten rows of the opcode map: a word encodes a command exactly when `(w & mask) = match`, and
the operands are the fields of R100 (30_encoding.md R102). -/
def Obligations.DecodeMatchesOpcodeMap : Prop :=
  ∀ w : Word,
    (decode w = .ok .ctSetup ↔ w &&& 0xFFFFFFFF = 0x10000000) ∧
    (∀ o i, decode w = .ok (.ctProc o i) ↔ w &&& 0xFFCCFFFF = 0x11000000 ∧
      o = w.extractLsb' 20 4 ∧ i = w.extractLsb' 16 4) ∧
    (∀ c, decode w = .ok (.ctGetm c) ↔ w &&& 0xFFFFF0FF = 0x12000000 ∧
      c = w.extractLsb' 8 8) ∧
    (∀ c, decode w = .ok (.ctGety c) ↔ w &&& 0xFFFFF0FF = 0x13000000 ∧
      c = w.extractLsb' 8 8) ∧
    (decode w = .ok .crSetup ↔ w &&& 0xFFFFFFFF = 0x20000000) ∧
    (∀ o i l, decode w = .ok (.crDnGen o i l) ↔ w &&& 0xFFCCFCFF = 0x21000000 ∧
      o = w.extractLsb' 20 4 ∧ i = w.extractLsb' 16 4 ∧ l = w.extractLsb' 8 8) ∧
    (∀ o i, decode w = .ok (.crDnBnd o i) ↔ w &&& 0xFFCCFFFF = 0x22000000 ∧
      o = w.extractLsb' 20 4 ∧ i = w.extractLsb' 16 4) ∧
    (∀ o i, decode w = .ok (.crDnAdp o i) ↔ w &&& 0xFFCCFFFF = 0x23000000 ∧
      o = w.extractLsb' 20 4 ∧ i = w.extractLsb' 16 4) ∧
    (∀ o i l, decode w = .ok (.crUpGen o i l) ↔ w &&& 0xFFCCFCFF = 0x24000000 ∧
      o = w.extractLsb' 20 4 ∧ i = w.extractLsb' 16 4 ∧ l = w.extractLsb' 8 8) ∧
    (∀ o i, decode w = .ok (.crUpBnd o i) ↔ w &&& 0xFFCCFFFF = 0x25000000 ∧
      o = w.extractLsb' 20 4 ∧ i = w.extractLsb' 16 4)

/-- An illegal word written to `CMD` changes nothing but `STATUS.CMDERR` and `CAUSE`: an undefined
opcode is `E_OPCODE`, a defined one in a word that encodes no command is `E_RSVD`
(30_encoding.md R104). -/
def Obligations.IllegalWordsAreCommandErrors : Prop :=
  ∀ (s : State) (w : Word), s.status.fatal = false →
    let defined := (w.extractLsb' 24 8).toNat ∈
      [0x10, 0x11, 0x12, 0x13, 0x20, 0x21, 0x22, 0x23, 0x24, 0x25]
    (¬ defined → perform (.regWrite .word 0x004 w) s =
      .next { s with status := { s.status with cmdErr := true }, cause := 0x10 }) ∧
    (defined → (∀ i, i.wellFormed = true → encode i ≠ w) →
      perform (.regWrite .word 0x004 w) s =
        .next { s with status := { s.status with cmdErr := true }, cause := 0x11 })

/-- A few words written out from the encoding, one of each kind of operand (30_encoding.md R102). -/
def Obligations.SampleWordsDecode : Prop :=
  decode 0x10000000 = .ok .ctSetup ∧ decode 0x11100000 = .ok (.ctProc 1 0) ∧
  decode 0x12000800 = .ok (.ctGetm 8) ∧ decode 0x20000000 = .ok .crSetup ∧
  decode 0x21320200 = .ok (.crDnGen 3 2 2) ∧ decode 0x25010000 = .ok (.crUpBnd 0 1) ∧
  decode 0x00000000 = .error .opcode ∧ decode 0xFFFFFFFF = .error .opcode ∧
  decode 0x10000001 = .error .rsvd ∧ decode 0x11400000 = .error .rsvd

/-! ## The step and the host's accesses -/

/-- A step performs the first pending bus operation, on the state from which it is taken; where that
operation writes a legal word to `CMD`, the step is `exec` of the decoded command (10_state.md
R25). With none pending it changes nothing: the engine never acts on its own (R20). That the
host's operations stand in a queue is the model's choice (log 1). -/
def Obligations.StepRunsDecodedCommand : Prop :=
  ∀ s : State,
    (s.pending = [] → step s = .next s) ∧
    (∀ op rest, s.pending = op :: rest → step s = perform op { s with pending := rest }) ∧
    (∀ (w : Word) rest i, s.pending = .regWrite .word 0x004 w :: rest → decode w = .ok i →
      step s = exec i { s with pending := rest })

/-- The offset of every register of the block; the words whose read is constant: `ID`, `CMD` and the
reserved offsets; and what a read of each register the engine writes returns: the flags of
`STATUS` and the fields of `CT_MODE` at their bits, `CAUSE` zero-extended, the low word of a
binary64 register at the lower offset, the size lock (10_state.md R22 to R27, R32 to R35, R39). -/
def Obligations.RegisterMap : Prop :=
  [0x000, 0x004, 0x008, 0x00C, 0x010, 0x014, 0x018, 0x01C, 0x020, 0x024, 0x028, 0x02C].map
      (fun off => regAt (off / 4)) =
    [.id, .cmd, .status, .cause, .ctIcs, .ctOcs, .ctIcp, .ctOcp, .ctCtrl, .ctMin, .ctMax,
      .ctMode] ∧
  (∀ (k j : Fin 3) (hi : Bool),
    regAt ((0x030 + 8 * (3 * k.val + j.val) + 4 * hi.toNat) / 4) =
      .ctT ⟨3 * k.val + j.val, by omega⟩ hi) ∧
  [0x078, 0x07C, 0x080, 0x084].map (fun off => regAt (off / 4)) =
    [.ctCbDiv false, .ctCbDiv true, .ctCrDiv false, .ctCrDiv true] ∧
  (∀ (k j : Fin 3) (hi : Bool),
    regAt ((0x088 + 8 * (3 * k.val + j.val) + 4 * hi.toNat) / 4) =
      .mres ⟨3 * k.val + j.val, by omega⟩ hi) ∧
  [0x0D0, 0x0D4, 0x0D8, 0x0DC, 0x0E0, 0x0E4].map (fun off => regAt (off / 4)) =
    [.crLoc, .crCtrl, .crFmin, .crFmax, .crLockW, .crLockH] ∧
  (∀ off ∈ [0x0E8, 0x0EC, 0x0F0, 0x0F4, 0x0F8, 0x0FC, 0x178, 0x17C, 0x1F8, 0x1FC, 0x278, 0x27C,
    0x2F8, 0x2FC], regAt (off / 4) = .reserved) ∧
  (∀ x p : Fin 4,
    regAt ((0x100 + 0x80 * x.val + 0x00) / 4) = .fdFmt x ∧
    regAt ((0x100 + 0x80 * x.val + 0x04) / 4) = .fdFrameNo x ∧
    regAt ((0x100 + 0x80 * x.val + 0x08 + 4 * p.val) / 4) = .fdPlane x .width p ∧
    regAt ((0x100 + 0x80 * x.val + 0x18 + 4 * p.val) / 4) = .fdPlane x .height p ∧
    regAt ((0x100 + 0x80 * x.val + 0x28 + 4 * p.val) / 4) = .fdPlane x .compSize p ∧
    regAt ((0x100 + 0x80 * x.val + 0x38 + 4 * p.val) / 4) = .fdPlane x .base p ∧
    regAt ((0x100 + 0x80 * x.val + 0x48 + 4 * p.val) / 4) = .fdPlane x .minPel p ∧
    regAt ((0x100 + 0x80 * x.val + 0x58 + 4 * p.val) / 4) = .fdPlane x .maxPel p ∧
    regAt ((0x100 + 0x80 * x.val + 0x68 + 4 * p.val) / 4) = .fdPlane x .midPel p) ∧
  ∀ s : State, s.readReg .id = 0x43544352 ∧ s.readReg .cmd = 0 ∧ s.readReg .reserved = 0 ∧
    (∀ k : Nat, (s.readReg .status).getLsbD k =
      [s.status.fatal, s.status.cmdErr, s.status.unsup, s.status.warnIdent, s.status.noop, false,
        false, false, s.status.ctValid, s.status.crValid, s.status.crLocked].getD k false) ∧
    (s.readReg .cause = BitVec.zeroExtend 32 s.cause) ∧
    (let m := s.readReg .ctMode;
      m.extractLsb' 0 8 = s.ctObj.mode ∧ m.getLsbD 8 = s.ctObj.isFwd ∧
      m.extractLsb' 9 2 = (match s.ctObj.clip with
        | .none => 0
        | .bounds => 1
        | .nonneg => 2) ∧
      m.getLsbD 11 = s.ctObj.clf ∧ m.getLsbD 12 = s.ctObj.cli ∧ m.getLsbD 13 = s.ctObj.tpAct ∧
      m.extractLsb' 14 18 = 0) ∧
    (∀ k : Fin 9,
      s.readReg (.ctT k true) ++ s.readReg (.ctT k false) = s.ctObj.mat.get k ∧
      s.readReg (.mres k true) ++ s.readReg (.mres k false) = s.mres.get k) ∧
    s.readReg (.ctCbDiv true) ++ s.readReg (.ctCbDiv false) = s.ctObj.cbDiv ∧
    s.readReg (.ctCrDiv true) ++ s.readReg (.ctCrDiv false) = s.ctObj.crDiv ∧
    s.readReg .crLockW = s.crObj.lockW ∧ s.readReg .crLockH = s.crObj.lockH

/-- Register accesses: an aligned word access inside the block completes, a read changing only what
the host holds, a write of any register but `CMD` being `writeReg`; another width or an unaligned
offset is refused (10_state.md R22, X13). The register at an offset is that of the map; the
registers of a slot at or above `NFD` are reserved offsets (log 18). That an aligned access at or
above 0x300 is a fault is the model's choice (log 14). -/
def Obligations.RegisterAccesses : Prop :=
  ∀ (s : State) (w : Width) (off v : Word),
    (w ≠ .word ∨ off.toNat % 4 ≠ 0 →
      perform (.regWrite w off v) s = .refused .registerAccess ∧
      perform (.regRead w off) s = .refused .registerAccess) ∧
    (w = .word → off.toNat % 4 = 0 → 0x300 ≤ off.toNat →
      perform (.regWrite w off v) s = .fault .outsideRegisterBlock ∧
      perform (.regRead w off) s = .fault .outsideRegisterBlock) ∧
    (w = .word → off.toNat % 4 = 0 → off.toNat < 0x300 →
      perform (.regRead w off) s = .next { s with busData := some (s.readReg (s.regOf off)) } ∧
      (s.status.fatal = false → off ≠ 0x004 →
        perform (.regWrite w off v) s = .next (s.writeReg (s.regOf off) v)) ∧
      (off.toNat < 0x100 + 0x80 * min s.cfg.nfd 4 → s.regOf off = regAt (off.toNat / 4)) ∧
      (0x100 + 0x80 * min s.cfg.nfd 4 ≤ off.toNat → s.regOf off = .reserved))

/-- What a register write leaves. A RW register reads the defined bits of the value written, `STATUS`
loses the W1C flags written with 1, a register that ignores writes and every other register read
as before; each field of a RW register is its own bits of the value written; memory, the hidden
latches and the model's own fields are unchanged (10_state.md R22, R26, R28 to R46, R50). -/
def Obligations.RegisterWriteReadBack : Prop :=
  ∀ (s : State) (r : Reg) (v : Word),
    (∀ m, r.writable = some m → (s.writeReg r v).readReg r = v &&& m) ∧
    (r.writable = none → r ≠ .status → s.writeReg r v = s) ∧
    (s.writeReg .status v).readReg .status =
      s.readReg .status &&& ~~~(v &&& 0x1E) ∧
    (∀ r', r' ≠ r → (s.writeReg r v).readReg r' = s.readReg r') ∧
    (s.writeReg r v).mem = s.mem ∧ (s.writeReg r v).crObj = s.crObj ∧
    (s.writeReg r v).cfg = s.cfg ∧ (s.writeReg r v).pending = s.pending ∧
    (s.writeReg r v).busData = s.busData ∧ (s.writeReg r v).draws = s.draws ∧
    (s.writeReg .ctIcs v).ctPar.ics = v.extractLsb' 0 3 ∧
    (s.writeReg .ctOcs v).ctPar.ocs = v.extractLsb' 0 3 ∧
    (s.writeReg .ctIcp v).ctPar.icp = v.extractLsb' 0 4 ∧
    (s.writeReg .ctOcp v).ctPar.ocp = v.extractLsb' 0 4 ∧
    (s.writeReg .ctCtrl v).ctPar.hiprec = v.extractLsb' 0 2 ∧
    (s.writeReg .ctCtrl v).ctPar.tprec = v.getLsbD 2 ∧
    (s.writeReg .ctMin v).ctPar.min = v ∧ (s.writeReg .ctMax v).ctPar.max = v ∧
    (s.writeReg .crLoc v).crPar.locTop = v.extractLsb' 0 3 ∧
    (s.writeReg .crLoc v).crPar.locBot = v.extractLsb' 4 3 ∧
    (s.writeReg .crCtrl v).crPar.dnSel = v.extractLsb' 0 4 ∧
    (s.writeReg .crCtrl v).crPar.upSel = v.extractLsb' 4 4 ∧
    (s.writeReg .crFmin v).crPar.fmin = v ∧ (s.writeReg .crFmax v).crPar.fmax = v ∧
    ∀ x : Fin 4,
      (let f := (s.writeReg (.fdFmt x) v).slot x;
        f.kind = [Kind.u8, .u16, .f32, .reserved].getD (v.extractLsb' 0 2).toNat .reserved ∧
        f.depth = (v.extractLsb' 2 6).toNat ∧ f.avail = v.getLsbD 31) ∧
      ((s.writeReg (.fdFrameNo x) v).slot x).frameNo = v ∧
      ∀ p : Fin 4,
        ((s.writeReg (.fdPlane x .width p) v).slot x).w p = v.toNat ∧
        ((s.writeReg (.fdPlane x .height p) v).slot x).h p = v.toNat ∧
        ((s.writeReg (.fdPlane x .compSize p) v).slot x).count p = v.toNat ∧
        ((s.writeReg (.fdPlane x .base p) v).slot x).addr p = v.toNat ∧
        ((s.writeReg (.fdPlane x .minPel p) v).slot x).lo p = v.toNat ∧
        ((s.writeReg (.fdPlane x .maxPel p) v).slot x).hi p = v.toNat

/-- A host store inside the 2^`AW` bytes of sample memory writes its bytes, least significant at the
lowest address, and no other; a load of the same width then returns the value stored
(20_memory.md R71, R72, R78). That every address exists, the register window of a platform with
one address space included, is the model's choice (log 30). -/
def Obligations.HostMemoryIsLittleEndian : Prop :=
  ∀ (s : State) (w : Width) (addr : Nat) (v : Word), addr + w.bytes ≤ 2 ^ s.cfg.aw →
    ∃ m : Memory,
      perform (.store w addr v) s = .next { s with mem := m } ∧
      (∀ k, k < w.bytes → m.read (addr + k) = some (v.extractLsb' (8 * k) 8)) ∧
      (∀ a, a < addr ∨ addr + w.bytes ≤ a → m.read a = s.mem.read a) ∧
      perform (.load w addr) { s with mem := m } =
        .next { s with mem := m, busData := some (BitVec.ofNat 32 (v.toNat % 256 ^ w.bytes)) }

/-! ## Reset, the fatal stop, events -/

/-- After reset every register reads 0 except `ID`, the hidden latches are 0, and sample memory is as
before; at power-on every byte is unwritten (10_state.md R53). -/
def Obligations.ResetReadsZero : Prop :=
  ∀ s : State, ∃ t : State, perform .reset s = .next t ∧
    (∀ off : Word, off.toNat < 0x300 → off.toNat % 4 = 0 →
      t.readReg (t.regOf off) = if off = 0x000 then 0x43544352 else 0) ∧
    t.crObj.loc = 0 ∧ t.crObj.dn = 0 ∧ t.crObj.up = 0 ∧ t.mem = s.mem ∧
    ∀ a, State.reset.mem.read a = none

/-- In the fatal stop every register write is ignored, every command too, register reads and host
loads and stores work, and only reset leaves it (10_state.md R55). That they work at every address
below 2^`AW`, the register window of a platform with one address space included, is the model's
choice (log 30). -/
def Obligations.FatalStop : Prop :=
  ∀ s : State, s.status.fatal = true →
    (∀ off v : Word, off.toNat % 4 = 0 → off.toNat < 0x300 →
      perform (.regWrite .word off v) s = .next s ∧
      perform (.regRead .word off) s =
        .next { s with busData := some (s.readReg (s.regOf off)) }) ∧
    (∀ i : Instr, exec i s = .next s) ∧
    (∀ (w : Width) (a : Nat) (v : Word), a + w.bytes ≤ 2 ^ s.cfg.aw →
      ∃ t, perform (.store w a v) s = .next t ∧ t.mem = s.mem.writeLE a w.bytes v.toNat) ∧
    (∀ (w : Width) (a n : Nat), a + w.bytes ≤ 2 ^ s.cfg.aw → s.mem.readLE a w.bytes = some n →
      perform (.load w a) s = .next { s with busData := some (BitVec.ofNat 32 n) }) ∧
    (∀ op t, op ≠ .reset → perform op s = .next t →
      t = { s with mem := t.mem, busData := t.busData }) ∧
    (∃ t, perform .reset s = .next t ∧ t.status.fatal = false)

/-- Event entry: the flag of the class is set, `CAUSE` takes the code, nothing else changes
(60_exceptions.md R321, R327, R330, R333). -/
def Obligations.EventEntry : Prop :=
  ∀ s : State,
    (s.raise .fKind = { s with status := { s.status with fatal := true }, cause := 0x01 }) ∧
    (s.raise .fDepth = { s with status := { s.status with fatal := true }, cause := 0x02 }) ∧
    (s.raise .fSize = { s with status := { s.status with fatal := true }, cause := 0x03 }) ∧
    (s.raise .eOpcode = { s with status := { s.status with cmdErr := true }, cause := 0x10 }) ∧
    (s.raise .eRsvd = { s with status := { s.status with cmdErr := true }, cause := 0x11 }) ∧
    (s.raise .eNotCfg = { s with status := { s.status with cmdErr := true }, cause := 0x12 }) ∧
    (s.raise .eBadLoc = { s with status := { s.status with cmdErr := true }, cause := 0x13 }) ∧
    (s.raise .eBadParam = { s with status := { s.status with cmdErr := true }, cause := 0x14 }) ∧
    (s.raise .uClInv = { s with status := { s.status with unsup := true }, cause := 0x20 })

/-- The outcomes of a command that is run: ignored in the fatal stop; one event that changes `STATUS`
and `CAUSE` only; or an effect that leaves `CAUSE` and the three event flags alone
(60_exceptions.md R326, R335, R345). -/
def Obligations.CommandOutcomes : Prop :=
  ∀ (i : Instr) (s t : State), exec i s = .next t →
    (s.status.fatal = true ∧ t = s) ∨
    (s.status.fatal = false ∧ ∃ c ∈ [(0x01 : Byte), 0x02, 0x03],
      t = { s with status := { s.status with fatal := true }, cause := c }) ∨
    (s.status.fatal = false ∧ ∃ c ∈ [(0x11 : Byte), 0x12, 0x13, 0x14],
      t = { s with status := { s.status with cmdErr := true }, cause := c }) ∨
    (s.status.fatal = false ∧
      t = { s with status := { s.status with unsup := true }, cause := 0x20 }) ∨
    (s.status.fatal = false ∧ t.cause = s.cause ∧ t.status.fatal = false ∧
      t.status.cmdErr = s.status.cmdErr ∧ t.status.unsup = s.status.unsup)

/-- The sticky flags stay set whatever command runs, and whatever step: only a host write of `STATUS`
with a 1 at the flag's bit and reset clear them; `FATAL`, `CT_VALID` and `CR_VALID` only reset
clears, `CR_LOCKED` only a `CR.SETUP` and reset (10_state.md R26, 70_reset_and_hazards.md R376). -/
def Obligations.StickyFlagsStay : Prop :=
  (∀ (i : Instr) (s t : State), exec i s = .next t →
    (s.status.cmdErr = true → t.status.cmdErr = true) ∧
    (s.status.unsup = true → t.status.unsup = true) ∧
    (s.status.warnIdent = true → t.status.warnIdent = true) ∧
    (s.status.noop = true → t.status.noop = true)) ∧
  ∀ s t : State, step s = .next t →
    let isReset := s.pending.head? = some .reset
    let clears := fun k : Nat => ∃ v : Word, v.getLsbD k = true ∧
      s.pending.head? = some (.regWrite .word 0x008 v)
    (s.status.cmdErr = true → t.status.cmdErr = false → isReset ∨ clears 1) ∧
    (s.status.unsup = true → t.status.unsup = false → isReset ∨ clears 2) ∧
    (s.status.warnIdent = true → t.status.warnIdent = false → isReset ∨ clears 3) ∧
    (s.status.noop = true → t.status.noop = false → isReset ∨ clears 4) ∧
    (s.status.fatal = true → t.status.fatal = false → isReset) ∧
    (s.status.ctValid = true → t.status.ctValid = false → isReset) ∧
    (s.status.crValid = true → t.status.crValid = false → isReset) ∧
    (s.status.crLocked = true → t.status.crLocked = false →
      isReset ∨ s.pending.head? = some (.regWrite .word 0x004 (encode .crSetup)))

/-- A command before its unit is set up is `E_NOTCFG`: `CT.PROC` without `CT_VALID`, the five
conversions without `CR_VALID` (60_exceptions.md R331). A command that names a slot the instance
lacks is `E_RSVD` instead, set up or not (30_encoding.md R101, R104; for `NFD` below 4 the
model's reading, log 18). -/
def Obligations.NotConfigured : Prop :=
  ∀ (s : State) (fdo fdi : BitVec 4) (lvl : BitVec 8), levelOk lvl = true → s.status.fatal = false →
    (min s.cfg.nfd 4 ≤ fdo.toNat ∨ min s.cfg.nfd 4 ≤ fdi.toNat →
      ∀ i ∈ .ctProc fdo fdi :: conversionCommands fdo fdi lvl, exec i s =
        .next { s with status := { s.status with cmdErr := true }, cause := 0x11 }) ∧
    (fdo.toNat < min s.cfg.nfd 4 → fdi.toNat < min s.cfg.nfd 4 →
    (s.status.ctValid = false → exec (.ctProc fdo fdi) s =
      .next { s with status := { s.status with cmdErr := true }, cause := 0x12 }) ∧
    (s.status.crValid = false → ∀ i ∈ conversionCommands fdo fdi lvl, exec i s =
      .next { s with status := { s.status with cmdErr := true }, cause := 0x12 }))

/-! ## Arithmetic -/

/-- The one rounding of the model is to nearest, ties to even: the result is a number of at most
`prec` significant bits on the grid of `2 ^ quantum`, none such is nearer to `num / den`, and a tie
is broken towards the even last digit. Every operation rounds with it once, on the exact result:
with a finite value a count of 2^-1074, sum, difference, product and quotient of finite numbers
are that rounding at 53 bits (24 for `f32`), an infinity from 2^1024 (2^128) on; an exact zero sum
is -0 only of two -0; the rest is the IEEE default for infinities and NaN (00_scope.md R9). -/
def Obligations.RoundingIsNearestEven : Prop :=
  ∀ prec quantum num den : Nat, 0 < prec → 0 < den →
    let onGrid := fun z : Nat => ∃ c e, quantum ≤ e ∧ c < 2 ^ prec ∧ z = c * 2 ^ e
    let dist := fun z : Nat => ((z * den : Nat) - (num : Int)).natAbs
    let r := roundMag prec quantum num den
    onGrid r ∧ (∀ z, onGrid z → dist r ≤ dist z) ∧
    (∀ z, onGrid z → z ≠ r → dist z = dist r →
      ∃ e, (z = r + 2 ^ e ∨ r = z + 2 ^ e) ∧ r % 2 ^ (e + 1) = 0) ∧
    let rnd := fun (neg : Bool) (num den : Nat) =>
      if 2 ^ 2098 ≤ roundMag 53 0 num den then Fp.inf neg else .fin neg (roundMag 53 0 num den)
    let one := 2 ^ 1074
    ∀ (a b : Bool) (m n : Nat) (x : Fp),
      let s := Fp.signed a m + Fp.signed b n
      ((Fp.fin a m).add (.fin b n) =
        if s = 0 then .fin (a && b) 0 else rnd (decide (s < 0)) s.natAbs 1) ∧
      (Fp.sub x (.fin b n) = x.add (.fin (!b) n) ∧ Fp.sub x (.inf b) = x.add (.inf (!b))) ∧
      ((Fp.fin a m).mul (.fin b n) = rnd (a != b) (m * n) one) ∧
      (0 < n → (Fp.fin a m).div (.fin b n) = rnd (a != b) (m * one) n) ∧
      ((Fp.fin a m).div (.fin b 0) = if m = 0 then .nan else .inf (a != b)) ∧
      ((Fp.fin a m).toF32 = if 2 ^ 1202 ≤ roundMag 24 925 m 1 then .inf a
        else .fin a (roundMag 24 925 m 1)) ∧
      ((Fp.inf a).add (.inf b) = if a = b then .inf a else .nan) ∧
      ((Fp.inf a).add (.fin b n) = .inf a ∧ (Fp.fin b n).add (.inf a) = .inf a) ∧
      ((Fp.inf a).mul (.inf b) = .inf (a != b)) ∧
      ((Fp.inf a).mul (.fin b n) = (if n = 0 then .nan else .inf (a != b)) ∧
        (Fp.fin b n).mul (.inf a) = if n = 0 then .nan else .inf (b != a)) ∧
      ((Fp.inf a).div (.inf b) = .nan ∧ (Fp.inf a).div (.fin b n) = .inf (a != b) ∧
        (Fp.fin a m).div (.inf b) = .fin (a != b) 0) ∧
      ((Fp.inf a).toF32 = .inf a ∧ Fp.nan.toF32 = .nan) ∧
      (∀ op ∈ [Fp.add, Fp.sub, Fp.mul, Fp.div], op .nan x = .nan ∧ op x .nan = .nan)

/-- Widening a binary32 sample is exact and narrowing gives it back: every pattern that is no NaN is
recovered bit for bit, and a NaN is stored as some NaN, whatever the free word
(00_scope.md R9, 20_memory.md R76, R77; 93_implementation_defined.md U6). A binary64 value
narrowed by `f32` and stored reads back as that narrowed value. -/
def Obligations.BinaryThirtyTwoRoundTrips : Prop :=
  (∀ w q : Word,
    ((Fp.ofBits32 w).isNan = false → (Fp.ofBits32 w).toF32.toBits32 q = w) ∧
    ((Fp.ofBits32 w).isNan = true →
      (Fp.ofBits32 ((Fp.ofBits32 w).toF32.toBits32 q)).isNan = true)) ∧
  ∀ (b : DWord) (q : Word),
    Fp.ofBits32 ((Fp.ofBits64 b).toF32.toBits32 q) = (Fp.ofBits64 b).toF32

/-! ## The colour-transform unit -/

/-- `CT.SETUP` (40_color_transform.md R138, R139): its whole effect when `HIPREC` is legal, and
`E_BADPARAM` when it is 3. -/
def Obligations.CtSetupEffect : Prop :=
  ∀ s : State, s.status.fatal = false →
    (s.ctPar.hiprec = 3 → exec .ctSetup s =
      .next { s with status := { s.status with cmdErr := true }, cause := 0x14 }) ∧
    (s.ctPar.hiprec ≠ 3 →
      let found := s.cfg.resolve s.ctPar.ics s.ctPar.ocs s.ctPar.icp s.ctPar.ocp s.ctPar.hiprec
      let m := (found.map ResolveRow.mode).getD 0
      let fw := (found.map ResolveRow.isFwd).getD true
      let cp := (found.map ResolveRow.clip).getD .none
      let e := s.cfg.entry m
      let tp := s.ctPar.tprec && fw && e.dividers.isSome && !(m == 5 || m == 6)
      ∃ t, exec .ctSetup s = .next t ∧
        t.ctObj.mode.toNat = m ∧ t.ctObj.isFwd = fw ∧ t.ctObj.clip = cp ∧
        t.ctObj.clf = (m == 5) ∧ t.ctObj.cli = (m == 6) ∧
        t.ctObj.mat = (if fw then e.fwd else e.inv) ∧ t.ctObj.tpAct = tp ∧
        (tp = true → e.dividers = some (t.ctObj.cbDiv, t.ctObj.crDiv)) ∧
        (tp = false → t.ctObj.cbDiv = 0 ∧ t.ctObj.crDiv = 0) ∧
        t.status = { s.status with
          ctValid := true, warnIdent := s.status.warnIdent || found.isNone } ∧
        t = { s with status := t.status, ctObj := t.ctObj })

/-- `RESOLVE`: its baseline rows, whatever else an instance maps, and its properties (P2), (P3): a
tuple with a reserved code is unmapped, a mode is below `NMODES`. With the default tables
nothing but the baseline is mapped (40_color_transform.md R135, R136). -/
def Obligations.ResolveBaseline : Prop :=
  ∀ (t : Tables) (hp : BitVec 2),
    let rows := fun (i o : BitVec 3) (ip op : BitVec 4) =>
      (t.resolve i o ip op hp).map fun r => (r.mode, r.isFwd, r.clip)
    (rows 0 1 0 0 = some (1, true, .none)) ∧
    (rows 1 0 0 0 = some (1, false, .none)) ∧
    (hp ≠ 3 → rows 0 1 2 2 = some (2 + hp.toNat, true, .none)) ∧
    (hp ≠ 3 → rows 1 0 2 2 = some (2 + hp.toNat, false, .none)) ∧
    (rows 0 4 2 2 = some (5, true, .none)) ∧
    (rows 4 0 2 2 = some (6, false, .none)) ∧
    (∀ i o ip op, (4 < i.toNat ∨ 4 < o.toNat ∨ 8 < ip.toNat ∨ 8 < op.toNat) →
      t.resolve i o ip op hp = none) ∧
    (∀ i o ip op r, t.resolve i o ip op hp = some r → r.mode < t.nModes) ∧
    (∀ i o ip op, (i, o, ip, op) ∉ [((0 : BitVec 3), (1 : BitVec 3), (0 : BitVec 4), (0 : BitVec 4)),
        (1, 0, 0, 0), (0, 1, 2, 2), (1, 0, 2, 2), (0, 4, 2, 2), (4, 0, 2, 2)] →
      Tables.default.resolve i o ip op hp = none)

/-- The baseline matrices: mode 0 is the identity in every instance, modes 1 and 2 are the patterns
listed, with the dividers 1.8556, 1.5748 and 1.8814, 1.4746, and the construction they are listed
from holds of them: rows 1 and 2 of `fwd` are `(e_2 - fwd[0]) / cbDiv` and
`(e_0 - fwd[0]) / crDiv` in binary64 (40_color_transform.md R133, R134). Of every entry of a table
within R132, the open ones included, every element and divider is finite, no divider is 0, and
those rows agree with that construction; the 2^-50 it agrees within is the model's (log 3). In
such a table modes 1 and 2 have dividers (R133). -/
def Obligations.BaselineMatrices : Prop :=
  (∀ t : Tables, (t.entry 0).dividers = none ∧ (t.entry 0).fwd = (t.entry 0).inv ∧
    ∀ k j : Fin 3, (t.entry 0).fwd.get ⟨3 * k.val + j.val, by omega⟩ =
      if k = j then 0x3FF0000000000000 else 0) ∧
  Tables.default.entry 1 =
    { fwd := #v[0x3FCB367A0F9096BC, 0x3FE6E2EB1C432CA5, 0x3FB27BB2FEC56D5D,
                0xBFBD5498F88CD493, 0xBFD8AAD9C1DCCADB, 0x3FE0000000000000,
                0x3FE0000000000000, 0xBFDD10D75C23A21A, 0xBFA779451EE2EF29]
      inv := #v[0x3FF0000000000000, 0, 0x3FF932617C1BDA51,
                0x3FF0000000000000, 0xBFC7FA3DE4FDF778, 0xBFDDF5BF82ACDBCA,
                0x3FF0000000000000, 0x3FFDB089A0275254, 0]
      dividers := some (0x3FFDB089A0275254, 0x3FF932617C1BDA51) } ∧
  Tables.default.entry 2 =
    { fwd := #v[0x3FD0D013A92A3055, 0x3FE5B22D0E560419, 0x3FAE5C91D14E3BCD,
                0xBFC1DF65DC757465, 0xBFD7104D11C545CE, 0x3FE0000000000000,
                0x3FE0000000000001, 0xBFDD6D21051AA199, 0xBFA496F7D72AF342]
      inv := #v[0x3FF0000000000000, 0, 0x3FF797F62B6AE7D5,
                0x3FF0000000000000, 0xBFC51013AD1FC019, 0xBFE248865A4858E1,
                0x3FF0000000000000, 0x3FFE1A36E2EB1C43, 0]
      dividers := some (0x3FFE1A36E2EB1C43, 0x3FF797F62B6AE7D5) } ∧
  (∀ t : Tables, t.mtabOk = true →
    (t.entry 1).dividers.isSome = true ∧ (t.entry 2).dividers.isSome = true) ∧
  (∀ (t : Tables) (m : Nat), t.mtabOk = true → let e := t.entry m
    (∀ k : Fin 9, (Fp.ofBits64 (e.fwd.get k)).isFinite = true ∧
      (Fp.ofBits64 (e.inv.get k)).isFinite = true) ∧
    ∀ cb cr, e.dividers = some (cb, cr) →
      (∀ d ∈ [cb, cr], (Fp.ofBits64 d).isFinite = true ∧ (Fp.ofBits64 d).units ≠ 0) ∧
      ∀ j : Fin 3,
        let f := fun k : Fin 3 => (Fp.ofBits64 (e.fwd.get ⟨3 * k.val + j.val, by omega⟩)).units
        let unit := fun i : Fin 3 => if i = j then (2 ^ 1074 : Int) else 0
        let near := fun x u : Int => |x - (u - f 0) * 2 ^ 1074| * 2 ^ 50 ≤
          |x| + (|u| + |f 0|) * 2 ^ 1074
        near (f 1 * (Fp.ofBits64 cb).units) (unit 2) ∧
        near (f 2 * (Fp.ofBits64 cr).units) (unit 0)) ∧
  ∀ m ∈ [1, 2], ∀ j : Fin 3, ∃ cb cr : DWord,
    (Tables.default.entry m).dividers = some (cb, cr) ∧
    let f := fun k : Fin 3 =>
      Fp.ofBits64 ((Tables.default.entry m).fwd.get ⟨3 * k.val + j.val, by omega⟩)
    let unit := fun i : Fin 3 => if i = j then Fp.ofBits64 0x3FF0000000000000 else Fp.zero
    f 1 = ((unit 2).sub (f 0)).div (Fp.ofBits64 cb) ∧
    f 2 = ((unit 0).sub (f 0)).div (Fp.ofBits64 cr)

/-- `CT.GETM` loads the nine elements of the RGB to XYZ matrix, and warns on the identity fallback;
it needs no set-up and changes nothing else (40_color_transform.md R152, R153). -/
def Obligations.CtGetmEffect : Prop :=
  ∀ (s : State) (cp : BitVec 8), s.status.fatal = false → primariesOk cp = true →
    exec (.ctGetm cp) s = .next
      { s with
        mres := (s.cfg.entry (s.cfg.xyzMode cp.toNat)).fwd
        status := { s.status with
          warnIdent := s.status.warnIdent || (s.cfg.xyzMode cp.toNat == 0) } }

/-- `CT.GETY` loads row 1 of that matrix into row 0 of `MRES`; rows 1 and 2 stay
(40_color_transform.md R153, R154). -/
def Obligations.CtGetyEffect : Prop :=
  ∀ (s : State) (cp : BitVec 8), s.status.fatal = false → primariesOk cp = true →
    ∃ t, exec (.ctGety cp) s = .next t ∧
      (∀ j : Fin 3, t.mres.get ⟨j.val, by omega⟩ =
        (s.cfg.entry (s.cfg.xyzMode cp.toNat)).fwd.get ⟨3 + j.val, by omega⟩) ∧
      (∀ n : Fin 9, 3 ≤ n.val → t.mres.get n = s.mres.get n) ∧
      t = { s with
        mres := t.mres
        status := { s.status with
          warnIdent := s.status.warnIdent || (s.cfg.xyzMode cp.toNat == 0) } }

/-- `CT.PROC` transforms a frame: when the unit is set up, the host duties hold, the six counts are
equal and the input is written, it completes, every output sample being the pixel path's
value through `OUT`. A float result is stored as its binary32 pattern (any NaN pattern for a
NaN); an integer result is `floor(v + 0.5)` clamped, any integer clamped where `v + 0.5` is no
finite number (log 6), of which `MemWrite` stores the low bytes: all of it where `MAXPEL` fits
the sample (00_scope.md R8; 40_color_transform.md R140, R143, R144, R145, R148, R149; log 9). That
the slots of reset, without samples, are such frames is the model's reading (log 33). -/
def Obligations.CtProcTransformsFrame : Prop :=
  ∀ (s : State) (fdo fdi : BitVec 4), s.hasSlot fdo = true → s.hasSlot fdi = true →
    s.ctReady (slotIdx fdo) (slotIdx fdi) →
    let fo := s.slot (slotIdx fdo)
    let fi := s.slot (slotIdx fdi)
    ∃ t, exec (.ctProc fdo fdi) s = .next t ∧
      CommandFrame s t (slotIdx fdo) (slotIdx fdi) ∧
      t.status = s.status ∧ t.crObj = s.crObj ∧
      ∀ (n : Nat) (k : Fin 3), n < fi.count 0 →
        let v := (ctPixel s ⟨s.value fi 0 n, s.value fi 1 n, s.value fi 2 n⟩).get k.val
        let c := match s.ctObj.clip with
          | .none => v
          | .bounds => if v.lt (.ofBits32 s.ctPar.min) then .ofBits32 s.ctPar.min
              else if (Fp.ofBits32 s.ctPar.max).lt v then .ofBits32 s.ctPar.max else v
          | .nonneg => if v.lt .zero then .zero else v
        (fo.isFloat = true → ∃ q : Word,
          t.sample fo k.castSucc n = some (c.toF32.toBits32 q).toNat) ∧
        (fo.isFloat = false → ∃ z : Int,
          (∀ f, (v.add .half).floor? = some f → z = f) ∧
          t.sample fo k.castSucc n =
            some ((clampi z (fo.lo k.castSucc) (fo.hi k.castSucc)).toNat % 256 ^ fo.kind.size))

/-- The three pixel paths: the matrix path, `TPATH`, and the constant-luminance forward path, each
as its pseudocode over `DOT3`; by default `DOT3` adds its products from left to right, and one
that is not stated answers, on finite operands, that sum or a binary64 number within the error of
three roundings (00_scope.md R7, R10; 40_color_transform.md R142, R146, R147). How that error is
measured is the model's reading (log 8). -/
def Obligations.PixelPaths : Prop :=
  ∀ (s : State) (a : V3),
    let t := fun k : Fin 9 => Fp.ofBits64 (s.ctObj.mat.get k)
    let dot := fun x y z : Fp => dot3 s.cfg.dotKind ⟨x, y, z⟩ a
    let sum := fun x y z : Fp => ((x.mul a.x0).add (y.mul a.x1)).add (z.mul a.x2)
    (s.cfg.dotKind = .leftToRight → ∀ x y z, dot x y z = sum x y z) ∧
    (∀ x y z, dot x y z = sum x y z ∨
      let p := [x.units * a.x0.units, y.units * a.x1.units, z.units * a.x2.units]
      let mags := (p.map Int.natAbs).sum
      s.cfg.dotKind = .unstated ∧ (∀ v ∈ [x, y, z, a.x0, a.x1, a.x2], v.isFinite = true) ∧
      (∃ b : DWord, dot x y z = .ofBits64 b) ∧
      (dot x y z).isFinite = true ∧
      ((dot x y z).units * 2 ^ 1074 - p.sum).natAbs * 2 ^ 159 ≤
        mags * ((2 ^ 53 + 1) ^ 3 - 2 ^ 159) + 2 ^ 1075 * 2 ^ 159) ∧
    (s.ctObj.clf = false → s.ctObj.tpAct = false → ctPixel s a =
      ⟨dot (t 0) (t 1) (t 2), dot (t 3) (t 4) (t 5), dot (t 6) (t 7) (t 8)⟩) ∧
    (s.ctObj.clf = false → s.ctObj.tpAct = true → ctPixel s a =
      ⟨dot (t 0) (t 1) (t 2),
        (a.x2.sub (dot (t 0) (t 1) (t 2))).div (.ofBits64 s.ctObj.cbDiv),
        (a.x0.sub (dot (t 0) (t 1) (t 2))).div (.ofBits64 s.ctObj.crDiv)⟩) ∧
    (∀ k, s.ctObj.clf = true → s.cfg.clk = some k →
      let y := dot (.ofBits64 0x3FD0D013A92A3055) (.ofBits64 0x3FE5B22D0E560419)
        (.ofBits64 0x3FAE5C91D14E3BCD)
      let chroma := fun (d : Fp) (n p : DWord) =>
        d.div (if d.le .zero then (Fp.ofBits64 0xC000000000000000).mul (.ofBits64 n)
          else (Fp.ofBits64 0x4000000000000000).mul (.ofBits64 p))
      ctPixel s a = ⟨y, chroma (a.x2.sub y) k.nb k.pb, chroma (a.x0.sub y) k.nr k.pr⟩)

/-- `CT.PROC` on frames with unequal counts is a no-op: `STATUS.NOOP`, and the stamp only where
`NOOP_SETS_FRAMENO` says so; it comes before the unsupported inverse (40_color_transform.md R140,
R141, R150). The host duties are tested first (log 10). -/
def Obligations.CtProcNoop : Prop :=
  ∀ (s : State) (fdo fdi : BitVec 4), s.hasSlot fdo = true → s.hasSlot fdi = true →
    s.status.fatal = false → s.status.ctValid = true →
    firstProblem (ctDuties s (slotIdx fdo) (slotIdx fdi)) = none →
    let fo := s.slot (slotIdx fdo)
    let fi := s.slot (slotIdx fdi)
    ¬ (fo.count 0 = fi.count 0 ∧ fi.count 1 = fi.count 0 ∧ fi.count 2 = fi.count 0 ∧
      fo.count 1 = fi.count 0 ∧ fo.count 2 = fi.count 0) →
    ∃ t, exec (.ctProc fdo fdi) s = .next t ∧
      t = { s with status := { s.status with noop := true }, fd := t.fd } ∧
      (∀ x, x ≠ slotIdx fdo → t.slot x = s.slot x) ∧
      t.slot (slotIdx fdo) =
        if s.cfg.noopSetsFrameNo then
          { fo with frameNo := fi.frameNo, fmt := fo.fmt ||| 0x80000000 }
        else fo

/-- `CT.PROC` in the constant-luminance inverse mode is unsupported and changes `STATUS.UNSUP` and
`CAUSE` only (40_color_transform.md R150; 60_exceptions.md R333). -/
def Obligations.CtProcUnsupported : Prop :=
  ∀ (s : State) (fdo fdi : BitVec 4), s.hasSlot fdo = true → s.hasSlot fdi = true →
    s.status.fatal = false → s.status.ctValid = true →
    firstProblem (ctDuties s (slotIdx fdo) (slotIdx fdi)) = none →
    countsEqual (s.slot (slotIdx fdo)) (s.slot (slotIdx fdi)) = true →
    s.ctObj.cli = true →
    exec (.ctProc fdo fdi) s =
      .next { s with status := { s.status with unsup := true }, cause := 0x20 }

/-- `CT.PROC` raises no fatal event under any input (40_color_transform.md R157). -/
def Obligations.CtProcNeverFatal : Prop :=
  ∀ (fdo fdi : BitVec 4) (s t : State), exec (.ctProc fdo fdi) s = .next t →
    t.status.fatal = s.status.fatal

/-- Clip conformance: after policy 1 no stored float lies outside the bounds, after policy 2 none is
negative and none that was not negative is changed, and an integer result always lies within
`[MINPEL, MAXPEL]` (40_color_transform.md R143, R144, R156). -/
def Obligations.ClipConformance : Prop :=
  ∀ (s : State) (b : DWord),
    let v := Fp.ofBits64 b
    let lo := Fp.ofBits32 s.ctPar.min
    let hi := Fp.ofBits32 s.ctPar.max
    (s.ctObj.clip = .bounds → boundsOk lo hi = true → v.isNan = false →
      lo.le (ctClip s v).toF32 = true ∧ ((ctClip s v).toF32).le hi = true) ∧
    (s.ctObj.clip = .nonneg → ((ctClip s v).toF32).lt .zero = false ∧
      (v.lt .zero = false → ctClip s v = v)) ∧
    (∀ draw a lo hi : Nat, lo ≤ hi → lo ≤ ctRound draw a lo hi v ∧ ctRound draw a lo hi v ≤ hi)

/-- The identity mode is a pass-through with the default `DOT3`: a binary32 sample other than -0.0,
in a pixel of finite components, comes back bit for bit through the matrix path, and so does an
integer sample within `[MINPEL, MAXPEL]` (40_color_transform.md R151). -/
def Obligations.IdentityPassesThrough : Prop :=
  ∀ (s : State) (k : Fin 3), s.cfg.dotKind = .leftToRight → s.ctObj.clf = false →
    s.ctObj.tpAct = false → s.ctObj.mat = identityMat →
    (∀ (w : Fin 3 → Word) (q : Word), (∀ j, (Fp.ofBits32 (w j)).isFinite = true) →
      w k ≠ 0x80000000 →
      ((ctPixel s ⟨.ofBits32 (w 0), .ofBits32 (w 1), .ofBits32 (w 2)⟩).get k.val).toF32.toBits32 q
        = w k) ∧
    (∀ (n : Fin 3 → Nat) (draw a lo hi : Nat), (∀ j, n j < 2 ^ 16) → lo ≤ n k → n k ≤ hi →
      ctRound draw a lo hi ((ctPixel s ⟨.ofNat (n 0), .ofNat (n 1), .ofNat (n 2)⟩).get k.val)
        = n k)

/-- `CT.PROC` reads of the parameter registers only `CT_MIN` and `CT_MAX`: any other value of the
rest, of `MRES`, and of everything of the CRU gives the same run (10_state.md R32, R35;
70_reset_and_hazards.md R370). -/
def Obligations.CtProcReadsOnlyItsCache : Prop :=
  ∀ (s t : State) (fdo fdi : BitVec 4) (c : CtParams) (m : Mat3) (p : CrParams) (r : CrObject),
    c.min = s.ctPar.min → c.max = s.ctPar.max → exec (.ctProc fdo fdi) s = .next t →
    exec (.ctProc fdo fdi) { s with ctPar := c, mres := m, crPar := p, crObj := r } =
      .next { t with ctPar := c, mres := m, crPar := p, crObj := r }

/-! ## The chroma-resampling unit: set-up and preamble -/

/-- `CR.SETUP` (41_filter_primitives.md R198): unequal or illegal locations are `E_BADLOC`, an
undefined bank `E_BADPARAM`, and otherwise it latches, validates and unlocks. -/
def Obligations.CrSetupEffect : Prop :=
  ∀ s : State, s.status.fatal = false →
    let bad := s.crPar.locTop ≠ s.crPar.locBot ∨ 5 < s.crPar.locTop.toNat
    let bank := s.cfg.bank s.crPar.locTop s.crPar.dnSel s.crPar.upSel
    (bad → exec .crSetup s =
      .next { s with status := { s.status with cmdErr := true }, cause := 0x13 }) ∧
    (¬ bad → bank = none → exec .crSetup s =
      .next { s with status := { s.status with cmdErr := true }, cause := 0x14 }) ∧
    (¬ bad → bank ≠ none → exec .crSetup s =
      .next { s with
        status := { s.status with crValid := true, crLocked := false }
        crObj := { loc := s.crPar.locTop, dn := s.crPar.dnSel, up := s.crPar.upSel,
                   lockW := 0, lockH := 0 } })

/-- The fatal preconditions of the five conversions, in their order, the first failure reported;
they read nothing else of the descriptors (41_filter_primitives.md R210). -/
def Obligations.ConversionFatalChecks : Prop :=
  ∀ (s : State) (fdo fdi : BitVec 4) (lvl : BitVec 8), s.hasSlot fdo = true → s.hasSlot fdi = true →
    levelOk lvl = true → s.status.fatal = false → s.status.crValid = true →
    ∀ c ∈ conversionCommands fdo fdi lvl,
    let fo := s.slot (slotIdx fdo)
    let fi := s.slot (slotIdx fdi)
    let stop := fun code : Byte =>
      exec c s = .next { s with status := { s.status with fatal := true }, cause := code }
    (fi.isFloat ≠ fo.isFloat → stop 0x01) ∧
    (fi.isFloat = fo.isFloat → fi.isFloat = false → fi.depth ≠ fo.depth → stop 0x02) ∧
    (fi.isFloat = fo.isFloat → (fi.isFloat = true ∨ fi.depth = fo.depth) →
      fi.count 0 ≠ fo.count 0 → stop 0x03)

/-- A conversion that needs a member the bank lacks is `E_BADPARAM`, after every other check
(41_filter_primitives.md R198; 42_chroma_down.md R249; 43_chroma_up.md R278). -/
def Obligations.MissingMembers : Prop :=
  ∀ (s : State) (fdo fdi : BitVec 4) (lvl : BitVec 8) (b : FilterBank), s.hasSlot fdo = true →
    s.hasSlot fdi = true → levelOk lvl = true → s.crBank = some b →
    let bad := fun c => exec c s =
      .next { s with status := { s.status with cmdErr := true }, cause := 0x14 }
    (s.crReady false (slotIdx fdo) (slotIdx fdi) →
      (b.gdh = none ∨ b.gdv = none → bad (.crDnGen fdo fdi lvl)) ∧
      (b.bdh = [] ∨ b.bdv = [] → bad (.crDnBnd fdo fdi)) ∧
      (b.adh.length ≠ 5 ∨ b.adv.length ≠ 5 ∨ b.auh = none ∨ b.auv = none →
        bad (.crDnAdp fdo fdi))) ∧
    (s.crReady true (slotIdx fdo) (slotIdx fdi) →
      (b.guh = none ∨ b.guv = none → bad (.crUpGen fdo fdi lvl)) ∧
      (b.buh.1 = [] ∨ b.buh.2 = [] ∨ b.buv.1 = [] ∨ b.buv.2 = [] → bad (.crUpBnd fdo fdi)))

/-- The size lock: a conversion with `CR_LOCKED` set, past its fatal checks, on a frame of another
width or height than the locked one is refused (70_reset_and_hazards.md R372). -/
def Obligations.SizeLockRefuses : Prop :=
  ∀ (s : State) (fdo fdi : BitVec 4) (lvl : BitVec 8), s.hasSlot fdo = true → s.hasSlot fdi = true →
    levelOk lvl = true → s.status.fatal = false → s.status.crValid = true →
    let fo := s.slot (slotIdx fdo)
    let fi := s.slot (slotIdx fdi)
    fi.isFloat = fo.isFloat → (fi.isFloat = true ∨ fi.depth = fo.depth) →
    fi.count 0 = fo.count 0 → s.status.crLocked = true →
    (fi.width.get 0 ≠ s.crObj.lockW ∨ fi.height.get 0 ≠ s.crObj.lockH) →
    ∀ c ∈ conversionCommands fdo fdi lvl, ∃ r, exec c s = .refused r

/-- The duties of every frame command. Past its set-up and its fatal checks it is refused on slots
that coincide, on different storage kinds, on overlapping planes, on a misaligned base, on a plane
past the top of memory or in the register window, on a reserved kind, on counts that are not width
times height or above `MAXSAMPLES`, and on output clamp bounds that are not in order within the bit
depth. `CT.PROC` looks at the bounds of planes 0 to 2, and is refused too on clip bounds that policy
1 may not use on float output, in mode 5 without `CLK`, and where it would transform an input byte
never written. A conversion looks at the bounds of planes 1 and 2, and is refused too on a bit depth
outside the container, on a bank that is not well formed (log 17), on the wrong geometry, and on
clip bounds that may not be used where it must apply a clipping final filter (of the Adaptive
converter any filter, of the selecting converters every one it may select); on an unwritten input
byte it never completes, where of the chroma planes that every byte counts is the model's reading
(log 32) (10_state.md R31, R38, R41, R46, R47; 20_memory.md R72, R74, R81, R86, R88;
40_color_transform.md R145, R147; 41_filter_primitives.md R211). Which malformed fields refuse a
command is the model's reading (log 9), and so is the place of the refusals (log 10). -/
def Obligations.HostDutiesRefuse : Prop :=
  ∀ (s : State) (fdo fdi : BitVec 4) (lvl : BitVec 8), s.hasSlot fdo = true →
    s.hasSlot fdi = true → levelOk lvl = true → s.status.fatal = false →
    let fo := s.slot (slotIdx fdo)
    let fi := s.slot (slotIdx fdi)
    let common :=
      fdo = fdi ∨ fi.kind ≠ fo.kind ∨
      (∃ f ∈ [fi, fo], f.kind = .reserved ∨
        ∃ p ∈ planes, f.addr p % f.kind.size ≠ 0 ∨
          (0 < f.count p ∧ 2 ^ s.cfg.aw < f.addr p + f.count p * f.kind.size) ∨
          f.count p ≠ f.w p * f.h p ∨ s.cfg.maxSamples < f.count p ∨
          ∃ r a, s.cfg.regBase = some r ∧ f.inPlane p a ∧ r ≤ a ∧ a < r + 0x300) ∨
      (∃ a, fo.covers a ∧ fi.covers a) ∨
      ∃ p ∈ planes, ∃ q ∈ planes, p ≠ q ∧ ∃ a, fo.inPlane p a ∧ fo.inPlane q a
    let badBounds := fun p : Fin 4 =>
      fo.isFloat = false ∧ (fo.hi p < fo.lo p ∨ 2 ^ fo.depth ≤ fo.hi p)
    let badClip := fun lo hi : Word => let l := Fp.ofBits32 lo; let h := Fp.ofBits32 hi
      l.isFinite = false ∨ h.isFinite = false ∨ h.lt l = true
    let badDepth := fun f : FrameDesc =>
      f.isFloat = false ∧ (f.depth = 0 ∨ 8 * f.kind.size < f.depth)
    let badSize := fun up : Bool =>
      let w := fi.w 0
      let h := fi.h 0
      fo.w 0 ≠ w ∨ fo.h 0 ≠ h ∨ w % 2 = 1 ∨ h % 2 = 1 ∨
        ∃ p : Fin 4, (p = 1 ∨ p = 2) ∧
          ((fi.w p, fi.h p) ≠ (if up then (w / 2, h / 2) else (w, h)) ∨
            (fo.w p, fo.h p) ≠ (if up then (w, h) else (w / 2, h / 2)))
    let unwritten := ∃ a, fi.covers a ∧ s.mem.read a = none
    let refused := fun c : Instr => ∃ r, exec c s = .refused r
    (s.status.ctValid = true →
      (common ∨ (∃ p ∈ planes, badBounds p) ∨
        (s.ctObj.clip = .bounds ∧ fo.isFloat = true ∧ badClip s.ctPar.min s.ctPar.max) ∨
        (s.ctObj.clf = true ∧ s.cfg.clk = none) ∨
        (countsEqual fo fi = true ∧ s.ctObj.cli = false ∧ unwritten)) →
      refused (.ctProc fdo fdi)) ∧
    (s.status.crValid = true → fi.isFloat = fo.isFloat →
      (fi.isFloat = true ∨ fi.depth = fo.depth) → fi.count 0 = fo.count 0 →
      (common ∨ badBounds 1 ∨ badBounds 2 ∨ badDepth fi ∨
          (∃ b, s.crBank = some b ∧ bankOk b = false) →
        ∀ c ∈ conversionCommands fdo fdi lvl, refused c) ∧
      (badSize false →
        ∀ c ∈ [Instr.crDnGen fdo fdi lvl, .crDnBnd fdo fdi, .crDnAdp fdo fdi], refused c) ∧
      (badSize true → ∀ c ∈ [Instr.crUpGen fdo fdi lvl, .crUpBnd fdo fdi], refused c) ∧
      (unwritten → ∀ c ∈ conversionCommands fdo fdi lvl, refused c ∨ exec c s =
        .next { s with status := { s.status with cmdErr := true }, cause := 0x14 }) ∧
      (∀ b, s.crBank = some b → fi.isFloat = true → badClip s.crPar.fmin s.crPar.fmax →
        0 < fi.w 0 → 0 < fi.h 0 →
        (∀ H V, b.gdh = some H → b.gdv = some V → V.clip = true → refused (.crDnGen fdo fdi lvl)) ∧
        (∀ H V, b.guh = some H → b.guv = some V → H.1.clip = true ∨ H.2.clip = true →
          refused (.crUpGen fdo fdi lvl)) ∧
        (b.bdh ≠ [] → b.bdv ≠ [] → (∀ F ∈ b.bdv, F.clip = true) → refused (.crDnBnd fdo fdi)) ∧
        (b.buv.1 ≠ [] → b.buv.2 ≠ [] → b.buh.1 ≠ [] → b.buh.2 ≠ [] →
          (∀ F ∈ b.buh.1, F.clip = true) ∨ (∀ F ∈ b.buh.2, F.clip = true) →
          refused (.crUpBnd fdo fdi)) ∧
        (∀ UH UV, b.adh.length = 5 → b.adv.length = 5 → b.auh = some UH → b.auv = some UV →
          (∃ F ∈ b.adh ++ b.adv ++ [UH.1, UH.2, UV.1, UV.2], F.clip = true) →
          refused (.crDnAdp fdo fdi))))

/-! ## The chroma-resampling unit: one-dimensional primitives -/

/-- `FSUM`: accumulated tap by tap from +0.0 over the border-clamped support, then scaled
(41_filter_primitives.md R193, R194, R200). -/
def Obligations.FloatSum : Prop :=
  ∀ (F : ScaleFilter) (x : List Fp) (c : Nat), x ≠ [] →
    let cl := fun t : Int => (clampi t 0 (x.length - 1)).toNat
    let term := fun k : Nat => (Fp.ofBits32 (F.fcoef.getD k 0)).mul
      (x.getD (cl ((c : Int) + k - F.posOffset)) default)
    fsum F x c = ((List.range F.fcoef.length).foldl (fun acc k => acc.add (term k)) Fp.zero).mul
      (.ofBits32 F.fscale)

/-- `ISUM`: the exact sum over the border-clamped support, refused exactly when a product or a
partial sum leaves int32 (41_filter_primitives.md R204, R206). -/
def Obligations.FixedSum : Prop :=
  ∀ (F : ScaleFilter) (x : List Int) (c : Nat), x ≠ [] → F.icoef.length = F.fcoef.length →
    let cl := fun t : Int => (clampi t 0 (x.length - 1)).toNat
    let term := fun k : Nat => (F.icoef.getD k 0).toInt *
      x.getD (cl ((c : Int) + k - F.posOffset)) 0
    let sum := fun n : Nat => ((List.range n).map term).sum
    let fits := fun v : Int => -(2 ^ 31) ≤ v ∧ v < 2 ^ 31
    ((∀ k, k < F.icoef.length → fits (term k) ∧ fits (sum (k + 1))) →
      isum F x c = .ok (sum F.icoef.length)) ∧
    (¬ (∀ k, k < F.icoef.length → fits (term k) ∧ fits (sum (k + 1))) →
      isum F x c = .error .int32Overflow)

/-- `MINMAX`: the smallest and the largest sample over the trimmed support; a float NaN there is
refused (41_filter_primitives.md R202; 93_implementation_defined.md U7). That a NaN in a tap the
trim leaves out refuses nothing is the model's reading: R202 and U7 speak of a NaN in the support
(log 11). That between zeros of both signs either may be answered is the model's choice too (log
7). -/
def Obligations.MinMaxOfSupport : Prop :=
  ∀ (F : ScaleFilter) (c trim : Nat), F.fcoef ≠ [] →
    let tr := min trim ((F.fcoef.length - 1) / 2)
    let tap := fun (n k : Nat) => (clampi ((c : Int) + k - F.posOffset) 0 (n - 1)).toNat
    (∀ x : List Int, x ≠ [] → ∃ mn mx, minmaxI F x c trim = (mn, mx) ∧
      (∀ k, tr ≤ k → k < F.fcoef.length - tr →
        mn ≤ x.getD (tap x.length k) 0 ∧ x.getD (tap x.length k) 0 ≤ mx) ∧
      (∃ k, tr ≤ k ∧ k < F.fcoef.length - tr ∧ x.getD (tap x.length k) 0 = mn) ∧
      (∃ k, tr ≤ k ∧ k < F.fcoef.length - tr ∧ x.getD (tap x.length k) 0 = mx)) ∧
    (∀ x : List Fp, x ≠ [] →
      let at' := fun k : Nat => x.getD (tap x.length k) default
      ((∃ k, tr ≤ k ∧ k < F.fcoef.length - tr ∧ (at' k).isNan = true) →
        minmaxF F x c trim = .error .nanOrder) ∧
      ((∀ k, tr ≤ k → k < F.fcoef.length - tr → (at' k).isNan = false) →
        ∃ mn mx, minmaxF F x c trim = .ok (mn, mx) ∧
          (∀ k, tr ≤ k → k < F.fcoef.length - tr → mn.le (at' k) = true ∧ (at' k).le mx = true) ∧
          (∃ k, tr ≤ k ∧ k < F.fcoef.length - tr ∧ (at' k).le mn = true) ∧
          (∃ k, tr ≤ k ∧ k < F.fcoef.length - tr ∧ mx.le (at' k) = true)))

/-- `bound`: level 0 has no window and is the identity; levels 1, 2, 3 trim by `BOUND_TRIM[0]`,
`[1]`, `[2]`, and the float sum is clamped to the extrema of that window, the raw fixed sum to the
extrema times the gain (42_chroma_down.md R237). With the window a command takes the clip bounds
`CR_FMIN`, `CR_FMAX` and the thresholds (10_state.md R38; 41_filter_primitives.md R203, R208). -/
def Obligations.BoundingLevels : Prop :=
  (∀ (s : State) (fi : FrameDesc),
    (crEnv s fi 0).trim = none ∧ (crEnv s fi 1).trim = some s.cfg.boundTrim.1 ∧
    (crEnv s fi 2).trim = some s.cfg.boundTrim.2.1 ∧
    (crEnv s fi 3).trim = some s.cfg.boundTrim.2.2 ∧
    ∀ lvl, (crEnv s fi lvl).fmin = .ofBits32 s.crPar.fmin ∧
      (crEnv s fi lvl).fmax = .ofBits32 s.crPar.fmax ∧
      (crEnv s fi lvl).thrF = .ofBits64 s.cfg.edgeThr ∧
      (crEnv s fi lvl).thrI = s.cfg.edgeInt fi.depth) ∧
  ∀ (e : CrEnv) (F : ScaleFilter) (c : Nat),
    (e.trim = none → (∀ x v, boundF e F x c v = .ok v) ∧ (∀ x v, boundI e F x c v = .ok v)) ∧
    (∀ tr, e.trim = some tr →
      (∀ x v mn mx, minmaxF F x c tr = .ok (mn, mx) → boundF e F x c v =
        .ok (if v.lt mn then mn else if mx.lt v then mx else v)) ∧
      (∀ x v mn mx, minmaxI F x c tr = (mn, mx) →
        (∀ b ∈ [mn * (F.icoef.map BitVec.toInt).sum, mx * (F.icoef.map BitVec.toInt).sum],
          -(2 ^ 31) ≤ b ∧ b < 2 ^ 31) →
        boundI e F x c v = .ok (clampi v (mn * (F.icoef.map BitVec.toInt).sum)
          (mx * (F.icoef.map BitVec.toInt).sum))))

/-- The outputs of the passes. Float: the first pass rounds the bounded sum to binary32, the final
pass clips to `CR_FMIN`, `CR_FMAX` first when the filter clips. Fixed: the first pass is the
bounded raw sum, the final pass adds the offset, shifts arithmetically and always clamps to
`[MINPEL, MAXPEL]`. Clip bounds a clipping filter may not use are refused, and so is a sum with its
offset, raw or bounded, outside int32; of the bounded one that is the model's reading of R206 (log
12) (10_state.md R38; 41_filter_primitives.md R201, R203, R204, R205, R206). -/
def Obligations.PassOutputs : Prop :=
  ∀ (e : CrEnv) (F : ScaleFilter) (c : Nat),
    (∀ x v, boundF e F x c (fsum F x c) = .ok v → firstF e F x c = .ok v.toF32 ∧
      (F.clip = false → finalF e F x c = .ok v.toF32) ∧
      (F.clip = true → boundsOk e.fmin e.fmax = true → finalF e F x c =
        .ok (if v.lt e.fmin then e.fmin else if e.fmax.lt v then e.fmax else v).toF32) ∧
      (F.clip = true → boundsOk e.fmin e.fmax = false → finalF e F x c = .error .clipBounds)) ∧
    (∀ x S, isum F x c = .ok S → firstI e F x c = boundI e F x c S) ∧
    (∀ x v S lo hi, isum F x c = .ok v → boundI e F x c v = .ok S →
      let fits := fun n : Int => -(2 ^ 31) ≤ n + F.ioffset.toInt ∧ n + F.ioffset.toInt < 2 ^ 31
      (fits v → fits S →
        finalI e lo hi F x c = .ok (clampi ((S + F.ioffset.toInt) / 2 ^ F.ishift) lo hi)) ∧
      (¬ (fits v ∧ fits S) → finalI e lo hi F x c = .error .int32Overflow)) ∧
    (∀ x lo hi q, lo ≤ hi → finalI e lo hi F x c = .ok q → lo ≤ q ∧ q ≤ hi)

/-- `SELECT` answers the first candidate whose spread does not exceed the threshold, and the last
one untested, in the fixed and in the float path; the fixed test never fails, the float test only on
a NaN, and the last candidate's samples are not looked at (42_chroma_down.md R241;
41_filter_primitives.md R208). -/
def Obligations.SelectFirstAccepted : Prop :=
  ∀ (c : Nat) (L : List ScaleFilter), L ≠ [] →
    (∀ (thr : Int) (x : List Int),
      let spread := fun q : Nat =>
        (minmaxI (L.getD q filterF0) x c 0).2 - (minmaxI (L.getD q filterF0) x c 0).1
      ∃ q, select (rejectsI thr x c) L = .ok q ∧ q < L.length ∧
        (∀ r, r < q → spread r > thr) ∧ (q + 1 < L.length → ¬ spread q > thr)) ∧
    (∀ (thr : Fp) (x : List Fp) (mm : Nat → Fp × Fp),
      (∀ q, q + 1 < L.length → minmaxF (L.getD q filterF0) x c 0 = .ok (mm q)) →
      ∃ q, select (rejectsF thr x c) L = .ok q ∧ q < L.length ∧
        (∀ r, r < q → thr.lt ((mm r).2.sub (mm r).1) = true) ∧
        (q + 1 < L.length → thr.lt ((mm q).2.sub (mm q).1) = false))

/-- The properties of `SELECT` D0 states: a flat line selects the first candidate, a line that every
candidate but the last rejects selects the last, a one-element list its only element, a spread
equal to the threshold is accepted (42_chroma_down.md R242). -/
def Obligations.SelectProperties : Prop :=
  ∀ (thr : Int) (x : List Int) (c : Nat) (L : List ScaleFilter), L ≠ [] →
    let spread := fun F : ScaleFilter => (minmaxI F x c 0).2 - (minmaxI F x c 0).1
    (0 ≤ thr → (∀ F ∈ L, spread F = 0) → select (rejectsI thr x c) L = .ok 0) ∧
    ((∀ F ∈ L.dropLast, spread F > thr) → select (rejectsI thr x c) L = .ok (L.length - 1)) ∧
    (L.length = 1 → select (rejectsI thr x c) L = .ok 0) ∧
    (spread (L.headD filterF0) = thr → select (rejectsI thr x c) L = .ok 0)

/-- The Adaptive choice on a line: the output is the line of a candidate whose sum of squared
reconstruction errors is at most every other's, and smaller than every earlier one's; on a float
line the sum is accumulated in index order from +0.0, and a candidate whose sum is a NaN refuses
the command (42_chroma_down.md R246, R247, R248; 93_implementation_defined.md U7). -/
def Obligations.AdaptivePicksBest : Prop :=
  ∀ (e : CrEnv) (L : List ScaleFilter) (U : ScaleFilter × ScaleFilter), L ≠ [] →
  (∀ (lo hi : Int) (x y : List Int), adaptI e lo hi L U x = .ok y →
    ∃ (d u : Nat → List Int) (q : Nat), q < L.length ∧ y = d q ∧
      (∀ r, r < L.length →
        downLine (finalI e lo hi (L.getD r filterF0)) x = .ok (d r) ∧
        upLine (fun ph => finalI e lo hi (if ph = 0 then U.1 else U.2)) (d r) = .ok (u r)) ∧
      let dist := fun r : Nat =>
        (((u r).zip x).map fun p => (p.1 - p.2) * (p.1 - p.2)).sum
      (∀ r, r < L.length → dist q ≤ dist r) ∧ (∀ r, r < q → dist q < dist r)) ∧
  ∀ (x : List Fp) (d u : Nat → List Fp),
    (∀ r, r < L.length →
      downLine (finalF e (L.getD r filterF0)) x = .ok (d r) ∧
      upLine (fun ph => finalF e (if ph = 0 then U.1 else U.2)) (d r) = .ok (u r)) →
    let dist := fun r : Nat =>
      ((u r).zip x).foldl (fun acc p => acc.add ((p.1.sub p.2).mul (p.1.sub p.2))) Fp.zero
    ((∃ r, r < L.length ∧ (dist r).isNan = true) → adaptF e L U x = .error .nanOrder) ∧
    ((∀ r, r < L.length → (dist r).isNan = false) →
      ∃ q, q < L.length ∧ adaptF e L U x = .ok (d q) ∧
        (∀ r, r < L.length → (dist q).le (dist r) = true) ∧
        (∀ r, r < q → (dist q).lt (dist r) = true))

/-- A constant float line of a well-formed filter gives back its constant exactly (-0.0 excepted,
which becomes +0.0) (41_filter_primitives.md R192 (W1); 42_chroma_down.md R243). -/
def Obligations.FloatDcPreserved : Prop :=
  ∀ (F : ScaleFilter) (n c : Nat) (w : Word), filterOk F = true → 0 < n →
    (Fp.ofBits32 w).isFinite = true → w ≠ 0x80000000 →
    fsum F (List.replicate n (Fp.ofBits32 w)) c = Fp.ofBits32 w

/-- A constant integer line goes through a first-pass and a final filter of a well-formed chain
unchanged but for the clamp: the first pass carries the gain, the final pass undoes both
(41_filter_primitives.md R192 (W2), (W3); 42_chroma_down.md R243). -/
def Obligations.FixedDcPreserved : Prop :=
  ∀ (e : CrEnv) (fs gs : List ScaleFilter) (A B : ScaleFilter) (n m i j : Nat)
    (k S q lo hi : Int), chainOk fs gs = true → A ∈ fs → B ∈ gs → filterOk A = true →
    filterOk B = true → 0 < n → 0 < m →
    firstI e A (List.replicate n k) i = .ok S →
    finalI e lo hi B (List.replicate m S) j = .ok q →
    S = k * (A.icoef.map BitVec.toInt).sum ∧ q = clampi k lo hi

/-- The default tables: no primaries code has an XYZ mode, and in every instance the reserved codes
9 to 15 have none; `FBANK` is defined at least for both selects 0, where the Generic members are
`F0` in every field R196 gives; the edge thresholds, the trims and the sizes (00_scope.md R7;
40_color_transform.md R153; 41_filter_primitives.md R196, R197, R208). -/
def Obligations.DefaultTables : Prop :=
  (∀ cp, Tables.default.xyzMode cp = 0) ∧ (∀ (t : Tables) (cp : Nat), 8 < cp → t.xyzMode cp = 0) ∧
  (∀ (t : Tables) (loc : BitVec 3), loc.toNat ≤ 5 →
    let isF0 := fun F : ScaleFilter =>
      F.fcoef = [0x3F800000] ∧ F.icoef = [1] ∧ F.posOffset = 0 ∧ F.clip = false ∧
        F.fscale = 0x3F800000 ∧ F.ishift = 0 ∧ F.ioffset = 0
    ∃ b A B C D, t.bank loc 0 0 = some b ∧ b.gdh = some A ∧ b.gdv = some B ∧ b.guh = some C ∧
      b.guv = some D ∧ ∀ F ∈ [A, B, C.1, C.2, D.1, D.2], isF0 F) ∧
  (∀ b, b ≤ 16 → Tables.default.edgeInt b = 15 * (2 ^ b - 1) / 100) ∧
  Tables.default.edgeInt 8 = 38 ∧ Tables.default.edgeInt 10 = 153 ∧
  Tables.default.edgeInt 16 = 9830 ∧ Tables.default.edgeThr = 0x3FC3333333333333 ∧
  Tables.default.boundTrim = (0, 1, 2) ∧ Tables.default.nfd = 4 ∧ Tables.default.aw = 32 ∧
  Tables.default.maxSamples = 2 ^ 28 ∧ Tables.default.nModes = 7 ∧
  Tables.default.noopSetsFrameNo = false ∧ Tables.default.dotKind = .leftToRight

/-! ## The chroma-resampling unit: conversions -/

/-- `CR.DN.GEN` with filters `H`, `V` in the bank: when the preamble passes and every per-sample rule
gives a value, the command completes, the chroma planes are those of the two-pass skeleton, luma
is copied, and nothing else changes (41_filter_primitives.md R212; 42_chroma_down.md R230, R232,
R236). -/
def Obligations.CrDnGenConverts : Prop :=
  ∀ (s : State) (fdo fdi : BitVec 4) (lvl : BitVec 8) (b : FilterBank) (H V : ScaleFilter),
    s.hasSlot fdo = true → s.hasSlot fdi = true → levelOk lvl = true →
    s.crReady false (slotIdx fdo) (slotIdx fdi) → s.crBank = some b →
    b.gdh = some H → b.gdv = some V →
    let fo := s.slot (slotIdx fdo)
    let fi := s.slot (slotIdx fdi)
    let w := fi.w 0
    let h := fi.h 0
    let e := crEnv s fi lvl.toNat
    (∀ out : Fin 4 → Nat → Nat → Int, fi.isFloat = false →
      (∀ p : Fin 4, p = 1 ∨ p = 2 → DownSkeleton (firstI e H) (finalI e (fo.lo p) (fo.hi p) V) w h
        (s.rowI fi p) (out p)) →
      ∃ t, exec (.crDnGen fdo fdi lvl) s = .next t ∧
        Converted s t (slotIdx fdo) (slotIdx fdi) ∧ ChromaIs t fo (w / 2) (h / 2) out) ∧
    (∀ out : Fin 4 → Nat → Nat → Fp, fi.isFloat = true →
      (∀ p : Fin 4, p = 1 ∨ p = 2 → DownSkeleton (firstF e H) (finalF e V) w h (s.rowF fi p) (out p)) →
      ∃ t, exec (.crDnGen fdo fdi lvl) s = .next t ∧
        Converted s t (slotIdx fdo) (slotIdx fdi) ∧ ChromaIsF t fo (w / 2) (h / 2) out)

/-- `CR.DN.BND`: the skeleton with a candidate selected for each sample; thresholds `EDGE_THR`, and
`EDGE_THR_INT` then that times the gain `G1` of the first-pass list (42_chroma_down.md R240;
41_filter_primitives.md R208, R212). -/
def Obligations.CrDnBndConverts : Prop :=
  ∀ (s : State) (fdo fdi : BitVec 4) (b : FilterBank),
    s.hasSlot fdo = true → s.hasSlot fdi = true →
    s.crReady false (slotIdx fdo) (slotIdx fdi) → s.crBank = some b → b.bdh ≠ [] → b.bdv ≠ [] →
    let fo := s.slot (slotIdx fdo)
    let fi := s.slot (slotIdx fdi)
    let w := fi.w 0
    let h := fi.h 0
    let e := crEnv s fi 0
    let g1 := ((b.bdh.headD filterF0).icoef.map BitVec.toInt).sum
    let thr : Int := s.cfg.edgeInt fi.depth
    (∀ out : Fin 4 → Nat → Nat → Int, fi.isFloat = false → -(2 ^ 31) ≤ thr * g1 →
      thr * g1 < 2 ^ 31 →
      (∀ p : Fin 4, p = 1 ∨ p = 2 → DownSkeleton
        (fun x c => match select (rejectsI thr x c) b.bdh with
          | .ok q => firstI e (b.bdh.getD q filterF0) x c
          | .error r => .error r)
        (fun x c => match select (rejectsI (thr * g1) x c) b.bdv with
          | .ok q => finalI e (fo.lo p) (fo.hi p) (b.bdv.getD q filterF0) x c
          | .error r => .error r) w h (s.rowI fi p) (out p)) →
      ∃ t, exec (.crDnBnd fdo fdi) s = .next t ∧
        Converted s t (slotIdx fdo) (slotIdx fdi) ∧ ChromaIs t fo (w / 2) (h / 2) out) ∧
    (∀ out : Fin 4 → Nat → Nat → Fp, fi.isFloat = true →
      (∀ p : Fin 4, p = 1 ∨ p = 2 → DownSkeleton
        (fun x c => match select (rejectsF (.ofBits64 s.cfg.edgeThr) x c) b.bdh with
          | .ok q => firstF e (b.bdh.getD q filterF0) x c
          | .error r => .error r)
        (fun x c => match select (rejectsF (.ofBits64 s.cfg.edgeThr) x c) b.bdv with
          | .ok q => finalF e (b.bdv.getD q filterF0) x c
          | .error r => .error r) w h (s.rowF fi p) (out p)) →
      ∃ t, exec (.crDnBnd fdo fdi) s = .next t ∧
        Converted s t (slotIdx fdo) (slotIdx fdi) ∧ ChromaIsF t fo (w / 2) (h / 2) out)

/-- `CR.DN.ADP`: each pass chooses one candidate per line, in the sample domain (42_chroma_down.md
R245, R246; 41_filter_primitives.md R212). -/
def Obligations.CrDnAdpConverts : Prop :=
  ∀ (s : State) (fdo fdi : BitVec 4) (b : FilterBank) (UH UV : ScaleFilter × ScaleFilter),
    s.hasSlot fdo = true → s.hasSlot fdi = true →
    s.crReady false (slotIdx fdo) (slotIdx fdi) → s.crBank = some b →
    b.adh.length = 5 → b.adv.length = 5 → b.auh = some UH → b.auv = some UV →
    let fo := s.slot (slotIdx fdo)
    let fi := s.slot (slotIdx fdi)
    let w := fi.w 0
    let h := fi.h 0
    let e := crEnv s fi 0
    (∀ out : Fin 4 → Nat → Nat → Int, fi.isFloat = false →
      (∀ p : Fin 4, p = 1 ∨ p = 2 → LineSkeleton (adaptI e (fo.lo p) (fo.hi p) b.adh UH)
        (adaptI e (fo.lo p) (fo.hi p) b.adv UV) w h (s.rowI fi p) (out p)) →
      ∃ t, exec (.crDnAdp fdo fdi) s = .next t ∧
        Converted s t (slotIdx fdo) (slotIdx fdi) ∧ ChromaIs t fo (w / 2) (h / 2) out) ∧
    (∀ out : Fin 4 → Nat → Nat → Fp, fi.isFloat = true →
      (∀ p : Fin 4, p = 1 ∨ p = 2 → LineSkeleton (adaptF e b.adh UH) (adaptF e b.adv UV) w h
        (s.rowF fi p) (out p)) →
      ∃ t, exec (.crDnAdp fdo fdi) s = .next t ∧
        Converted s t (slotIdx fdo) (slotIdx fdi) ∧ ChromaIsF t fo (w / 2) (h / 2) out)

/-- `CR.UP.GEN` with the phase pairs `V`, `H` in the bank: vertical pass first, then horizontal
(43_chroma_up.md R270, R271, R273; 41_filter_primitives.md R212). -/
def Obligations.CrUpGenConverts : Prop :=
  ∀ (s : State) (fdo fdi : BitVec 4) (lvl : BitVec 8) (b : FilterBank)
    (H V : ScaleFilter × ScaleFilter), s.hasSlot fdo = true → s.hasSlot fdi = true →
    levelOk lvl = true → s.crReady true (slotIdx fdo) (slotIdx fdi) → s.crBank = some b →
    b.guh = some H → b.guv = some V →
    let fo := s.slot (slotIdx fdo)
    let fi := s.slot (slotIdx fdi)
    let w := fi.w 0
    let h := fi.h 0
    let e := crEnv s fi lvl.toNat
    (∀ out : Fin 4 → Nat → Nat → Int, fi.isFloat = false →
      (∀ p : Fin 4, p = 1 ∨ p = 2 → UpSkeleton (fun ph => firstI e (if ph = 0 then V.1 else V.2))
        (fun ph => finalI e (fo.lo p) (fo.hi p) (if ph = 0 then H.1 else H.2)) w h
        (s.colI fi p) (out p)) →
      ∃ t, exec (.crUpGen fdo fdi lvl) s = .next t ∧
        Converted s t (slotIdx fdo) (slotIdx fdi) ∧ ChromaIs t fo w h out) ∧
    (∀ out : Fin 4 → Nat → Nat → Fp, fi.isFloat = true →
      (∀ p : Fin 4, p = 1 ∨ p = 2 → UpSkeleton (fun ph => firstF e (if ph = 0 then V.1 else V.2))
        (fun ph => finalF e (if ph = 0 then H.1 else H.2)) w h (s.colF fi p) (out p)) →
      ∃ t, exec (.crUpGen fdo fdi lvl) s = .next t ∧
        Converted s t (slotIdx fdo) (slotIdx fdi) ∧ ChromaIsF t fo w h out)

/-- `CR.UP.BND`: as `CR.UP.GEN` with a candidate selected for each sample from the list of its phase
(43_chroma_up.md R277; 41_filter_primitives.md R208, R212). -/
def Obligations.CrUpBndConverts : Prop :=
  ∀ (s : State) (fdo fdi : BitVec 4) (b : FilterBank),
    s.hasSlot fdo = true → s.hasSlot fdi = true →
    s.crReady true (slotIdx fdo) (slotIdx fdi) → s.crBank = some b →
    b.buv.1 ≠ [] → b.buv.2 ≠ [] → b.buh.1 ≠ [] → b.buh.2 ≠ [] →
    let fo := s.slot (slotIdx fdo)
    let fi := s.slot (slotIdx fdi)
    let w := fi.w 0
    let h := fi.h 0
    let e := crEnv s fi 0
    let g1 := ((b.buv.1.headD filterF0).icoef.map BitVec.toInt).sum
    let thr : Int := s.cfg.edgeInt fi.depth
    let V := fun ph : Nat => if ph = 0 then b.buv.1 else b.buv.2
    let H := fun ph : Nat => if ph = 0 then b.buh.1 else b.buh.2
    (∀ out : Fin 4 → Nat → Nat → Int, fi.isFloat = false → -(2 ^ 31) ≤ thr * g1 →
      thr * g1 < 2 ^ 31 →
      (∀ p : Fin 4, p = 1 ∨ p = 2 → UpSkeleton
        (fun ph x c => match select (rejectsI thr x c) (V ph) with
          | .ok q => firstI e ((V ph).getD q filterF0) x c
          | .error r => .error r)
        (fun ph x c => match select (rejectsI (thr * g1) x c) (H ph) with
          | .ok q => finalI e (fo.lo p) (fo.hi p) ((H ph).getD q filterF0) x c
          | .error r => .error r) w h (s.colI fi p) (out p)) →
      ∃ t, exec (.crUpBnd fdo fdi) s = .next t ∧
        Converted s t (slotIdx fdo) (slotIdx fdi) ∧ ChromaIs t fo w h out) ∧
    (∀ out : Fin 4 → Nat → Nat → Fp, fi.isFloat = true →
      (∀ p : Fin 4, p = 1 ∨ p = 2 → UpSkeleton
        (fun ph x c => match select (rejectsF (.ofBits64 s.cfg.edgeThr) x c) (V ph) with
          | .ok q => firstF e ((V ph).getD q filterF0) x c
          | .error r => .error r)
        (fun ph x c => match select (rejectsF (.ofBits64 s.cfg.edgeThr) x c) (H ph) with
          | .ok q => finalF e ((H ph).getD q filterF0) x c
          | .error r => .error r) w h (s.colF fi p) (out p)) →
      ∃ t, exec (.crUpBnd fdo fdi) s = .next t ∧
        Converted s t (slotIdx fdo) (slotIdx fdi) ∧ ChromaIsF t fo w h out)

/-- No conversion needs luck to complete. Fixed path: with filters whose absolute coefficients sum to
at most 128 and modest offsets, no number leaves int32, so each of the five commands completes
whatever the samples are. Float path: the Generic converters complete at level 0 whatever the
samples are, once the clip bounds are good where the final filter clips
(41_filter_primitives.md R203, R206, R212; 42_chroma_down.md R236, R240, R245; 43_chroma_up.md
R273, R277). -/
def Obligations.ConversionsComplete : Prop :=
  ∀ (s : State) (fdo fdi : BitVec 4) (lvl : BitVec 8) (b : FilterBank), s.hasSlot fdo = true →
    s.hasSlot fdi = true → levelOk lvl = true → s.crBank = some b →
    let fi := s.slot (slotIdx fdi)
    let completes := fun i : Instr =>
      ∃ t, exec i s = .next t ∧ Converted s t (slotIdx fdo) (slotIdx fdi)
    let boundsGood := boundsOk (.ofBits32 s.crPar.fmin) (.ofBits32 s.crPar.fmax)
    (fi.isFloat = false → s.cfg.edgeInt fi.depth < 2 ^ 16 →
      (∀ F ∈ bankFilters b, (F.icoef.map fun k => k.toInt.natAbs).sum ≤ 128 ∧
        F.ioffset.toInt.natAbs ≤ 2 ^ 24) →
      (s.crReady false (slotIdx fdo) (slotIdx fdi) →
        (b.gdh.isSome = true → b.gdv.isSome = true → completes (.crDnGen fdo fdi lvl)) ∧
        (b.bdh ≠ [] → b.bdv ≠ [] → completes (.crDnBnd fdo fdi)) ∧
        (b.adh.length = 5 → b.adv.length = 5 → b.auh.isSome = true → b.auv.isSome = true →
          completes (.crDnAdp fdo fdi))) ∧
      (s.crReady true (slotIdx fdo) (slotIdx fdi) →
        (b.guh.isSome = true → b.guv.isSome = true → completes (.crUpGen fdo fdi lvl)) ∧
        (b.buh.1 ≠ [] → b.buh.2 ≠ [] → b.buv.1 ≠ [] → b.buv.2 ≠ [] →
          completes (.crUpBnd fdo fdi)))) ∧
    (fi.isFloat = true → lvl = 0 →
      (s.crReady false (slotIdx fdo) (slotIdx fdi) →
        ∀ H V, b.gdh = some H → b.gdv = some V → (V.clip = true → boundsGood = true) →
          completes (.crDnGen fdo fdi lvl)) ∧
      (s.crReady true (slotIdx fdo) (slotIdx fdi) →
        ∀ H V, b.guh = some H → b.guv = some V →
          (H.1.clip = true ∨ H.2.clip = true → boundsGood = true) →
          completes (.crUpGen fdo fdi lvl)))

/-- `CR.DN.GEN` with preset `F0`: every second sample of every second row, -0.0 becoming +0.0 in the
float path, clamped in the fixed path; at every bounding level, but for float frames with a NaN
among the samples read, the even columns, at levels 1 to 3 (42_chroma_down.md R236, R237;
93_implementation_defined.md U7). -/
def Obligations.CrDnGenNearest : Prop :=
  ∀ (s : State) (fdo fdi : BitVec 4) (lvl : BitVec 8), s.hasSlot fdo = true → s.hasSlot fdi = true →
    levelOk lvl = true → s.crReady false (slotIdx fdo) (slotIdx fdi) →
    s.crBank.isSome = true → s.crObj.dn = 0 →
    let fo := s.slot (slotIdx fdo)
    let fi := s.slot (slotIdx fdi)
    let w := fi.w 0
    let src := fun y x : Nat => 2 * y * w + 2 * x
    (fi.isFloat = true → lvl = 0 ∨ ∀ p : Fin 4, p = 1 ∨ p = 2 → ∀ y, y < fi.h 0 → ∀ x, x < w / 2 →
      (s.value fi p (y * w + 2 * x)).isNan = false) →
    ∃ t, exec (.crDnGen fdo fdi lvl) s = .next t ∧ Converted s t (slotIdx fdo) (slotIdx fdi) ∧
      (fi.isFloat = false → ChromaIs t fo (w / 2) (fi.h 0 / 2)
        fun p y x => clampi (s.num fi p (src y x)) (fo.lo p) (fo.hi p)) ∧
      (fi.isFloat = true → ChromaIsF t fo (w / 2) (fi.h 0 / 2)
        fun p y x => if s.value fi p (src y x) = .fin true 0 then .zero
          else s.value fi p (src y x))

/-- `CR.UP.GEN` with preset `F0`: sample replication, with the same provisos; here every chroma
sample is read (43_chroma_up.md R273; 93_implementation_defined.md U7). -/
def Obligations.CrUpGenReplicates : Prop :=
  ∀ (s : State) (fdo fdi : BitVec 4) (lvl : BitVec 8), s.hasSlot fdo = true → s.hasSlot fdi = true →
    levelOk lvl = true → s.crReady true (slotIdx fdo) (slotIdx fdi) →
    s.crBank.isSome = true → s.crObj.up = 0 →
    let fo := s.slot (slotIdx fdo)
    let fi := s.slot (slotIdx fdi)
    let w := fi.w 0
    let src := fun y x : Nat => y / 2 * (w / 2) + x / 2
    (fi.isFloat = true → lvl = 0 ∨ ∀ p : Fin 4, p = 1 ∨ p = 2 → ∀ n, n < fi.count p →
      (s.value fi p n).isNan = false) →
    ∃ t, exec (.crUpGen fdo fdi lvl) s = .next t ∧ Converted s t (slotIdx fdo) (slotIdx fdi) ∧
      (fi.isFloat = false → ChromaIs t fo w (fi.h 0)
        fun p y x => clampi (s.num fi p (src y x)) (fo.lo p) (fo.hi p)) ∧
      (fi.isFloat = true → ChromaIsF t fo w (fi.h 0)
        fun p y x => if s.value fi p (src y x) = .fin true 0 then .zero
          else s.value fi p (src y x))

/-- A conversion reads of the parameter registers only `CR_FMIN` and `CR_FMAX`: the location and the
selects matter only to `CR.SETUP`, and nothing of the CTU matters (10_state.md R36, R37, R50;
70_reset_and_hazards.md R370). -/
def Obligations.ConversionsReadOnlyTheirLatches : Prop :=
  ∀ (s t : State) (fdo fdi : BitVec 4) (lvl : BitVec 8) (p : CrParams) (c : CtParams)
    (o : CtObject) (m : Mat3), p.fmin = s.crPar.fmin → p.fmax = s.crPar.fmax →
    ∀ i ∈ conversionCommands fdo fdi lvl, exec i s = .next t →
      exec i { s with crPar := p, ctPar := c, ctObj := o, mres := m } =
        .next { t with crPar := p, ctPar := c, ctObj := o, mres := m }

/-! ## Whole-machine rules -/

/-- The frame of the six commands with frames, whatever they answer short of a stop: no byte outside
planes 0 to 2 of the output frame changes, no slot but the output slot, and of that slot only
`FRAMENO` and `AVAIL`, plane 3 included in what stays (10_state.md R40, R44;
40_color_transform.md R149). -/
def Obligations.FrameCommandsKeepTheRest : Prop :=
  ∀ (s t : State) (fdo fdi : BitVec 4) (lvl : BitVec 8),
    ∀ i ∈ .ctProc fdo fdi :: conversionCommands fdo fdi lvl, exec i s = .next t →
      let o := slotIdx fdo
      (∀ a, ¬ (s.slot o).covers a → t.mem.read a = s.mem.read a) ∧
      (∀ x, x ≠ o → t.slot x = s.slot x) ∧
      (t.slot o = s.slot o ∨ t.slot o = { s.slot o with
        frameNo := (s.slot (slotIdx fdi)).frameNo, fmt := (s.slot o).fmt ||| 0x80000000 }) ∧
      t.ctPar = s.ctPar ∧ t.ctObj = s.ctObj ∧ t.mres = s.mres ∧ t.crPar = s.crPar ∧
      t.crObj.loc = s.crObj.loc ∧ t.crObj.dn = s.crObj.dn ∧ t.crObj.up = s.crObj.up ∧
      t.cfg = s.cfg ∧ t.pending = s.pending ∧ t.busData = s.busData

/-- Who writes what: only `CT.SETUP` and reset change the CTU's cache, only `CT.GETM`, `CT.GETY` and
reset change `MRES`, only `CR.SETUP` and reset change the CRU's latches, nothing changes the
tables (10_state.md R32 to R35, R49, R57, R58). -/
def Obligations.WhoWritesWhat : Prop :=
  ∀ s t : State, step s = .next t →
    let isReset := s.pending.head? = some .reset
    let runs := fun P : Instr → Prop => ∃ w i, decode w = .ok i ∧ P i ∧
      s.pending.head? = some (.regWrite .word 0x004 w)
    (t.ctObj ≠ s.ctObj → isReset ∨ runs (· = .ctSetup)) ∧
    (t.mres ≠ s.mres → isReset ∨ runs fun i => ∃ cp, i = .ctGetm cp ∨ i = .ctGety cp) ∧
    (t.crObj.loc ≠ s.crObj.loc ∨ t.crObj.dn ≠ s.crObj.dn ∨ t.crObj.up ≠ s.crObj.up →
      isReset ∨ runs (· = .crSetup)) ∧
    t.cfg = s.cfg

/-- Every step keeps the invariant of the machine: canonical memory, a matrix table within R132 and
R133 (agreement up to log 3), reserved bits 0, a legal `CAUSE`, a consistent CTU cache, a defined
bank and a consistent size lock (10_state.md R22, R32, R34, R39, R41, R50; 40_color_transform.md
R132, R133, R138, R139; 41_filter_primitives.md R198; 60_exceptions.md R321, R335). -/
def Obligations.StepKeepsInv : Prop :=
  ∀ s t : State, s.Inv → step s = .next t → t.Inv

/-- The reset state has the invariant. -/
def Obligations.ResetHasInv : Prop := State.reset.Inv
end

