-- ==== Sys2Proof/Laws/Memory.lean ====
section
/-!
SUPPORT. The laws of sample memory: what a read gives after a write, and that every memory operation
keeps the canonical form.
-/

namespace Sys2Proof.Machine

open Sys2Proof

variable {aw : Nat}

/-! ## One byte -/

@[simp] theorem Memory.read_write_same (m : Memory) (a : Nat) (x : Byte) :
    (m.write a x).read a = some x := by
  induction m with
  | nil => simp [Memory.write, Memory.read]
  | cons c m ih =>
    obtain ⟨b, v⟩ := c
    unfold Memory.write
    split
    · simp [Memory.read]
    · split
      · simp [Memory.read]
      · simp [Memory.read, *]

theorem Memory.read_write_other (m : Memory) {a b : Nat} (h : b ≠ a) (x : Byte) :
    (m.write a x).read b = m.read b := by
  induction m with
  | nil => simp [Memory.write, Memory.read, h]
  | cons c m ih =>
    obtain ⟨b', v⟩ := c
    unfold Memory.write
    split
    · simp [Memory.read, h]
    · split
      · subst_vars; simp [Memory.read, h]
      · simp only [Memory.read, ih]

theorem Memory.read_write (m : Memory) (a b : Nat) (x : Byte) :
    (m.write a x).read b = if b = a then some x else m.read b := by
  split
  · subst_vars; exact Memory.read_write_same ..
  · exact Memory.read_write_other m ‹_› x

/-! ## The canonical form -/

/-- Every address of the list is above `a`. -/
def Memory.above (a : Nat) (m : Memory) : Prop := ∀ c ∈ m, a < c.1

theorem Memory.wf_cons {a : Nat} {v : Byte} {m : Memory} :
    Memory.wf aw ((a, v) :: m) = true ↔ a < 2 ^ aw ∧ Memory.above a m ∧ m.wf aw = true := by
  induction m generalizing a v with
  | nil => simp [Memory.wf, Memory.above]
  | cons c m ih =>
    obtain ⟨b, w⟩ := c
    rw [Memory.wf, Bool.and_eq_true, ih]
    simp only [decide_eq_true_eq, Memory.above, List.mem_cons]
    constructor
    · rintro ⟨hab, hb, hm, hw⟩
      refine ⟨by omega, ?_, hb, hm, hw⟩
      rintro c (rfl | hc)
      · exact hab
      · exact lt_trans hab (hm c hc)
    · rintro ⟨_, h, hb, hm, hw⟩
      exact ⟨h (b, w) (.inl rfl), hb, hm, hw⟩

theorem Memory.above_write {m : Memory} {a b : Nat} (h : Memory.above a m) (hb : a < b)
    (x : Byte) : Memory.above a (m.write b x) := by
  induction m with
  | nil => simp [Memory.write, Memory.above, hb]
  | cons c m ih =>
    obtain ⟨d, v⟩ := c
    simp only [Memory.above, List.forall_mem_cons] at h ih
    unfold Memory.write
    split
    · simp only [Memory.above, List.forall_mem_cons]; exact ⟨hb, h⟩
    · split
      · simp only [Memory.above, List.forall_mem_cons]; exact ⟨hb, h.2⟩
      · simp only [Memory.above, List.forall_mem_cons]; exact ⟨h.1, ih h.2⟩

/-- A write keeps the canonical form. -/
theorem Memory.wf_write {m : Memory} (h : m.wf aw = true) {a : Nat} (ha : a < 2 ^ aw) (x : Byte) :
    (m.write a x).wf aw = true := by
  induction m with
  | nil => exact decide_eq_true ha
  | cons c m ih =>
    obtain ⟨b, v⟩ := c
    obtain ⟨hb, hab, hm⟩ := Memory.wf_cons.1 h
    unfold Memory.write
    split
    · rename_i hlt
      refine Memory.wf_cons.2 ⟨ha, ?_, h⟩
      simp only [Memory.above, List.forall_mem_cons]
      exact ⟨hlt, fun c hc => lt_trans hlt (hab c hc)⟩
    · split
      · subst_vars; exact Memory.wf_cons.2 ⟨hb, hab, hm⟩
      · exact Memory.wf_cons.2 ⟨hb, Memory.above_write hab (by omega) x, ih hm⟩

/-! ## Several bytes, little-endian -/

theorem Memory.wf_writeLE {m : Memory} (h : m.wf aw = true) {a n : Nat} (ha : a + n ≤ 2 ^ aw)
    (v : Nat) : (m.writeLE a n v).wf aw = true := by
  induction n generalizing m a v with
  | zero => exact h
  | succ n ih => exact ih (Memory.wf_write h (by omega) _) (by omega) _

/-- A write changes only the bytes written (20_memory.md R78). -/
theorem Memory.read_writeLE_other (m : Memory) {a n b : Nat} (h : b < a ∨ a + n ≤ b) (v : Nat) :
    (m.writeLE a n v).read b = m.read b := by
  induction n generalizing m a v with
  | zero => rfl
  | succ n ih =>
    rw [Memory.writeLE, ih _ (by omega), Memory.read_write_other _ (by omega)]

/-- Byte k of a little-endian write (20_memory.md R71). -/
theorem Memory.read_writeLE (m : Memory) {a n k : Nat} (h : k < n) (v : Nat) :
    (m.writeLE a n v).read (a + k) = some (BitVec.ofNat 8 (v / 256 ^ k)) := by
  induction n generalizing m a v k with
  | zero => omega
  | succ n ih =>
    rw [Memory.writeLE]
    cases k with
    | zero =>
      rw [Nat.add_zero, Memory.read_writeLE_other _ (by omega)]
      simp
    | succ k =>
      have := ih (Memory.write m a (BitVec.ofNat 8 v)) (a := a + 1) (v := v / 256)
        (Nat.lt_of_succ_lt_succ h)
      rw [show a + (k + 1) = a + 1 + k by omega, this, Nat.div_div_eq_div_mul, Nat.pow_succ,
        Nat.mul_comm]

/-- A little-endian read depends only on its bytes. -/
theorem Memory.readLE_congr {m m' : Memory} {a n : Nat}
    (h : ∀ k, k < n → m'.read (a + k) = m.read (a + k)) : m'.readLE a n = m.readLE a n := by
  induction n generalizing a with
  | zero => rfl
  | succ n ih =>
    have h0 := h 0 (by omega)
    have hs := ih (a := a + 1) fun k hk => by
      have := h (k + 1) (by omega)
      rwa [show a + (k + 1) = a + 1 + k by omega] at this
    simp only [Nat.add_zero] at h0
    simp only [Memory.readLE, h0, hs]

/-- What was written is read back (20_memory.md R71). -/
theorem Memory.readLE_writeLE (m : Memory) (a n v : Nat) :
    (m.writeLE a n v).readLE a n = some (v % 256 ^ n) := by
  induction n generalizing m a v with
  | zero => simp [Memory.readLE, Nat.mod_one]
  | succ n ih =>
    rw [Memory.writeLE, Memory.readLE, Memory.read_writeLE_other _ (by omega),
      Memory.read_write_same, ih]
    simp only [BitVec.toNat_ofNat, Option.some.injEq]
    exact (by rw [Nat.pow_succ, Nat.mul_comm, Nat.mod_mul] :
      v % 256 ^ (n + 1) = v % 256 + 256 * (v / 256 % 256 ^ n)).symm

/-- A read succeeds exactly when every byte is written. -/
theorem Memory.readLE_isSome {m : Memory} {a n : Nat} :
    (m.readLE a n).isSome = true ↔ ∀ k, k < n → (m.read (a + k)).isSome = true := by
  induction n generalizing a with
  | zero => simp [Memory.readLE]
  | succ n ih =>
    rw [Memory.readLE]
    constructor
    · intro h k hk
      split at h
      · rename_i b r hb hr
        cases k with
        | zero => simp [hb]
        | succ k =>
          have := (ih (a := a + 1)).1 (by simp [hr]) k (by omega)
          rwa [show a + (k + 1) = a + 1 + k by omega]
      · simp at h
    · intro h
      have h0 := h 0 (by omega)
      have hs := (ih (a := a + 1)).2 fun k hk => by
        have := h (k + 1) (by omega)
        rwa [show a + (k + 1) = a + 1 + k by omega] at this
      simp only [Nat.add_zero] at h0
      obtain ⟨b, hb⟩ := Option.isSome_iff_exists.1 h0
      obtain ⟨r, hr⟩ := Option.isSome_iff_exists.1 hs
      simp [hb, hr]

/-! ## Planes -/

/-- Samples of no byte write nothing. -/
theorem Memory.writeSamples_zero (m : Memory) (a : Nat) (vs : List Nat) :
    m.writeSamples a 0 vs = m := by
  induction vs generalizing a with
  | nil => rfl
  | cons v vs ih => exact ih _

theorem Memory.wf_writeSamples {m : Memory} (h : m.wf aw = true) {a z : Nat} {vs : List Nat}
    (ha : vs.length * z = 0 ∨ a + vs.length * z ≤ 2 ^ aw) :
    (m.writeSamples a z vs).wf aw = true := by
  induction vs generalizing m a with
  | nil => exact h
  | cons v vs ih =>
    have hl : (v :: vs).length * z = vs.length * z + z := by simp [Nat.succ_mul]
    rcases ha with ha | ha
    · obtain rfl : z = 0 := by omega
      rwa [Memory.writeSamples_zero]
    · exact ih (Memory.wf_writeLE h (by omega) v) (.inr (by omega))

theorem Memory.read_writeSamples_other (m : Memory) {a z b : Nat} {vs : List Nat}
    (h : b < a ∨ a + vs.length * z ≤ b) : (m.writeSamples a z vs).read b = m.read b := by
  induction vs generalizing m a with
  | nil => rfl
  | cons v vs ih =>
    have hl : (v :: vs).length * z = vs.length * z + z := by simp [Nat.succ_mul]
    rw [Memory.writeSamples, ih _ (by omega), Memory.read_writeLE_other _ (by omega)]

/-- Sample n of a written plane (20_memory.md R75, R77). -/
theorem Memory.readLE_writeSamples (m : Memory) {a z n : Nat} {vs : List Nat}
    (h : n < vs.length) :
    (m.writeSamples a z vs).readLE (a + n * z) z = some (vs[n] % 256 ^ z) := by
  induction vs generalizing m a n with
  | nil => simp at h
  | cons v vs ih =>
    rw [Memory.writeSamples]
    cases n with
    | zero =>
      simp only [Nat.zero_mul, Nat.add_zero, List.getElem_cons_zero]
      rw [← Memory.readLE_writeLE m a z v]
      exact Memory.readLE_congr fun k hk => Memory.read_writeSamples_other _ (by omega)
    | succ n =>
      have := ih (Memory.writeLE m a z v) (a := a + z) (n := n) (by simpa using h)
      simpa [Nat.succ_mul, Nat.add_assoc, Nat.add_comm z] using this

theorem Memory.readSamples_length {m : Memory} {a z n : Nat} {ws : List Nat}
    (h : m.readSamples a z n = some ws) : ws.length = n := by
  induction n generalizing a ws with
  | zero => simp [Memory.readSamples] at h; simp [← h]
  | succ n ih =>
    rw [Memory.readSamples] at h
    split at h
    · rename_i hvs
      injection h with h
      rw [← h, List.length_cons, ih hvs]
    · simp at h

/-- Sample k of a read plane (20_memory.md R75, R76). -/
theorem Memory.readSamples_getElem {m : Memory} {a z n : Nat} {ws : List Nat}
    (h : m.readSamples a z n = some ws) {k : Nat} (hk : k < ws.length) :
    m.readLE (a + k * z) z = some ws[k] := by
  induction n generalizing a ws k with
  | zero => simp [Memory.readSamples] at h; subst h; simp at hk
  | succ n ih =>
    rw [Memory.readSamples] at h
    split at h
    · rename_i v vs hv hvs
      injection h with h
      subst h
      cases k with
      | zero => simpa using hv
      | succ k =>
        have := ih hvs (k := k) (by simpa using hk)
        simpa [Nat.succ_mul, Nat.add_assoc, Nat.add_comm z] using this
    · simp at h

/-- A plane can be read exactly when each of its samples can. -/
theorem Memory.readSamples_isSome {m : Memory} {a z n : Nat}
    (h : ∀ b, a ≤ b → b < a + n * z → (m.read b).isSome = true) :
    ∃ ws, m.readSamples a z n = some ws := by
  induction n generalizing a with
  | zero => exact ⟨[], rfl⟩
  | succ n ih =>
    have hl : (n + 1) * z = n * z + z := Nat.succ_mul n z
    obtain ⟨ws, hws⟩ := ih (a := a + z) fun b h1 h2 => h b (by omega) (by omega)
    have hv : (m.readLE a z).isSome = true :=
      Memory.readLE_isSome.2 fun k hk => h (a + k) (by omega) (by omega)
    obtain ⟨v, hv⟩ := Option.isSome_iff_exists.1 hv
    exact ⟨v :: ws, by simp [Memory.readSamples, hv, hws]⟩

end Sys2Proof.Machine
end

