-- ==== Sys2Proof/Laws/State.lean ====
section
/-!
SUPPORT. One lemma per field per named update of the state, so that no proof unfolds a record
update.
-/

namespace Sys2Proof.Machine

open Sys2Proof

/-! ## Event entry -/

@[simp] theorem State.raise_status (s : State) (e : Event) :
    (s.raise e).status = s.status.mark e.cls := rfl

@[simp] theorem State.raise_cause (s : State) (e : Event) :
    (s.raise e).cause = e.code := rfl

@[simp] theorem State.raise_ctPar (s : State) (e : Event) :
    (s.raise e).ctPar = s.ctPar := rfl

@[simp] theorem State.raise_ctObj (s : State) (e : Event) :
    (s.raise e).ctObj = s.ctObj := rfl

@[simp] theorem State.raise_mres (s : State) (e : Event) :
    (s.raise e).mres = s.mres := rfl

@[simp] theorem State.raise_crPar (s : State) (e : Event) :
    (s.raise e).crPar = s.crPar := rfl

@[simp] theorem State.raise_crObj (s : State) (e : Event) :
    (s.raise e).crObj = s.crObj := rfl

@[simp] theorem State.raise_fd (s : State) (e : Event) :
    (s.raise e).fd = s.fd := rfl

@[simp] theorem State.raise_mem (s : State) (e : Event) :
    (s.raise e).mem = s.mem := rfl

@[simp] theorem State.raise_cfg (s : State) (e : Event) :
    (s.raise e).cfg = s.cfg := rfl

@[simp] theorem State.raise_pending (s : State) (e : Event) :
    (s.raise e).pending = s.pending := rfl

@[simp] theorem State.raise_busData (s : State) (e : Event) :
    (s.raise e).busData = s.busData := rfl

@[simp] theorem State.raise_draws (s : State) (e : Event) :
    (s.raise e).draws = s.draws := rfl

/-! ## Reset -/

@[simp] theorem State.restart_status (s : State) :
    s.restart.status = State.reset.status := rfl

@[simp] theorem State.restart_cause (s : State) :
    s.restart.cause = State.reset.cause := rfl

@[simp] theorem State.restart_ctPar (s : State) :
    s.restart.ctPar = State.reset.ctPar := rfl

@[simp] theorem State.restart_ctObj (s : State) :
    s.restart.ctObj = State.reset.ctObj := rfl

@[simp] theorem State.restart_mres (s : State) :
    s.restart.mres = State.reset.mres := rfl

@[simp] theorem State.restart_crPar (s : State) :
    s.restart.crPar = State.reset.crPar := rfl

@[simp] theorem State.restart_crObj (s : State) :
    s.restart.crObj = State.reset.crObj := rfl

@[simp] theorem State.restart_fd (s : State) :
    s.restart.fd = State.reset.fd := rfl

@[simp] theorem State.restart_mem (s : State) :
    s.restart.mem = s.mem := rfl

@[simp] theorem State.restart_cfg (s : State) :
    s.restart.cfg = s.cfg := rfl

@[simp] theorem State.restart_pending (s : State) :
    s.restart.pending = s.pending := rfl

@[simp] theorem State.restart_busData (s : State) :
    s.restart.busData = s.busData := rfl

@[simp] theorem State.restart_draws (s : State) :
    s.restart.draws = s.draws := rfl

/-! ## A slot written -/

@[simp] theorem State.setSlot_status (s : State) (x : Fin 4) (g : FrameDesc) :
    (s.setSlot x g).status = s.status := rfl

@[simp] theorem State.setSlot_cause (s : State) (x : Fin 4) (g : FrameDesc) :
    (s.setSlot x g).cause = s.cause := rfl

@[simp] theorem State.setSlot_ctPar (s : State) (x : Fin 4) (g : FrameDesc) :
    (s.setSlot x g).ctPar = s.ctPar := rfl

@[simp] theorem State.setSlot_ctObj (s : State) (x : Fin 4) (g : FrameDesc) :
    (s.setSlot x g).ctObj = s.ctObj := rfl

@[simp] theorem State.setSlot_mres (s : State) (x : Fin 4) (g : FrameDesc) :
    (s.setSlot x g).mres = s.mres := rfl

@[simp] theorem State.setSlot_crPar (s : State) (x : Fin 4) (g : FrameDesc) :
    (s.setSlot x g).crPar = s.crPar := rfl

@[simp] theorem State.setSlot_crObj (s : State) (x : Fin 4) (g : FrameDesc) :
    (s.setSlot x g).crObj = s.crObj := rfl

@[simp] theorem State.setSlot_fd (s : State) (x : Fin 4) (g : FrameDesc) :
    (s.setSlot x g).fd = s.fd.set x.val g x.isLt := rfl

@[simp] theorem State.setSlot_mem (s : State) (x : Fin 4) (g : FrameDesc) :
    (s.setSlot x g).mem = s.mem := rfl

@[simp] theorem State.setSlot_cfg (s : State) (x : Fin 4) (g : FrameDesc) :
    (s.setSlot x g).cfg = s.cfg := rfl

@[simp] theorem State.setSlot_pending (s : State) (x : Fin 4) (g : FrameDesc) :
    (s.setSlot x g).pending = s.pending := rfl

@[simp] theorem State.setSlot_busData (s : State) (x : Fin 4) (g : FrameDesc) :
    (s.setSlot x g).busData = s.busData := rfl

@[simp] theorem State.setSlot_draws (s : State) (x : Fin 4) (g : FrameDesc) :
    (s.setSlot x g).draws = s.draws := rfl

theorem State.slot_setSlot (s : State) (x y : Fin 4) (g : FrameDesc) :
    (s.setSlot x g).slot y = if x = y then g else s.slot y := by
  simp [State.slot, State.setSlot, Vector.get_eq_getElem, Vector.getElem_set, Fin.ext_iff]

@[simp] theorem State.slot_setSlot_same (s : State) (x : Fin 4) (g : FrameDesc) :
    (s.setSlot x g).slot x = g := by simp [State.slot_setSlot]

theorem State.slot_setSlot_other (s : State) {x y : Fin 4} (h : x ≠ y) (g : FrameDesc) :
    (s.setSlot x g).slot y = s.slot y := by simp [State.slot_setSlot, h]

/-! ## A frame committed -/

@[simp] theorem State.commit_status (s : State) (o i : Fin 4) (p q r : List Nat) :
    (s.commit o i p q r).status = s.status := rfl

@[simp] theorem State.commit_cause (s : State) (o i : Fin 4) (p q r : List Nat) :
    (s.commit o i p q r).cause = s.cause := rfl

@[simp] theorem State.commit_ctPar (s : State) (o i : Fin 4) (p q r : List Nat) :
    (s.commit o i p q r).ctPar = s.ctPar := rfl

@[simp] theorem State.commit_ctObj (s : State) (o i : Fin 4) (p q r : List Nat) :
    (s.commit o i p q r).ctObj = s.ctObj := rfl

@[simp] theorem State.commit_mres (s : State) (o i : Fin 4) (p q r : List Nat) :
    (s.commit o i p q r).mres = s.mres := rfl

@[simp] theorem State.commit_crPar (s : State) (o i : Fin 4) (p q r : List Nat) :
    (s.commit o i p q r).crPar = s.crPar := rfl

@[simp] theorem State.commit_crObj (s : State) (o i : Fin 4) (p q r : List Nat) :
    (s.commit o i p q r).crObj = s.crObj := rfl

@[simp] theorem State.commit_fd (s : State) (o i : Fin 4) (p q r : List Nat) :
    (s.commit o i p q r).fd = s.fd.set o.val ((s.slot o).stamp (s.slot i)) o.isLt := rfl

@[simp] theorem State.commit_mem (s : State) (o i : Fin 4) (p q r : List Nat) :
    (s.commit o i p q r).mem = s.mem.writePlanes (s.slot o) p q r := rfl

@[simp] theorem State.commit_cfg (s : State) (o i : Fin 4) (p q r : List Nat) :
    (s.commit o i p q r).cfg = s.cfg := rfl

@[simp] theorem State.commit_pending (s : State) (o i : Fin 4) (p q r : List Nat) :
    (s.commit o i p q r).pending = s.pending := rfl

@[simp] theorem State.commit_busData (s : State) (o i : Fin 4) (p q r : List Nat) :
    (s.commit o i p q r).busData = s.busData := rfl

@[simp] theorem State.commit_draws (s : State) (o i : Fin 4) (p q r : List Nat) :
    (s.commit o i p q r).draws = s.draws + 1 := rfl

theorem State.slot_commit (s : State) (o i x : Fin 4) (p q r : List Nat) :
    (s.commit o i p q r).slot x = if o = x then (s.slot o).stamp (s.slot i) else s.slot x :=
  State.slot_setSlot s o x _

/-! ## CR.SETUP -/

@[simp] theorem crLatch_status (s : State) :
    (crLatch s).status = s.status.setCrValid := rfl

@[simp] theorem crLatch_cause (s : State) :
    (crLatch s).cause = s.cause := rfl

@[simp] theorem crLatch_ctPar (s : State) :
    (crLatch s).ctPar = s.ctPar := rfl

@[simp] theorem crLatch_ctObj (s : State) :
    (crLatch s).ctObj = s.ctObj := rfl

@[simp] theorem crLatch_mres (s : State) :
    (crLatch s).mres = s.mres := rfl

@[simp] theorem crLatch_crPar (s : State) :
    (crLatch s).crPar = s.crPar := rfl

@[simp] theorem crLatch_crObj (s : State) :
    (crLatch s).crObj = ⟨s.crPar.locTop, s.crPar.dnSel, s.crPar.upSel, 0, 0⟩ := rfl

@[simp] theorem crLatch_fd (s : State) :
    (crLatch s).fd = s.fd := rfl

@[simp] theorem crLatch_mem (s : State) :
    (crLatch s).mem = s.mem := rfl

@[simp] theorem crLatch_cfg (s : State) :
    (crLatch s).cfg = s.cfg := rfl

@[simp] theorem crLatch_pending (s : State) :
    (crLatch s).pending = s.pending := rfl

@[simp] theorem crLatch_busData (s : State) :
    (crLatch s).busData = s.busData := rfl

@[simp] theorem crLatch_draws (s : State) :
    (crLatch s).draws = s.draws := rfl

/-! ## The size lock -/

@[simp] theorem lockSize_cause (s : State) (i : Fin 4) : (lockSize s i).cause = s.cause := by
  unfold lockSize; split <;> rfl

@[simp] theorem lockSize_ctPar (s : State) (i : Fin 4) : (lockSize s i).ctPar = s.ctPar := by
  unfold lockSize; split <;> rfl

@[simp] theorem lockSize_ctObj (s : State) (i : Fin 4) : (lockSize s i).ctObj = s.ctObj := by
  unfold lockSize; split <;> rfl

@[simp] theorem lockSize_mres (s : State) (i : Fin 4) : (lockSize s i).mres = s.mres := by
  unfold lockSize; split <;> rfl

@[simp] theorem lockSize_crPar (s : State) (i : Fin 4) : (lockSize s i).crPar = s.crPar := by
  unfold lockSize; split <;> rfl

@[simp] theorem lockSize_fd (s : State) (i : Fin 4) : (lockSize s i).fd = s.fd := by
  unfold lockSize; split <;> rfl

@[simp] theorem lockSize_mem (s : State) (i : Fin 4) : (lockSize s i).mem = s.mem := by
  unfold lockSize; split <;> rfl

@[simp] theorem lockSize_cfg (s : State) (i : Fin 4) : (lockSize s i).cfg = s.cfg := by
  unfold lockSize; split <;> rfl

@[simp] theorem lockSize_pending (s : State) (i : Fin 4) : (lockSize s i).pending = s.pending := by
  unfold lockSize; split <;> rfl

@[simp] theorem lockSize_busData (s : State) (i : Fin 4) : (lockSize s i).busData = s.busData := by
  unfold lockSize; split <;> rfl

@[simp] theorem lockSize_draws (s : State) (i : Fin 4) : (lockSize s i).draws = s.draws := by
  unfold lockSize; split <;> rfl

@[simp] theorem lockSize_slot (s : State) (i x : Fin 4) : (lockSize s i).slot x = s.slot x := by
  unfold lockSize; split <;> rfl

theorem lockSize_of_locked {s : State} (h : s.status.crLocked = true) (i : Fin 4) :
    lockSize s i = s := by simp [lockSize, h]

@[simp] theorem lockSize_crLocked (s : State) (i : Fin 4) :
    (lockSize s i).status.crLocked = true := by
  unfold lockSize; split <;> simp_all [Status.setCrLocked]

/-! ## CT.SETUP and the no-op -/

@[simp] theorem ctResolve_cause (s : State) : (ctResolve s).cause = s.cause := by
  unfold ctResolve; dsimp only; split <;> rfl

@[simp] theorem ctResolve_ctPar (s : State) : (ctResolve s).ctPar = s.ctPar := by
  unfold ctResolve; dsimp only; split <;> rfl

@[simp] theorem ctResolve_mres (s : State) : (ctResolve s).mres = s.mres := by
  unfold ctResolve; dsimp only; split <;> rfl

@[simp] theorem ctResolve_crPar (s : State) : (ctResolve s).crPar = s.crPar := by
  unfold ctResolve; dsimp only; split <;> rfl

@[simp] theorem ctResolve_crObj (s : State) : (ctResolve s).crObj = s.crObj := by
  unfold ctResolve; dsimp only; split <;> rfl

@[simp] theorem ctResolve_fd (s : State) : (ctResolve s).fd = s.fd := by
  unfold ctResolve; dsimp only; split <;> rfl

@[simp] theorem ctResolve_mem (s : State) : (ctResolve s).mem = s.mem := by
  unfold ctResolve; dsimp only; split <;> rfl

@[simp] theorem ctResolve_cfg (s : State) : (ctResolve s).cfg = s.cfg := by
  unfold ctResolve; dsimp only; split <;> rfl

@[simp] theorem ctResolve_pending (s : State) : (ctResolve s).pending = s.pending := by
  unfold ctResolve; dsimp only; split <;> rfl

@[simp] theorem ctResolve_busData (s : State) : (ctResolve s).busData = s.busData := by
  unfold ctResolve; dsimp only; split <;> rfl

@[simp] theorem ctResolve_draws (s : State) : (ctResolve s).draws = s.draws := by
  unfold ctResolve; dsimp only; split <;> rfl

@[simp] theorem ctNoop_cause (s : State) (o i : Fin 4) : (ctNoop s o i).cause = s.cause := by
  unfold ctNoop; dsimp only; split <;> rfl

@[simp] theorem ctNoop_ctPar (s : State) (o i : Fin 4) : (ctNoop s o i).ctPar = s.ctPar := by
  unfold ctNoop; dsimp only; split <;> rfl

@[simp] theorem ctNoop_ctObj (s : State) (o i : Fin 4) : (ctNoop s o i).ctObj = s.ctObj := by
  unfold ctNoop; dsimp only; split <;> rfl

@[simp] theorem ctNoop_mres (s : State) (o i : Fin 4) : (ctNoop s o i).mres = s.mres := by
  unfold ctNoop; dsimp only; split <;> rfl

@[simp] theorem ctNoop_crPar (s : State) (o i : Fin 4) : (ctNoop s o i).crPar = s.crPar := by
  unfold ctNoop; dsimp only; split <;> rfl

@[simp] theorem ctNoop_crObj (s : State) (o i : Fin 4) : (ctNoop s o i).crObj = s.crObj := by
  unfold ctNoop; dsimp only; split <;> rfl

@[simp] theorem ctNoop_mem (s : State) (o i : Fin 4) : (ctNoop s o i).mem = s.mem := by
  unfold ctNoop; dsimp only; split <;> rfl

@[simp] theorem ctNoop_cfg (s : State) (o i : Fin 4) : (ctNoop s o i).cfg = s.cfg := by
  unfold ctNoop; dsimp only; split <;> rfl

@[simp] theorem ctNoop_pending (s : State) (o i : Fin 4) : (ctNoop s o i).pending = s.pending := by
  unfold ctNoop; dsimp only; split <;> rfl

@[simp] theorem ctNoop_busData (s : State) (o i : Fin 4) : (ctNoop s o i).busData = s.busData := by
  unfold ctNoop; dsimp only; split <;> rfl

@[simp] theorem ctNoop_draws (s : State) (o i : Fin 4) : (ctNoop s o i).draws = s.draws := by
  unfold ctNoop; dsimp only; split <;> rfl

@[simp] theorem ctNoop_status (s : State) (o i : Fin 4) :
    (ctNoop s o i).status = s.status.setNoop := by
  unfold ctNoop; dsimp only; split <;> rfl

/-! ## The flags of STATUS -/

@[simp] theorem Status.warn_fatal (f : Status) (w : Bool) : (f.warn w).fatal = f.fatal := rfl

@[simp] theorem Status.warn_cmdErr (f : Status) (w : Bool) : (f.warn w).cmdErr = f.cmdErr := rfl

@[simp] theorem Status.warn_unsup (f : Status) (w : Bool) : (f.warn w).unsup = f.unsup := rfl

@[simp] theorem Status.warn_warnIdent (f : Status) (w : Bool) : (f.warn w).warnIdent = (f.warnIdent || w) := rfl

@[simp] theorem Status.warn_noop (f : Status) (w : Bool) : (f.warn w).noop = f.noop := rfl

@[simp] theorem Status.warn_ctValid (f : Status) (w : Bool) : (f.warn w).ctValid = f.ctValid := rfl

@[simp] theorem Status.warn_crValid (f : Status) (w : Bool) : (f.warn w).crValid = f.crValid := rfl

@[simp] theorem Status.warn_crLocked (f : Status) (w : Bool) : (f.warn w).crLocked = f.crLocked := rfl

@[simp] theorem Status.setNoop_fatal (f : Status) : f.setNoop.fatal = f.fatal := rfl

@[simp] theorem Status.setNoop_cmdErr (f : Status) : f.setNoop.cmdErr = f.cmdErr := rfl

@[simp] theorem Status.setNoop_unsup (f : Status) : f.setNoop.unsup = f.unsup := rfl

@[simp] theorem Status.setNoop_warnIdent (f : Status) : f.setNoop.warnIdent = f.warnIdent := rfl

@[simp] theorem Status.setNoop_noop (f : Status) : f.setNoop.noop = true := rfl

@[simp] theorem Status.setNoop_ctValid (f : Status) : f.setNoop.ctValid = f.ctValid := rfl

@[simp] theorem Status.setNoop_crValid (f : Status) : f.setNoop.crValid = f.crValid := rfl

@[simp] theorem Status.setNoop_crLocked (f : Status) : f.setNoop.crLocked = f.crLocked := rfl

@[simp] theorem Status.setCtValid_fatal (f : Status) : f.setCtValid.fatal = f.fatal := rfl

@[simp] theorem Status.setCtValid_cmdErr (f : Status) : f.setCtValid.cmdErr = f.cmdErr := rfl

@[simp] theorem Status.setCtValid_unsup (f : Status) : f.setCtValid.unsup = f.unsup := rfl

@[simp] theorem Status.setCtValid_warnIdent (f : Status) : f.setCtValid.warnIdent = f.warnIdent := rfl

@[simp] theorem Status.setCtValid_noop (f : Status) : f.setCtValid.noop = f.noop := rfl

@[simp] theorem Status.setCtValid_ctValid (f : Status) : f.setCtValid.ctValid = true := rfl

@[simp] theorem Status.setCtValid_crValid (f : Status) : f.setCtValid.crValid = f.crValid := rfl

@[simp] theorem Status.setCtValid_crLocked (f : Status) : f.setCtValid.crLocked = f.crLocked := rfl

@[simp] theorem Status.setCrValid_fatal (f : Status) : f.setCrValid.fatal = f.fatal := rfl

@[simp] theorem Status.setCrValid_cmdErr (f : Status) : f.setCrValid.cmdErr = f.cmdErr := rfl

@[simp] theorem Status.setCrValid_unsup (f : Status) : f.setCrValid.unsup = f.unsup := rfl

@[simp] theorem Status.setCrValid_warnIdent (f : Status) : f.setCrValid.warnIdent = f.warnIdent := rfl

@[simp] theorem Status.setCrValid_noop (f : Status) : f.setCrValid.noop = f.noop := rfl

@[simp] theorem Status.setCrValid_ctValid (f : Status) : f.setCrValid.ctValid = f.ctValid := rfl

@[simp] theorem Status.setCrValid_crValid (f : Status) : f.setCrValid.crValid = true := rfl

@[simp] theorem Status.setCrValid_crLocked (f : Status) : f.setCrValid.crLocked = false := rfl

@[simp] theorem Status.setCrLocked_fatal (f : Status) : f.setCrLocked.fatal = f.fatal := rfl

@[simp] theorem Status.setCrLocked_cmdErr (f : Status) : f.setCrLocked.cmdErr = f.cmdErr := rfl

@[simp] theorem Status.setCrLocked_unsup (f : Status) : f.setCrLocked.unsup = f.unsup := rfl

@[simp] theorem Status.setCrLocked_warnIdent (f : Status) : f.setCrLocked.warnIdent = f.warnIdent := rfl

@[simp] theorem Status.setCrLocked_noop (f : Status) : f.setCrLocked.noop = f.noop := rfl

@[simp] theorem Status.setCrLocked_ctValid (f : Status) : f.setCrLocked.ctValid = f.ctValid := rfl

@[simp] theorem Status.setCrLocked_crValid (f : Status) : f.setCrLocked.crValid = f.crValid := rfl

@[simp] theorem Status.setCrLocked_crLocked (f : Status) : f.setCrLocked.crLocked = true := rfl

@[simp] theorem Status.clear_fatal (f : Status) (v : Word) : (f.clear v).fatal = f.fatal := rfl

@[simp] theorem Status.clear_cmdErr (f : Status) (v : Word) : (f.clear v).cmdErr = (f.cmdErr && !v.getLsbD 1) := rfl

@[simp] theorem Status.clear_unsup (f : Status) (v : Word) : (f.clear v).unsup = (f.unsup && !v.getLsbD 2) := rfl

@[simp] theorem Status.clear_warnIdent (f : Status) (v : Word) : (f.clear v).warnIdent = (f.warnIdent && !v.getLsbD 3) := rfl

@[simp] theorem Status.clear_noop (f : Status) (v : Word) : (f.clear v).noop = (f.noop && !v.getLsbD 4) := rfl

@[simp] theorem Status.clear_ctValid (f : Status) (v : Word) : (f.clear v).ctValid = f.ctValid := rfl

@[simp] theorem Status.clear_crValid (f : Status) (v : Word) : (f.clear v).crValid = f.crValid := rfl

@[simp] theorem Status.clear_crLocked (f : Status) (v : Word) : (f.clear v).crLocked = f.crLocked := rfl

@[simp] theorem Status.mark_fatal_fatal (f : Status) : (f.mark .fatal).fatal = true := rfl

@[simp] theorem Status.mark_fatal_cmdErr (f : Status) : (f.mark .fatal).cmdErr = f.cmdErr := rfl

@[simp] theorem Status.mark_fatal_unsup (f : Status) : (f.mark .fatal).unsup = f.unsup := rfl

@[simp] theorem Status.mark_fatal_warnIdent (f : Status) : (f.mark .fatal).warnIdent = f.warnIdent := rfl

@[simp] theorem Status.mark_fatal_noop (f : Status) : (f.mark .fatal).noop = f.noop := rfl

@[simp] theorem Status.mark_fatal_ctValid (f : Status) : (f.mark .fatal).ctValid = f.ctValid := rfl

@[simp] theorem Status.mark_fatal_crValid (f : Status) : (f.mark .fatal).crValid = f.crValid := rfl

@[simp] theorem Status.mark_fatal_crLocked (f : Status) : (f.mark .fatal).crLocked = f.crLocked := rfl

@[simp] theorem Status.mark_cmdErr_fatal (f : Status) : (f.mark .cmdErr).fatal = f.fatal := rfl

@[simp] theorem Status.mark_cmdErr_cmdErr (f : Status) : (f.mark .cmdErr).cmdErr = true := rfl

@[simp] theorem Status.mark_cmdErr_unsup (f : Status) : (f.mark .cmdErr).unsup = f.unsup := rfl

@[simp] theorem Status.mark_cmdErr_warnIdent (f : Status) : (f.mark .cmdErr).warnIdent = f.warnIdent := rfl

@[simp] theorem Status.mark_cmdErr_noop (f : Status) : (f.mark .cmdErr).noop = f.noop := rfl

@[simp] theorem Status.mark_cmdErr_ctValid (f : Status) : (f.mark .cmdErr).ctValid = f.ctValid := rfl

@[simp] theorem Status.mark_cmdErr_crValid (f : Status) : (f.mark .cmdErr).crValid = f.crValid := rfl

@[simp] theorem Status.mark_cmdErr_crLocked (f : Status) : (f.mark .cmdErr).crLocked = f.crLocked := rfl

@[simp] theorem Status.mark_unsup_fatal (f : Status) : (f.mark .unsup).fatal = f.fatal := rfl

@[simp] theorem Status.mark_unsup_cmdErr (f : Status) : (f.mark .unsup).cmdErr = f.cmdErr := rfl

@[simp] theorem Status.mark_unsup_unsup (f : Status) : (f.mark .unsup).unsup = true := rfl

@[simp] theorem Status.mark_unsup_warnIdent (f : Status) : (f.mark .unsup).warnIdent = f.warnIdent := rfl

@[simp] theorem Status.mark_unsup_noop (f : Status) : (f.mark .unsup).noop = f.noop := rfl

@[simp] theorem Status.mark_unsup_ctValid (f : Status) : (f.mark .unsup).ctValid = f.ctValid := rfl

@[simp] theorem Status.mark_unsup_crValid (f : Status) : (f.mark .unsup).crValid = f.crValid := rfl

@[simp] theorem Status.mark_unsup_crLocked (f : Status) : (f.mark .unsup).crLocked = f.crLocked := rfl

@[simp] theorem Status.mark_ctValid (f : Status) (c : EventClass) :
    (f.mark c).ctValid = f.ctValid := by cases c <;> rfl

@[simp] theorem Status.mark_crValid (f : Status) (c : EventClass) :
    (f.mark c).crValid = f.crValid := by cases c <;> rfl

@[simp] theorem Status.mark_crLocked (f : Status) (c : EventClass) :
    (f.mark c).crLocked = f.crLocked := by cases c <;> rfl

/-! ## The stamp of an output descriptor -/

@[simp] theorem FrameDesc.stamp_kind (f g : FrameDesc) : (f.stamp g).kind = f.kind := by
  have h : (f.fmt ||| 0x80000000).extractLsb' 0 2 = f.fmt.extractLsb' 0 2 := by
    ext j hj; simp [BitVec.getElem_extractLsb', BitVec.getLsbD_or]
    intro h; have : j = 0 ∨ j = 1 := by omega
    rcases this with rfl | rfl <;> simp at h
  unfold FrameDesc.kind FrameDesc.stamp
  dsimp only
  rw [h]

@[simp] theorem FrameDesc.stamp_frameNo (f g : FrameDesc) : (f.stamp g).frameNo = g.frameNo := rfl

@[simp] theorem FrameDesc.stamp_avail (f g : FrameDesc) : (f.stamp g).avail = true := by
  simp [FrameDesc.avail, FrameDesc.stamp]

@[simp] theorem FrameDesc.stamp_w (f g : FrameDesc) (p : Fin 4) : (f.stamp g).w p = f.w p := rfl

@[simp] theorem FrameDesc.stamp_h (f g : FrameDesc) (p : Fin 4) : (f.stamp g).h p = f.h p := rfl

@[simp] theorem FrameDesc.stamp_count (f g : FrameDesc) (p : Fin 4) : (f.stamp g).count p = f.count p := rfl

@[simp] theorem FrameDesc.stamp_addr (f g : FrameDesc) (p : Fin 4) : (f.stamp g).addr p = f.addr p := rfl

@[simp] theorem FrameDesc.stamp_lo (f g : FrameDesc) (p : Fin 4) : (f.stamp g).lo p = f.lo p := rfl

@[simp] theorem FrameDesc.stamp_hi (f g : FrameDesc) (p : Fin 4) : (f.stamp g).hi p = f.hi p := rfl

end Sys2Proof.Machine
end

