-- ==== Sys2Proof/Laws/Ops.lean ====
section
/-!
SUPPORT. What each shared operation can do, said once: the frame of every command, host duties, planes
read and written, and the possible next states of `CT.PROC`, of the conversion commands and of a
bus operation.
-/

namespace Sys2Proof.Machine

open Sys2Proof

/-! ## The frame of a command -/

theorem command_fatal {s : State} (h : s.status.fatal = true) (i : Instr) (run : Outcome) :
    command i s run = .next s := by simp [command, h]

theorem command_run {s : State} {i : Instr} (h : s.status.fatal = false)
    (hw : s.admits i = true) (run : Outcome) : command i s run = run := by
  simp [command, h, hw]

theorem command_notAdmitted {s : State} {i : Instr} (h : s.status.fatal = false)
    (hw : s.admits i = false) (run : Outcome) : command i s run = .next (s.raise .eRsvd) := by
  simp [command, h, hw]

/-- The next states of a command: ignored, not admitted, or those of its own run. -/
theorem command_next {s t : State} {i : Instr} {run : Outcome} (h : command i s run = .next t) :
    (s.status.fatal = true ∧ t = s) ∨
    (s.status.fatal = false ∧ s.admits i = false ∧ t = s.raise .eRsvd) ∨
    (s.status.fatal = false ∧ s.admits i = true ∧ run = .next t) := by
  unfold command at h
  split at h
  · exact .inl ⟨‹_›, by injection h with h; exact h.symm⟩
  · rename_i hf
    simp only [Bool.not_eq_true] at hf
    split at h
    · exact .inr (.inr ⟨hf, ‹_›, h⟩)
    · rename_i hw
      simp only [Bool.not_eq_true] at hw
      exact .inr (.inl ⟨hf, hw, by injection h with h; exact h.symm⟩)

/-- A slot that exists is one the encoding admits. -/
theorem State.hasSlot_slotOk {s : State} {x : BitVec 4} (h : s.hasSlot x = true) :
    slotOk x = true := by
  have h : x.toNat < min s.cfg.nfd 4 := of_decide_eq_true h
  exact decide_eq_true (by omega)

/-! ## Duties and refusable maps -/

theorem firstProblem_eq_none {ds : List (Bool × Refusal)} :
    firstProblem ds = none ↔ ∀ d ∈ ds, d.1 = true := by
  induction ds with
  | nil => simp [firstProblem]
  | cons d ds ih =>
    obtain ⟨ok, r⟩ := d
    cases ok <;> simp [firstProblem, ih]

/-- `mapE` answers exactly the list of the elements' answers. -/
theorem mapE_eq_ok {α β : Type} {f : α → Except Refusal β} {as : List α} {bs : List β} :
    mapE f as = .ok bs ↔ List.Forall₂ (fun a b => f a = .ok b) as bs := by
  induction as generalizing bs with
  | nil =>
    simp only [mapE, List.forall₂_nil_left_iff]
    constructor
    · intro h; injection h with h; exact h.symm
    · rintro rfl; rfl
  | cons a as ih =>
    rw [mapE, List.forall₂_cons_left_iff]
    constructor
    · intro h
      split at h
      · cases h
      · rename_i b hb
        split at h
        · cases h
        · rename_i bs' hbs
          injection h with h
          exact ⟨b, bs', hb, ih.1 hbs, h.symm⟩
    · rintro ⟨b, bs', hb, hbs, rfl⟩
      simp [hb, ih.2 hbs]

theorem mapE_length {α β : Type} {f : α → Except Refusal β} {as : List α} {bs : List β}
    (h : mapE f as = .ok bs) : bs.length = as.length := (mapE_eq_ok.1 h).length_eq.symm

/-- Where every element answers, `mapE` answers. -/
theorem mapE_map {α β : Type} {f : α → Except Refusal β} {g : α → β} {as : List α}
    (h : ∀ a ∈ as, f a = .ok (g a)) : mapE f as = .ok (as.map g) := by
  induction as with
  | nil => rfl
  | cons a as ih =>
    rw [mapE, h a (by simp), ih fun b hb => h b (by simp [hb])]
    rfl

/-- Where one element is refused, `mapE` is refused. -/
theorem mapE_error {α β : Type} {f : α → Except Refusal β} {as : List α}
    (h : ∃ a ∈ as, ∃ r, f a = .error r) : ∃ r, mapE f as = .error r := by
  induction as with
  | nil => simp at h
  | cons a as ih =>
    rw [mapE]
    cases ha : f a with
    | error r => exact ⟨r, rfl⟩
    | ok b =>
      obtain ⟨c, hc, r, hr⟩ := h
      rcases List.mem_cons.1 hc with rfl | hc
      · rw [ha] at hr; cases hr
      · obtain ⟨q, hq⟩ := ih ⟨c, hc, r, hr⟩
        exact ⟨q, by simp [hq]⟩

/-! ## Tables and `DOT3` -/

/-- Every open entry is within the constraints of 40_color_transform.md R132. -/
theorem openEntry_ok (m : Nat) : (openEntry m).ok = true := by
  unfold openEntry
  split
  · assumption
  · decide +kernel

theorem dot3_leftToRight (t a : V3) : dot3 .leftToRight t a = dotLeft t a := rfl

/-- A `DOT3` that is not stated answers the default's sum or a finite binary64 number within the
error of 00_scope.md R10. -/
theorem dot3_unstated (t a : V3) : dot3 .unstated t a = dotLeft t a ∨
    (t.isFinite = true ∧ a.isFinite = true ∧ (∃ b : DWord, dot3 .unstated t a = .ofBits64 b) ∧
      (dot3 .unstated t a).isFinite = true ∧ nearDot t a (dot3 .unstated t a) = true) := by
  unfold dot3
  dsimp only
  split
  · rename_i h
    simp only [Bool.and_eq_true] at h
    exact .inr ⟨h.1.1.1, h.1.1.2, ⟨_, rfl⟩, h.1.2, h.2⟩
  · exact .inl rfl

/-! ## Planes -/

@[simp] theorem mem_planes {p : Fin 4} : p ∈ planes ↔ p = 0 ∨ p = 1 ∨ p = 2 := by
  simp [planes]

/-- A plane that has been read: its words are its samples (20_memory.md R76). -/
theorem State.readPlane_ok {s : State} {f : FrameDesc} {p : Fin 4} {ws : List Nat}
    (h : s.readPlane f p = .ok ws) :
    ws.length = f.count p ∧ ∀ n (hn : n < ws.length), s.sample f p n = some ws[n] := by
  unfold State.readPlane at h
  split at h
  · rename_i ws' hws
    injection h with h
    subst h
    exact ⟨Memory.readSamples_length hws, fun n hn => Memory.readSamples_getElem hws hn⟩
  · cases h

/-- A plane with a byte that is not written is refused (20_memory.md R72). -/
theorem State.readPlane_unwritten {s : State} {f : FrameDesc} {p : Fin 4} {a : Nat}
    (ha : f.inPlane p a) (hu : s.mem.read a = none) :
    s.readPlane f p = .error .unwrittenByte := by
  obtain ⟨h1, h2⟩ := ha
  unfold FrameDesc.bytes at h2
  have hz : 0 < f.kind.size := Nat.pos_of_ne_zero fun hz => by rw [hz] at h2; omega
  unfold State.readPlane
  split
  · rename_i ws hw
    have hn : (a - f.addr p) / f.kind.size < ws.length := by
      rw [Memory.readSamples_length hw]
      exact Nat.div_lt_of_lt_mul (by rw [Nat.mul_comm]; omega)
    have hs := Memory.readLE_isSome.1 (by rw [Memory.readSamples_getElem hw hn]; rfl)
      ((a - f.addr p) % f.kind.size) (Nat.mod_lt _ hz)
    rw [Nat.add_assoc, Nat.mul_comm, Nat.div_add_mod, Nat.add_sub_cancel' h1, hu] at hs
    cases hs
  · rfl

/-- A written frame can be read (20_memory.md R72). -/
theorem State.readPlane_of_written {s : State} {f : FrameDesc} (h : s.written f) {p : Fin 4}
    (hp : p ∈ planes) : ∃ ws, s.readPlane f p = .ok ws := by
  obtain ⟨ws, hws⟩ := Memory.readSamples_isSome (m := s.mem) (a := f.addr p) (z := f.kind.size)
    (n := f.count p) fun b h1 h2 => h b ⟨p, hp, h1, h2⟩
  exact ⟨ws, by simp [State.readPlane, hws]⟩

/-- Writing the planes of a frame changes no byte outside them (20_memory.md R78). -/
theorem Memory.read_writePlanes_other (m : Memory) {f : FrameDesc} {p0 p1 p2 : List Nat} {b : Nat}
    (h0 : p0.length = f.count 0) (h1 : p1.length = f.count 1) (h2 : p2.length = f.count 2)
    (h : ¬ f.covers b) : (m.writePlanes f p0 p1 p2).read b = m.read b := by
  have out : ∀ p ∈ planes, b < f.addr p ∨ f.addr p + f.count p * f.kind.size ≤ b := by
    intro p hp
    by_contra hc
    exact h ⟨p, hp, by unfold FrameDesc.inPlane FrameDesc.bytes; omega⟩
  unfold Memory.writePlanes
  rw [Memory.read_writeSamples_other _ (by rw [h2]; exact out 2 (by simp)),
    Memory.read_writeSamples_other _ (by rw [h1]; exact out 1 (by simp)),
    Memory.read_writeSamples_other _ (by rw [h0]; exact out 0 (by simp))]

theorem Memory.wf_writePlanes {aw : Nat} {m : Memory} (hm : m.wf aw = true) {f : FrameDesc}
    {p0 p1 p2 : List Nat} (h0 : p0.length = f.count 0) (h1 : p1.length = f.count 1)
    (h2 : p2.length = f.count 2) (hs : f.inSpace aw = true) :
    (m.writePlanes f p0 p1 p2).wf aw = true := by
  have room : ∀ p ∈ planes, f.count p * f.kind.size = 0 ∨
      f.addr p + f.count p * f.kind.size ≤ 2 ^ aw := fun p hp => by
    have h := List.all_eq_true.1 hs p hp
    simp only [FrameDesc.bytes, Bool.or_eq_true, beq_iff_eq] at h
    exact h.imp_right of_decide_eq_true
  unfold Memory.writePlanes
  exact Memory.wf_writeSamples (Memory.wf_writeSamples (Memory.wf_writeSamples hm
    (by rw [h0]; exact room 0 (by simp))) (by rw [h1]; exact room 1 (by simp)))
    (by rw [h2]; exact room 2 (by simp))

theorem disjoint_iff {a la b lb : Nat} :
    disjoint a la b lb = true ↔ la = 0 ∨ lb = 0 ∨ a + la ≤ b ∨ b + lb ≤ a := by
  simp [disjoint, or_assoc]

/-- The word of a plane that the write of another, disjoint plane leaves. -/
theorem Memory.readLE_writeSamples_other (m : Memory) {a z n b lb : Nat} {vs : List Nat}
    (hd : disjoint a (vs.length * z) b lb = true) (hn : b ≤ n) (hz : n + z ≤ b + lb) :
    (m.writeSamples a z vs).readLE n z = m.readLE n z := by
  refine Memory.readLE_congr fun k hk => ?_
  rw [disjoint_iff] at hd
  rcases hd with h | h | h | h
  · have : vs = [] ∨ z = 0 := by
      rcases Nat.mul_eq_zero.1 h with h | h
      · exact .inl (List.length_eq_zero_iff.1 h)
      · exact .inr h
    rcases this with rfl | rfl
    · rfl
    · omega
  · omega
  · exact Memory.read_writeSamples_other _ (by omega)
  · exact Memory.read_writeSamples_other _ (by omega)

/-- Sample n of each plane after the planes of a frame are written (20_memory.md R75, R77). -/
theorem State.sample_commit {s : State} {o i : Fin 4} {P : Fin 4 → List Nat}
    (hl : ∀ p ∈ planes, (P p).length = (s.slot o).count p)
    (hd : ∀ p ∈ planes, ∀ q ∈ planes, p ≠ q →
      disjoint ((s.slot o).addr p) ((s.slot o).bytes p) ((s.slot o).addr q) ((s.slot o).bytes q)
        = true)
    {p : Fin 4} (hp : p ∈ planes) {n : Nat} (hn : n < (P p).length) :
    (s.commit o i (P 0) (P 1) (P 2)).sample (s.slot o) p n =
      some ((P p)[n] % 256 ^ (s.slot o).kind.size) := by
  have key : ∀ (m : Memory) (q : Fin 4), q ∈ planes → p ≠ q →
      (m.writeSamples ((s.slot o).addr q) (s.slot o).kind.size (P q)).readLE
        ((s.slot o).sampleAddr p n) (s.slot o).kind.size =
      m.readLE ((s.slot o).sampleAddr p n) (s.slot o).kind.size := by
    intro m q hq hpq
    refine Memory.readLE_writeSamples_other m (b := (s.slot o).addr p)
      (lb := (s.slot o).bytes p) ?_ ?_ ?_
    · rw [hl q hq]
      have := hd q hq p hp (Ne.symm hpq)
      exact this
    · unfold FrameDesc.sampleAddr; omega
    · unfold FrameDesc.sampleAddr FrameDesc.bytes
      have h1 : (n + 1) * (s.slot o).kind.size ≤ (s.slot o).count p * (s.slot o).kind.size :=
        Nat.mul_le_mul_right _ (by rw [← hl p hp]; omega)
      rw [Nat.succ_mul] at h1
      omega
  have own : ∀ m : Memory,
      (m.writeSamples ((s.slot o).addr p) (s.slot o).kind.size (P p)).readLE
        ((s.slot o).sampleAddr p n) (s.slot o).kind.size =
      some ((P p)[n] % 256 ^ (s.slot o).kind.size) := fun m => Memory.readLE_writeSamples m hn
  simp only [State.sample, State.commit_mem, Memory.writePlanes]
  rcases mem_planes.1 hp with rfl | rfl | rfl
  · rw [key _ 2 (by simp) (by decide), key _ 1 (by simp) (by decide), own]
  · rw [key _ 2 (by simp) (by decide), own]
  · rw [own]

/-! ## Lines -/

theorem downLine_length {α : Type} {out : List α → Nat → Except Refusal α} {x y : List α}
    (h : downLine out x = .ok y) : y.length = x.length / 2 := by
  rw [mapE_length h, List.length_range]

theorem upLine_length {α : Type} {out : Nat → List α → Nat → Except Refusal α} {x y : List α}
    (h : upLine out x = .ok y) : y.length = 2 * x.length := by
  rw [mapE_length h, List.length_range]

@[simp] theorem columns_length {α : Type} [Inhabited α] (n : Nat) (rows : List (List α)) :
    (columns n rows).length = n := by simp [columns]

theorem columns_row_length {α : Type} [Inhabited α] {n : Nat} {rows : List (List α)}
    {r : List α} (h : r ∈ columns n rows) : r.length = rows.length := by
  simp only [columns, List.mem_map] at h
  obtain ⟨_, _, rfl⟩ := h
  simp

theorem flatten_length {α : Type} {n : Nat} {rows : List (List α)}
    (h : ∀ r ∈ rows, r.length = n) : rows.flatten.length = rows.length * n := by
  induction rows with
  | nil => simp
  | cons r rows ih =>
    rw [List.flatten_cons, List.length_append, h r (by simp), ih fun q hq => h q (by simp [hq]),
      List.length_cons, Nat.succ_mul, Nat.add_comm]

/-- A plane converted downwards has `wOut * hOut` samples. -/
theorem horizontalThenVertical_length {α : Type} [Inhabited α] {p : Passes α} {wOut hOut : Nat}
    {rows : List (List α)} {out : List α}
    (h : horizontalThenVertical p wOut hOut rows = .ok out) : out.length = hOut * wOut := by
  unfold horizontalThenVertical at h
  split at h
  · cases h
  · split at h
    · cases h
    · rename_i cols hcols
      injection h with h
      subst h
      rw [flatten_length fun r hr => columns_row_length hr, columns_length, mapE_length hcols,
        columns_length]

/-- A plane converted upwards by passes whose final pass doubles a line has `hOut * (2 wIn)`
samples. -/
theorem verticalThenHorizontal_length {α : Type} [Inhabited α] {p : Passes α} {wIn hOut : Nat}
    {rows : List (List α)} {out : List α}
    (hp : ∀ x y, p.final x = .ok y → y.length = 2 * x.length)
    (h : verticalThenHorizontal p wIn hOut rows = .ok out) : out.length = hOut * (2 * wIn) := by
  unfold verticalThenHorizontal at h
  split at h
  · cases h
  · rename_i cols hcols
    split at h
    · cases h
    · rename_i rs hrs
      injection h with h
      subst h
      have hc : cols.length = wIn := by rw [mapE_length hcols, columns_length]
      rw [flatten_length (n := 2 * wIn), mapE_length hrs, columns_length]
      intro r hr
      obtain ⟨k, hk, rfl⟩ := List.getElem_of_mem hr
      have h2 := mapE_eq_ok.1 hrs
      have h3 := (List.forall₂_iff_get.1 h2).2 k (by rw [mapE_length hrs] at hk; exact hk) hk
      simp only [List.get_eq_getElem] at h3
      rw [hp _ _ h3, columns_row_length (List.getElem_mem _), hc]

end Sys2Proof.Machine
end

