-- ==== Sys2Proof/Laws/Commands.lean ====
section
/-!
SUPPORT. What the commands with frames, and a bus operation, can do: one lemma for each, naming every
next state. Proofs about runs cite these and unfold no meaning.
-/

namespace Sys2Proof.Machine

open Sys2Proof

/-! ## The duties, read back -/

/-- What the frame duties of a command give (10_state.md R47, 20_memory.md R81). -/
structure FramesOk (depth : Bool) (ps : List (Fin 4)) (s : State) (o i : Fin 4) : Prop where
  inOk : ∀ d ∈ (s.slot i).duties depth [] s.cfg, d.1 = true
  outOk : ∀ d ∈ (s.slot o).duties depth ps s.cfg, d.1 = true
  kinds : (s.slot i).kind = (s.slot o).kind
  disj : planesDisjoint s o i = true

theorem framesOk_of_duties {dp : Bool} {ps : List (Fin 4)} {s : State} {o i : Fin 4}
    {ds : List (Bool × Refusal)} (h : firstProblem (frameDuties dp ps s o i ++ ds) = none) :
    FramesOk dp ps s o i := by
  have h := firstProblem_eq_none.1 h
  simp only [frameDuties, List.mem_append] at h
  refine ⟨fun d hd => h d (.inl (.inl (.inl hd))), fun d hd => h d (.inl (.inl (.inr hd))), ?_, ?_⟩
  · simpa using h ((s.slot i).kind == (s.slot o).kind, Refusal.kindMismatch)
      (.inl (.inr (by simp)))
  · simpa using h (planesDisjoint s o i, Refusal.overlap) (.inl (.inr (by simp)))

theorem framesOk_ct {s : State} {o i : Fin 4} (h : firstProblem (ctDuties s o i) = none) :
    FramesOk false planes s o i := framesOk_of_duties h

theorem framesOk_cr {up : Bool} {s : State} {o i : Fin 4}
    (h : firstProblem (crDuties up s o i) = none) : FramesOk true [1, 2] s o i :=
  framesOk_of_duties h

theorem geometry_cr {up : Bool} {s : State} {o i : Fin 4}
    (h : firstProblem (crDuties up s o i) = none) : geometryOk up (s.slot o) (s.slot i) = true :=
  firstProblem_eq_none.1 h (geometryOk up (s.slot o) (s.slot i), Refusal.geometry)
    (by simp [crDuties])

theorem FramesOk.inSpace {dp : Bool} {ps : List (Fin 4)} {s : State}
    {o i : Fin 4} (h : FramesOk dp ps s o i) :
    (s.slot o).inSpace s.cfg.aw = true :=
  h.outOk ((s.slot o).inSpace s.cfg.aw, Refusal.planeOutOfSpace) (by simp [FrameDesc.duties])

theorem FramesOk.outCount {dp : Bool} {ps : List (Fin 4)} {s : State}
    {o i : Fin 4} (h : FramesOk dp ps s o i) {p : Fin 4}
    (hp : p ∈ planes) : (s.slot o).count p = (s.slot o).w p * (s.slot o).h p := by
  have := h.outOk ((s.slot o).countsOk s.cfg.maxSamples, Refusal.illFormedDescriptor)
    (by simp [FrameDesc.duties])
  simp only [FrameDesc.countsOk, List.all_eq_true] at this
  have := this p hp
  simp only [Bool.and_eq_true, beq_iff_eq] at this
  exact this.1

theorem FramesOk.inCount {dp : Bool} {ps : List (Fin 4)} {s : State}
    {o i : Fin 4} (h : FramesOk dp ps s o i) {p : Fin 4}
    (hp : p ∈ planes) : (s.slot i).count p = (s.slot i).w p * (s.slot i).h p := by
  have := h.inOk ((s.slot i).countsOk s.cfg.maxSamples, Refusal.illFormedDescriptor)
    (by simp [FrameDesc.duties])
  simp only [FrameDesc.countsOk, List.all_eq_true] at this
  have := this p hp
  simp only [Bool.and_eq_true, beq_iff_eq] at this
  exact this.1

/-- The clamp bounds of an integer output plane are in order (10_state.md R46). -/
theorem FramesOk.outPels {dp : Bool} {ps : List (Fin 4)} {s : State} {o i : Fin 4}
    (h : FramesOk dp ps s o i) (hf : (s.slot o).isFloat = false) {p : Fin 4} (hp : p ∈ ps) :
    (s.slot o).lo p ≤ (s.slot o).hi p ∧ (s.slot o).hi p < 2 ^ (s.slot o).depth := by
  have h1 := h.outOk ((s.slot o).pelsOk ps, Refusal.illFormedDescriptor)
    (by simp [FrameDesc.duties])
  simp only [FrameDesc.pelsOk, hf, Bool.false_or, List.all_eq_true, Bool.and_eq_true,
    decide_eq_true_eq] at h1
  have hpos : 0 < 2 ^ (s.slot o).depth := Nat.two_pow_pos _
  exact ⟨(h1 p hp).1, by have := (h1 p hp).2; omega⟩

/-- Where the command reads `BITDEPTH`, the bounds fit the container (10_state.md R41, R46). -/
theorem FramesOk.outFits {ps : List (Fin 4)} {s : State} {o i : Fin 4}
    (h : FramesOk true ps s o i) (hf : (s.slot o).isFloat = false) {p : Fin 4} (hp : p ∈ ps) :
    (s.slot o).hi p < 256 ^ (s.slot o).kind.size := by
  have h1 := (h.outPels hf hp).2
  have h2 := h.outOk (!true || (s.slot o).depthOk, Refusal.illFormedDescriptor)
    (by simp [FrameDesc.duties])
  simp only [Bool.not_true, Bool.false_or, FrameDesc.depthOk] at h2
  simp only [FrameDesc.isFloat, beq_eq_false_iff_ne] at hf
  have pow : ∀ k, (s.slot o).depth ≤ k → (s.slot o).hi p < 2 ^ k := fun k hk =>
    lt_of_lt_of_le h1 (Nat.pow_le_pow_right (by decide) hk)
  cases hk : (s.slot o).kind <;> simp_all [Kind.size]
  · exact pow 8 h2.2
  · exact pow 16 h2.2

theorem FramesOk.outDisjoint {dp : Bool} {ps : List (Fin 4)} {s : State}
    {o i : Fin 4} (h : FramesOk dp ps s o i) :
    ∀ p ∈ planes, ∀ q ∈ planes, p ≠ q →
      disjoint ((s.slot o).addr p) ((s.slot o).bytes p) ((s.slot o).addr q) ((s.slot o).bytes q)
        = true := by
  intro p hp q hq hpq
  have hd := h.disj
  simp only [planesDisjoint, Bool.and_eq_true, List.all_eq_true] at hd
  have := hd.2 p hp q hq
  simpa [hpq] using this

theorem FramesOk.slots_ne {dp : Bool} {ps : List (Fin 4)} {s : State}
    {o i : Fin 4} (h : FramesOk dp ps s o i) : o ≠ i := by
  have hd := h.disj
  simp only [planesDisjoint, Bool.and_eq_true, bne_iff_ne] at hd
  exact hd.1.1

/-- No output plane touches an input plane (20_memory.md R81). -/
theorem FramesOk.inputKept {dp : Bool} {ps : List (Fin 4)} {s : State}
    {o i : Fin 4} (h : FramesOk dp ps s o i) {a : Nat}
    (ha : (s.slot i).covers a) : ¬ (s.slot o).covers a := by
  rintro ⟨p, hp, hpa⟩
  obtain ⟨q, hq, hqa⟩ := ha
  have hd := h.disj
  simp only [planesDisjoint, Bool.and_eq_true, List.all_eq_true] at hd
  have := disjoint_iff.1 (hd.1.2 p hp q hq)
  unfold FrameDesc.inPlane at hpa hqa
  omega

/-! ## CT.PROC -/

theorem floatWords_length (draw a : Nat) (vs : List Fp) : (floatWords draw a vs).length = vs.length := by
  induction vs generalizing a with
  | nil => rfl
  | cons v vs ih => simp [floatWords, ih]

/-- Word n of a float plane (20_memory.md R77). -/
theorem floatWords_getElem {draw a : Nat} {vs : List Fp} {n : Nat} (hn : n < vs.length) :
    (floatWords draw a vs)[n]'(by rw [floatWords_length]; exact hn) =
      (vs[n].toBits32 (Config.freeNan draw (a + 4 * n))).toNat := by
  induction vs generalizing a n with
  | nil => simp at hn
  | cons v vs ih =>
    cases n with
    | zero => simp [floatWords]
    | succ n =>
      simp only [floatWords, List.getElem_cons_succ]
      rw [ih (by simpa using hn)]
      congr 3; omega

theorem ctOut_length (s : State) (fo : FrameDesc) (p : Fin 4) (vs : List Fp) :
    (ctOut s fo p vs).length = vs.length := by
  unfold ctOut
  split
  · rw [floatWords_length, List.length_map]
  · simp

theorem pixels_length {k : Kind} {w0 w1 w2 : List Nat} (h1 : w1.length = w0.length)
    (h2 : w2.length = w0.length) : (pixels k w0 w1 w2).length = w0.length := by
  simp [pixels, h1, h2]

theorem countsEqual_iff {fo fi : FrameDesc} :
    countsEqual fo fi = true ↔ ∀ p ∈ planes, fo.count p = fi.count 0 ∧ fi.count p = fi.count 0 := by
  simp [countsEqual]

/-- A `CT.PROC` that transforms writes three planes of the sizes the descriptor gives. -/
theorem ctTransform_next {s t : State} {o i : Fin 4} (hc : countsEqual (s.slot o) (s.slot i) = true)
    (h : ctTransform s o i = .next t) :
    ∃ P : Fin 4 → List Nat, (∀ p ∈ planes, (P p).length = (s.slot o).count p) ∧
      t = s.commit o i (P 0) (P 1) (P 2) := by
  rw [countsEqual_iff] at hc
  unfold ctTransform at h
  dsimp only at h
  split at h
  · rename_i w0 w1 w2 h0 h1 h2
    injection h with h
    have l0 := (State.readPlane_ok h0).1
    have l1 := (State.readPlane_ok h1).1
    have l2 := (State.readPlane_ok h2).1
    rw [(hc 1 (by simp)).2] at l1
    rw [(hc 2 (by simp)).2] at l2
    have hl := pixels_length (k := (s.slot i).kind) (l1.trans l0.symm) (l2.trans l0.symm)
    refine ⟨fun p => match p with
      | 0 => ctOut s (s.slot o) 0
          (((pixels (s.slot i).kind w0 w1 w2).map (ctPixel s)).map V3.x0)
      | 1 => ctOut s (s.slot o) 1
          (((pixels (s.slot i).kind w0 w1 w2).map (ctPixel s)).map V3.x1)
      | _ => ctOut s (s.slot o) 2
          (((pixels (s.slot i).kind w0 w1 w2).map (ctPixel s)).map V3.x2), ?_, h.symm⟩
    intro p hp
    rw [(hc p hp).1, ← l0, ← hl]
    rcases mem_planes.1 hp with rfl | rfl | rfl <;>
      simp only [ctOut_length, List.length_map]
  · cases h

/-- Every next state of `CT.PROC` (60_exceptions.md R325, R345). -/
theorem ctProc_next {s t : State} {o i : Fin 4} (h : ctProc s o i = .next t) :
    (s.status.ctValid = false ∧ t = s.raise .eNotCfg) ∨
    (firstProblem (ctDuties s o i) = none ∧ countsEqual (s.slot o) (s.slot i) = false ∧
      t = ctNoop s o i) ∨
    (firstProblem (ctDuties s o i) = none ∧ s.ctObj.cli = true ∧ t = s.raise .uClInv) ∨
    (firstProblem (ctDuties s o i) = none ∧ s.ctObj.cli = false ∧
      ∃ P : Fin 4 → List Nat, (∀ p ∈ planes, (P p).length = (s.slot o).count p) ∧
        t = s.commit o i (P 0) (P 1) (P 2)) := by
  unfold ctProc at h
  split at h
  · rename_i hv
    simp only [Bool.not_eq_true'] at hv
    exact .inl ⟨hv, by injection h with h; exact h.symm⟩
  · split at h
    · cases h
    · rename_i hd
      split at h
      · rename_i hc
        simp only [Bool.not_eq_true'] at hc
        exact .inr (.inl ⟨hd, hc, by injection h with h; exact h.symm⟩)
      · rename_i hc
        split at h
        · rename_i hcl
          exact .inr (.inr (.inl ⟨hd, hcl, by injection h with h; exact h.symm⟩))
        · rename_i hcl
          exact .inr (.inr (.inr ⟨hd, by simpa using hcl, ctTransform_next (by simpa using hc) h⟩))

/-! ## Conversion commands -/

/-- Every line the final pass of a plan makes is as long as its direction says. -/
def Plan.doubles (plan : Plan) : Prop :=
  (∀ e x y, (plan.float e).final x = .ok y → y.length = 2 * x.length) ∧
  ∀ e lo hi x y, (plan.fixed e lo hi).final x = .ok y → y.length = 2 * x.length

theorem runPasses_length {α : Type} [Inhabited α] {up : Bool} {p : Passes α} {w h : Nat}
    {rows : List (List α)} {out : List α}
    (hp : up = true → ∀ x y, p.final x = .ok y → y.length = 2 * x.length)
    (hr : runPasses up p w h rows = .ok out) :
    out.length = if up then h * (2 * (w / 2)) else h / 2 * (w / 2) := by
  unfold runPasses at hr
  cases up with
  | true => exact verticalThenHorizontal_length (hp rfl) hr
  | false => exact horizontalThenVertical_length hr

theorem crPlane_length {up : Bool} {plan : Plan} {lvl : Nat} {s : State} {fo fi : FrameDesc}
    {p : Fin 4} {ws out : List Nat} (hp : up = true → plan.doubles)
    (h : crPlane up plan lvl s fo fi p ws = .ok out) :
    out.length = if up then fi.h 0 * (2 * (fi.w 0 / 2)) else fi.h 0 / 2 * (fi.w 0 / 2) := by
  unfold crPlane at h
  dsimp only at h
  split at h
  · split at h
    · cases h
    · rename_i vs hvs
      injection h with h
      rw [← h, floatWords_length, runPasses_length (fun hu => (hp hu).1 _) hvs]
  · split at h
    · cases h
    · rename_i vs hvs
      injection h with h
      rw [← h, List.length_map, runPasses_length (fun hu => (hp hu).2 _ _ _) hvs]

/-- A conversion that gets past its checks writes three planes of the sizes the descriptor gives;
plane 0 is the input's (41_filter_primitives.md R212). -/
theorem crTransform_next {up : Bool} {plan : Plan} {lvl : Nat} {s t : State} {o i : Fin 4}
    (hp : up = true → plan.doubles) (hd : firstProblem (crDuties up s o i) = none)
    (hz : (s.slot i).count 0 = (s.slot o).count 0)
    (h : crTransform up plan lvl s o i = .next t) :
    ∃ P : Fin 4 → List Nat, (∀ p ∈ planes, (P p).length = (s.slot o).count p) ∧
      s.readPlane (s.slot i) 0 = .ok (P 0) ∧
      t = (lockSize s i).commit o i (P 0) (P 1) (P 2) := by
  have hf := framesOk_cr hd
  have hg := geometry_cr hd
  unfold crTransform at h
  dsimp only at h
  split at h
  · rename_i w0 w1 w2 h0 h1 h2
    split at h
    · rename_i u v hu hv
      injection h with h
      refine ⟨fun p => match p with
        | 0 => w0
        | 1 => u
        | _ => v, ?_, h0, h.symm⟩
      have lu := crPlane_length hp hu
      have lv := crPlane_length hp hv
      have hsz : ∀ p : Fin 4, p = 1 ∨ p = 2 → (s.slot o).count p =
          if up then (s.slot i).h 0 * (2 * ((s.slot i).w 0 / 2))
          else (s.slot i).h 0 / 2 * ((s.slot i).w 0 / 2) := by
        intro p hq
        rw [hf.outCount (by simp; tauto)]
        cases up <;>
        · simp [geometryOk, chromaSize] at hg
          rcases hq with rfl | rfl
          · simp [hg, Nat.mul_comm]
            try omega
          · simp [hg, Nat.mul_comm]
            try omega
      intro p hp
      rcases mem_planes.1 hp with rfl | rfl | rfl
      · exact (State.readPlane_ok h0).1.trans hz
      · exact lu.trans (hsz 1 (.inl rfl)).symm
      · exact lv.trans (hsz 2 (.inr rfl)).symm
    · cases h
    · cases h
  · cases h

theorem fatalCheck_eq_none {fo fi : FrameDesc} :
    fatalCheck fo fi = none ↔ fi.isFloat = fo.isFloat ∧
      (fi.isFloat = true ∨ fi.depth = fo.depth) ∧ fi.count 0 = fo.count 0 := by
  unfold fatalCheck
  cases h1 : fi.isFloat <;> cases h2 : fo.isFloat <;> simp
  split_ifs <;> simp_all

theorem fatalCheck_cls {fo fi : FrameDesc} {e : Event} (h : fatalCheck fo fi = some e) :
    e.cls = .fatal := by
  unfold fatalCheck at h
  split_ifs at h <;> injection h with h <;> subst h <;> rfl

/-- Every next state of a conversion command (60_exceptions.md R325, R345). -/
theorem crConvert_next {up : Bool} {plan : FilterBank → Option Plan} {lvl : Nat} {s t : State}
    {o i : Fin 4} (hp : up = true → ∀ b p, plan b = some p → p.doubles)
    (h : crConvert up plan lvl s o i = .next t) :
    (s.status.crValid = false ∧ t = s.raise .eNotCfg) ∨
    (∃ e, fatalCheck (s.slot o) (s.slot i) = some e ∧ t = s.raise e) ∨
    (firstProblem (crDuties up s o i) = none ∧ t = s.raise .eBadParam) ∨
    (s.status.crValid = true ∧ firstProblem (crDuties up s o i) = none ∧
      ∃ P : Fin 4 → List Nat, (∀ p ∈ planes, (P p).length = (s.slot o).count p) ∧
        s.readPlane (s.slot i) 0 = .ok (P 0) ∧
        t = (lockSize s i).commit o i (P 0) (P 1) (P 2)) := by
  unfold crConvert at h
  split at h
  · rename_i hv
    simp only [Bool.not_eq_true'] at hv
    exact .inl ⟨hv, by injection h with h; exact h.symm⟩
  · rename_i hv
    split at h
    · rename_i e he
      exact .inr (.inl ⟨e, he, by injection h with h; exact h.symm⟩)
    · rename_i he
      split at h
      · cases h
      · rename_i hd
        split at h
        · exact .inr (.inr (.inl ⟨hd, by injection h with h; exact h.symm⟩))
        · rename_i p hpb
          obtain ⟨b, _, hb⟩ := Option.bind_eq_some_iff.1 hpb
          exact .inr (.inr (.inr ⟨by simpa using hv, hd,
            crTransform_next (fun hu => hp hu b p hb) hd (fatalCheck_eq_none.1 he).2.2 h⟩))

theorem upGenPlan_doubles {b : FilterBank} {p : Plan} (h : upGenPlan b = some p) : p.doubles := by
  unfold upGenPlan at h
  split at h
  · injection h with h
    subst h
    exact ⟨fun _ _ _ h => by dsimp only at h; exact upLine_length h,
      fun _ _ _ _ _ h => by dsimp only at h; exact upLine_length h⟩
  · cases h

theorem upBndPlan_doubles {b : FilterBank} {p : Plan} (h : upBndPlan b = some p) : p.doubles := by
  unfold upBndPlan at h
  split at h
  · cases h
  · injection h with h
    subst h
    exact ⟨fun _ _ _ h => by dsimp only at h; exact upLine_length h,
      fun _ _ _ _ _ h => by dsimp only at h; exact upLine_length h⟩

end Sys2Proof.Machine
end

