-- ==== Sys2Proof/Laws/PerInstr.lean ====
section
/-!
SUPPORT. Statements about every instruction as syntax, one lemma per constructor of `Instr`.
-/

namespace Sys2Proof.Laws

open Sys2Proof

/-- The opcode byte of each command (30_encoding.md R102). -/
def opcodeByte : Instr → BitVec 8
  | .ctSetup => 0x10
  | .ctProc _ _ => 0x11
  | .ctGetm _ => 0x12
  | .ctGety _ => 0x13
  | .crSetup => 0x20
  | .crDnGen _ _ _ => 0x21
  | .crDnBnd _ _ => 0x22
  | .crDnAdp _ _ => 0x23
  | .crUpGen _ _ _ => 0x24
  | .crUpBnd _ _ => 0x25

/-- The word of a command carries its opcode in the top byte and zero in the low byte
(30_encoding.md R100, R102). -/
def FormatC.Statement (i : Instr) : Prop :=
  opcField (encode i) = opcodeByte i ∧ zField (encode i) = 0

theorem formatC_opc (opc : BitVec 8) (fdo fdi : BitVec 4) (arg : BitVec 8) :
    opcField (formatC opc fdo fdi arg) = opc := by
  unfold opcField formatC
  ext j hj
  simp only [BitVec.getElem_extractLsb', BitVec.getLsbD_append]
  simp [show ¬ (24 + j < 8) by omega, show ¬ (24 + j - 8 < 8) by omega,
    show ¬ (24 + j - 8 - 8 < 4) by omega, show ¬ (24 + j - 8 - 8 - 4 < 4) by omega,
    show 24 + j - 8 - 8 - 4 - 4 = j by omega, hj]

theorem formatC_z (opc : BitVec 8) (fdo fdi : BitVec 4) (arg : BitVec 8) :
    zField (formatC opc fdo fdi arg) = 0 := by
  unfold zField formatC
  ext j hj
  simp only [BitVec.getElem_extractLsb', BitVec.getLsbD_append]
  simp [hj]

theorem FormatC.ctSetup : FormatC.Statement .ctSetup := ⟨formatC_opc .., formatC_z ..⟩

theorem FormatC.ctProc (fdo fdi : BitVec 4) : FormatC.Statement (.ctProc fdo fdi) :=
  ⟨formatC_opc .., formatC_z ..⟩

theorem FormatC.ctGetm (cp : BitVec 8) : FormatC.Statement (.ctGetm cp) :=
  ⟨formatC_opc .., formatC_z ..⟩

theorem FormatC.ctGety (cp : BitVec 8) : FormatC.Statement (.ctGety cp) :=
  ⟨formatC_opc .., formatC_z ..⟩

theorem FormatC.crSetup : FormatC.Statement .crSetup := ⟨formatC_opc .., formatC_z ..⟩

theorem FormatC.crDnGen (fdo fdi : BitVec 4) (lvl : BitVec 8) :
    FormatC.Statement (.crDnGen fdo fdi lvl) := ⟨formatC_opc .., formatC_z ..⟩

theorem FormatC.crDnBnd (fdo fdi : BitVec 4) : FormatC.Statement (.crDnBnd fdo fdi) :=
  ⟨formatC_opc .., formatC_z ..⟩

theorem FormatC.crDnAdp (fdo fdi : BitVec 4) : FormatC.Statement (.crDnAdp fdo fdi) :=
  ⟨formatC_opc .., formatC_z ..⟩

theorem FormatC.crUpGen (fdo fdi : BitVec 4) (lvl : BitVec 8) :
    FormatC.Statement (.crUpGen fdo fdi lvl) := ⟨formatC_opc .., formatC_z ..⟩

theorem FormatC.crUpBnd (fdo fdi : BitVec 4) : FormatC.Statement (.crUpBnd fdo fdi) :=
  ⟨formatC_opc .., formatC_z ..⟩

end Sys2Proof.Laws
end

