-- ==== Sys2Proof/Laws/Step.lean ====
section
/-!
SUPPORT. Every next state of a command and of a bus operation, each named once.
-/

namespace Sys2Proof.Machine

open Sys2Proof

/-- What a command that is not ignored does to the state `s`. -/
inductive CommandEffect (s : State) : State → Prop where
  /-- an event, and nothing else; an undefined opcode is no command -/
  | event (e : Event) (he : e ≠ .eOpcode) : CommandEffect s (s.raise e)
  /-- `CT.SETUP` completes -/
  | ctSetup : CommandEffect s (ctResolve s)
  /-- `CT.GETM` or `CT.GETY` completes -/
  | lookUp (m : Mat3) (w : Bool) :
      CommandEffect s { s with mres := m, status := s.status.warn w }
  /-- `CT.PROC` is a no-op -/
  | noop (o i : Fin 4) : CommandEffect s (ctNoop s o i)
  /-- `CT.PROC` transforms -/
  | transform (o i : Fin 4) (P : Fin 4 → List Nat) (hf : FramesOk false planes s o i)
      (hl : ∀ p ∈ planes, (P p).length = (s.slot o).count p) :
      CommandEffect s (s.commit o i (P 0) (P 1) (P 2))
  /-- `CR.SETUP` completes -/
  | crSetup (hl : s.crPar.locTop.toNat ≤ 5)
      (hb : (s.cfg.bank s.crPar.locTop s.crPar.dnSel s.crPar.upSel).isSome = true) :
      CommandEffect s (crLatch s)
  /-- a conversion completes -/
  | convert (o i : Fin 4) (P : Fin 4 → List Nat) (hv : s.status.crValid = true)
      (hf : FramesOk true [1, 2] s o i) (hl : ∀ p ∈ planes, (P p).length = (s.slot o).count p) :
      CommandEffect s ((lockSize s i).commit o i (P 0) (P 1) (P 2))

theorem execCtProc_next {fdo fdi : BitVec 4} {s t : State} (h : execCtProc fdo fdi s = .next t) :
    (s.status.fatal = true ∧ t = s) ∨ (s.status.fatal = false ∧ CommandEffect s t) := by
  rcases command_next h with ⟨hf, rfl⟩ | ⟨hf, -, rfl⟩ | ⟨hf, -, hr⟩
  · exact .inl ⟨hf, rfl⟩
  · exact .inr ⟨hf, .event _ (by decide)⟩
  · refine .inr ⟨hf, ?_⟩
    rcases ctProc_next hr with ⟨-, rfl⟩ | ⟨-, -, rfl⟩ | ⟨-, -, rfl⟩ | ⟨hd, -, P, hl, rfl⟩
    · exact .event _ (by decide)
    · exact .noop _ _
    · exact .event _ (by decide)
    · exact .transform _ _ P (framesOk_ct hd) hl

theorem crConvert_effect {i : Instr} {up : Bool} {plan : FilterBank → Option Plan} {lvl : Nat}
    {s t : State} {o j : Fin 4} (hp : up = true → ∀ b p, plan b = some p → p.doubles)
    (h : command i s (crConvert up plan lvl s o j) = .next t) :
    (s.status.fatal = true ∧ t = s) ∨ (s.status.fatal = false ∧ CommandEffect s t) := by
  rcases command_next h with ⟨hf, rfl⟩ | ⟨hf, -, rfl⟩ | ⟨hf, -, hr⟩
  · exact .inl ⟨hf, rfl⟩
  · exact .inr ⟨hf, .event _ (by decide)⟩
  · refine .inr ⟨hf, ?_⟩
    rcases crConvert_next hp hr with ⟨-, rfl⟩ | ⟨e, he, rfl⟩ | ⟨-, rfl⟩ | ⟨hv, hd, P, hl, -, rfl⟩
    · exact .event _ (by decide)
    · exact .event _ fun h => by have := fatalCheck_cls he; rw [h] at this; cases this
    · exact .event _ (by decide)
    · exact .convert _ _ P hv (framesOk_cr hd) hl

/-- Every next state of a command (60_exceptions.md R345). -/
theorem exec_next {i : Instr} {s t : State} (h : exec i s = .next t) :
    (s.status.fatal = true ∧ t = s) ∨ (s.status.fatal = false ∧ CommandEffect s t) := by
  cases i with
  | ctSetup =>
    rcases command_next h with ⟨hf, rfl⟩ | ⟨hf, -, rfl⟩ | ⟨hf, -, hr⟩
    · exact .inl ⟨hf, rfl⟩
    · exact .inr ⟨hf, .event _ (by decide)⟩
    · refine .inr ⟨hf, ?_⟩
      split at hr <;> (injection hr with hr; subst hr)
      · exact .event _ (by decide)
      · exact .ctSetup
  | ctProc o i => exact execCtProc_next h
  | ctGetm cp =>
    rcases command_next h with ⟨hf, rfl⟩ | ⟨hf, -, rfl⟩ | ⟨hf, -, hr⟩
    · exact .inl ⟨hf, rfl⟩
    · exact .inr ⟨hf, .event _ (by decide)⟩
    · injection hr with hr
      subst hr
      exact .inr ⟨hf, .lookUp _ _⟩
  | ctGety cp =>
    rcases command_next h with ⟨hf, rfl⟩ | ⟨hf, -, rfl⟩ | ⟨hf, -, hr⟩
    · exact .inl ⟨hf, rfl⟩
    · exact .inr ⟨hf, .event _ (by decide)⟩
    · injection hr with hr
      subst hr
      exact .inr ⟨hf, .lookUp _ _⟩
  | crSetup =>
    rcases command_next h with ⟨hf, rfl⟩ | ⟨hf, -, rfl⟩ | ⟨hf, -, hr⟩
    · exact .inl ⟨hf, rfl⟩
    · exact .inr ⟨hf, .event _ (by decide)⟩
    · refine .inr ⟨hf, ?_⟩
      split at hr
      · injection hr with hr
        subst hr
        exact .event _ (by decide)
      · rename_i hl
        split at hr <;> (injection hr with hr; subst hr)
        · exact .event _ (by decide)
        · rename_i hb
          exact .crSetup (by omega) (by simp [hb])
  | crDnGen o i l => exact crConvert_effect (fun h => by cases h) h
  | crDnBnd o i => exact crConvert_effect (fun h => by cases h) h
  | crDnAdp o i => exact crConvert_effect (fun h => by cases h) h
  | crUpGen o i l => exact crConvert_effect (fun _ _ _ => upGenPlan_doubles) h
  | crUpBnd o i => exact crConvert_effect (fun _ _ _ => upBndPlan_doubles) h

/-- What a bus operation does to the state `s`. -/
inductive BusEffect (s : State) : State → Prop where
  /-- a write in the fatal stop is ignored (10_state.md R55) -/
  | ignored (hf : s.status.fatal = true) : BusEffect s s
  /-- an illegal command word (30_encoding.md R104) -/
  | illegal (e : Event) (he : e.cls = .cmdErr) (hf : s.status.fatal = false) :
      BusEffect s (s.raise e)
  /-- a command -/
  | command (i : Instr) (t : State) (h : exec i s = .next t) : BusEffect s t
  /-- a register write -/
  | write (r : Reg) (v : Word) (hf : s.status.fatal = false) : BusEffect s (s.writeReg r v)
  /-- a register read or a load -/
  | read (d : Option Word) : BusEffect s { s with busData := d }
  /-- a store -/
  | store (a n v : Nat) (ha : a + n ≤ 2 ^ s.cfg.aw) : BusEffect s { s with mem := s.mem.writeLE a n v }
  /-- reset -/
  | reset : BusEffect s s.restart

theorem regAccess_next {w : Width} {off : Word} {k : Reg → Outcome} {s t : State}
    (h : regAccess w off s k = .next t) :
    w = .word ∧ off.toNat % 4 = 0 ∧ off.toNat < 0x300 ∧ k (s.regOf off) = .next t := by
  unfold regAccess at h
  split at h
  · cases h
  · split at h
    · cases h
    · rename_i h1 h2
      exact ⟨by_contra fun hc => h1 (.inl hc), by_contra fun hc => h1 (.inr hc), by omega, h⟩

theorem writeCmd_next {w : Word} {s t : State} (h : writeCmd w s = .next t) : BusEffect s t := by
  unfold writeCmd at h
  split at h
  · injection h with h
    subst h
    exact .ignored ‹_›
  · rename_i hf
    simp only [Bool.not_eq_true] at hf
    split at h
    · exact .command _ _ h
    · injection h with h
      subst h
      exact .illegal _ rfl hf
    · injection h with h
      subst h
      exact .illegal _ rfl hf

/-- Every next state of a bus operation. -/
theorem perform_next {op : BusOp} {s t : State} (h : perform op s = .next t) : BusEffect s t := by
  cases op with
  | regWrite w off v =>
    simp only [perform, busWrite] at h
    obtain ⟨-, -, -, h⟩ := regAccess_next h
    split at h
    · exact writeCmd_next h
    · split at h
      · injection h with h
        subst h
        exact .ignored ‹_›
      · rename_i hf
        injection h with h
        subst h
        exact .write _ _ (by simpa using hf)
  | regRead w off =>
    simp only [perform, busRead] at h
    obtain ⟨-, -, -, h⟩ := regAccess_next h
    injection h with h
    subst h
    exact .read _
  | store w a v =>
    simp only [perform, busStore] at h
    split at h
    · cases h
    · injection h with h
      subst h
      exact .store _ _ _ (by omega)
  | load w a =>
    simp only [perform, busLoad] at h
    split at h
    · cases h
    · split at h
      · cases h
      · injection h with h
        subst h
        exact .read _
  | reset =>
    injection h with h
    subst h
    exact .reset

/-- A step does nothing, or performs the first pending operation. -/
theorem step_next {s t : State} (h : step s = .next t) :
    (s.pending = [] ∧ t = s) ∨
    ∃ op rest, s.pending = op :: rest ∧ perform op { s with pending := rest } = .next t := by
  unfold step busStep at h
  split at h
  · rename_i hp
    injection h with h
    exact .inl ⟨hp, h.symm⟩
  · rename_i op rest hp
    exact .inr ⟨op, rest, hp, h⟩

end Sys2Proof.Machine
end

