-- ==== Sys2Proof/Tests/Slice0.lean ====
section
/-!
SUPPORT. Tests on single steps, every expected value taken from the vectors of
spec/95_test_vectors.md (the vector's name stands beside each) or from an encoding written out
field by field; and, for every statement with hypotheses, a state and operands that meet them.
-/

namespace Sys2Proof.Tests

open Sys2Proof Sys2Proof.Machine

set_option Elab.async false

/-! ## Small states -/

/-- The next state, where there is one. -/
def nextOf (r : Outcome) : Option State :=
  match r with
  | .next t => some t
  | .fault _ => none
  | .refused _ => none

/-- The refusal, where there is one. -/
def refusalOf (r : Outcome) : Option Refusal :=
  match r with
  | .next _ => none
  | .fault _ => none
  | .refused q => some q

/-- What a function of the next state gives. -/
def after {α : Type} (r : Outcome) (f : State → α) : Option α := (nextOf r).map f

/-- A frame: `b` lists the three plane bases, chroma planes are `cw` by `ch`. -/
def frame (kind depth chroma w h cw ch : Nat) (b0 b1 b2 : Nat) (lo hi : Nat) : FrameDesc :=
  let n := BitVec.ofNat 32
  { fmt := n (kind + 4 * depth + 256 * chroma), frameNo := 7
    width := #v[n w, n cw, n cw, 0], height := #v[n h, n ch, n ch, 0]
    compSize := #v[n (w * h), n (cw * ch), n (cw * ch), 0]
    base := #v[n b0, n b1, n b2, 0]
    minPel := #v[n lo, n lo, n lo, 0], maxPel := #v[n hi, n hi, n hi, 0], midPel := #v[0, 0, 0, 0] }

/-- Samples of `z` bytes stored from address `a` on. -/
def cells (a z : Nat) (vs : List Nat) : Memory := Memory.writeSamples [] a z vs

/-- The reset state with an input frame in slot 0 and an output frame in slot 1. -/
def withFrames (fi fo : FrameDesc) (m : Memory) : State :=
  { State.reset with fd := #v[fi, fo, FrameDesc.zero, FrameDesc.zero], mem := m }

/-- The stored words of a plane of slot 1. -/
def outPlane (p : Fin 4) (t : State) : Option (List Nat) :=
  match t.readPlane (t.slot 1) p with
  | .ok ws => some ws
  | .error _ => none

/-- A set-up CTU in a mode of the default tables, on a frame of one pixel in slot 0. -/
def ctState (kind depth z mode : Nat) (fwd tprec : Bool) (clip : ClipPolicy) (lo hi : Nat)
    (a b c : Nat) : State :=
  let s := withFrames (frame kind depth 3 1 1 1 1 0x10 0x14 0x18 lo hi)
    (frame kind depth 3 1 1 1 1 0x20 0x24 0x28 lo hi)
    (cells 0x10 z [a] ++ cells 0x14 z [b] ++ cells 0x18 z [c])
  { s with
    status := s.status.setCtValid
    ctObj := ctObjectOf s.cfg tprec mode fwd clip }

/-! ## The test bank TB (95_test_vectors.md section 2) -/

/-- A filter of integer coefficients: binary32 patterns, integers, gain exponent, offset, shift. -/
def filter (f : List Word) (i : List Word) (g : Nat) (pos : Int) (shift : Nat) : ScaleFilter :=
  { fcoef := f, icoef := i, posOffset := pos, phase := 0, clip := false
    fscale := BitVec.ofNat 32 ((127 - g) * 2 ^ 23), ishift := shift
    ioffset := if shift = 0 then 0 else BitVec.ofNat 32 (2 ^ (shift - 1)) }

def tbA (shift : Nat) : ScaleFilter :=
  filter [0xBF800000, 0x40A00000, 0x40A00000, 0xBF800000] [-1, 5, 5, -1] 3 1 shift
def tbB (shift : Nat) : ScaleFilter :=
  filter [0x40000000, 0x40800000, 0x40000000] [2, 4, 2] 3 1 shift
def tbC (shift : Nat) : ScaleFilter := filter [0x40800000, 0x40800000] [4, 4] 3 0 shift
def tbU0 (shift : Nat) : ScaleFilter := filter [0x40800000] [4] 2 0 shift
def tbU1 (shift : Nat) : ScaleFilter := filter [0x40000000, 0x40000000] [2, 2] 2 0 shift
def tbV0 (shift : Nat) : ScaleFilter := filter [0x41000000] [8] 3 0 shift

/-- `A` of a final pass, which clips. -/
def tbAclip : ScaleFilter := { tbA 6 with clip := true }

/-- The five Adaptive candidates. -/
def tbAdaptive : List ScaleFilter :=
  [tbA 3, filter [0x3F800000, 0x40000000, 0x3F800000] [1, 2, 1] 2 1 2,
   filter [0x3F800000, 0x3F800000] [1, 1] 1 0 1, filterF0,
   filter [0x3F800000, 0x3F800000] [1, 1] 1 1 1]

/-- The filters that reconstruct a line. -/
def tbBack : ScaleFilter × ScaleFilter :=
  (filterF0, filter [0x3F800000, 0x3F800000] [1, 1] 1 0 1)

def tb : FilterBank :=
  { gdh := some (tbA 0), gdv := some tbAclip
    guh := some (tbU0 4, tbU1 4), guv := some (tbU0 0, tbU1 0)
    bdh := [tbA 0, tbB 0, tbC 0], bdv := [tbAclip, tbB 6, tbC 6]
    buh := ([tbV0 6], [tbA 6, tbC 6]), buv := ([tbV0 0], [tbA 0, tbC 0])
    adh := tbAdaptive, adv := tbAdaptive, auh := some tbBack, auv := some tbBack }

/-- The default tables with TB at location 0, selects 15. -/
def tbTables : Tables := { Tables.default with banks := [⟨0, 15, 15, tb⟩] }

/-- A set-up CRU with the presets `sel` on frames of plane-0 size `n` by `n`; `up` tells which
side has half-size chroma. Luma and plane 2 hold `v`, plane 1 of the input holds `ws`. -/
def crState (kind depth z n : Nat) (up : Bool) (sel : BitVec 4) (lo hi v : Nat) (ws : List Nat) :
    State :=
  let full := fun a : Nat =>
    frame kind depth 3 n n n n a (a + n * n * z) (a + 2 * n * n * z) lo hi
  let half := fun a : Nat =>
    frame kind depth 1 n n (n / 2) (n / 2) a (a + n * n * z) (a + 2 * n * n * z) lo hi
  let k := if up then n / 2 * (n / 2) else n * n
  let fi := if up then half 0x100 else full 0x100
  let fo := if up then full 0x400 else half 0x400
  let s := withFrames fi fo
    (cells 0x100 z (List.replicate (n * n) v) ++ cells (0x100 + n * n * z) z ws ++
      cells (0x100 + 2 * n * n * z) z (List.replicate k v))
  { s with
    status := s.status.setCrValid
    cfg := tbTables
    crObj := ⟨0, sel, sel, 0, 0⟩
    crPar := { s.crPar with fmax := 0x3F800000 } }

/-! ## Well-formedness: every check refuses an ill-formed term -/

theorem test_slot_fdo_4 : (Instr.ctProc 4 0).wellFormed = false := by decide
theorem test_slot_fdi_4 : (Instr.ctProc 0 4).wellFormed = false := by decide
theorem test_slot_dnGen : (Instr.crDnGen 15 0 0).wellFormed = false := by decide
theorem test_slot_dnBnd : (Instr.crDnBnd 0 8).wellFormed = false := by decide
theorem test_slot_dnAdp : (Instr.crDnAdp 4 0).wellFormed = false := by decide
theorem test_slot_upGen : (Instr.crUpGen 0 4 0).wellFormed = false := by decide
theorem test_slot_upBnd : (Instr.crUpBnd 4 4).wellFormed = false := by decide
theorem test_primaries_getm : (Instr.ctGetm 16).wellFormed = false := by decide
theorem test_primaries_gety : (Instr.ctGety 255).wellFormed = false := by decide
theorem test_level_dnGen : (Instr.crDnGen 0 1 4).wellFormed = false := by decide
theorem test_level_upGen : (Instr.crUpGen 0 1 128).wellFormed = false := by decide

/-! ## Decoding: words written out field by field, OPC FDO FDI ARG Z (30_encoding.md R100, R102) -/

theorem test_decode_ctSetup :
    decode (0b00010000#8 ++ 0b0000#4 ++ 0b0000#4 ++ 0b00000000#8 ++ 0b00000000#8) =
      .ok .ctSetup := by decide
theorem test_decode_ctProc :
    decode (0b00010001#8 ++ 0b0000#4 ++ 0b0011#4 ++ 0b00000000#8 ++ 0b00000000#8) =
      .ok (.ctProc 0 3) := by decide
theorem test_decode_ctGetm :
    decode (0b00010010#8 ++ 0b0000#4 ++ 0b0000#4 ++ 0b00001111#8 ++ 0b00000000#8) =
      .ok (.ctGetm 15) := by decide
theorem test_decode_ctGety :
    decode (0b00010011#8 ++ 0b0000#4 ++ 0b0000#4 ++ 0b00001000#8 ++ 0b00000000#8) =
      .ok (.ctGety 8) := by decide
theorem test_decode_crSetup :
    decode (0b00100000#8 ++ 0b0000#4 ++ 0b0000#4 ++ 0b00000000#8 ++ 0b00000000#8) =
      .ok .crSetup := by decide
theorem test_decode_crDnGen :
    decode (0b00100001#8 ++ 0b0001#4 ++ 0b0000#4 ++ 0b00000011#8 ++ 0b00000000#8) =
      .ok (.crDnGen 1 0 3) := by decide
theorem test_decode_crDnBnd :
    decode (0b00100010#8 ++ 0b0011#4 ++ 0b0010#4 ++ 0b00000000#8 ++ 0b00000000#8) =
      .ok (.crDnBnd 3 2) := by decide
theorem test_decode_crDnAdp :
    decode (0b00100011#8 ++ 0b0001#4 ++ 0b0000#4 ++ 0b00000000#8 ++ 0b00000000#8) =
      .ok (.crDnAdp 1 0) := by decide
theorem test_decode_crUpGen :
    decode (0b00100100#8 ++ 0b0010#4 ++ 0b0001#4 ++ 0b00000001#8 ++ 0b00000000#8) =
      .ok (.crUpGen 2 1 1) := by decide
theorem test_decode_crUpBnd :
    decode (0b00100101#8 ++ 0b0000#4 ++ 0b0001#4 ++ 0b00000000#8 ++ 0b00000000#8) =
      .ok (.crUpBnd 0 1) := by decide

/-- T17: the reserved words. -/
theorem test_decode_rsvd :
    [0x10000001, 0x11400000, 0x11100100, 0x12001000, 0x13100000, 0x20000100, 0x21100400,
      0x25100100].all (fun w : Word => decode w = .error .rsvd) = true := by decide

/-- T17: the undefined opcodes. -/
theorem test_decode_opcode :
    [0x00000000, 0x14000000, 0x26000000, 0xFF000000].all
      (fun w : Word => decode w = .error .opcode) = true := by decide

theorem test_encode_crDnGen : encode (.crDnGen 3 2 2) = 0x21320200 := by decide
theorem test_encode_ctGety : encode (.ctGety 8) = 0x13000800 := by decide
theorem test_decodeTableWord : decodeTableWord 32 0x24210100 = some (.crUpGen 2 1 1) := by decide

/-- The very next step runs the word of `withFetchWord`. -/
theorem test_withFetchWord :
    step (State.reset.withFetchWord 32 0x20000000) = exec .crSetup State.reset := by rfl

/-! ## One step of each command -/

/-- The parameters of a row of T13. -/
def t13 (ics ocs : BitVec 3) (cp : BitVec 4) (hiprec : BitVec 2) (tprec : Bool) : State :=
  { State.reset with ctPar := ⟨ics, ocs, cp, cp, hiprec, tprec, 0, 0⟩ }

/-- T13 row 1. -/
theorem test_ctSetup_709 :
    after (exec .ctSetup (t13 0 1 0 0 true)) (fun t =>
      (t.ctObj.modeWord, t.status.word, t.ctObj.cbDiv)) =
      some (0x00002101, 0x00000100, 0x3FFDB089A0275254) := by decide +kernel

/-- T13, the last row: `HIPREC` 3. -/
theorem test_ctSetup_badParam :
    after (exec .ctSetup (t13 0 1 0 3 false)) (fun t =>
      (t.ctObj.modeWord, t.status.word, t.cause)) = some (0, 0x00000002, 0x14) := by
  decide +kernel

/-- T7, first row, bounds 16 to 235. -/
theorem test_ctProc_integer :
    after (exec (.ctProc 1 0) (ctState 0 8 1 1 true false .none 16 235 255 0 0)) (fun t =>
      (outPlane 0 t, outPlane 1 t, outPlane 2 t)) = some (some [54], some [16], some [128]) := by
  decide +kernel

/-- T3, fourth row, on the `TPATH` path. -/
theorem test_ctProc_float :
    after (exec (.ctProc 1 0)
        (ctState 2 0 4 1 true true .none 0 0 0xBE800000 0x3F000000 0x3FC00000)) (fun t =>
      (outPlane 0 t, outPlane 1 t, outPlane 2 t)) =
      some (some [0x3ED353F8], some [0x3F15FF73], some [0xBED77945]) := by decide +kernel

/-- T15: the identity fallback of the default tables. -/
theorem test_ctGetm :
    after (exec (.ctGetm 0) State.reset) (fun t => (t.mres, t.status.word)) =
      some (#v[0x3FF0000000000000, 0, 0, 0, 0x3FF0000000000000, 0, 0, 0, 0x3FF0000000000000],
        0x00000008) := by decide +kernel

/-- R152 with more than 256 modes: mode 260 is a mode like another. -/
theorem test_ctGetm_highMode :
    after (exec (.ctGetm 0) { State.reset with cfg := { Tables.default with
        xyzModes := [260], moreModes := List.replicate 253 identityEntry ++ [entry709] } })
      (fun t => (t.mres, t.status.word)) = some (entry709.fwd, 0) := by decide +kernel

/-- T15: row 1 of a supplied matrix becomes row 0, and no warning. -/
theorem test_ctGety :
    after (exec (.ctGety 0) { State.reset with cfg := { Tables.default with xyzModes := [1] } })
      (fun t => (t.mres[0], t.mres[1], t.mres[2], t.mres[3], t.status.word)) =
      some (0xBFBD5498F88CD493, 0xBFD8AAD9C1DCCADB, 0x3FE0000000000000, 0, 0) := by
  decide +kernel

/-- P4: `CR.SETUP` with both selects 0. -/
theorem test_crSetup :
    after (exec .crSetup State.reset) (fun t => t.status.word) = some 0x00000200 := by
  decide +kernel

/-- R198: locations that differ. -/
theorem test_crSetup_badLoc :
    after (exec .crSetup { State.reset with crPar := ⟨0, 1, 0, 0, 0, 0⟩ }) (fun t =>
      (t.status.word, t.cause)) = some (0x00000002, 0x13) := by decide +kernel

/-- P5: T19's ramp plane through TB, and the luma copy. -/
theorem test_crDnGen :
    after (exec (.crDnGen 1 0 0) (crState 0 8 1 4 false 15 0 255 100
      [10, 20, 30, 40, 50, 60, 70, 80, 90, 100, 110, 120, 130, 140, 150, 160])) (fun t =>
        (outPlane 1 t, outPlane 0 t, t.crObj.lockW, t.status.word)) =
      some (some [29, 51, 119, 141], some (List.replicate 16 100), 4, 0x00000600) := by
  decide +kernel

/-- T8, the float plane with preset `F0`. -/
theorem test_crDnGen_f0 :
    after (exec (.crDnGen 1 0 0) (crState 2 0 4 4 false 0 0 0 0x3E800000
      [0x00000000, 0x3D800000, 0x3E000000, 0x3E400000, 0x3E800000, 0x3EA00000, 0x3EC00000,
       0x3EE00000, 0x3F000000, 0x3F100000, 0x3F200000, 0x3F300000, 0x3F400000, 0x3F500000,
       0x3F600000, 0x3F700000])) (outPlane 1) =
      some (some [0x00000000, 0x3E000000, 0x3F000000, 0x3F200000]) := by decide +kernel

/-- T21, fixed. -/
theorem test_crDnBnd :
    after (exec (.crDnBnd 1 0) (crState 0 8 1 4 false 15 16 235 100
      [50, 50, 50, 200, 50, 50, 50, 200, 50, 50, 60, 200, 50, 50, 50, 200])) (outPlane 1) =
      some (some [50, 124, 49, 128]) := by decide +kernel

/-- T10, float: D0's flat plane of 0.3. -/
theorem test_crDnBnd_flat :
    after (exec (.crDnBnd 1 0) (crState 2 0 4 2 false 15 0 0 0x3E99999A
      (List.replicate 4 0x3E99999A))) (outPlane 1) = some (some [0x3E99999A]) := by
  decide +kernel

/-- T11, the checkerboard. -/
theorem test_crDnAdp :
    after (exec (.crDnAdp 1 0) (crState 0 8 1 4 false 15 0 255 100
      [0, 200, 0, 200, 200, 0, 200, 0, 0, 200, 0, 200, 200, 0, 200, 0])) (outPlane 1) =
      some (some [75, 100, 100, 100]) := by decide +kernel

/-- T22, fixed. -/
theorem test_crUpGen :
    after (exec (.crUpGen 1 0 0) (crState 0 8 1 4 true 15 0 255 100 [10, 50, 30, 200]))
      (outPlane 1) =
      some (some [10, 30, 50, 50, 20, 73, 125, 125, 30, 115, 200, 200, 30, 115, 200, 200]) := by
  decide +kernel

/-- T23, fixed. -/
theorem test_crUpBnd :
    after (exec (.crUpBnd 1 0) (crState 0 8 1 4 true 15 16 235 100 [50, 60, 50, 200]))
      (outPlane 1) =
      some (some [50, 55, 60, 61, 50, 90, 130, 130, 50, 125, 200, 200, 50, 125, 200, 200]) := by
  decide +kernel

/-! ## The statements' hypotheses can be met

Each `witness_<Statement>` gives a concrete state and operands that meet the hypotheses of that
statement, or of the clause its name ends with. -/

theorem formatC_low (opc : BitVec 8) (o i : BitVec 4) (a : BitVec 8) :
    (formatC opc o i a).extractLsb' 0 8 = 0 := by
  unfold formatC
  ext k hk
  rw [BitVec.getElem_extractLsb', Nat.zero_add, BitVec.getLsbD_append]
  simp [hk]

theorem written_of_check {s : State} {f : FrameDesc}
    (h : (planes.all fun p => (List.range (f.bytes p)).all fun k =>
      (s.mem.read (f.addr p + k)).isSome) = true) : s.written f := by
  rintro a ⟨p, hp, h1, h2⟩
  simp only [List.all_eq_true, List.mem_range] at h
  have := h p hp (a - f.addr p) (by omega)
  rwa [Nat.add_sub_cancel' h1] at this

theorem witness_DecodeOfEncode :
    (Instr.crDnGen 3 3 3).wellFormed = true ∧ (Instr.ctGetm 15).wellFormed = true ∧
      (Instr.crUpBnd 0 3).wellFormed = true := by decide

theorem witness_EncodeOfDecode : decode 0x24330300 = .ok (.crUpGen 3 3 3) := by decide

theorem witness_IllegalWordsAreCommandErrors :
    State.reset.status.fatal = false ∧
    (((0x26000000 : Word).extractLsb' 24 8).toNat ∉
      [0x10, 0x11, 0x12, 0x13, 0x20, 0x21, 0x22, 0x23, 0x24, 0x25]) ∧
    (((0x10000001 : Word).extractLsb' 24 8).toNat ∈
      [0x10, 0x11, 0x12, 0x13, 0x20, 0x21, 0x22, 0x23, 0x24, 0x25] ∧
      ∀ i : Instr, i.wellFormed = true → encode i ≠ 0x10000001) := by
  refine ⟨by decide, by decide, by decide, fun i _ h => ?_⟩
  have hl : (encode i).extractLsb' 0 8 = 0 := by cases i <;> exact formatC_low _ _ _ _
  rw [h] at hl
  exact absurd hl (by decide)

theorem witness_StepRunsDecodedCommand :
    State.reset.pending = [] ∧
    (State.reset.withFetchWord 32 0x20000000).pending =
      .regWrite .word 0x004 0x20000000 :: [] ∧ decode 0x20000000 = .ok .crSetup :=
  ⟨rfl, by decide, by decide⟩

/-- An instance with two descriptor slots. -/
def twoSlots : State := { State.reset with cfg := { Tables.default with nfd := 2 } }

theorem witness_RegisterAccesses :
    Width.half ≠ .word ∧ (0x002 : Word).toNat % 4 ≠ 0 ∧
    ((0x300 : Word).toNat % 4 = 0 ∧ 0x300 ≤ (0x300 : Word).toNat) ∧
    ((0x2FC : Word).toNat % 4 = 0 ∧ (0x2FC : Word).toNat < 0x300 ∧ (0x2FC : Word) ≠ 0x004 ∧
      (0x2FC : Word).toNat < 0x100 + 0x80 * min State.reset.cfg.nfd 4 ∧
      State.reset.status.fatal = false) ∧
    0x100 + 0x80 * min twoSlots.cfg.nfd 4 ≤ (0x200 : Word).toNat := by decide

theorem witness_RegisterWriteReadBack :
    Reg.crLoc.writable = some 0x77 ∧ (Reg.ctMode.writable = none ∧ Reg.ctMode ≠ .status) ∧
    Reg.fdPlane 3 .midPel 3 ≠ Reg.fdPlane 3 .midPel 2 := by decide

theorem witness_HostMemoryIsLittleEndian :
    0xFFFFFFFC + Width.word.bytes ≤ 2 ^ State.reset.cfg.aw ∧
    0xFFFFFFFF + Width.byte.bytes ≤ 2 ^ State.reset.cfg.aw := by decide

theorem witness_ResetReadsZero : (0x2FC : Word).toNat < 0x300 ∧ (0x2FC : Word).toNat % 4 = 0 := by
  decide

/-- The reset state in the fatal stop. -/
def stopped : State :=
  { (State.reset.raise .fKind) with mem := cells 0x10 4 [0x12345678] }

theorem witness_FatalStop :
    stopped.status.fatal = true ∧ (0x004 : Word).toNat % 4 = 0 ∧ (0x004 : Word).toNat < 0x300 ∧
    0xFFFFFFFC + Width.word.bytes ≤ 2 ^ stopped.cfg.aw ∧
    stopped.mem.readLE 0x10 Width.word.bytes = some 0x12345678 ∧
    BusOp.regRead .word 0x004 ≠ .reset ∧
    (nextOf (perform (.load .word 0x10) stopped)).isSome = true := by decide

theorem witness_CommandOutcomes :
    (nextOf (exec .ctSetup stopped)).isSome = true ∧
    (nextOf (exec (.ctProc 1 0) State.reset)).isSome = true ∧
    (nextOf (exec .crSetup State.reset)).isSome = true := by decide +kernel

/-- A host write of `STATUS` that clears `CMDERR`. -/
theorem witness_StickyFlagsStay_step :
    after (step { State.reset.raise .eOpcode with pending := [.regWrite .word 0x008 0x2] })
      (fun t => t.status.cmdErr) = some false ∧
    (State.reset.raise .eOpcode).status.cmdErr = true ∧ (0x2 : Word).getLsbD 1 = true := by
  decide +kernel

theorem witness_StickyFlagsStay :
    after (exec .crSetup (State.reset.raise .eOpcode)) (fun t => t.status.cmdErr) = some true ∧
    (State.reset.raise .eOpcode).status.cmdErr = true := by decide +kernel

theorem witness_NotConfigured :
    3 < min State.reset.cfg.nfd 4 ∧ min State.reset.cfg.nfd 4 ≤ (4 : BitVec 4).toNat ∧
    min twoSlots.cfg.nfd 4 ≤ (2 : BitVec 4).toNat ∧ levelOk 3 = true ∧
    State.reset.status.fatal = false ∧ State.reset.status.ctValid = false ∧ State.reset.status.crValid = false ∧
    Instr.crUpGen 3 3 3 ∈ conversionCommands 3 3 3 := by decide

theorem witness_RoundingIsNearestEven :
    0 < 1 ∧ roundMag 1 0 3 1 = 4 ∧ 2 = 1 * 2 ^ 1 ∧ 4 = 1 * 2 ^ 2 := by decide

/-- 1 + 2^-53 is a tie, broken to 1; 1 / 3; the largest binary32 number and half a unit more. -/
theorem test_arithmetic :
    (Fp.ofBits64 0x3FF0000000000000).add (.ofBits64 0x3CA0000000000000) =
      .ofBits64 0x3FF0000000000000 ∧
    (Fp.ofBits64 0x3FF0000000000000).div (.ofBits64 0x4008000000000000) =
      .ofBits64 0x3FD5555555555555 ∧
    (Fp.ofBits64 0x47EFFFFFF0000000).toF32 = .inf false := by decide +kernel

theorem witness_BinaryThirtyTwoRoundTrips :
    (Fp.ofBits32 0x7F7FFFFF).isNan = false ∧ (Fp.ofBits32 0xFF800001).isNan = true := by
  decide +kernel

theorem witness_CtSetupEffect :
    (t13 0 1 0 3 false).status.fatal = false ∧ (t13 0 1 0 3 false).ctPar.hiprec = 3 ∧
    (t13 0 1 2 2 true).ctPar.hiprec ≠ 3 ∧
    ((t13 0 1 0 0 true).cfg.entry 1).dividers.isSome = true := by decide +kernel

theorem witness_ResolveBaseline :
    (2 : BitVec 2) ≠ 3 ∧ 4 < (5 : BitVec 3).toNat ∧ 8 < (9 : BitVec 4).toNat ∧
    (Tables.default.resolve 4 0 2 2 0).isSome = true ∧
    ((1 : BitVec 3), (1 : BitVec 3), (0 : BitVec 4), (0 : BitVec 4)) ∉
      [((0 : BitVec 3), (1 : BitVec 3), (0 : BitVec 4), (0 : BitVec 4)),
        (1, 0, 0, 0), (0, 1, 2, 2), (1, 0, 2, 2), (0, 4, 2, 2), (4, 0, 2, 2)] := by decide +kernel

/-- The default table is within R132, and an entry with dividers is in it. -/
theorem witness_BaselineMatrices :
    Tables.default.mtabOk = true ∧
    (Tables.default.entry 1).dividers = some (0x3FFDB089A0275254, 0x3FF932617C1BDA51) := by
  decide +kernel

/-- R132: a divider that row 1 does not agree with, and a zero one; R133: mode 1 without dividers. -/
theorem test_mtab_refused :
    MatEntry.ok { entry709 with dividers := some (0x3FF0000000000000, 0x3FF932617C1BDA51) } =
      false ∧
    MatEntry.ok { entry709 with dividers := some (0x3FFDB089A0275254, 0) } = false ∧
    ({ Tables.default with mode1 := { entry709 with dividers := none } } : Tables).mtabOk = false := by
  decide +kernel

theorem witness_CtGetmEffect : State.reset.status.fatal = false ∧ primariesOk 15 = true := by
  decide

theorem witness_CtGetyEffect : State.reset.status.fatal = false ∧ primariesOk 0 = true := by
  decide

theorem ctReady_of_checks {s : State} {o i : Fin 4}
    (h : (s.status.fatal = false ∧ s.status.ctValid = true ∧
      firstProblem (ctDuties s o i) = none ∧ countsEqual (s.slot o) (s.slot i) = true ∧
      s.ctObj.cli = false) ∧
      (planes.all fun p => (List.range ((s.slot i).bytes p)).all fun k =>
        (s.mem.read ((s.slot i).addr p + k)).isSome) = true) : s.ctReady o i :=
  ⟨h.1.1, h.1.2.1, h.1.2.2.1, h.1.2.2.2.1, h.1.2.2.2.2, written_of_check h.2⟩

theorem witness_CtProcTransformsFrame_float :
    let s := ctState 2 0 4 1 true true .bounds 0 0 0xBE800000 0x3F000000 0x3FC00000
    s.ctReady 1 0 ∧ s.hasSlot 1 = true ∧ s.hasSlot 0 = true ∧ (s.slot 1).isFloat = true ∧
      0 < (s.slot 0).count 0 :=
  ⟨ctReady_of_checks (by decide +kernel), by decide, by decide, by decide, by decide⟩

theorem witness_CtProcTransformsFrame_integer :
    let s := ctState 1 16 2 1 true false .none 0 65535 65535 0 0
    s.ctReady 1 0 ∧ (s.slot 1).isFloat = false ∧ 0 < (s.slot 0).count 0 :=
  ⟨ctReady_of_checks (by decide +kernel), by decide, by decide⟩

/-- R145: `BITDEPTH` 10 on U8 frames does not stop `CT.PROC`; R46 admits `MAXPEL` 1000 with it. -/
theorem witness_CtProcTransformsFrame_depth :
    (ctState 0 10 1 1 true false .none 0 255 255 0 0).ctReady 1 0 ∧
    (ctState 0 10 1 1 true false .none 300 1000 255 0 0).ctReady 1 0 ∧
    after (exec (.ctProc 1 0) (ctState 0 10 1 1 true false .none 300 1000 255 0 0))
      (outPlane 0) = some (some [300 % 256]) :=
  ⟨ctReady_of_checks (by decide +kernel), ctReady_of_checks (by decide +kernel),
   by decide +kernel⟩

theorem witness_PixelPaths :
    (ctState 0 8 1 1 true false .none 0 255 1 2 3).cfg.dotKind = .leftToRight ∧
    (ctState 0 8 1 1 true false .none 0 255 1 2 3).ctObj.tpAct = false ∧
    (ctState 0 8 1 1 true true .none 0 255 1 2 3).ctObj.tpAct = true ∧
    (ctState 0 8 1 1 true true .none 0 255 1 2 3).ctObj.clf = false ∧
    (ctState 0 8 1 5 true true .none 0 255 1 2 3).ctObj.clf = true ∧
    (ctState 0 8 1 5 true true .none 0 255 1 2 3).cfg.clk = some Config.openClk :=
  ⟨rfl, by decide, by decide +kernel, by decide, by decide, rfl⟩

/-- R155, T16 (f): on frames without samples, here the slots of reset, `CT.PROC` proceeds and writes
only `FRAMENO` and `AVAIL` (log 33). -/
theorem test_ctProc_resetSlots :
    let s := { State.reset with
      status := State.reset.status.setCtValid, ctObj := ctObjectOf Tables.default false 1 true .none }
    let i := { FrameDesc.zero with frameNo := 9 }
    after (exec (.ctProc 1 0) (s.setSlot 0 i)) (fun t => (t.slot 1, t.slot 0, t.status, t.mem)) =
      some ({ FrameDesc.zero with fmt := 0x80000000, frameNo := 9 }, i, s.status, []) := by
  decide +kernel

/-- R41, R211: a conversion refuses the slots of reset for their `BITDEPTH` and takes an F32 frame
without samples, of which it locks the size (log 33). -/
theorem test_crDnGen_noSamples :
    let s := { State.reset with status := State.reset.status.setCrValid }
    let f := { FrameDesc.zero with fmt := 2 }
    refusalOf (exec (.crDnGen 1 0 0) s) = some .illFormedDescriptor ∧
    after (exec (.crDnGen 1 0 0) ((s.setSlot 0 f).setSlot 1 f))
      (fun t => (t.slot 1, t.status.crLocked, t.crObj.lockW, t.mem)) =
      some ({ f with fmt := 0x80000002 }, true, 0, []) := by decide +kernel

/-- T16 (a): the output slot has chroma planes of another size. -/
def unequal : State :=
  let s := ctState 0 8 1 1 true false .none 0 255 1 2 3
  s.setSlot 1 (frame 0 8 1 2 2 1 1 0x20 0x24 0x28 0 255)

theorem witness_CtProcNoop :
    unequal.status.fatal = false ∧ unequal.status.ctValid = true ∧
    firstProblem (ctDuties unequal 1 0) = none ∧
    ¬ ((unequal.slot 1).count 0 = (unequal.slot 0).count 0 ∧
      (unequal.slot 0).count 1 = (unequal.slot 0).count 0 ∧
      (unequal.slot 0).count 2 = (unequal.slot 0).count 0 ∧
      (unequal.slot 1).count 1 = (unequal.slot 0).count 0 ∧
      (unequal.slot 1).count 2 = (unequal.slot 0).count 0) ∧
    after (exec (.ctProc 1 0) unequal) (fun t => (t.status.word, (t.slot 1).frameNo, t.cause)) =
      some (0x00000110, 7, 0) := by decide +kernel

theorem witness_CtProcUnsupported :
    let s := ctState 0 8 1 6 false false .none 0 255 1 2 3
    s.status.fatal = false ∧ s.status.ctValid = true ∧ firstProblem (ctDuties s 1 0) = none ∧
    countsEqual (s.slot 1) (s.slot 0) = true ∧ s.ctObj.cli = true := by decide +kernel

theorem witness_CtProcNeverFatal :
    (nextOf (exec (.ctProc 1 0) unequal)).isSome = true := by decide +kernel

theorem witness_ClipConformance :
    (ctState 2 0 4 0 true false .bounds 0 0 0 0 0).ctObj.clip = .bounds ∧
    boundsOk (.ofBits32 0xBF000000) (.ofBits32 0x3F000000) = true ∧
    (Fp.ofBits64 0x3FF8000000000000).isNan = false ∧
    (ctState 2 0 4 0 true false .nonneg 0 0 0 0 0).ctObj.clip = .nonneg ∧
    (Fp.ofBits64 0x3FF8000000000000).lt .zero = false := by decide +kernel

theorem witness_IdentityPassesThrough :
    let s := ctState 2 0 4 0 true false .none 0 0 0 0 0
    s.cfg.dotKind = .leftToRight ∧ s.ctObj.clf = false ∧ s.ctObj.tpAct = false ∧
    s.ctObj.mat = identityMat ∧
    (Fp.ofBits32 0x00000001).isFinite = true ∧ (0x00000001 : Word) ≠ 0x80000000 ∧
    65535 < 2 ^ 16 := by decide +kernel

theorem witness_CtProcReadsOnlyItsCache :
    (nextOf (exec (.ctProc 1 0) (ctState 0 8 1 1 true false .none 16 235 255 0 0))).isSome =
      true := by decide +kernel

theorem witness_CrSetupEffect :
    State.reset.status.fatal = false ∧
    ((6 : BitVec 3) = 6 ∧ 5 < (6 : BitVec 3).toNat) ∧
    (¬ ((5 : BitVec 3) ≠ 5 ∨ 5 < (5 : BitVec 3).toNat) ∧ Tables.default.bank 5 1 0 = none) ∧
    (¬ ((5 : BitVec 3) ≠ 5 ∨ 5 < (5 : BitVec 3).toNat) ∧ Tables.default.bank 5 0 0 ≠ none) := by
  decide +kernel

/-- T24: a set-up CRU on two frames. -/
def t24 (fi fo : FrameDesc) : State :=
  let s := withFrames fi fo []
  { s with status := s.status.setCrValid }

theorem witness_ConversionFatalChecks :
    (let s := t24 (frame 2 0 3 4 4 4 4 0 0x40 0x80 0 0) (frame 0 8 1 5 3 2 1 0 0x40 0x80 0 255);
      s.status.fatal = false ∧ s.status.crValid = true ∧
        (s.slot 0).isFloat ≠ (s.slot 1).isFloat) ∧
    (let s := t24 (frame 0 8 3 4 4 4 4 0 0x40 0x80 0 0) (frame 1 10 1 5 3 2 1 0 0x40 0x80 0 255);
      (s.slot 0).isFloat = (s.slot 1).isFloat ∧ (s.slot 0).isFloat = false ∧
        (s.slot 0).depth ≠ (s.slot 1).depth) ∧
    (let s := t24 (frame 2 0 3 4 4 4 4 0 0x40 0x80 0 0) (frame 2 12 1 2 2 2 1 0 0x40 0x80 0 255);
      (s.slot 0).isFloat = (s.slot 1).isFloat ∧ (s.slot 0).isFloat = true ∧
        (s.slot 0).count 0 ≠ (s.slot 1).count 0) := by decide +kernel

theorem crReady_of_checks {up : Bool} {s : State} {o i : Fin 4}
    (h : (s.status.fatal = false ∧ s.status.crValid = true ∧
      (s.slot i).isFloat = (s.slot o).isFloat ∧
      ((s.slot i).isFloat = true ∨ (s.slot i).depth = (s.slot o).depth) ∧
      (s.slot i).count 0 = (s.slot o).count 0 ∧ firstProblem (crDuties up s o i) = none) ∧
      (planes.all fun p => (List.range ((s.slot i).bytes p)).all fun k =>
        (s.mem.read ((s.slot i).addr p + k)).isSome) = true) : s.crReady up o i :=
  ⟨h.1.1, h.1.2.1, h.1.2.2.1, h.1.2.2.2.1, h.1.2.2.2.2.1, h.1.2.2.2.2.2, written_of_check h.2⟩

/-- Flat 2 by 2 integer frames for a down-conversion and for an up-conversion with TB. -/
def flatDown : State := crState 0 8 1 2 false 15 16 235 77 [77, 77, 77, 77]
def flatUp : State := crState 0 8 1 2 true 15 16 235 77 [77]

/-- The same with binary32 samples of 0.5. -/
def flatDownF : State := crState 2 0 4 2 false 15 0 0 0x3F000000 (List.replicate 4 0x3F000000)
def flatUpF : State := crState 2 0 4 2 true 15 0 0 0x3F000000 [0x3F000000]

theorem flatDown_ready : flatDown.crReady false 1 0 ∧ flatDown.crBank = some tb :=
  ⟨crReady_of_checks (by decide +kernel), by decide +kernel⟩
theorem flatUp_ready : flatUp.crReady true 1 0 ∧ flatUp.crBank = some tb :=
  ⟨crReady_of_checks (by decide +kernel), by decide +kernel⟩
theorem flatDownF_ready : flatDownF.crReady false 1 0 ∧ flatDownF.crBank = some tb :=
  ⟨crReady_of_checks (by decide +kernel), by decide +kernel⟩
theorem flatUpF_ready : flatUpF.crReady true 1 0 ∧ flatUpF.crBank = some tb :=
  ⟨crReady_of_checks (by decide +kernel), by decide +kernel⟩

/-- A bank without a member but preset 0: down-conversions other than the Generic one lack theirs. -/
theorem witness_MissingMembers :
    (let s := crState 0 8 1 2 false 0 16 235 77 [77, 77, 77, 77];
      s.crReady false 1 0 ∧ ∃ b, s.crBank = some b ∧ b.bdh = [] ∧ b.adh.length ≠ 5) ∧
    (let s := crState 0 8 1 2 true 0 16 235 77 [77];
      s.crReady true 1 0 ∧ ∃ b, s.crBank = some b ∧ b.buh.1 = []) ∧
    (let s := crState 0 8 1 2 false 1 16 235 77 [77, 77, 77, 77];
      let s := { s with cfg := { s.cfg with banks := [⟨0, 1, 1, emptyBank⟩] } };
      s.crReady false 1 0 ∧ ∃ b, s.crBank = some b ∧ b.gdh = none) ∧
    (let s := crState 0 8 1 2 true 1 16 235 77 [77];
      let s := { s with cfg := { s.cfg with banks := [⟨0, 1, 1, emptyBank⟩] } };
      s.crReady true 1 0 ∧ ∃ b, s.crBank = some b ∧ b.guh = none) := by
  refine ⟨⟨?_, _, rfl, rfl, by decide⟩, ⟨?_, _, rfl, rfl⟩, ⟨?_, _, rfl, rfl⟩, ⟨?_, _, rfl, rfl⟩⟩
  all_goals exact crReady_of_checks (by decide +kernel)

/-- A CRU locked to a width of 4. -/
def locked : State :=
  { flatDown with
    status := flatDown.status.setCrLocked
    crObj := { flatDown.crObj with lockW := 4, lockH := 2 } }

theorem witness_SizeLockRefuses :
    locked.status.fatal = false ∧ locked.status.crValid = true ∧
    (locked.slot 0).isFloat = (locked.slot 1).isFloat ∧
    (locked.slot 0).depth = (locked.slot 1).depth ∧
    (locked.slot 0).count 0 = (locked.slot 1).count 0 ∧ locked.status.crLocked = true ∧
    (locked.slot 0).width.get 0 ≠ locked.crObj.lockW := by decide +kernel

/-! One witness for each disjunct of `HostDutiesRefuse`: the disjunct holds, the other hypotheses do,
and the command is refused. -/

/-- Both units set up on the flat integer frames, with an output descriptor `g` makes. -/
def spoil (g : FrameDesc → FrameDesc) : State :=
  let s := flatDown.setSlot 1 (g (flatDown.slot 1))
  { s with status := s.status.setCtValid }

/-- Both units set up, past the fatal checks of a conversion from slot 0 to slot 1. -/
def pastChecks (s : State) : Bool :=
  !s.status.fatal && s.status.ctValid && s.status.crValid && s.hasSlot 0 && s.hasSlot 1 &&
    (fatalCheck (s.slot 1) (s.slot 0)).isNone

/-- What `CT.PROC` and `CR.DN.GEN` answer from slot 0 to slot 1. -/
def refusals (s : State) : Option Refusal × Option Refusal :=
  (refusalOf (exec (.ctProc 1 0) s), refusalOf (exec (.crDnGen 1 0 0) s))

theorem witness_HostDutiesRefuse_overlap :
    let s := spoil fun _ => frame 0 8 1 2 2 1 1 0x100 0x400 0x500 16 235
    pastChecks s = true ∧ ((s.slot 1).covers 0x100 ∧ (s.slot 0).covers 0x100) ∧
    refusals s = (some .overlap, some .overlap) :=
  ⟨by decide, ⟨⟨0, by decide, by decide, by decide⟩, ⟨0, by decide, by decide, by decide⟩⟩,
   by decide +kernel⟩

theorem witness_HostDutiesRefuse_outputOverlap :
    let s := spoil fun _ => frame 0 8 1 2 2 1 1 0x400 0x403 0x500 16 235
    pastChecks s = true ∧ ((s.slot 1).inPlane 0 0x403 ∧ (s.slot 1).inPlane 1 0x403) ∧
    refusals s = (some .overlap, some .overlap) :=
  ⟨by decide, ⟨⟨by decide, by decide⟩, by decide, by decide⟩, by decide +kernel⟩

theorem witness_HostDutiesRefuse_sameSlot :
    pastChecks (spoil id) = true ∧
    refusalOf (exec (.ctProc 0 0) (spoil id)) = some .overlap ∧
    refusalOf (exec (.crUpBnd 0 0) (spoil id)) = some .overlap := by decide +kernel

theorem witness_HostDutiesRefuse_kinds :
    let s := spoil fun _ => frame 1 8 1 2 2 1 1 0x400 0x500 0x600 16 235
    pastChecks s = true ∧ (s.slot 0).kind ≠ (s.slot 1).kind ∧
    refusals s = (some .kindMismatch, some .kindMismatch) := by decide +kernel

theorem witness_HostDutiesRefuse_reservedKind :
    let s := spoil fun _ => frame 3 8 1 2 2 1 1 0x400 0x500 0x600 16 235
    pastChecks s = true ∧ (s.slot 1).kind = .reserved ∧
    refusals s = (some .illFormedDescriptor, some .illFormedDescriptor) := by decide +kernel

/-- A U16 plane at an odd address. -/
theorem witness_HostDutiesRefuse_misaligned :
    let s := { (crState 1 8 2 2 false 15 16 235 77 [77, 77, 77, 77]).setSlot 1
        (frame 1 8 1 2 2 1 1 0x401 0x500 0x600 16 235) with status := (spoil id).status }
    pastChecks s = true ∧ (s.slot 1).addr 0 % (s.slot 1).kind.size ≠ 0 ∧
    refusals s = (some .misalignedPlane, some .misalignedPlane) := by decide +kernel

theorem witness_HostDutiesRefuse_pastTheTop :
    let s := spoil fun _ => frame 0 8 1 2 2 1 1 0xFFFFFFFE 0x500 0x600 16 235
    pastChecks s = true ∧ 0 < (s.slot 1).count 0 ∧
    2 ^ s.cfg.aw < (s.slot 1).addr 0 + (s.slot 1).count 0 * (s.slot 1).kind.size ∧
    refusals s = (some .planeOutOfSpace, some .planeOutOfSpace) := by decide +kernel

theorem witness_HostDutiesRefuse_registerWindow :
    let s := { spoil id with cfg := { tbTables with regBase := some 0x400 } }
    pastChecks s = true ∧ s.cfg.regBase = some 0x400 ∧ (s.slot 1).inPlane 0 0x400 ∧
    refusals s = (some .planeOutOfSpace, some .planeOutOfSpace) :=
  ⟨by decide, rfl, ⟨by decide, by decide⟩, by decide +kernel⟩

theorem witness_HostDutiesRefuse_counts :
    let s := spoil fun f => { f with width := f.width.set 1 2 }
    pastChecks s = true ∧ (s.slot 1).count 1 ≠ (s.slot 1).w 1 * (s.slot 1).h 1 ∧
    refusals s = (some .illFormedDescriptor, some .illFormedDescriptor) := by decide +kernel

theorem witness_HostDutiesRefuse_maxSamples :
    let s := { spoil id with cfg := { tbTables with maxSamples := 3 } }
    pastChecks s = true ∧ s.cfg.maxSamples < (s.slot 1).count 0 ∧
    refusals s = (some .illFormedDescriptor, some .illFormedDescriptor) := by decide +kernel

/-- Bounds out of order on plane 0, which only `CT.PROC` clamps to, and above 2^8 - 1 on plane 2. -/
theorem witness_HostDutiesRefuse_bounds :
    (let s := spoil fun f => { f with maxPel := f.maxPel.set 0 15 };
      pastChecks s = true ∧ (s.slot 1).hi 0 < (s.slot 1).lo 0 ∧
      refusals s = (some .illFormedDescriptor, none)) ∧
    (let s := spoil fun f => { f with maxPel := f.maxPel.set 2 256 };
      pastChecks s = true ∧ 2 ^ (s.slot 1).depth ≤ (s.slot 1).hi 2 ∧
      refusals s = (some .illFormedDescriptor, some .illFormedDescriptor)) := by decide +kernel

/-- Policy 1 on a float output with bounds out of order. -/
theorem witness_HostDutiesRefuse_ctClip :
    let s := ctState 2 0 4 0 true false .bounds 0 0 0 0 0
    let s := { s with ctPar := { s.ctPar with min := 0x3F800000 } }
    s.ctObj.clip = .bounds ∧ (s.slot 1).isFloat = true ∧
    (Fp.ofBits32 s.ctPar.max).lt (.ofBits32 s.ctPar.min) = true ∧
    refusalOf (exec (.ctProc 1 0) s) = some .clipBounds := by decide +kernel

theorem witness_HostDutiesRefuse_noClk :
    let s := ctState 0 8 1 5 true false .none 0 255 1 2 3
    let s := { s with cfg := { Tables.default with clkSource := .absent } }
    s.ctObj.clf = true ∧ s.cfg.clk = none ∧
    refusalOf (exec (.ctProc 1 0) s) = some .noClk := by decide +kernel

theorem witness_HostDutiesRefuse_unwritten :
    (let s := { ctState 0 8 1 1 true false .none 0 255 1 2 3 with mem := [] };
      countsEqual (s.slot 1) (s.slot 0) = true ∧ s.ctObj.cli = false ∧ (s.slot 0).inPlane 0 0x10 ∧
      s.mem.read 0x10 = none ∧ refusalOf (exec (.ctProc 1 0) s) = some .unwrittenByte) ∧
    (let s := { spoil id with mem := [] };
      pastChecks s = true ∧ (s.slot 0).inPlane 0 0x100 ∧ s.mem.read 0x100 = none ∧
      (refusals s).2 = some .unwrittenByte) :=
  ⟨⟨by decide +kernel, rfl, ⟨by decide, by decide⟩, rfl, by decide +kernel⟩,
   by decide, ⟨by decide, by decide⟩, rfl, by decide +kernel⟩

/-- R41: both frames U8 with `BITDEPTH` 9. -/
theorem witness_HostDutiesRefuse_depth :
    let s := crState 0 9 1 2 false 15 16 235 77 [77, 77, 77, 77]
    s.status.crValid = true ∧ (fatalCheck (s.slot 1) (s.slot 0)).isNone = true ∧
    8 * (s.slot 0).kind.size < (s.slot 0).depth ∧
    (refusals s).2 = some .illFormedDescriptor := by decide +kernel

/-- R192 (W3): a bank whose only member is a final filter with a wrong offset. -/
theorem witness_HostDutiesRefuse_bank :
    let b := { emptyBank with gdv := some { tbC 6 with ioffset := 1 } }
    let s := { spoil id with cfg := { Tables.default with banks := [⟨0, 15, 15, b⟩] } }
    pastChecks s = true ∧ s.crBank = some b ∧ bankOk b = false ∧
    refusals s = (none, some .badBank) := by decide +kernel

/-- R211: chroma planes of the wrong size, for each direction. -/
theorem witness_HostDutiesRefuse_geometry :
    (let s := spoil fun _ => frame 0 8 1 2 2 1 2 0x400 0x500 0x600 16 235;
      pastChecks s = true ∧ ((s.slot 1).w 1, (s.slot 1).h 1) ≠ ((s.slot 0).w 0 / 2, (s.slot 0).h 0 / 2) ∧
      (refusals s).2 = some .geometry) ∧
    (pastChecks (spoil id) = true ∧
      (((spoil id).slot 0).w 1, ((spoil id).slot 0).h 1) ≠
        (((spoil id).slot 0).w 0 / 2, ((spoil id).slot 0).h 0 / 2) ∧
      refusalOf (exec (.crUpGen 1 0 0) (spoil id)) = some .geometry) := by decide +kernel

/-- R38: TB's final filter `A` clips, and `CR_FMAX` is a NaN; a pair of clipping up filters. -/
theorem witness_HostDutiesRefuse_crClip :
    (let s := { flatDownF with crPar := { flatDownF.crPar with fmax := 0x7FC00000 } };
      s.crBank = some tb ∧ tb.gdv = some tbAclip ∧ tbAclip.clip = true ∧
      (s.slot 0).isFloat = true ∧ (Fp.ofBits32 s.crPar.fmax).isFinite = false ∧ 0 < (s.slot 0).w 0 ∧
      refusalOf (exec (.crDnGen 1 0 0) s) = some .clipBounds) ∧
    (let b := { tb with guh := some (tbU0 4, { tbU1 4 with clip := true }) };
      let s := { flatUpF with
        cfg := { tbTables with banks := [⟨0, 15, 15, b⟩] }
        crPar := { flatUpF.crPar with fmax := 0xBF800000 } };
      s.crBank = some b ∧ (s.slot 0).isFloat = true ∧
      (Fp.ofBits32 s.crPar.fmax).lt (.ofBits32 s.crPar.fmin) = true ∧
      refusalOf (exec (.crUpGen 1 0 0) s) = some .clipBounds) := by decide +kernel

/-- The same of the selecting and the Adaptive converters: every second-pass candidate clips, and one
Adaptive candidate. -/
theorem witness_HostDutiesRefuse_crClip_select :
    let b := { tb with
      bdv := [tbAclip], buh := ([{ tbV0 6 with clip := true }], [tbA 6, tbC 6])
      adv := { tbA 3 with clip := true } :: tbAdaptive.drop 1 }
    let bad := fun s : State => { s with
      cfg := { tbTables with banks := [⟨0, 15, 15, b⟩] }
      crPar := { s.crPar with fmax := 0xBF800000 } }
    (bad flatDownF).crBank = some b ∧ (bad flatUpF).crBank = some b ∧
    (∀ F ∈ b.bdv, F.clip = true) ∧ (∀ F ∈ b.buh.1, F.clip = true) ∧
    (∃ F ∈ b.adh ++ b.adv, F.clip = true) ∧
    refusalOf (exec (.crDnBnd 1 0) (bad flatDownF)) = some .clipBounds ∧
    refusalOf (exec (.crUpBnd 1 0) (bad flatUpF)) = some .clipBounds ∧
    refusalOf (exec (.crDnAdp 1 0) (bad flatDownF)) = some .clipBounds := by decide +kernel

theorem witness_FloatSum : [Fp.zero] ≠ [] := by decide

/-- The last coefficient sum that fits, and one that does not. -/
theorem witness_FixedSum :
    [(1 : Int)] ≠ [] ∧ filterF0.icoef.length = filterF0.fcoef.length ∧
    isum filterF0 [2147483647] 0 = .ok 2147483647 ∧
    isum filterF0 [2147483648] 0 = .error .int32Overflow := by decide +kernel

theorem witness_MinMaxOfSupport :
    filterF0.fcoef ≠ [] ∧ [(3 : Int)] ≠ [] ∧ [Fp.nan] ≠ [] ∧
    ([Fp.nan].getD (clampi ((0 : Nat) + (0 : Nat) - 0) 0 (1 - 1)).toNat default).isNan = true ∧
    ([Fp.half].getD (clampi ((0 : Nat) + (0 : Nat) - 0) 0 (1 - 1)).toNat default).isNan = false := by
  decide +kernel

/-- The environment of a conversion of slot 0 at level `lvl`. -/
def env (s : State) (lvl : Nat) : CrEnv := crEnv s (s.slot 0) lvl

theorem witness_BoundingLevels :
    (env flatDown 0).trim = none ∧ (env flatDown 3).trim = some 2 ∧
    minmaxF filterF0 [Fp.half] 0 2 = .ok (Fp.half, Fp.half) ∧
    minmaxI filterF0 [16777215] 0 2 = (16777215, 16777215) ∧
    (16777215 : Int) * (filterF0.icoef.map BitVec.toInt).sum < 2 ^ 31 := by decide +kernel

theorem witness_PassOutputs :
    boundF (env flatDown 0) tbAclip [Fp.half] 0 (fsum tbAclip [Fp.half] 0) = .ok Fp.half ∧
    tbAclip.clip = true ∧ boundsOk (env flatDown 0).fmin (env flatDown 0).fmax = true ∧
    filterF0.clip = false ∧ isum tbAclip [77] 0 = .ok 616 ∧
    firstI (env flatDown 0) tbAclip [77] 0 = .ok 616 ∧
    finalI (env flatDown 0) 0 255 tbAclip [616] 0 = .ok 77 ∧
    boundsOk { env flatDown 0 with fmax := .nan }.fmin { env flatDown 0 with fmax := .nan }.fmax =
      false ∧
    (∃ v S, isum { filterF0 with ioffset := 1 } [2147483647] 0 = .ok v ∧
      boundI (env flatDown 0) { filterF0 with ioffset := 1 } [2147483647] 0 v = .ok S ∧
      2 ^ 31 ≤ v + ({ filterF0 with ioffset := 1 } : ScaleFilter).ioffset.toInt) :=
  ⟨by decide +kernel, rfl, by decide +kernel, rfl, by decide +kernel, by decide +kernel,
   by decide +kernel, by decide +kernel, 2147483647, 2147483647, by decide +kernel,
   by decide +kernel, by decide⟩

/-- R206: at level 1 the raw sum with its offset leaves int32 and is refused, though the bounded sum
stays inside. -/
theorem test_rawSumRefused :
    let F := { tbA 0 with ioffset := 2147483600 }
    isum F [100, 100, 100, 0] 1 = .ok 900 ∧ boundI (env flatDown 1) F [100, 100, 100, 0] 1 900 =
      .ok 800 ∧ finalI (env flatDown 1) 0 255 { F with ioffset := 2147482800 } [100, 100, 100, 0] 1 =
      .error .int32Overflow := by decide +kernel

/-- T20: the spread 38 is accepted, 39 is not. -/
theorem witness_SelectFirstAccepted :
    tb.bdh ≠ [] ∧ select (rejectsI 38 [100, 100, 100, 138, 100] 2) tb.bdh = .ok 0 ∧
    select (rejectsI 38 [100, 100, 100, 139, 100] 2) tb.bdh = .ok 2 ∧
    (∀ q, q < tb.bdh.length - 1 →
      minmaxF (tb.bdh.getD q filterF0) [Fp.half] 0 0 = .ok (Fp.half, Fp.half)) := by
  decide +kernel

/-- The last candidate is not looked at: a NaN in its support only. -/
theorem witness_SelectFirstAccepted_nan :
    let L := [filterF0, tbC 0]
    (∀ q, q < L.length - 1 →
      minmaxF (L.getD q filterF0) [Fp.half, .nan] 0 0 = .ok (Fp.half, Fp.half)) ∧
    minmaxF (tbC 0) [Fp.half, .nan] 0 0 = .error .nanOrder := by decide +kernel

theorem witness_SelectProperties :
    tb.bdh ≠ [] ∧ (∀ F ∈ tb.bdh, (minmaxI F [5] 0 0).2 - (minmaxI F [5] 0 0).1 = 0) ∧
    (∀ F ∈ tb.bdh.dropLast, (minmaxI F [0, 0, 9, 9] 1 0).2 - (minmaxI F [0, 0, 9, 9] 1 0).1 > 8) ∧
    [filterF0].length = 1 ∧
    (minmaxI (tb.bdh.headD filterF0) [0, 9] 0 0).2 -
      (minmaxI (tb.bdh.headD filterF0) [0, 9] 0 0).1 = 9 := by decide +kernel

theorem witness_AdaptivePicksBest :
    tbAdaptive ≠ [] ∧
    adaptI (env flatDown 0) 0 255 tbAdaptive tbBack [0, 255, 0, 255] = .ok [64, 128] := by
  decide +kernel

/-- Float lines: a flat one, and one whose distortion is a NaN. -/
theorem witness_AdaptivePicksBest_float :
    (∀ v ∈ [Fp.half, .nan], ∀ r, r < [filterF0, filterF0].length →
      downLine (finalF (env flatDownF 0) ([filterF0, filterF0].getD r filterF0)) [v, v] = .ok [v] ∧
      upLine (fun ph => finalF (env flatDownF 0) (if ph = 0 then tbBack.1 else tbBack.2)) [v] =
        .ok [v, v]) ∧
    (distFrom Fp.zero ([Fp.half, .half].zip [.half, .half])).isNan = false ∧
    (distFrom Fp.zero ([Fp.nan, .nan].zip [.nan, .nan])).isNan = true := by decide +kernel

theorem witness_FloatDcPreserved :
    filterOk (tbA 0) = true ∧ 0 < 4 ∧ (Fp.ofBits32 0x7F7FFFFF).isFinite = true ∧
    (0x7F7FFFFF : Word) ≠ 0x80000000 := by decide +kernel

theorem witness_FixedDcPreserved :
    chainOk [tbA 0, tbB 0] [tbAclip, tbC 6] = true ∧ tbA 0 ∈ [tbA 0, tbB 0] ∧
    tbC 6 ∈ [tbAclip, tbC 6] ∧ filterOk (tbA 0) = true ∧ filterOk (tbC 6) = true ∧
    firstI (env flatDown 1) (tbA 0) (List.replicate 4 77) 0 = .ok 616 ∧
    finalI (env flatDown 1) 16 235 (tbC 6) (List.replicate 4 616) 0 = .ok 77 := by decide +kernel

theorem witness_DefaultTables : 8 < 9 ∧ (5 : BitVec 3).toNat ≤ 5 ∧ 16 ≤ 16 := by decide

/-! Conversions: the lines of both chroma planes of a flat frame go through the passes. -/

theorem witness_CrDnGenConverts :
    tb.gdh = some (tbA 0) ∧ tb.gdv = some tbAclip ∧ slotIdx 1 = 1 ∧ slotIdx 0 = 0 ∧
    levelOk 3 = true ∧ (flatDown.slot 0).isFloat = false ∧
    (∀ p : Fin 4, p = 1 ∨ p = 2 → DownSkeleton (firstI (env flatDown 3) (tbA 0))
      (finalI (env flatDown 3) ((flatDown.slot 1).lo p) ((flatDown.slot 1).hi p) tbAclip) 2 2
      (flatDown.rowI (flatDown.slot 0) p) fun _ _ => 77) :=
  ⟨rfl, rfl, rfl, rfl, by decide, by decide, fun p hp =>
    ⟨fun _ _ => 616, by revert p; decide +kernel, by revert p; decide +kernel⟩⟩

theorem witness_CrDnGenConverts_float :
    (flatDownF.slot 0).isFloat = true ∧
    (∀ p : Fin 4, p = 1 ∨ p = 2 → DownSkeleton (firstF (env flatDownF 3) (tbA 0)) (finalF (env flatDownF 3) tbAclip) 2 2
      (flatDownF.rowF (flatDownF.slot 0) p) fun _ _ => Fp.half) :=
  ⟨by decide, fun p hp =>
    ⟨fun _ _ => Fp.half, by revert p; decide +kernel, by revert p; decide +kernel⟩⟩

theorem witness_CrDnBndConverts :
    tb.bdh ≠ [] ∧ tb.bdv ≠ [] ∧ (38 : Int) * ((tb.bdh.headD filterF0).icoef.map BitVec.toInt).sum =
      304 ∧ flatDown.cfg.edgeInt (flatDown.slot 0).depth = 38 ∧
    (∀ p : Fin 4, p = 1 ∨ p = 2 → DownSkeleton
      (fun x c => match select (rejectsI 38 x c) tb.bdh with
        | .ok q => firstI (env flatDown 0) (tb.bdh.getD q filterF0) x c
        | .error r => .error r)
      (fun x c => match select (rejectsI 304 x c) tb.bdv with
        | .ok q => finalI (env flatDown 0) ((flatDown.slot 1).lo p) ((flatDown.slot 1).hi p)
            (tb.bdv.getD q filterF0) x c
        | .error r => .error r) 2 2 (flatDown.rowI (flatDown.slot 0) p) fun _ _ => 77) :=
  ⟨by decide, by decide, by decide, by decide +kernel, fun p hp =>
    ⟨fun _ _ => 616, by revert p; decide +kernel, by revert p; decide +kernel⟩⟩

theorem witness_CrDnBndConverts_float :
    (∀ p : Fin 4, p = 1 ∨ p = 2 → DownSkeleton
      (fun x c => match select (rejectsF (.ofBits64 flatDownF.cfg.edgeThr) x c) tb.bdh with
        | .ok q => firstF (env flatDownF 0) (tb.bdh.getD q filterF0) x c
        | .error r => .error r)
      (fun x c => match select (rejectsF (.ofBits64 flatDownF.cfg.edgeThr) x c) tb.bdv with
        | .ok q => finalF (env flatDownF 0) (tb.bdv.getD q filterF0) x c
        | .error r => .error r) 2 2 (flatDownF.rowF (flatDownF.slot 0) p) fun _ _ => Fp.half) :=
  fun p hp => ⟨fun _ _ => Fp.half, by revert p; decide +kernel, by revert p; decide +kernel⟩

theorem witness_CrDnAdpConverts :
    tb.adh.length = 5 ∧ tb.adv.length = 5 ∧ tb.auh = some tbBack ∧ tb.auv = some tbBack ∧
    (∀ p : Fin 4, p = 1 ∨ p = 2 → LineSkeleton
      (adaptI (env flatDown 0) ((flatDown.slot 1).lo p) ((flatDown.slot 1).hi p) tb.adh tbBack)
      (adaptI (env flatDown 0) ((flatDown.slot 1).lo p) ((flatDown.slot 1).hi p) tb.adv tbBack) 2 2
      (flatDown.rowI (flatDown.slot 0) p) fun _ _ => 77) :=
  ⟨rfl, rfl, rfl, rfl, fun p hp =>
    ⟨fun _ _ => 77, by revert p; decide +kernel, by revert p; decide +kernel⟩⟩

theorem witness_CrDnAdpConverts_float :
    (∀ p : Fin 4, p = 1 ∨ p = 2 → LineSkeleton (adaptF (env flatDownF 0) tb.adh tbBack)
      (adaptF (env flatDownF 0) tb.adv tbBack) 2 2 (flatDownF.rowF (flatDownF.slot 0) p)
      fun _ _ => Fp.half) :=
  fun p hp => ⟨fun _ _ => Fp.half, by revert p; decide +kernel, by revert p; decide +kernel⟩

theorem witness_CrUpGenConverts :
    tb.guh = some (tbU0 4, tbU1 4) ∧ tb.guv = some (tbU0 0, tbU1 0) ∧
    (flatUp.slot 0).isFloat = false ∧
    (∀ p : Fin 4, p = 1 ∨ p = 2 → UpSkeleton
      (fun ph => firstI (env flatUp 3) (if ph = 0 then tbU0 0 else tbU1 0))
      (fun ph => finalI (env flatUp 3) ((flatUp.slot 1).lo p) ((flatUp.slot 1).hi p)
        (if ph = 0 then tbU0 4 else tbU1 4)) 2 2 (flatUp.colI (flatUp.slot 0) p)
      fun _ _ => 77) :=
  ⟨rfl, rfl, by decide, fun p hp =>
    ⟨fun _ _ => 308, by revert p; decide +kernel, by revert p; decide +kernel⟩⟩

theorem witness_CrUpGenConverts_float :
    (flatUpF.slot 0).isFloat = true ∧
    (∀ p : Fin 4, p = 1 ∨ p = 2 → UpSkeleton
      (fun ph => firstF (env flatUpF 3) (if ph = 0 then tbU0 0 else tbU1 0))
      (fun ph => finalF (env flatUpF 3) (if ph = 0 then tbU0 4 else tbU1 4)) 2 2
      (flatUpF.colF (flatUpF.slot 0) p) fun _ _ => Fp.half) :=
  ⟨by decide, fun p hp =>
    ⟨fun _ _ => Fp.half, by revert p; decide +kernel, by revert p; decide +kernel⟩⟩

theorem witness_CrUpBndConverts :
    tb.buv.1 ≠ [] ∧ tb.buv.2 ≠ [] ∧ tb.buh.1 ≠ [] ∧ tb.buh.2 ≠ [] ∧
    (38 : Int) * ((tb.buv.1.headD filterF0).icoef.map BitVec.toInt).sum = 304 ∧
    (∀ p : Fin 4, p = 1 ∨ p = 2 → UpSkeleton
      (fun ph x c => match select (rejectsI 38 x c) (if ph = 0 then tb.buv.1 else tb.buv.2) with
        | .ok q => firstI (env flatUp 0)
            ((if ph = 0 then tb.buv.1 else tb.buv.2).getD q filterF0) x c
        | .error r => .error r)
      (fun ph x c => match select (rejectsI 304 x c) (if ph = 0 then tb.buh.1 else tb.buh.2) with
        | .ok q => finalI (env flatUp 0) ((flatUp.slot 1).lo p) ((flatUp.slot 1).hi p)
            ((if ph = 0 then tb.buh.1 else tb.buh.2).getD q filterF0) x c
        | .error r => .error r) 2 2 (flatUp.colI (flatUp.slot 0) p) fun _ _ => 77) :=
  ⟨by decide, by decide, by decide, by decide, by decide, fun p hp =>
    ⟨fun _ _ => 616, by revert p; decide +kernel, by revert p; decide +kernel⟩⟩

theorem witness_CrUpBndConverts_float :
    (∀ p : Fin 4, p = 1 ∨ p = 2 → UpSkeleton
      (fun ph x c => match select (rejectsF (.ofBits64 flatUpF.cfg.edgeThr) x c)
          (if ph = 0 then tb.buv.1 else tb.buv.2) with
        | .ok q => firstF (env flatUpF 0)
            ((if ph = 0 then tb.buv.1 else tb.buv.2).getD q filterF0) x c
        | .error r => .error r)
      (fun ph x c => match select (rejectsF (.ofBits64 flatUpF.cfg.edgeThr) x c)
          (if ph = 0 then tb.buh.1 else tb.buh.2) with
        | .ok q => finalF (env flatUpF 0)
            ((if ph = 0 then tb.buh.1 else tb.buh.2).getD q filterF0) x c
        | .error r => .error r) 2 2 (flatUpF.colF (flatUpF.slot 0) p) fun _ _ => Fp.half) :=
  fun p hp => ⟨fun _ _ => Fp.half, by revert p; decide +kernel, by revert p; decide +kernel⟩

theorem witness_ConversionsComplete :
    (flatDown.slot 0).isFloat = false ∧
    flatDown.cfg.edgeInt (flatDown.slot 0).depth < 2 ^ 16 ∧
    (∀ F ∈ bankFilters tb, (F.icoef.map fun k => k.toInt.natAbs).sum ≤ 128 ∧
      F.ioffset.toInt.natAbs ≤ 2 ^ 24) ∧
    tb.gdh.isSome = true ∧ tb.gdv.isSome = true ∧ tb.bdh ≠ [] ∧ tb.adh.length = 5 ∧
    tb.guh.isSome = true ∧ tb.guv.isSome = true ∧ tb.buh.1 ≠ [] ∧ (flatUp.slot 0).isFloat = false ∧
    (flatDownF.slot 0).isFloat = true ∧ (flatUpF.slot 0).isFloat = true ∧
    boundsOk (.ofBits32 flatDownF.crPar.fmin) (.ofBits32 flatDownF.crPar.fmax) = true := by
  decide +kernel

/-- Level 3 on float frames without a NaN, -0.0 among the samples. -/
theorem witness_CrDnGenNearest_bounded :
    let s := crState 2 0 4 2 false 0 0 0 0x3F000000 (List.replicate 4 0x80000000)
    (∀ p ∈ [(1 : Fin 4), 2], ∀ n, n < 4 → (s.value (s.slot 0) p n).isNan = false) ∧
    after (exec (.crDnGen 1 0 3) s) (outPlane 1) = some (some [0]) := by decide +kernel

theorem witness_CrUpGenReplicates_bounded :
    let s := crState 2 0 4 2 true 0 0 0 0x3F000000 [0xBF000000]
    (∀ p ∈ [(1 : Fin 4), 2], ∀ n, n < (s.slot 0).count p → (s.value (s.slot 0) p n).isNan = false) ∧
    after (exec (.crUpGen 1 0 3) s) (outPlane 1) = some (some (List.replicate 4 0xBF000000)) := by
  decide +kernel

theorem witness_CrDnGenNearest :
    (let s := crState 0 8 1 2 false 0 16 235 77 [77, 77, 77, 77];
      s.crReady false 1 0 ∧ s.crBank.isSome = true ∧ s.crObj.dn = 0) ∧
    (let s := crState 2 0 4 2 false 0 0 0 0x3F000000 (List.replicate 4 0x80000000);
      s.crReady false 1 0 ∧ (s.slot 0).isFloat = true) :=
  ⟨⟨crReady_of_checks (by decide +kernel), by decide +kernel, by decide⟩,
   ⟨crReady_of_checks (by decide +kernel), by decide⟩⟩

theorem witness_CrUpGenReplicates :
    (let s := crState 0 8 1 2 true 0 16 235 77 [255];
      s.crReady true 1 0 ∧ s.crBank.isSome = true ∧ s.crObj.up = 0) ∧
    (let s := crState 2 0 4 2 true 0 0 0 0x3F000000 [0x80000000];
      s.crReady true 1 0 ∧ (s.slot 0).isFloat = true) :=
  ⟨⟨crReady_of_checks (by decide +kernel), by decide +kernel, by decide⟩,
   ⟨crReady_of_checks (by decide +kernel), by decide⟩⟩

theorem witness_ConversionsReadOnlyTheirLatches :
    (nextOf (exec (.crDnGen 1 0 0) flatDown)).isSome = true ∧
    Instr.crDnGen 1 0 0 ∈ conversionCommands 1 0 0 := by decide +kernel

theorem witness_FrameCommandsKeepTheRest :
    (nextOf (exec (.crUpBnd 1 0) flatUpF)).isSome = true ∧
    Instr.crUpBnd 1 0 ∈ .ctProc 1 0 :: conversionCommands 1 0 0 := by decide +kernel

theorem witness_WhoWritesWhat :
    after (step ((t13 0 1 0 0 true).withFetchWord 32 0x10000000)) (fun t => t.ctObj.mode) =
      some 1 ∧
    (State.reset.withFetchWord 32 0x12000000).pending.head? =
      some (.regWrite .word 0x004 0x12000000) := by decide +kernel

/-- A set-up CRU, about to run a conversion. -/
theorem witness_StepKeepsInv :
    (flatDown.withFetchWord 32 0x21100000).Inv ∧
    after (step (flatDown.withFetchWord 32 0x21100000)) (fun t => t.status.crLocked) =
      some true := by
  refine ⟨?_, by decide +kernel⟩
  constructor <;> decide +kernel

end Sys2Proof.Tests
end

section
/-! The one rounding, and the operations that use it (spec/00_scope.md R9). -/

namespace Sys2Proof

/-! ## `roundMag`: the cell of the grid and the choice of its end -/

/-- The numbers of at most `prec` significant bits that are multiples of `2 ^ quantum`. -/
def OnGrid (prec quantum z : Nat) : Prop := ∃ c e, quantum ≤ e ∧ c < 2 ^ prec ∧ z = c * 2 ^ e

/-- The distance of `z` from `num / den`, times `den`. -/
def gridDist (num den z : Nat) : Nat := ((z * den : Nat) - (num : Int)).natAbs

/-- `num / den` lies in the half-open cell from `q * 2 ^ k` to `(q + 1) * 2 ^ k`, `rem` (times
`1 / den`) above its lower end, and the cell is as fine as `prec` bits and `2 ^ quantum` allow. -/
structure RoundCell (prec quantum num den k q rem : Nat) : Prop where
  split : num = q * 2 ^ k * den + rem
  rem_lt : rem < 2 ^ k * den
  q_lt : q < 2 ^ prec
  quantum_le : quantum ≤ k
  normal : quantum < k → 2 ^ (prec - 1) ≤ q

/-- What `roundMag` answers: an end of the cell of `num / den`, the nearer one, in a tie the one
with the even digit. -/
theorem roundMag_cell {prec den : Nat} (quantum num : Nat) (hp : 0 < prec) (hd : 0 < den) :
    ∃ k q rem, RoundCell prec quantum num den k q rem ∧
      ((roundMag prec quantum num den = q * 2 ^ k ∧
          (2 * rem < 2 ^ k * den ∨ 2 * rem = 2 ^ k * den ∧ q % 2 = 0)) ∨
        (roundMag prec quantum num den = (q + 1) * 2 ^ k ∧
          (2 ^ k * den < 2 * rem ∨ 2 * rem = 2 ^ k * den ∧ q % 2 = 1))) := by
  obtain ⟨k, hk⟩ : ∃ k, k = max quantum (Nat.log2 (num / den) + 1 - prec) := ⟨_, rfl⟩
  have hpos : 0 < den * 2 ^ k := Nat.mul_pos hd (Nat.two_pow_pos k)
  have hdiv : num / (den * 2 ^ k) = num / den / 2 ^ k := (Nat.div_div_eq_div_mul ..).symm
  refine ⟨k, num / (den * 2 ^ k), num % (den * 2 ^ k), ⟨?_, ?_, ?_, ?_, ?_⟩, ?_⟩
  · have := Nat.div_add_mod' num (den * 2 ^ k)
    rw [Nat.mul_assoc, Nat.mul_comm (2 ^ k) den, this]
  · rw [Nat.mul_comm (2 ^ k)]; exact Nat.mod_lt _ hpos
  · rw [hdiv, Nat.div_lt_iff_lt_mul (Nat.two_pow_pos k), ← Nat.pow_add]
    exact lt_of_lt_of_le Nat.lt_log2_self (Nat.pow_le_pow_right (by decide) (by omega))
  · omega
  · intro hq
    have hlog : Nat.log2 (num / den) = prec - 1 + k := by omega
    have hne : num / den ≠ 0 := fun h0 => by
      rw [h0, show Nat.log2 0 = 0 by simp] at hlog; omega
    rw [hdiv, Nat.le_div_iff_mul_le (Nat.two_pow_pos k), ← Nat.pow_add, ← hlog]
    exact Nat.log2_self_le hne
  · unfold roundMag
    rw [← hk]
    dsimp only
    split
    · exact .inr ⟨rfl, by rw [Nat.mul_comm (2 ^ k)]; omega⟩
    · exact .inl ⟨rfl, by rw [Nat.mul_comm (2 ^ k)]; omega⟩

namespace RoundCell

variable {prec quantum num den k q rem z : Nat}

/-- No number on the grid lies strictly inside the cell. -/
theorem grid_gap (h : RoundCell prec quantum num den k q rem) (hp : 0 < prec)
    (hz : OnGrid prec quantum z) : z ≤ q * 2 ^ k ∨ (q + 1) * 2 ^ k ≤ z := by
  obtain ⟨c, e, hqe, hc, rfl⟩ := hz
  by_cases hke : k ≤ e
  · obtain ⟨j, rfl⟩ := Nat.exists_eq_add_of_le hke
    have hcell : c * 2 ^ (k + j) = c * 2 ^ j * 2 ^ k := by rw [Nat.pow_add]; ac_rfl
    rw [hcell]
    rcases Nat.lt_or_ge q (c * 2 ^ j) with hlt | hge
    · exact .inr (Nat.mul_le_mul_right _ hlt)
    · exact .inl (Nat.mul_le_mul_right _ hge)
  · left
    calc c * 2 ^ e ≤ 2 ^ prec * 2 ^ e := Nat.mul_le_mul_right _ hc.le
      _ ≤ 2 ^ (prec - 1) * 2 ^ k := by
        rw [← Nat.pow_add, ← Nat.pow_add]
        exact Nat.pow_le_pow_right (by decide) (by omega)
      _ ≤ q * 2 ^ k := Nat.mul_le_mul_right _ (h.normal (by omega))

theorem lower_onGrid (h : RoundCell prec quantum num den k q rem) :
    OnGrid prec quantum (q * 2 ^ k) := ⟨q, k, h.quantum_le, h.q_lt, rfl⟩

/-- The upper end is on the grid too: from `2 ^ prec` on one factor 2 moves to the exponent. -/
theorem upper_onGrid (h : RoundCell prec quantum num den k q rem) (hp : 0 < prec) :
    OnGrid prec quantum ((q + 1) * 2 ^ k) := by
  rcases Nat.lt_or_ge (q + 1) (2 ^ prec) with hlt | hge
  · exact ⟨q + 1, k, h.quantum_le, hlt, rfl⟩
  · have heq : q + 1 = 2 ^ prec := le_antisymm h.q_lt hge
    refine ⟨2 ^ (prec - 1), k + 1, Nat.le_succ_of_le h.quantum_le,
      Nat.pow_lt_pow_right (by decide) (by omega), ?_⟩
    rw [heq, ← Nat.pow_add, ← Nat.pow_add]
    congr 1; omega

/-- The distance of a number on the grid: at the ends of the cell it is `rem` and the rest of the
cell, and beyond an end it is greater than at that end. -/
theorem gridDist_cases (h : RoundCell prec quantum num den k q rem) (hp : 0 < prec) (hd : 0 < den)
    (hz : OnGrid prec quantum z) :
    (z = q * 2 ^ k ∧ gridDist num den z = rem) ∨ rem < gridDist num den z ∧ z < q * 2 ^ k ∨
    (z = (q + 1) * 2 ^ k ∧ gridDist num den z = 2 ^ k * den - rem) ∨
    2 ^ k * den - rem < gridDist num den z ∧ (q + 1) * 2 ^ k < z := by
  have hs := h.split
  have hr := h.rem_lt
  have hup : (q + 1) * 2 ^ k * den = q * 2 ^ k * den + 2 ^ k * den := by ring
  unfold gridDist
  rcases h.grid_gap hp hz with hle | hge
  · rcases Nat.lt_or_eq_of_le hle with hlt | rfl
    · have := Nat.mul_lt_mul_of_pos_right hlt hd
      exact .inr (.inl ⟨by omega, hlt⟩)
    · exact .inl ⟨rfl, by omega⟩
  · rcases Nat.lt_or_eq_of_le hge with hlt | rfl
    · have := Nat.mul_lt_mul_of_pos_right hlt hd
      exact .inr (.inr (.inr ⟨by omega, hlt⟩))
    · exact .inr (.inr (.inl ⟨rfl, by omega⟩))

end RoundCell

/-! ## Nearest, ties to even -/

section
variable {prec den : Nat} (quantum num : Nat) (hp : 0 < prec) (hd : 0 < den)
include hp hd

theorem roundMag_onGrid : OnGrid prec quantum (roundMag prec quantum num den) := by
  obtain ⟨k, q, rem, hcell, ⟨heq, -⟩ | ⟨heq, -⟩⟩ := roundMag_cell quantum num hp hd
  · rw [heq]; exact hcell.lower_onGrid
  · rw [heq]; exact hcell.upper_onGrid hp

/-- No number on the grid is nearer to `num / den` than the rounded one. -/
theorem roundMag_nearest {z : Nat} (hz : OnGrid prec quantum z) :
    gridDist num den (roundMag prec quantum num den) ≤ gridDist num den z := by
  obtain ⟨k, q, rem, hcell, ⟨heq, hside⟩ | ⟨heq, hside⟩⟩ := roundMag_cell quantum num hp hd
  all_goals
    have hends : q * 2 ^ k < (q + 1) * 2 ^ k :=
      Nat.mul_lt_mul_of_pos_right (Nat.lt_succ_self q) (Nat.two_pow_pos k)
    have hround := hcell.gridDist_cases hp hd (roundMag_onGrid quantum num hp hd)
    have hother := hcell.gridDist_cases hp hd hz
    omega

/-- A number on the grid that is as near is the other end of the cell, and the rounded one is the
end with the even digit. -/
theorem roundMag_tie {z : Nat} (hz : OnGrid prec quantum z)
    (hne : z ≠ roundMag prec quantum num den)
    (heqd : gridDist num den z = gridDist num den (roundMag prec quantum num den)) :
    ∃ e, (z = roundMag prec quantum num den + 2 ^ e ∨ roundMag prec quantum num den = z + 2 ^ e) ∧
      roundMag prec quantum num den % 2 ^ (e + 1) = 0 := by
  obtain ⟨k, q, rem, hcell, ⟨heq, hside⟩ | ⟨heq, hside⟩⟩ := roundMag_cell quantum num hp hd
  all_goals
    have hstep : (q + 1) * 2 ^ k = q * 2 ^ k + 2 ^ k := Nat.succ_mul q (2 ^ k)
    have hpos := Nat.two_pow_pos k
    have hround := hcell.gridDist_cases hp hd (roundMag_onGrid quantum num hp hd)
    have hother := hcell.gridDist_cases hp hd hz
    refine ⟨k, by omega, ?_⟩
    rw [heq, Nat.pow_succ, Nat.mul_comm (2 ^ k), Nat.mul_mod_mul_right,
      Nat.mul_eq_zero]
    left; omega

/-- A number on the grid is rounded to itself. -/
theorem roundMag_eq_self {z : Nat} (hz : OnGrid prec quantum z) :
    roundMag prec quantum (z * den) den = z := by
  have h := roundMag_nearest quantum (z * den) hp hd hz
  have hz0 : gridDist (z * den) den z = 0 := by simp [gridDist]
  have hmul : roundMag prec quantum (z * den) den * den = z * den := by
    unfold gridDist at h hz0; omega
  exact Nat.eq_of_mul_eq_mul_right hd hmul

end

/-! ## The operations -/

theorem Fp.op_nan_left {op : Fp → Fp → Fp} (h : op ∈ [Fp.add, Fp.sub, Fp.mul, Fp.div]) (x : Fp) :
    op .nan x = .nan := by
  simp only [List.mem_cons, List.not_mem_nil, or_false] at h
  rcases h with rfl | rfl | rfl | rfl <;> rfl

theorem Fp.op_nan_right {op : Fp → Fp → Fp} (h : op ∈ [Fp.add, Fp.sub, Fp.mul, Fp.div]) (x : Fp) :
    op x .nan = .nan := by
  simp only [List.mem_cons, List.not_mem_nil, or_false] at h
  rcases h with rfl | rfl | rfl | rfl <;> cases x <;> rfl

section
variable (a b : Bool) (m n : Nat)

theorem Fp.round64_eq (den : Nat) : Fp.round64 a n den =
    if 2 ^ 2098 ≤ roundMag 53 0 n den then .inf a else .fin a (roundMag 53 0 n den) := rfl

theorem Fp.mul_fin_fin :
    (Fp.fin a m).mul (.fin b n) = Fp.round64 (a != b) (m * n) (2 ^ 1074) := rfl

theorem Fp.div_fin_fin : (Fp.fin a m).div (.fin b n) =
    if n = 0 then (if m = 0 then .nan else .inf (a != b))
    else Fp.round64 (a != b) (m * 2 ^ 1074) n := rfl

theorem Fp.div_fin_zero :
    (Fp.fin a m).div (.fin b 0) = if m = 0 then .nan else .inf (a != b) :=
  (Fp.div_fin_fin a b m 0).trans (if_pos rfl)

theorem Fp.div_fin_pos {n : Nat} (hn : 0 < n) :
    (Fp.fin a m).div (.fin b n) = Fp.round64 (a != b) (m * 2 ^ 1074) n :=
  (Fp.div_fin_fin a b m n).trans (if_neg hn.ne')

end

/-- Settles O17: `roundMag_cell` says what the one rounding does; the operations are their exact
results put through it. -/
theorem roundingIsNearestEven : Obligations.RoundingIsNearestEven := by
  intro prec quantum num den hp hd
  refine ⟨roundMag_onGrid quantum num hp hd, fun z => roundMag_nearest quantum num hp hd,
    fun z => roundMag_tie quantum num hp hd, fun a b m n x => ?_⟩
  exact ⟨rfl, ⟨rfl, rfl⟩, (Fp.mul_fin_fin a b m n).trans (Fp.round64_eq ..),
    fun hn => (Fp.div_fin_pos a b m hn).trans (Fp.round64_eq ..), Fp.div_fin_zero a b m,
    rfl, rfl, ⟨rfl, rfl⟩, rfl, ⟨rfl, rfl⟩, ⟨rfl, rfl, rfl⟩, ⟨rfl, rfl⟩,
    fun op h => ⟨Fp.op_nan_left h x, Fp.op_nan_right h x⟩⟩

end Sys2Proof
end

section
/-! Binary32 patterns: read, narrowed to, and stored (spec/00_scope.md R9). -/

namespace Sys2Proof

/-! ## The fields of a binary32 pattern -/

/-- The binary32 pattern with sign `n`, exponent field `e` and fraction field `f`. -/
def word32 (n : Bool) (e f : Nat) : Word := BitVec.ofNat 32 (n.toNat * 2 ^ 31 + e * 2 ^ 23 + f)

theorem word32_toNat (n : Bool) {e f : Nat} (he : e < 256) (hf : f < 2 ^ 23) :
    (word32 n e f).toNat = n.toNat * 2 ^ 31 + e * 2 ^ 23 + f := by
  have hn := n.toNat_le
  simp only [word32, BitVec.toNat_ofNat]
  omega

/-- Every pattern is one of its three fields. -/
theorem exists_word32 (w : Word) : ∃ n e f, e < 256 ∧ f < 2 ^ 23 ∧ w = word32 n e f := by
  refine ⟨decide (w.toNat / 2 ^ 31 = 1), w.toNat / 2 ^ 23 % 256, w.toNat % 2 ^ 23,
    Nat.mod_lt _ (by decide), Nat.mod_lt _ (by decide), BitVec.eq_of_toNat_eq ?_⟩
  rw [word32_toNat _ (Nat.mod_lt _ (by decide)) (Nat.mod_lt _ (by decide))]
  have := w.isLt
  by_cases h : w.toNat / 2 ^ 31 = 1 <;> simp only [h, decide_true, decide_false, Bool.toNat_true,
    Bool.toNat_false] <;> omega

/-- A binary32 pattern read by its fields (00_scope.md R9). -/
theorem Fp.ofBits32_word32 (n : Bool) {e f : Nat} (he : e < 256) (hf : f < 2 ^ 23) :
    Fp.ofBits32 (word32 n e f) =
      if e = 255 then (if f = 0 then .inf n else .nan)
      else if e = 0 then .fin n (f * 2 ^ 925)
      else .fin n ((2 ^ 23 + f) * 2 ^ (925 + (e - 1))) := by
  have hw := word32_toNat n he hf
  have hsign : (word32 n e f).getLsbD 31 = n := by
    rw [BitVec.getLsbD, Nat.testBit_eq_decide_div_mod_eq, hw]
    cases n <;> simp <;> omega
  have hexp : ((word32 n e f).extractLsb' 23 8).toNat = e := by
    rw [BitVec.extractLsb'_toNat, Nat.shiftRight_eq_div_pow, hw]; omega
  have hfrac : ((word32 n e f).extractLsb' 0 23).toNat = f := by
    rw [BitVec.extractLsb'_toNat, Nat.shiftRight_eq_div_pow, hw]; omega
  simp only [Fp.ofBits32, hsign, hexp, hfrac]

theorem Fp.ofBits32_inf (n : Bool) : Fp.ofBits32 (word32 n 255 0) = .inf n := by
  rw [Fp.ofBits32_word32 n (by decide) (by decide), if_pos rfl, if_pos rfl]

/-- 2^-149, the spacing of the smallest binary32 numbers, in units of 2^-1074. -/
def Fp.ulp32 : Nat := 2 ^ 925

theorem Fp.ulp32_pos : 0 < Fp.ulp32 := by unfold Fp.ulp32; positivity

theorem Fp.ofBits32_subnormal (n : Bool) {f : Nat} (hf : f < 2 ^ 23) :
    Fp.ofBits32 (word32 n 0 f) = .fin n (f * Fp.ulp32) := by
  rw [Fp.ofBits32_word32 n (by decide) hf, if_neg (by decide), if_pos rfl, Fp.ulp32]

theorem mul_two_pow_add (c k e : Nat) : c * 2 ^ (k + e) = c * 2 ^ e * 2 ^ k := by
  rw [Nat.add_comm, Nat.pow_add, Nat.mul_assoc]

theorem Fp.ofBits32_normal (n : Bool) {e f : Nat} (he : e < 254) (hf : f < 2 ^ 23) :
    Fp.ofBits32 (word32 n (e + 1) f) = .fin n ((2 ^ 23 + f) * 2 ^ e * Fp.ulp32) := by
  rw [Fp.ofBits32_word32 n (by omega) hf, if_neg (by omega), if_neg (by omega), Nat.add_sub_cancel,
    mul_two_pow_add, Fp.ulp32]

/-- A pattern laid out by concatenation, with its exponent field all ones. -/
theorem append_eq_word32 (s : BitVec 1) (f : BitVec 23) :
    s ++ (0xFF : BitVec 8) ++ f = word32 (s.getLsbD 0) 255 f.toNat := by
  refine BitVec.eq_of_toNat_eq ?_
  have hs : s.toNat = (s.getLsbD 0).toNat := by revert s; decide
  have he : (0xFF : BitVec 8).toNat = 255 := rfl
  have hf := f.isLt
  rw [word32_toNat _ (by decide) hf, BitVec.toNat_append, BitVec.toNat_append,
    ← Nat.shiftLeft_add_eq_or_of_lt hf,
    ← Nat.shiftLeft_add_eq_or_of_lt (BitVec.isLt (0xFF : BitVec 8)), hs,
    Nat.shiftLeft_eq, Nat.shiftLeft_eq, he]
  omega

/-- The free pattern of a NaN: exponent all ones, fraction not 0. -/
theorem nanBits_eq_word32 (q : Word) :
    ∃ n f, f < 2 ^ 23 ∧ f ≠ 0 ∧ nanBits q = word32 n 255 f := by
  refine ⟨_, _, BitVec.isLt _, ?_, append_eq_word32 _ _⟩
  split
  · decide
  · rename_i hf
    exact fun h0 => hf (BitVec.eq_of_toNat_eq h0)

/-- A stored NaN reads back as a NaN (93_implementation_defined.md U6). -/
theorem Fp.ofBits32_nanBits (q : Word) : Fp.ofBits32 (nanBits q) = .nan := by
  obtain ⟨n, f, hf, hf0, hq⟩ := nanBits_eq_word32 q
  rw [hq, Fp.ofBits32_word32 n (by decide) hf, if_pos rfl, if_neg hf0]

/-! ## Storing a binary32 value -/

theorem Fp.toBits32_inf (q : Word) (n : Bool) : (Fp.inf n).toBits32 q = word32 n 255 0 := by
  rw [Fp.toBits32, word32, Nat.add_zero]

/-- A finite value that is `u` times 2^-149, stored: below 2^23 the exponent field is 0, from there
on it is one more than the bits beyond 24. -/
theorem Fp.toBits32_fin (q : Word) (n : Bool) (u : Nat) :
    (Fp.fin n (u * Fp.ulp32)).toBits32 q = BitVec.ofNat 32 (n.toNat * 2 ^ 31 +
      if u < 2 ^ 23 then u
      else (Nat.log2 u - 23) * 2 ^ 23 + u / 2 ^ (Nat.log2 u - 23)) := by
  have hu : u * Fp.ulp32 / 2 ^ 925 = u := Nat.mul_div_cancel u Fp.ulp32_pos
  rw [Fp.toBits32, hu]

theorem Fp.toBits32_subnormal (q : Word) (n : Bool) {f : Nat} (hf : f < 2 ^ 23) :
    (Fp.fin n (f * Fp.ulp32)).toBits32 q = word32 n 0 f := by
  rw [Fp.toBits32_fin, if_pos hf, word32, Nat.zero_mul, Nat.add_zero]

theorem log2_mantissa (e : Nat) {f : Nat} (hf : f < 2 ^ 23) :
    Nat.log2 ((2 ^ 23 + f) * 2 ^ e) = e + 23 := by
  have hpos := Nat.two_pow_pos e
  refine (Nat.log2_eq_iff (by positivity)).2 ⟨?_, ?_⟩
  · rw [Nat.pow_add, Nat.mul_comm]; exact Nat.mul_le_mul_right _ (Nat.le_add_right ..)
  · rw [Nat.add_assoc, Nat.pow_add, Nat.mul_comm (2 ^ e)]
    exact Nat.mul_lt_mul_of_pos_right (by omega) hpos

theorem Fp.toBits32_normal (q : Word) (n : Bool) (e : Nat) {f : Nat} (hf : f < 2 ^ 23) :
    (Fp.fin n ((2 ^ 23 + f) * 2 ^ e * Fp.ulp32)).toBits32 q = word32 n (e + 1) f := by
  have hbig : ¬ (2 ^ 23 + f) * 2 ^ e < 2 ^ 23 := by
    have := Nat.le_mul_of_pos_right (2 ^ 23 + f) (Nat.two_pow_pos e)
    omega
  rw [Fp.toBits32_fin, if_neg hbig, log2_mantissa e hf, Nat.add_sub_cancel,
    Nat.mul_div_cancel _ (Nat.two_pow_pos e)]
  exact congrArg (BitVec.ofNat 32) (by omega)

/-! ## The finite binary32 magnitudes -/

/-- `u` times 2^-149 is a finite binary32 magnitude: 24 significant bits, below 2^128. -/
def Finite32 (u : Nat) : Prop := OnGrid 24 0 u ∧ u < 2 ^ 277

theorem finite32_subnormal {f : Nat} (hf : f < 2 ^ 23) : Finite32 f :=
  ⟨⟨f, 0, le_refl 0, by omega, (Nat.mul_one f).symm⟩,
    lt_of_lt_of_le hf (by gcongr <;> decide)⟩

theorem finite32_normal {e f : Nat} (he : e < 254) (hf : f < 2 ^ 23) :
    Finite32 ((2 ^ 23 + f) * 2 ^ e) := by
  refine ⟨⟨2 ^ 23 + f, e, Nat.zero_le e, by omega, rfl⟩, ?_⟩
  calc (2 ^ 23 + f) * 2 ^ e < 2 ^ 24 * 2 ^ e :=
        Nat.mul_lt_mul_of_pos_right (by omega) (Nat.two_pow_pos e)
    _ = 2 ^ (24 + e) := (Nat.pow_add ..).symm
    _ ≤ 2 ^ 277 := by gcongr <;> omega

/-- A finite binary32 magnitude is subnormal or normal. -/
theorem Finite32.cases {u : Nat} (h : Finite32 u) :
    u < 2 ^ 23 ∨ ∃ e f, e < 254 ∧ f < 2 ^ 23 ∧ u = (2 ^ 23 + f) * 2 ^ e := by
  obtain ⟨⟨c, j, -, hc, hu⟩, hlt⟩ := h
  rcases Nat.lt_or_ge u (2 ^ 23) with hsub | hnorm
  · exact .inl hsub
  have hu0 : u ≠ 0 := by omega
  obtain ⟨e, he⟩ := Nat.exists_eq_add_of_le' ((Nat.le_log2 hu0).2 hnorm)
  have he254 : e < 254 := by have := (Nat.log2_lt hu0).2 hlt; omega
  have hej : e ≤ j := by
    have hu24 : u < 2 ^ (24 + j) := by
      rw [hu, Nat.pow_add]; exact Nat.mul_lt_mul_of_pos_right hc (Nat.two_pow_pos j)
    have := (Nat.log2_lt hu0).2 hu24
    omega
  obtain ⟨v, hv⟩ : 2 ^ e ∣ u := hu ▸ Dvd.dvd.mul_left (Nat.pow_dvd_pow 2 hej) c
  obtain ⟨hlow, hhigh⟩ := (Nat.log2_eq_iff hu0).1 he
  rw [hv, Nat.pow_add] at hlow
  rw [hv, Nat.add_assoc, Nat.pow_add] at hhigh
  have hvlow : 2 ^ 23 ≤ v := Nat.le_of_mul_le_mul_left hlow (Nat.two_pow_pos e)
  have hvhigh : v < 2 ^ 24 := Nat.lt_of_mul_lt_mul_left hhigh
  refine .inr ⟨e, v - 2 ^ 23, he254, by omega, ?_⟩
  rw [Nat.add_sub_cancel' hvlow, hv, Nat.mul_comm]

/-! ## Narrowing -/

/-- The grid of a coarser quantum is the grid of quantum 0, scaled. -/
theorem onGrid_iff {prec quantum z : Nat} :
    OnGrid prec quantum z ↔ ∃ u, OnGrid prec 0 u ∧ z = u * 2 ^ quantum := by
  constructor
  · rintro ⟨c, e, he, hc, rfl⟩
    refine ⟨c * 2 ^ (e - quantum), ⟨c, _, Nat.zero_le _, hc, rfl⟩, ?_⟩
    rw [Nat.mul_assoc, ← Nat.pow_add, Nat.sub_add_cancel he]
  · rintro ⟨u, ⟨c, j, -, hc, rfl⟩, rfl⟩
    exact ⟨c, j + quantum, Nat.le_add_left .., hc, by rw [Nat.pow_add, Nat.mul_assoc]⟩

/-- A power of 2 with its exponent split, for exponents too large to compute with. -/
theorem two_pow_split {a b c : Nat} (h : c = a + b) : 2 ^ c = 2 ^ a * 2 ^ b := h ▸ Nat.pow_add 2 a b

/-- 2^128 in units of 2^-1074. -/
theorem Fp.lt_overflow32 {u : Nat} : u * Fp.ulp32 < 2 ^ 1202 ↔ u < 2 ^ 277 := by
  have h : 2 ^ 1202 = 2 ^ 277 * Fp.ulp32 := by unfold Fp.ulp32; exact two_pow_split rfl
  rw [h]
  exact Nat.mul_lt_mul_right Fp.ulp32_pos

/-- Narrowing a binary32 value changes nothing. -/
theorem Fp.toF32_finite32 (n : Bool) {u : Nat} (hu : Finite32 u) :
    (Fp.fin n (u * Fp.ulp32)).toF32 = .fin n (u * Fp.ulp32) := by
  have hr : roundMag 24 925 (u * Fp.ulp32 * 1) 1 = u * Fp.ulp32 :=
    roundMag_eq_self 925 (by decide) Nat.one_pos (onGrid_iff.2 ⟨u, hu.1, rfl⟩)
  rw [Nat.mul_one] at hr
  rw [Fp.toF32, hr]
  exact if_neg (Nat.not_le.2 (Fp.lt_overflow32.2 hu.2))

/-- Whatever is narrowed, the answer is a value of binary32. -/
theorem Fp.toF32_cases (x : Fp) : x.toF32 = .nan ∨ (∃ n, x.toF32 = .inf n) ∨
    ∃ n u, Finite32 u ∧ x.toF32 = .fin n (u * Fp.ulp32) := by
  cases x with
  | nan => exact .inl rfl
  | inf n => exact .inr (.inl ⟨n, rfl⟩)
  | fin n m =>
    obtain ⟨u, hgrid, hu⟩ := onGrid_iff.1 (roundMag_onGrid 925 m (by decide : 0 < 24) Nat.one_pos)
    have hr : roundMag 24 925 m 1 = u * Fp.ulp32 := hu
    rw [Fp.toF32, hr]
    split
    · exact .inr (.inl ⟨n, rfl⟩)
    · rename_i hlt
      exact .inr (.inr ⟨n, u, ⟨hgrid, Fp.lt_overflow32.1 (Nat.not_le.1 hlt)⟩, rfl⟩)

/-- A value of binary32, stored, reads back. -/
theorem Fp.ofBits32_toBits32_toF32 (x : Fp) (q : Word) :
    Fp.ofBits32 (x.toF32.toBits32 q) = x.toF32 := by
  rcases x.toF32_cases with hx | ⟨n, hx⟩ | ⟨n, u, hu, hx⟩
  · rw [hx]; exact Fp.ofBits32_nanBits q
  · rw [hx, Fp.toBits32_inf, Fp.ofBits32_inf]
  · rw [hx]
    rcases hu.cases with hf | ⟨e, f, he, hf, rfl⟩
    · rw [Fp.toBits32_subnormal q n hf, Fp.ofBits32_subnormal n hf]
    · rw [Fp.toBits32_normal q n e hf, Fp.ofBits32_normal n he hf]

/-- A binary32 pattern that is no NaN is widened, narrowed and stored unchanged. -/
theorem Fp.toBits32_toF32_ofBits32 (w q : Word) (h : (Fp.ofBits32 w).isNan = false) :
    (Fp.ofBits32 w).toF32.toBits32 q = w := by
  obtain ⟨n, e, f, he, hf, rfl⟩ := exists_word32 w
  rcases Nat.eq_zero_or_pos e with rfl | hpos
  · rw [Fp.ofBits32_subnormal n hf, Fp.toF32_finite32 n (finite32_subnormal hf),
      Fp.toBits32_subnormal q n hf]
  · rcases Nat.lt_or_ge e 255 with hlt | hge
    · obtain ⟨x, rfl⟩ := Nat.exists_eq_add_of_le' hpos
      have hx : x < 254 := by omega
      rw [Fp.ofBits32_normal n hx hf, Fp.toF32_finite32 n (finite32_normal hx hf),
        Fp.toBits32_normal q n x hf]
    · obtain rfl : e = 255 := by omega
      rcases Nat.eq_zero_or_pos f with rfl | hf0
      · rw [Fp.ofBits32_inf, Fp.toF32, Fp.toBits32_inf]
      · rw [Fp.ofBits32_word32 n he hf, if_pos rfl, if_neg hf0.ne'] at h
        cases h

theorem Fp.isNan_iff {x : Fp} : x.isNan = true ↔ x = .nan := by cases x <;> simp [Fp.isNan]

/-- Settles O18: the finite patterns are the subnormal and the normal ones, and both go through
`toBits32` and `ofBits32` field by field. -/
theorem binaryThirtyTwoRoundTrips : Obligations.BinaryThirtyTwoRoundTrips := by
  refine ⟨fun w q => ⟨Fp.toBits32_toF32_ofBits32 w q, fun h => ?_⟩,
    fun b q => Fp.ofBits32_toBits32_toF32 _ q⟩
  rw [Fp.ofBits32_toBits32_toF32, Fp.isNan_iff.1 h]
  rfl

end Sys2Proof
end

section
/-! The look-ups of the default tables (spec/00_scope.md R7). -/

namespace Sys2Proof

theorem Tables.default_xyzMode (cp : Nat) : Tables.default.xyzMode cp = 0 := by
  have hget : Tables.default.xyzModes.getD cp 0 = 0 := by simp [Tables.default]
  simp only [Tables.xyzMode, hget, ite_self]

/-- The reserved primaries codes have no XYZ mode, whatever the tables
(40_color_transform.md R153). -/
theorem Tables.xyzMode_reserved (t : Tables) {cp : Nat} (h : 8 < cp) : t.xyzMode cp = 0 := by
  have hcp : ¬ cp < 9 := by omega
  simp [Tables.xyzMode, hcp]

/-- `FBANK` is defined at both selects 0 on every legal location, whatever rows are
supplied: the answer is some bank with the preset `F0` put in (41_filter_primitives.md R197). -/
theorem Tables.bank_zero (t : Tables) {loc : BitVec 3} (h : loc.toNat ≤ 5) :
    ∃ b : FilterBank, t.bank loc 0 0 = some (b.withF0 0 0) := by
  unfold Tables.bank
  rw [if_neg (Nat.not_lt.2 h)]
  split
  · exact ⟨_, rfl⟩
  · exact ⟨emptyBank, rfl⟩

theorem Tables.default_edgeInt {b : Nat} (h : b ≤ 16) :
    Tables.default.edgeInt b = 15 * (2 ^ b - 1) / 100 := by
  have hb : (List.range 17)[b]? = some b := List.getElem?_range (by omega)
  simp [Tables.edgeInt, Tables.default, defaultEdgeInt, hb]

/-- Settles O47: the look-ups of the default tables, and `F0` at both selects 0. -/
theorem defaultTables : Obligations.DefaultTables := by
  refine ⟨Tables.default_xyzMode, fun t cp => t.xyzMode_reserved, fun t loc hloc => ?_,
    fun b => Tables.default_edgeInt, rfl, rfl, rfl, rfl, rfl, rfl, rfl, rfl, rfl, rfl, rfl⟩
  obtain ⟨b, hb⟩ := t.bank_zero hloc
  refine ⟨_, filterF0, filterF0, (filterF0, filterF0), (filterF0, filterF0), hb, rfl, rfl, rfl, rfl,
    fun F hF => ?_⟩
  obtain rfl : F = filterF0 := by simpa using hF
  exact ⟨rfl, rfl, rfl, rfl, rfl, rfl, rfl⟩

end Sys2Proof
end

section
/-!
The pixel paths of the colour-transform unit and `DOT3` (spec/40_color_transform.md R142, R146,
R147).
-/

namespace Sys2Proof.Machine

open Sys2Proof

/-! ## The three paths -/

section
variable {s : State} (a : V3)

/-- Which of the three paths a pixel takes (40_color_transform.md R140). -/
theorem ctPixel_matrix (hc : s.ctObj.clf = false) (ht : s.ctObj.tpAct = false) :
    ctPixel s a = matPath s.cfg.dotKind s.ctObj a := by simp [ctPixel, hc, ht]

theorem ctPixel_tPath (hc : s.ctObj.clf = false) (ht : s.ctObj.tpAct = true) :
    ctPixel s a = tPath s.cfg.dotKind s.ctObj a := by simp [ctPixel, hc, ht]

theorem ctPixel_clPath {k : Clk} (hc : s.ctObj.clf = true) (hk : s.cfg.clk = some k) :
    ctPixel s a = clPath s.cfg.dotKind k a := by simp [ctPixel, hc, hk]

end

/-- The factors 2 and -2 of the constant-luminance path as binary64 patterns. -/
theorem ofBits64_two : Fp.ofBits64 0x4000000000000000 = .fin false (2 * Fp.one) := by decide +kernel

theorem ofBits64_negTwo : Fp.ofBits64 0xC000000000000000 = .fin true (2 * Fp.one) := by
  decide +kernel

/-- The division of 40_color_transform.md R147 with its factors as patterns. -/
theorem clScale_eq (d : Fp) (n p : DWord) : clScale d n p =
    d.div (if d.le .zero then (Fp.ofBits64 0xC000000000000000).mul (.ofBits64 n)
      else (Fp.ofBits64 0x4000000000000000).mul (.ofBits64 p)) := by
  rw [ofBits64_two, ofBits64_negTwo]; rfl

/-! ## `DOT3` -/

/-- A vector is finite when all its components are. -/
theorem V3.isFinite_iff {v : V3} : v.isFinite = true ↔
    v.x0.isFinite = true ∧ v.x1.isFinite = true ∧ v.x2.isFinite = true := by
  simp [V3.isFinite, and_assoc]

/-- What the error test of a `DOT3` that is not stated says (00_scope.md R10, log 8). -/
theorem nearDot_iff {x y z r : Fp} {a : V3} : nearDot ⟨x, y, z⟩ a r = true ↔
    (r.units * 2 ^ 1074 -
        [x.units * a.x0.units, y.units * a.x1.units, z.units * a.x2.units].sum).natAbs * 2 ^ 159 ≤
      ([x.units * a.x0.units, y.units * a.x1.units, z.units * a.x2.units].map Int.natAbs).sum *
        ((2 ^ 53 + 1) ^ 3 - 2 ^ 159) + 2 ^ 1075 * 2 ^ 159 := by
  have hsum : ∀ x y z : Int, [x, y, z].sum = x + y + z := fun x y z => by simp [Int.add_assoc]
  have hmags : ∀ x y z : Nat, [x, y, z].sum = x + y + z := fun x y z => by simp [Nat.add_assoc]
  have htwo : 2 ^ 1075 = 2 * Fp.one := by
    rw [Fp.one, two_pow_split (a := 1) (b := 1074) (c := 1075) rfl, Nat.pow_one]
  have hone : (2 ^ 1074 : Int) = (Fp.one : Int) := (Nat.cast_pow 2 1074).symm
  simp only [nearDot, decide_eq_true_eq, List.map_cons, List.map_nil, hsum, hmags, htwo, hone]

/-- A `DOT3` answers the sum from left to right; one that is not stated may answer instead, on
finite operands, a finite binary64 number within the error of 00_scope.md R10. -/
theorem dot3_cases (k : DotKind) (t a : V3) : dot3 k t a = dotLeft t a ∨
    (k = .unstated ∧ t.isFinite = true ∧ a.isFinite = true ∧
      (∃ b : DWord, dot3 k t a = .ofBits64 b) ∧ (dot3 k t a).isFinite = true ∧
      nearDot t a (dot3 k t a) = true) := by
  cases k with
  | leftToRight => exact .inl (dot3_leftToRight t a)
  | unstated => exact (dot3_unstated t a).imp_right fun h => ⟨rfl, h⟩

/-- Settles O25: which path a pixel takes, each path over `DOT3`, and the two kinds of `DOT3`. -/
theorem pixelPaths : Obligations.PixelPaths := by
  intro s a
  refine ⟨fun hk x y z => ?_, fun x y z => ?_, ctPixel_matrix a, ctPixel_tPath a,
    fun k hc hk => ?_⟩
  · show dot3 s.cfg.dotKind ⟨x, y, z⟩ a = _
    rw [hk]
    exact dot3_leftToRight _ _
  · refine (dot3_cases s.cfg.dotKind ⟨x, y, z⟩ a).imp_right ?_
    rintro ⟨hk, ht, ha, hbits, hfin, hnear⟩
    obtain ⟨hx, hy, hz⟩ := V3.isFinite_iff.1 ht
    obtain ⟨h0, h1, h2⟩ := V3.isFinite_iff.1 ha
    have hall : ∀ v ∈ [x, y, z, a.x0, a.x1, a.x2], v.isFinite = true := by
      simp [hx, hy, hz, h0, h1, h2]
    refine ⟨hk, hall, hbits, hfin, ?_⟩
    beta_reduce
    exact nearDot_iff.1 hnear
  · dsimp only
    rw [ctPixel_clPath a hc hk, ← clScale_eq, ← clScale_eq]
    rfl

end Sys2Proof.Machine
end

section
/-! `CT.PROC` on a frame that is ready (spec/40_color_transform.md R140 to R149). -/

namespace Sys2Proof.Machine

open Sys2Proof

/-! ## What a frame command leaves -/

/-- A committed frame changes the planes and the stamp of its output slot only
(10_state.md R40, R42, R44). -/
theorem State.commandFrame_commit (s : State) (o i : Fin 4) {P : Fin 4 → List Nat}
    (hl : ∀ p ∈ planes, (P p).length = (s.slot o).count p) :
    CommandFrame s (s.commit o i (P 0) (P 1) (P 2)) o i where
  mem _ ha := Memory.read_writePlanes_other s.mem (hl 0 (by simp)) (hl 1 (by simp))
    (hl 2 (by simp)) ha
  outSlot := by rw [State.slot_commit, if_pos rfl]; rfl
  otherSlots x hx := by rw [State.slot_commit, if_neg (Ne.symm hx)]
  cause := rfl
  ctPar := rfl
  ctObj := rfl
  mres := rfl
  crPar := rfl
  cfg := rfl
  pending := rfl
  busData := rfl

/-! ## The pixels of a written frame -/

/-- A plane of a written frame, read: its samples in index order (20_memory.md R75, R76). -/
theorem State.readPlane_eq_nums {s : State} {f : FrameDesc} (h : s.written f) {p : Fin 4}
    (hp : p ∈ planes) : s.readPlane f p = .ok ((List.range (f.count p)).map (s.num f p)) := by
  obtain ⟨ws, hws⟩ := State.readPlane_of_written h hp
  obtain ⟨hlen, hget⟩ := State.readPlane_ok hws
  rw [hws]
  congr 1
  refine List.ext_getElem (by simp [hlen]) fun n hn _ => ?_
  simp [State.num, hget n hn]

/-- The input of the pixel path at sample `n`. -/
def State.pixel (s : State) (f : FrameDesc) (n : Nat) : V3 :=
  ⟨s.value f 0 n, s.value f 1 n, s.value f 2 n⟩

theorem pixels_nums (s : State) (f : FrameDesc) (m : Nat) :
    pixels f.kind ((List.range m).map (s.num f 0)) ((List.range m).map (s.num f 1))
      ((List.range m).map (s.num f 2)) = (List.range m).map (s.pixel f) := by
  refine List.ext_getElem (by simp [pixels]) fun n _ _ => ?_
  simp [pixels, State.pixel, State.value]

/-! ## `OUT` on a plane -/

theorem ctOut_float (s : State) {fo : FrameDesc} (hf : fo.isFloat = true) (p : Fin 4)
    {vs : List Fp} {n : Nat} {v : Fp} (hv : vs[n]? = some v) (hn : n < (ctOut s fo p vs).length) :
    ∃ q : Word, (ctOut s fo p vs)[n] = ((ctClip s v).toF32.toBits32 q).toNat := by
  obtain ⟨hlt, rfl⟩ := List.getElem?_eq_some_iff.1 hv
  have hout : ctOut s fo p vs =
      floatWords s.draws (fo.addr p) (vs.map fun v => (ctClip s v).toF32) := if_pos hf
  simp only [hout, floatWords_getElem (vs := vs.map _) (by simpa using hlt), List.getElem_map]
  exact ⟨_, rfl⟩

/-- `OUT` on an integer plane: the floor of `v + 0.5` where there is one, clamped
(40_color_transform.md R144). -/
theorem ctOut_integer (s : State) {fo : FrameDesc} (hf : fo.isFloat = false) (p : Fin 4)
    {vs : List Fp} {n : Nat} {v : Fp} (hv : vs[n]? = some v) (hn : n < (ctOut s fo p vs).length) :
    ∃ z : Int, (∀ f, (v.add .half).floor? = some f → z = f) ∧
      (ctOut s fo p vs)[n] = (clampi z (fo.lo p) (fo.hi p)).toNat := by
  obtain ⟨hlt, rfl⟩ := List.getElem?_eq_some_iff.1 hv
  have hout : ctOut s fo p vs = vs.zipIdx.map fun (v, i) =>
      ctRound s.draws (fo.addr p + i * fo.kind.size) (fo.lo p) (fo.hi p) v :=
    if_neg (by simp [hf])
  refine ⟨((vs[n].add .half).floor?).getD
    (Config.freeInt s.draws (fo.addr p + n * fo.kind.size)), fun f h => by rw [h]; rfl, ?_⟩
  simp only [hout, List.getElem_map, List.getElem_zipIdx, Nat.zero_add]
  rfl

theorem FrameDesc.size_of_isFloat {f : FrameDesc} (h : f.isFloat = true) : f.kind.size = 4 := by
  rw [eq_of_beq h]; rfl

/-! ## CT.PROC on a frame that is ready -/

theorem exec_ctProc {s : State} {fdo fdi : BitVec 4} (ho : s.hasSlot fdo = true)
    (hi : s.hasSlot fdi = true) (hf : s.status.fatal = false) :
    exec (.ctProc fdo fdi) s = ctProc s (slotIdx fdo) (slotIdx fdi) := by
  refine command_run hf ?_ _
  simp [State.admits, Instr.wellFormed, Instr.slots, ho, hi, State.hasSlot_slotOk ho,
    State.hasSlot_slotOk hi]

/-- Component p of the pixel path at sample `n` of the input. -/
def ctValue (s : State) (i p : Fin 4) (n : Nat) : Fp :=
  (ctPixel s (s.pixel (s.slot i) n)).get p.val

/-- The words `CT.PROC` writes to plane p of its output. -/
def ctPlane (s : State) (o i p : Fin 4) : List Nat :=
  ctOut s (s.slot o) p ((List.range ((s.slot i).count 0)).map (ctValue s i p))

/-- The state `CT.PROC` leaves on a frame it transforms. -/
def ctDone (s : State) (o i : Fin 4) : State :=
  s.commit o i (ctPlane s o i 0) (ctPlane s o i 1) (ctPlane s o i 2)

theorem ctValue_getElem? (s : State) {i : Fin 4} (p : Fin 4) {n : Nat}
    (hn : n < (s.slot i).count 0) :
    ((List.range ((s.slot i).count 0)).map (ctValue s i p))[n]? = some (ctValue s i p n) := by
  simp [hn]

namespace State.ctReady

variable {s : State} {o i : Fin 4}

/-- Past its checks `CT.PROC` completes with `ctPlane` in the three planes. -/
theorem ctProc_eq (h : s.ctReady o i) : ctProc s o i =
    .next (ctDone s o i) := by
  have hcount := countsEqual_iff.1 h.counts
  have hread : ∀ p ∈ planes, s.readPlane (s.slot i) p =
      .ok ((List.range ((s.slot i).count 0)).map (s.num (s.slot i) p)) := fun p hp => by
    rw [State.readPlane_eq_nums h.input hp, (hcount p hp).2]
  have hrun : ctProc s o i = ctTransform s o i := by
    simp [ctProc, h.valid, h.duties, h.counts, h.notInverse]
  rw [hrun, ctTransform]
  simp only [hread 0 (by simp), hread 1 (by simp), hread 2 (by simp), pixels_nums, List.map_map]
  rfl

theorem ctPlane_length (h : s.ctReady o i) {p : Fin 4} (hp : p ∈ planes) :
    (ctPlane s o i p).length = (s.slot o).count p := by
  rw [ctPlane, ctOut_length, List.length_map, List.length_range,
    (countsEqual_iff.1 h.counts p hp).1]

/-- Sample `n` of plane p of the output, as stored. -/
theorem sample_ctPlane (h : s.ctReady o i) {p : Fin 4} (hp : p ∈ planes) {n : Nat}
    (hn : n < (ctPlane s o i p).length) :
    (ctDone s o i).sample (s.slot o) p n =
      some ((ctPlane s o i p)[n] % 256 ^ (s.slot o).kind.size) :=
  State.sample_commit (P := ctPlane s o i) (fun _ => h.ctPlane_length)
    (framesOk_ct h.duties).outDisjoint hp hn

section
variable (h : s.ctReady o i) {p : Fin 4} (hp : p ∈ planes) {n : Nat} (hn : n < (s.slot i).count 0)
include h hp hn

theorem lt_ctPlane_length : n < (ctPlane s o i p).length := by
  rwa [h.ctPlane_length hp, (countsEqual_iff.1 h.counts p hp).1]

/-- A float sample of the output: the clipped value as a binary32 pattern
(40_color_transform.md R143). -/
theorem sample_float (hf : (s.slot o).isFloat = true) : ∃ q : Word,
    (ctDone s o i).sample (s.slot o) p n =
      some ((ctClip s (ctValue s i p n)).toF32.toBits32 q).toNat := by
  have hlen := h.lt_ctPlane_length hp hn
  obtain ⟨q, hq⟩ := ctOut_float s hf p (ctValue_getElem? s p hn) hlen
  have hword : (ctPlane s o i p)[n] < 256 ^ 4 := lt_of_eq_of_lt hq (BitVec.isLt _)
  refine ⟨q, ?_⟩
  rw [h.sample_ctPlane hp hlen, FrameDesc.size_of_isFloat hf, Nat.mod_eq_of_lt hword]
  exact congrArg some hq

/-- An integer sample of the output: the low bytes of the clamped integer
(00_scope.md R8, 40_color_transform.md R144). -/
theorem sample_integer (hf : (s.slot o).isFloat = false) : ∃ z : Int,
    (∀ f, ((ctValue s i p n).add .half).floor? = some f → z = f) ∧
    (ctDone s o i).sample (s.slot o) p n =
      some ((clampi z ((s.slot o).lo p) ((s.slot o).hi p)).toNat %
        256 ^ (s.slot o).kind.size) := by
  have hlen := h.lt_ctPlane_length hp hn
  obtain ⟨z, hz, hq⟩ := ctOut_integer s hf p (ctValue_getElem? s p hn) hlen
  exact ⟨z, hz, (h.sample_ctPlane hp hlen).trans (congrArg (fun w => some (w % _)) hq)⟩

end

end State.ctReady

/-- Settles O24: the words written are `OUT` of the pixel path, and what is written is read back. -/
theorem ctProcTransformsFrame : Obligations.CtProcTransformsFrame := by
  intro s fdo fdi ho hi h fo fi
  refine ⟨_, (exec_ctProc ho hi h.running).trans h.ctProc_eq,
    s.commandFrame_commit _ _ (fun _ => h.ctPlane_length), rfl, rfl, fun n k hn => ?_⟩
  have hp : k.castSucc ∈ planes := by revert k; decide
  exact ⟨h.sample_float hp hn, h.sample_integer hp hn⟩

end Sys2Proof.Machine
end

section
/-! The invariant of the machine, which each update of the state keeps
(spec/10_state.md R22 to R53). -/

namespace Sys2Proof.Machine

open Sys2Proof

/-! ## What an event leaves -/

theorem Event.code_mem (e : Event) :
    e.code.toNat ∈ [0x00, 0x01, 0x02, 0x03, 0x10, 0x11, 0x12, 0x13, 0x14, 0x20] := by
  cases e <;> decide

/-- The codes of the fatal class (60_exceptions.md R321). -/
theorem Event.code_fatal {e : Event} (h : e.cls = .fatal) : e.code.toNat ∈ [0x01, 0x02, 0x03] := by
  cases e with
  | fKind | fDepth | fSize => decide
  | _ => cases h

/-- Only an event of the fatal class sets `FATAL`. -/
theorem Status.mark_fatal_iff {f : Status} {c : EventClass} :
    (f.mark c).fatal = true ↔ f.fatal = true ∨ c = .fatal := by cases c <;> simp

/-! ## What `CT.SETUP` caches -/

section
variable (t : Tables) (tprec : Bool) {mode : Nat} (fwd : Bool) (clip : ClipPolicy)

theorem ctObjectOf_dividers (h : (ctObjectOf t tprec mode fwd clip).tpAct = false) :
    (ctObjectOf t tprec mode fwd clip).cbDiv = 0 ∧
      (ctObjectOf t tprec mode fwd clip).crDiv = 0 := by
  simp only [ctObjectOf] at h ⊢
  simp [h]

/-- `TPACT` only forward and in a matrix mode (40_color_transform.md R139). -/
theorem ctObjectOf_tpAct (h : (ctObjectOf t tprec mode fwd clip).tpAct = true) :
    fwd = true ∧ (ctObjectOf t tprec mode fwd clip).clf = false ∧
      (ctObjectOf t tprec mode fwd clip).cli = false := by
  simp only [ctObjectOf, Bool.and_eq_true, bne_iff_ne] at h ⊢
  obtain ⟨⟨⟨⟨-, hfwd⟩, -⟩, h5⟩, h6⟩ := h
  exact ⟨hfwd, by simp [h5], by simp [h6]⟩

variable (hm : mode < 256)
include hm

/-- A mode that fits the 8 bits of `CT_MODE.MODE` is that field. -/
theorem ctObjectOf_mode_toNat : (ctObjectOf t tprec mode fwd clip).mode.toNat = mode :=
  Nat.mod_eq_of_lt hm

theorem ctObjectOf_clf : (ctObjectOf t tprec mode fwd clip).clf = true ↔
    (ctObjectOf t tprec mode fwd clip).mode = 5 := by
  rw [← BitVec.toNat_inj, ctObjectOf_mode_toNat t tprec fwd clip hm]
  exact beq_iff_eq

theorem ctObjectOf_cli : (ctObjectOf t tprec mode fwd clip).cli = true ↔
    (ctObjectOf t tprec mode fwd clip).mode = 6 := by
  rw [← BitVec.toNat_inj, ctObjectOf_mode_toNat t tprec fwd clip hm]
  exact beq_iff_eq

end

/-- A row that `RESOLVE` answers has a mode of the tables (40_color_transform.md R135 (P3)). -/
theorem resolve_mode_lt {t : Tables} {ics ocs : BitVec 3} {icp ocp : BitVec 4} {hp : BitVec 2}
    {r : ResolveRow} (h : t.resolve ics ocs icp ocp hp = some r) :
    r.mode < t.nModes ∧ r.mode < 256 := by
  unfold Tables.resolve at h
  split at h
  · have hr := List.find?_some h
    simp only [Tables.modeOk, Bool.and_eq_true, decide_eq_true_eq] at hr
    exact hr.2
  · cases h

/-- The cache of a completing `CT.SETUP`: that of a mode of the tables. -/
theorem ctResolve_cases (s : State) : ∃ tprec mode fwd clip w,
    mode < s.cfg.nModes ∧ mode < 256 ∧
    ctResolve s = { s with
      status := (s.status.warn w).setCtValid
      ctObj := ctObjectOf s.cfg tprec mode fwd clip } := by
  unfold ctResolve
  dsimp only
  split
  · rename_i r hr
    obtain ⟨hlt, hbyte⟩ := resolve_mode_lt hr
    exact ⟨s.ctPar.tprec, _, r.isFwd, r.clip, false, hlt, hbyte, by simp [Status.warn]⟩
  · exact ⟨_, 0, _, _, true, by unfold Tables.nModes; omega, by decide, rfl⟩

/-! ## The format register -/

theorem FrameDesc.stamp_reserved {fo : FrameDesc} (h : fo.fmt &&& ~~~fmtMask = 0) (fi : FrameDesc) :
    (fo.stamp fi).fmt &&& ~~~fmtMask = 0 := by
  have hbit : (0x80000000 : Word) &&& ~~~fmtMask = 0 := by decide
  show (fo.fmt ||| 0x80000000) &&& ~~~fmtMask = 0
  rw [BitVec.and_comm, BitVec.and_or_distrib_left, BitVec.and_comm, h, BitVec.and_comm, hbit]
  rfl

@[simp] theorem FrameDesc.setPlane_fmt (f : FrameDesc) (r : PlaneReg) (p : Fin 4) (v : Word) :
    (f.setPlane r p v).fmt = f.fmt := by cases r <;> rfl

/-- Settles O60: memory is empty, the tables are the default ones, and every register is 0. -/
theorem resetHasInv : Obligations.ResetHasInv where
  mem_wf := rfl
  mtab_ok := by decide +kernel
  fmt_reserved := by decide
  cause_legal := by decide
  fatal_cause h := by cases h
  dividers_zero _ := ⟨rfl, rfl⟩
  tpAct_forward h := by cases h
  clf_mode := by decide
  cli_mode := by decide
  mode_lt := by decide
  bank_defined h := by cases h
  lock_zero _ := ⟨rfl, rfl⟩
  locked_valid h := by cases h

namespace State.Inv

variable {s : State} (h : s.Inv)
include h

/-! ## Each update keeps the invariant -/

theorem queue (q : List BusOp) : State.Inv { s with pending := q } := { h with }

theorem hostData (d : Option Word) : State.Inv { s with busData := d } := { h with }

theorem raise (e : Event) (he : s.status.fatal = true → e.cls = .fatal) : (s.raise e).Inv :=
  { h with
    cause_legal := e.code_mem
    fatal_cause := fun hf => e.code_fatal ((Status.mark_fatal_iff.1 hf).elim he id)
    bank_defined := fun hv => h.bank_defined (by simpa using hv)
    lock_zero := fun hl => h.lock_zero (by simpa using hl)
    locked_valid := fun hl => by simpa using h.locked_valid (by simpa using hl) }

theorem memory {m : Memory} (hm : m.wf s.cfg.aw = true) : State.Inv { s with mem := m } :=
  { h with mem_wf := hm }

theorem setSlot (x : Fin 4) {g : FrameDesc} (hg : g.fmt &&& ~~~fmtMask = 0) :
    (s.setSlot x g).Inv :=
  { h with
    fmt_reserved := fun y => by
      rw [State.slot_setSlot]
      split
      · exact hg
      · exact h.fmt_reserved y }

theorem commit {o i : Fin 4} {P : Fin 4 → List Nat}
    (hl : ∀ p ∈ planes, (P p).length = (s.slot o).count p)
    (hs : (s.slot o).inSpace s.cfg.aw = true) : (s.commit o i (P 0) (P 1) (P 2)).Inv :=
  { h.setSlot o (FrameDesc.stamp_reserved (h.fmt_reserved o) (s.slot i)) with
    mem_wf := Memory.wf_writePlanes h.mem_wf (hl 0 (by simp)) (hl 1 (by simp)) (hl 2 (by simp)) hs }

theorem lookUp (m : Mat3) (w : Bool) :
    State.Inv { s with mres := m, status := s.status.warn w } := { h with }

theorem ctResolve : (ctResolve s).Inv := by
  obtain ⟨tprec, mode, fwd, clip, w, hlt, hbyte, heq⟩ := ctResolve_cases s
  rw [heq]
  exact
    { h with
      dividers_zero := ctObjectOf_dividers s.cfg tprec fwd clip
      tpAct_forward := ctObjectOf_tpAct s.cfg tprec fwd clip
      clf_mode := ctObjectOf_clf s.cfg tprec fwd clip hbyte
      cli_mode := ctObjectOf_cli s.cfg tprec fwd clip hbyte
      mode_lt := by
        show (ctObjectOf s.cfg tprec mode fwd clip).mode.toNat < _
        rwa [ctObjectOf_mode_toNat s.cfg tprec fwd clip hbyte] }

theorem ctNoop (o i : Fin 4) : (ctNoop s o i).Inv := by
  have hn : State.Inv { s with status := s.status.setNoop } := { h with }
  unfold Machine.ctNoop
  dsimp only
  split
  · exact hn.setSlot o (FrameDesc.stamp_reserved (h.fmt_reserved o) _)
  · exact hn

theorem crLatch (hl : s.crPar.locTop.toNat ≤ 5)
    (hb : (s.cfg.bank s.crPar.locTop s.crPar.dnSel s.crPar.upSel).isSome = true) :
    (crLatch s).Inv :=
  { h with
    bank_defined := fun _ => ⟨hl, hb⟩
    lock_zero := fun _ => ⟨rfl, rfl⟩
    locked_valid := fun hc => by simp at hc }

theorem lockSize (hv : s.status.crValid = true) (i : Fin 4) : (lockSize s i).Inv := by
  unfold Machine.lockSize
  split
  · exact h
  · exact
      { h with
        lock_zero := fun hc => by simp at hc
        locked_valid := fun _ => hv }

/-- A register write keeps the invariant: of the fields it speaks of, a write reaches the W1C flags,
which it does not name, and `FMT`, whose reserved bits are masked. -/
theorem writeReg (r : Reg) (v : Word) : (s.writeReg r v).Inv := by
  have hmask : (v &&& fmtMask) &&& ~~~fmtMask = 0 := by
    rw [BitVec.and_assoc, BitVec.and_not_self]
    exact BitVec.and_zero
  cases r with
  | fdFmt x => exact h.setSlot x hmask
  | fdFrameNo x => exact h.setSlot x (h.fmt_reserved x)
  | fdPlane x r p =>
    exact h.setSlot x ((FrameDesc.setPlane_fmt ..).symm ▸ h.fmt_reserved x)
  | _ => exact { h with }

/-- Reset keeps memory and the tables, whose modes are at least seven. -/
theorem restart : s.restart.Inv :=
  { (resetHasInv : State.reset.Inv) with
    mem_wf := h.mem_wf
    mtab_ok := h.mtab_ok
    mode_lt := by show 0 < s.cfg.nModes; unfold Tables.nModes; omega
    bank_defined := fun hv => by cases hv }

/-! ## Commands and bus operations -/

theorem commandEffect {t : State} (hf : s.status.fatal = false) (ht : CommandEffect s t) :
    t.Inv := by
  have hrun : ∀ c, s.status.fatal = true → c = EventClass.fatal := fun _ hc => by simp [hf] at hc
  cases ht with
  | event e => exact h.raise e (hrun _)
  | ctSetup => exact h.ctResolve
  | lookUp m w => exact h.lookUp m w
  | noop o i => exact h.ctNoop o i
  | transform o i P hd hl => exact h.commit hl hd.inSpace
  | crSetup hl hb => exact h.crLatch hl hb
  | convert o i P hv hd hl =>
    refine (h.lockSize hv i).commit (by simpa using hl) ?_
    simpa using hd.inSpace

theorem busEffect {t : State} (ht : BusEffect s t) : t.Inv := by
  cases ht with
  | ignored => exact h
  | illegal e he hf => exact h.raise e fun hc => by simp [hf] at hc
  | command i _ hi =>
    rcases exec_next hi with ⟨-, rfl⟩ | ⟨hf, he⟩
    · exact h
    · exact h.commandEffect hf he
  | write r v => exact h.writeReg r v
  | read d => exact h.hostData d
  | store a n v ha => exact h.memory (Memory.wf_writeLE h.mem_wf ha v)
  | reset => exact h.restart

end State.Inv

/-- Settles O59: the next states of a step are those of `BusEffect`, and every update among them
keeps the invariant. -/
theorem stepKeepsInv : Obligations.StepKeepsInv := by
  intro s t h ht
  rcases step_next ht with ⟨-, rfl⟩ | ⟨op, rest, -, hp⟩
  · exact h
  · exact (h.queue rest).busEffect (perform_next hp)

end Sys2Proof.Machine
end

section
/-! The register block: the map of offsets, what a read returns and what a write leaves
(spec/10_state.md R22 to R46). -/

namespace Sys2Proof.Machine

open Sys2Proof

/-! ## The map of offsets -/

/-- The words of a descriptor slot name registers of that slot, or nothing. -/
theorem slotRegAt_cases (x : Fin 4) (n : Nat) :
    slotRegAt x n = .fdFmt x ∨ slotRegAt x n = .fdFrameNo x ∨
      (∃ r p, slotRegAt x n = .fdPlane x r p) ∨ slotRegAt x n = .reserved := by
  unfold slotRegAt
  split
  · exact .inl rfl
  · split
    · exact .inr (.inl rfl)
    · split
      · exact .inr (.inr (.inl ⟨_, _, rfl⟩))
      · exact .inr (.inr (.inr rfl))

theorem regAt_slot {n : Nat} (h : 0x40 ≤ n) :
    regAt n = slotRegAt ⟨(n - 0x40) / 0x20 % 4, Nat.mod_lt _ (by decide)⟩ ((n - 0x40) % 0x20) :=
  if_pos h

/-- The word numbers of the three registers that accesses single out: `ID`, `CMD`, `STATUS`. -/
theorem regAt_eq_iff (n : Nat) :
    (regAt n = .id ↔ n = 0) ∧ (regAt n = .cmd ↔ n = 1) ∧ (regAt n = .status ↔ n = 2) := by
  by_cases hlow : n < 0x40
  · revert n; decide
  · rw [regAt_slot (Nat.not_lt.1 hlow)]
    have hn : n ≠ 0 ∧ n ≠ 1 ∧ n ≠ 2 := by omega
    rcases slotRegAt_cases ⟨(n - 0x40) / 0x20 % 4, Nat.mod_lt _ (by decide)⟩ ((n - 0x40) % 0x20)
      with h | h | ⟨r, p, h⟩ | h <;> simp [h, hn]

/-- Fewer slots only turn slot registers into reserved ones. -/
theorem Reg.ofSlots_cases (k : Nat) (r : Reg) : r.ofSlots k = r ∨
    r.ofSlots k = .reserved ∧ ∃ x, r = .fdFmt x ∨ r = .fdFrameNo x ∨ ∃ f p, r = .fdPlane x f p := by
  cases r with
  | fdFmt x | fdFrameNo x | fdPlane x f p => by_cases h : x.val < k <;> simp [Reg.ofSlots, h]
  | _ => exact .inl rfl

theorem State.regOf_eq_iff (s : State) {off : Word} (ha : off.toNat % 4 = 0) :
    (s.regOf off = .id ↔ off = 0x000) ∧ (s.regOf off = .cmd ↔ off = 0x004) ∧
      (s.regOf off = .status ↔ off = 0x008) := by
  obtain ⟨hid, hcmd, hstatus⟩ := regAt_eq_iff (off.toNat / 4)
  have hkeep : ∀ r, r = .id ∨ r = .cmd ∨ r = .status →
      (s.regOf off = r ↔ regAt (off.toNat / 4) = r) := by
    intro r hr
    unfold State.regOf
    rcases Reg.ofSlots_cases s.cfg.slots (regAt (off.toNat / 4)) with h | ⟨h, x, hx⟩
    · rw [h]
    · rw [h]
      rcases hr with rfl | rfl | rfl <;> rcases hx with hx | hx | ⟨f, p, hx⟩ <;> simp [hx]
  have hoff : ∀ k : Nat, k < 3 → (off.toNat / 4 = k ↔ off = BitVec.ofNat 32 (4 * k)) := by
    intro k hk
    rw [← BitVec.toNat_inj, BitVec.toNat_ofNat]
    omega
  rw [hkeep _ (.inl rfl), hkeep _ (.inr (.inl rfl)), hkeep _ (.inr (.inr rfl)), hid, hcmd, hstatus]
  exact ⟨hoff 0 (by decide), hoff 1 (by decide), hoff 2 (by decide)⟩

/-- Below the slots every word is a register, however few the slots. -/
theorem regAt_ofSlots_of_lt {n : Nat} (h : n < 0x40) (k : Nat) : (regAt n).ofSlots k = regAt n := by
  have hne : ∀ m, m < 0x40 → ∀ x, regAt m ≠ .fdFmt x ∧ regAt m ≠ .fdFrameNo x ∧
      ∀ f p, regAt m ≠ .fdPlane x f p := by
    intro m hm x
    interval_cases m <;> simp [regAt]
  obtain hk | ⟨-, x, hx⟩ := Reg.ofSlots_cases k (regAt n)
  · exact hk
  · obtain ⟨hfmt, hno, hplane⟩ := hne n h x
    rcases hx with hx | hx | ⟨f, p, hx⟩
    · exact absurd hx hfmt
    · exact absurd hx hno
    · exact absurd hx (hplane f p)

theorem slotRegAt_ofSlots (x : Fin 4) (n k : Nat) :
    (slotRegAt x n).ofSlots k = if x.val < k then slotRegAt x n else .reserved := by
  rcases slotRegAt_cases x n with h | h | ⟨r, p, h⟩ | h <;> simp [h, Reg.ofSlots]

/-- The registers of the slots that exist stand at the offsets of the map, and the words above
them are reserved (10_state.md R40, log 18). -/
theorem State.regOf_eq (s : State) {off : Word} (h : off.toNat < 0x300) :
    s.regOf off = if off.toNat < 0x100 + 0x80 * s.cfg.slots then regAt (off.toNat / 4)
      else .reserved := by
  unfold State.regOf
  rcases Nat.lt_or_ge (off.toNat / 4) 0x40 with hlow | hhigh
  · rw [regAt_ofSlots_of_lt hlow, if_pos (by omega)]
  · rw [regAt_slot hhigh, slotRegAt_ofSlots]
    dsimp only
    have hslot : (off.toNat / 4 - 0x40) / 0x20 % 4 < s.cfg.slots ↔
        off.toNat < 0x100 + 0x80 * s.cfg.slots := by omega
    simp only [hslot]

/-! ## Fields in a word -/

/-- A field of `n` bits above `k` bits. -/
theorem ofNat_extractLsb' {m k n : Nat} :
    ((BitVec.ofNat 32 m).extractLsb' k n).toNat = m % 2 ^ 32 / 2 ^ k % 2 ^ n := by
  rw [BitVec.extractLsb'_toNat, Nat.shiftRight_eq_div_pow, BitVec.toNat_ofNat]

theorem ofNat_getLsbD {m k : Nat} :
    (BitVec.ofNat 32 m).getLsbD k = decide (m % 2 ^ 32 / 2 ^ k % 2 = 1) := by
  rw [BitVec.getLsbD, BitVec.toNat_ofNat, Nat.testBit_eq_decide_div_mod_eq]

/-- A bit that is the number of a Bool is that Bool. -/
theorem decide_eq_of_toNat {p : Prop} [Decidable p] {b : Bool} (h : p ↔ b.toNat = 1) :
    decide p = b := by cases b <;> simpa using h

/-- The flags of `STATUS` at their bits (10_state.md R26). -/
theorem Status.getLsbD_word (f : Status) (k : Nat) : f.word.getLsbD k =
    [f.fatal, f.cmdErr, f.unsup, f.warnIdent, f.noop, false, false, false, f.ctValid, f.crValid,
      f.crLocked].getD k false := by
  have hfatal := f.fatal.toNat_le
  have hcmdErr := f.cmdErr.toNat_le
  have hunsup := f.unsup.toNat_le
  have hwarn := f.warnIdent.toNat_le
  have hnoop := f.noop.toNat_le
  have hct := f.ctValid.toNat_le
  have hcr := f.crValid.toNat_le
  have hlock := f.crLocked.toNat_le
  unfold Status.word
  rw [ofNat_getLsbD]
  refine decide_eq_of_toNat ?_
  rcases Nat.lt_or_ge k 11 with hk | hk
  · interval_cases k <;> simp only [List.getD_cons_zero, List.getD_cons_succ, Bool.toNat_false] <;>
      omega
  · have hpow : 2 ^ 11 ≤ 2 ^ k := Nat.pow_le_pow_right (by decide) hk
    rw [Nat.div_eq_of_lt (by omega), List.getD_eq_default _ _ hk]
    decide

/-- The fields of `CT_MODE` at their bits (10_state.md R32). -/
theorem CtObject.modeWord_fields (c : CtObject) :
    c.modeWord.extractLsb' 0 8 = c.mode ∧ c.modeWord.getLsbD 8 = c.isFwd ∧
    (c.modeWord.extractLsb' 9 2).toNat = clipCode c.clip ∧ c.modeWord.getLsbD 11 = c.clf ∧
    c.modeWord.getLsbD 12 = c.cli ∧ c.modeWord.getLsbD 13 = c.tpAct ∧
    c.modeWord.extractLsb' 14 18 = 0 := by
  have hmode := c.mode.isLt
  have hfwd := c.isFwd.toNat_le
  have hclf := c.clf.toNat_le
  have hcli := c.cli.toNat_le
  have htp := c.tpAct.toNat_le
  have hclip : clipCode c.clip < 3 := by cases c.clip <;> decide
  have hzero : (0 : BitVec 18).toNat = 0 := rfl
  unfold CtObject.modeWord
  simp only [ofNat_getLsbD, ofNat_extractLsb', ← BitVec.toNat_inj]
  refine ⟨?_, decide_eq_of_toNat ?_, ?_, decide_eq_of_toNat ?_, decide_eq_of_toNat ?_,
    decide_eq_of_toNat ?_, ?_⟩ <;> omega

/-- A binary64 register is its high word above its low word (10_state.md R22). -/
theorem halfWord_append (d : DWord) : halfWord d true ++ halfWord d false = d := by
  show d.extractLsb' 32 32 ++ d.extractLsb' 0 32 = d
  rw [BitVec.extractLsb'_append_extractLsb'_eq_extractLsb' (by rfl)]
  exact BitVec.extractLsb'_eq_self

/-- Settles O7: the map is finite and checked offset by offset; the reads are the fields of
`Status.getLsbD_word`, `CtObject.modeWord_fields` and `halfWord_append`. -/
theorem registerMap : Obligations.RegisterMap := by
  refine ⟨by decide, by decide, by decide, by decide, by decide, by decide, by decide, fun s => ?_⟩
  obtain ⟨hmode, hfwd, hclip, hclf, hcli, htp, hzero⟩ := s.ctObj.modeWord_fields
  refine ⟨rfl, rfl, rfl, s.status.getLsbD_word, rfl, ⟨hmode, hfwd, ?_, hclf, hcli, htp, hzero⟩,
    fun k => ⟨halfWord_append _, halfWord_append _⟩, halfWord_append _, halfWord_append _, rfl, rfl⟩
  refine BitVec.eq_of_toNat_eq (hclip.trans ?_)
  cases s.ctObj.clip <;> rfl

/-! ## What a write leaves -/

/-- The per-plane registers of a slot are separate stores. -/
theorem FrameDesc.plane_setPlane (f : FrameDesc) (r r' : PlaneReg) (p : Fin 4) (v : Word) :
    (f.setPlane r p v).plane r' =
      if r' = r then (f.plane r).set p.val v p.isLt else f.plane r' := by
  cases r <;> cases r' <;> rfl

theorem FrameDesc.get_plane_setPlane (f : FrameDesc) (r r' : PlaneReg) (p p' : Fin 4) (v : Word) :
    ((f.setPlane r p v).plane r').get p' =
      if r' = r ∧ p' = p then v else (f.plane r').get p' := by
  rw [FrameDesc.plane_setPlane]
  by_cases hr : r' = r
  · simp [hr, Vector.get_eq_getElem, Vector.getElem_set, Fin.ext_iff, eq_comm]
  · simp [hr]

@[simp] theorem FrameDesc.setPlane_frameNo (f : FrameDesc) (r : PlaneReg) (p : Fin 4) (v : Word) :
    (f.setPlane r p v).frameNo = f.frameNo := by cases r <;> rfl

/-- A write changes what a read of no other register returns, `STATUS` included. -/
theorem State.readReg_writeReg_other (s : State) {r r' : Reg} (v : Word) (h : r' ≠ r) :
    (s.writeReg r v).readReg r' = s.readReg r' := by
  cases r with
  | fdFmt x =>
    cases r' with
    | fdFmt y =>
      exact congrArg FrameDesc.fmt (s.slot_setSlot_other (fun hxy => h (by rw [hxy])) _)
    | fdFrameNo y | fdPlane y f p =>
      simp only [State.writeReg, State.readReg, State.slot_setSlot]
      split
      · subst_vars; rfl
      · rfl
    | _ => rfl
  | fdFrameNo x =>
    cases r' with
    | fdFrameNo y =>
      exact congrArg FrameDesc.frameNo (s.slot_setSlot_other (fun hxy => h (by rw [hxy])) _)
    | fdFmt y | fdPlane y f p =>
      simp only [State.writeReg, State.readReg, State.slot_setSlot]
      split
      · subst_vars; rfl
      · rfl
    | _ => rfl
  | fdPlane x f p =>
    cases r' with
    | fdFmt y | fdFrameNo y =>
      simp only [State.writeReg, State.readReg, State.slot_setSlot]
      split <;> simp [*]
    | fdPlane y f' p' =>
      simp only [State.writeReg, State.readReg, State.slot_setSlot]
      split
      · subst_vars
        rw [FrameDesc.get_plane_setPlane, if_neg fun ⟨hf, hp⟩ => h (by rw [hf, hp])]
      · rfl
    | _ => rfl
  | _ =>
    cases r' <;> try rfl
    all_goals exact absurd rfl h

/-- A word by its bits, those of `v` under `mask`. -/
theorem ofNat_eq_and {m : Nat} {v mask : Word}
    (h : ∀ k, k < 32 → (m % 2 ^ 32 / 2 ^ k % 2 = 1 ↔ v.toNat / 2 ^ k % 2 = 1 ∧ mask.getLsbD k)) :
    BitVec.ofNat 32 m = v &&& mask := by
  refine BitVec.eq_of_getLsbD_eq fun k hk => ?_
  rw [ofNat_getLsbD, BitVec.getLsbD_and, BitVec.getLsbD, Nat.testBit_eq_decide_div_mod_eq,
    Bool.eq_iff_iff]
  simpa using h k hk

theorem word_getLsbD_toNat (v : Word) (k : Nat) : (v.getLsbD k).toNat = v.toNat / 2 ^ k % 2 := by
  rw [BitVec.getLsbD, Nat.testBit_eq_decide_div_mod_eq]
  rcases Nat.mod_two_eq_zero_or_one (v.toNat / 2 ^ k) with h | h <;> simp [h]

theorem word_extractLsb'_toNat (v : Word) (k n : Nat) :
    (v.extractLsb' k n).toNat = v.toNat / 2 ^ k % 2 ^ n := by
  rw [BitVec.extractLsb'_toNat, Nat.shiftRight_eq_div_pow]

/-- A mask of the low `n` bits takes the remainder. -/
theorem toNat_and_mask (v : Word) (n : Nat) {m : Word} (hm : m.toNat = 2 ^ n - 1) :
    (v &&& m).toNat = v.toNat % 2 ^ n := by
  rw [BitVec.toNat_and, hm, Nat.and_two_pow_sub_one_eq_mod]

/-- A RW register reads the defined bits of the value written (10_state.md R22). -/
theorem State.readReg_writeReg_same (s : State) {r : Reg} {m : Word} (v : Word)
    (h : r.writable = some m) : (s.writeReg r v).readReg r = v &&& m := by
  have hall : v &&& 0xFFFFFFFF = v := BitVec.and_allOnes
  cases r with
  | ctIcs | ctOcs | ctCtrl =>
    cases h
    refine BitVec.eq_of_toNat_eq (Eq.trans ?_ (toNat_and_mask v 3 (by decide)).symm)
    simp only [State.writeReg, State.readReg, BitVec.toNat_setWidth, BitVec.toNat_ofNat,
      word_extractLsb'_toNat, word_getLsbD_toNat]
    omega
  | ctIcp | ctOcp =>
    cases h
    refine BitVec.eq_of_toNat_eq (Eq.trans ?_ (toNat_and_mask v 4 (by decide)).symm)
    simp only [State.writeReg, State.readReg, BitVec.toNat_setWidth, word_extractLsb'_toNat]
    omega
  | crCtrl =>
    cases h
    refine BitVec.eq_of_toNat_eq (Eq.trans ?_ (toNat_and_mask v 8 (by decide)).symm)
    simp only [State.writeReg, State.readReg, BitVec.toNat_ofNat, word_extractLsb'_toNat]
    omega
  | crLoc =>
    cases h
    simp only [State.writeReg, State.readReg, word_extractLsb'_toNat]
    refine ofNat_eq_and fun k hk => ?_
    interval_cases k <;> simp <;> omega
  | ctMin | ctMax | crFmin | crFmax => cases h; exact hall.symm
  | fdFmt x =>
    cases h
    exact congrArg FrameDesc.fmt (s.slot_setSlot_same x _)
  | fdFrameNo x =>
    cases h
    exact (congrArg FrameDesc.frameNo (s.slot_setSlot_same x _)).trans hall.symm
  | fdPlane x f p =>
    cases h
    simp only [State.writeReg, State.readReg, State.slot_setSlot_same,
      FrameDesc.get_plane_setPlane, and_self, if_true, hall]
  | _ => cases h

/-- `STATUS` loses the W1C flags written with 1 (10_state.md R26). -/
theorem Status.word_clear (f : Status) (v : Word) :
    (f.clear v).word = f.word &&& ~~~(v &&& 0x1E) := by
  refine BitVec.eq_of_getLsbD_eq fun k hk => ?_
  rw [BitVec.getLsbD_and, BitVec.getLsbD_not, BitVec.getLsbD_and, Status.getLsbD_word,
    Status.getLsbD_word]
  rcases Nat.lt_or_ge k 11 with hlow | hhigh
  · interval_cases k <;> simp
  · rw [List.getD_eq_default _ _ hhigh, List.getD_eq_default _ _ hhigh, Bool.false_and]

/-- The format register of a slot holds the fields of the value written (10_state.md R41). -/
theorem FrameDesc.fields_of_fmt {f : FrameDesc} {v : Word} (h : f.fmt = v &&& fmtMask) :
    f.kind = [Kind.u8, .u16, .f32, .reserved].getD (v.extractLsb' 0 2).toNat .reserved ∧
      f.depth = (v.extractLsb' 2 6).toNat ∧ f.avail = v.getLsbD 31 := by
  have hkind : (v &&& fmtMask).extractLsb' 0 2 = v.extractLsb' 0 2 := by
    rw [BitVec.extractLsb'_and]; exact BitVec.and_allOnes
  have hdepth : (v &&& fmtMask).extractLsb' 2 6 = v.extractLsb' 2 6 := by
    rw [BitVec.extractLsb'_and]; exact BitVec.and_allOnes
  have havail : (v &&& fmtMask).getLsbD 31 = v.getLsbD 31 := by
    rw [BitVec.getLsbD_and]; exact Bool.and_true _
  unfold FrameDesc.kind FrameDesc.depth FrameDesc.avail
  rw [h, hkind, hdepth, havail]
  refine ⟨?_, rfl, rfl⟩
  generalize (v.extractLsb' 0 2).toNat = code
  match code with
  | 0 | 1 | 2 | 3 => rfl
  | _ + 4 => rfl

/-- Settles O9: `readReg_writeReg_same`, `readReg_writeReg_other` and `word_clear` say what reads
return; a register that ignores writes has no store behind it. -/
theorem registerWriteReadBack : Obligations.RegisterWriteReadBack := by
  intro s r v
  have hframe : (s.writeReg r v).mem = s.mem ∧ (s.writeReg r v).crObj = s.crObj ∧
      (s.writeReg r v).cfg = s.cfg ∧ (s.writeReg r v).pending = s.pending ∧
      (s.writeReg r v).busData = s.busData ∧ (s.writeReg r v).draws = s.draws := by
    cases r <;> exact ⟨rfl, rfl, rfl, rfl, rfl, rfl⟩
  have hignored : r.writable = none → r ≠ .status → s.writeReg r v = s := by
    intro hr hs
    cases r with
    | status => exact absurd rfl hs
    | id | cmd | cause | ctMode | ctT | ctCbDiv | ctCrDiv | mres | crLockW | crLockH
    | reserved => rfl
    | _ => cases hr
  obtain ⟨hmem, hcr, hcfg, hq, hbus, hdraws⟩ := hframe
  refine ⟨fun m hm => s.readReg_writeReg_same v hm, hignored, s.status.word_clear v,
    fun r' h => s.readReg_writeReg_other v h, hmem, hcr, hcfg, hq, hbus, hdraws,
    rfl, rfl, rfl, rfl, rfl, rfl, rfl, rfl, rfl, rfl, rfl, rfl, rfl, rfl, fun x => ?_⟩
  have hplane : ∀ f p, (((s.writeReg (.fdPlane x f p) v).slot x).plane f).get p = v := fun f p =>
    (s.readReg_writeReg_same (r := .fdPlane x f p) v rfl).trans BitVec.and_allOnes
  have hfmt := s.readReg_writeReg_same (r := .fdFmt x) v rfl
  have hno := (s.readReg_writeReg_same (r := .fdFrameNo x) v rfl).trans BitVec.and_allOnes
  have hnat := fun f p => congrArg BitVec.toNat (hplane f p)
  exact ⟨FrameDesc.fields_of_fmt hfmt, hno, fun p => ⟨hnat .width p, hnat .height p,
    hnat .compSize p, hnat .base p, hnat .minPel p, hnat .maxPel p⟩⟩

/-! ## Reset -/

/-- After reset every register but `ID` reads 0 (10_state.md R53). -/
theorem State.readReg_restart (s : State) {r : Reg} (h : r ≠ .id) : s.restart.readReg r = 0 := by
  have hmat : ∀ (e : Fin 9) (hi : Bool), halfWord (zeroMat.get e) hi = 0 := by decide
  have hhalf : ∀ hi, halfWord 0 hi = 0 := by decide
  have hplane : ∀ x f p, ((State.reset.slot x).plane f).get p = 0 := by
    intro x f p; revert x p; cases f <;> decide
  have hslot : ∀ x, (State.reset.slot x).fmt = 0 ∧ (State.reset.slot x).frameNo = 0 := by decide
  cases r with
  | id => exact absurd rfl h
  | ctT e hi | mres e hi => exact hmat e hi
  | ctCbDiv hi | ctCrDiv hi => exact hhalf hi
  | fdFmt x => exact (hslot x).1
  | fdFrameNo x => exact (hslot x).2
  | fdPlane x f p => exact hplane x f p
  | _ => rfl

/-- Settles O11: `ID` stands at offset 0 alone, and every other register reads 0 after reset. -/
theorem resetReadsZero : Obligations.ResetReadsZero := by
  intro s
  refine ⟨s.restart, rfl, fun off _ ha => ?_, rfl, rfl, rfl, rfl, fun _ => rfl⟩
  have hid := (s.restart.regOf_eq_iff ha).1
  split
  · rename_i h0
    rw [hid.2 h0]
    rfl
  · rename_i h0
    exact s.readReg_restart fun h => h0 (hid.1 h)

end Sys2Proof.Machine
end

section
/-! The bus operations one by one, and who may clear a flag or write a cache (spec/10_state.md R22
to R58). -/

namespace Sys2Proof.Machine

open Sys2Proof

/-! ## Register accesses -/

section
variable {s : State} {off : Word} (ha : off.toNat % 4 = 0) (hlt : off.toNat < 0x300)
include ha hlt

theorem regAccess_word (k : Reg → Outcome) : regAccess .word off s k = k (s.regOf off) := by
  simp [regAccess, ha, Nat.not_le.2 hlt]

theorem perform_regRead :
    perform (.regRead .word off) s = .next { s with busData := some (s.readReg (s.regOf off)) } :=
  regAccess_word ha hlt (s := s) fun r => .next { s with busData := some (s.readReg r) }

/-- An aligned register write inside the block: ignored in the fatal stop, a command at the offset
of `CMD`, a register elsewhere (10_state.md R22, R25, R55). -/
theorem perform_regWrite (v : Word) : perform (.regWrite .word off v) s =
    if s.status.fatal then .next s
    else if off = 0x004 then writeCmd v s
    else .next (s.writeReg (s.regOf off) v) := by
  have hcmd := (s.regOf_eq_iff ha).2.1
  simp only [perform, busWrite]
  rw [regAccess_word ha hlt]
  split
  · rename_i hr
    rw [if_pos (hcmd.1 hr)]
    cases hf : s.status.fatal <;> simp [writeCmd, hf]
  · rename_i hr
    rw [if_neg fun h => hr (hcmd.2 h)]

end

/-! ## The fatal stop and the decoded command -/

/-- In the fatal stop a command is ignored (10_state.md R55). -/
theorem exec_fatal {s : State} (h : s.status.fatal = true) (i : Instr) : exec i s = .next s := by
  cases i <;> exact command_fatal h _ _

theorem writeCmd_of_decode {w : Word} {i : Instr} (h : decode w = .ok i) (s : State) :
    writeCmd w s = exec i s := by
  unfold writeCmd
  split
  · exact (exec_fatal ‹_› i).symm
  · simp [h]

/-- A write of a legal word to `CMD` is its command (10_state.md R25). -/
theorem perform_command {w : Word} {i : Instr} (h : decode w = .ok i) (s : State) :
    perform (.regWrite .word 0x004 w) s = exec i s := by
  rw [perform_regWrite (by decide) (by decide), if_pos rfl, writeCmd_of_decode h]
  split
  · exact (exec_fatal ‹_› i).symm
  · rfl

/-- Settles O6: a step takes the first operation, and `perform_command` is the write of `CMD`. -/
theorem stepRunsDecodedCommand : Obligations.StepRunsDecodedCommand := by
  intro s
  have hstep : ∀ op rest, s.pending = op :: rest → step s = perform op { s with pending := rest } :=
    fun op rest h => by simp only [step, busStep, h]
  refine ⟨fun h => by simp only [step, busStep, h], hstep, fun w rest i h hw => ?_⟩
  rw [hstep _ _ h, perform_command hw]

/-- Settles O8: `perform_regRead` and `perform_regWrite` are the accesses that complete, and
`regOf_eq` is the map with the slots that exist. -/
theorem registerAccesses : Obligations.RegisterAccesses := by
  intro s w off v
  refine ⟨fun h => ?_, ?_, ?_⟩
  · have href : ∀ k, regAccess w off s k = .refused .registerAccess := fun k => if_pos h
    simp only [perform, busWrite, busRead, href, and_self]
  · rintro rfl ha hge
    have hfault : ∀ k, regAccess .word off s k = .fault .outsideRegisterBlock := fun k => by
      simp [regAccess, ha, hge]
    simp only [perform, busWrite, busRead, hfault, and_self]
  · rintro rfl ha hlt
    refine ⟨perform_regRead ha hlt, fun hf hoff => ?_, fun h => ?_, fun h => ?_⟩
    · rw [perform_regWrite ha hlt, hf, if_neg Bool.false_ne_true, if_neg hoff]
    · rw [s.regOf_eq hlt]; exact if_pos h
    · rw [s.regOf_eq hlt]; exact if_neg (Nat.not_lt.2 h)

/-! ## Every next state of a bus operation, by the operation -/

/-- What the bus operation does to the state `s`. -/
inductive OpEffect (s : State) : BusOp → State → Prop where
  /-- a register write in the fatal stop -/
  | ignored (off v : Word) (hf : s.status.fatal = true) : OpEffect s (.regWrite .word off v) s
  /-- a legal command word -/
  | command (w : Word) (i : Instr) (t : State) (hf : s.status.fatal = false)
      (hd : decode w = .ok i) (h : exec i s = .next t) : OpEffect s (.regWrite .word 0x004 w) t
  /-- an illegal command word -/
  | illegal (w : Word) (e : Event) (hf : s.status.fatal = false) (he : e.cls = .cmdErr) :
      OpEffect s (.regWrite .word 0x004 w) (s.raise e)
  /-- a write of another register -/
  | write (off v : Word) (hf : s.status.fatal = false) (ha : off.toNat % 4 = 0) :
      OpEffect s (.regWrite .word off v) (s.writeReg (s.regOf off) v)
  /-- a read, a load or a store -/
  | hostData (op : BusOp) (m : Memory) (d : Option Word) :
      OpEffect s op { s with mem := m, busData := d }
  /-- reset -/
  | reset : OpEffect s .reset s.restart

theorem OpEffect.of_writeCmd {w : Word} {s t : State} (hf : s.status.fatal = false)
    (h : writeCmd w s = .next t) : OpEffect s (.regWrite .word 0x004 w) t := by
  unfold writeCmd at h
  rw [hf, if_neg Bool.false_ne_true] at h
  split at h
  · exact .command _ _ _ hf ‹_› h
  · cases h
    exact .illegal _ _ hf rfl
  · cases h
    exact .illegal _ _ hf rfl

/-- Every next state of a bus operation. -/
theorem OpEffect.of_perform {op : BusOp} {s t : State} (h : perform op s = .next t) :
    OpEffect s op t := by
  cases op with
  | regWrite w off v =>
    have hacc := h
    simp only [perform, busWrite] at hacc
    obtain ⟨rfl, ha, hlt, -⟩ := regAccess_next hacc
    rw [perform_regWrite ha hlt] at h
    split at h
    · cases h
      exact .ignored _ _ ‹_›
    · rename_i hf
      rw [Bool.not_eq_true] at hf
      split at h
      · subst_vars
        exact .of_writeCmd hf h
      · cases h
        exact .write _ _ hf ha
  | regRead w off =>
    have hacc := h
    simp only [perform, busRead] at hacc
    obtain ⟨rfl, ha, hlt, -⟩ := regAccess_next hacc
    rw [perform_regRead ha hlt] at h
    cases h
    exact .hostData _ s.mem _
  | store w a v =>
    simp only [perform, busStore] at h
    split at h
    · cases h
    · cases h
      exact .hostData _ _ s.busData
  | load w a =>
    simp only [perform, busLoad] at h
    split at h
    · cases h
    · split at h
      · cases h
      · cases h
        exact .hostData _ s.mem _
  | reset =>
    cases h
    exact .reset

/-- A step does nothing, or has an effect of the first pending operation. -/
theorem OpEffect.of_step {s t : State} (h : step s = .next t) : t = s ∨
    ∃ op rest, s.pending.head? = some op ∧ OpEffect { s with pending := rest } op t := by
  rcases step_next h with ⟨-, rfl⟩ | ⟨op, rest, hq, hp⟩
  · exact .inl rfl
  · exact .inr ⟨op, rest, by rw [hq]; rfl, .of_perform hp⟩

/-- Settles O12: in the fatal stop only the effects of reads, loads, stores and reset are left. -/
theorem fatalStop : Obligations.FatalStop := by
  intro s hf
  refine ⟨fun off v ha hlt => ⟨?_, perform_regRead ha hlt⟩, exec_fatal hf, fun w a v h => ?_,
    fun w a n h hn => ?_, fun op t hop h => ?_, ⟨_, rfl, rfl⟩⟩
  · rw [perform_regWrite ha hlt, if_pos hf]
  · exact ⟨_, if_neg (Nat.not_lt.2 h), rfl⟩
  · simp only [perform, busLoad, hn]
    exact if_neg (Nat.not_lt.2 h)
  · have hno : ∀ {p : Prop}, s.status.fatal = false → p := fun hc => by simp [hf] at hc
    cases OpEffect.of_perform h with
    | ignored | hostData => rfl
    | command _ _ _ hc | illegal _ _ hc | write _ _ hc => exact hno hc
    | reset => exact absurd rfl hop

end Sys2Proof.Machine
end

section
/-! What each command can do, by the command: the flags it leaves, the state it may write and the
frame of the commands with frames (spec/10_state.md R26 to R58). -/

namespace Sys2Proof.Machine

open Sys2Proof

/-! ## The five conversions as one -/

theorem mem_conversionCommands {fdo fdi : BitVec 4} {lvl : BitVec 8} {i : Instr} :
    i ∈ conversionCommands fdo fdi lvl ↔ i = .crDnGen fdo fdi lvl ∨ i = .crDnBnd fdo fdi ∨
      i = .crDnAdp fdo fdi ∨ i = .crUpGen fdo fdi lvl ∨ i = .crUpBnd fdo fdi := by
  simp [conversionCommands]

/-- The five conversion commands are one run of `crConvert`, with a direction, a plan and a level
(41_filter_primitives.md R210). -/
theorem exec_conversion {fdo fdi : BitVec 4} {lvl : BitVec 8} {i : Instr}
    (hi : i ∈ conversionCommands fdo fdi lvl) : ∃ up plan l,
      (up = true → ∀ b p, plan b = some p → p.doubles) ∧
      ∀ s, exec i s = command i s (crConvert up plan l s (slotIdx fdo) (slotIdx fdi)) := by
  rcases mem_conversionCommands.1 hi with rfl | rfl | rfl | rfl | rfl
  · exact ⟨false, dnGenPlan, lvl.toNat, nofun, fun _ => rfl⟩
  · exact ⟨false, dnBndPlan, 0, nofun, fun _ => rfl⟩
  · exact ⟨false, dnAdpPlan, 0, nofun, fun _ => rfl⟩
  · exact ⟨true, upGenPlan, lvl.toNat, fun _ _ _ => upGenPlan_doubles, fun _ => rfl⟩
  · exact ⟨true, upBndPlan, 0, fun _ _ _ => upBndPlan_doubles, fun _ => rfl⟩

/-! ## Every next state of a command, by the command -/

/-- What the command does to the state `s`. -/
inductive InstrEffect (s : State) : Instr → State → Prop where
  /-- the fatal stop ignores it -/
  | ignored (i : Instr) : InstrEffect s i s
  /-- an event, and nothing else -/
  | event (i : Instr) (e : Event) : InstrEffect s i (s.raise e)
  | ctSetup : InstrEffect s .ctSetup (ctResolve s)
  | ctGetm (cp : BitVec 8) (m : Mat3) (w : Bool) :
      InstrEffect s (.ctGetm cp) { s with mres := m, status := s.status.warn w }
  | ctGety (cp : BitVec 8) (m : Mat3) (w : Bool) :
      InstrEffect s (.ctGety cp) { s with mres := m, status := s.status.warn w }
  | crSetup : InstrEffect s .crSetup (crLatch s)
  /-- `CT.PROC` is a no-op -/
  | noop (fdo fdi : BitVec 4) :
      InstrEffect s (.ctProc fdo fdi) (ctNoop s (slotIdx fdo) (slotIdx fdi))
  /-- `CT.PROC` transforms -/
  | transform (fdo fdi : BitVec 4) (P : Fin 4 → List Nat)
      (hl : ∀ p ∈ planes, (P p).length = (s.slot (slotIdx fdo)).count p) :
      InstrEffect s (.ctProc fdo fdi) (s.commit (slotIdx fdo) (slotIdx fdi) (P 0) (P 1) (P 2))
  /-- a conversion completes -/
  | convert (fdo fdi : BitVec 4) (lvl : BitVec 8) (i : Instr)
      (hi : i ∈ conversionCommands fdo fdi lvl) (P : Fin 4 → List Nat)
      (hl : ∀ p ∈ planes, (P p).length = (s.slot (slotIdx fdo)).count p) :
      InstrEffect s i
        ((lockSize s (slotIdx fdi)).commit (slotIdx fdo) (slotIdx fdi) (P 0) (P 1) (P 2))

/-- The head of a command adds two effects to those of its run. -/
theorem InstrEffect.of_command {i : Instr} {run : Outcome} {s t : State}
    (h : command i s run = .next t) (hrun : run = .next t → InstrEffect s i t) :
    InstrEffect s i t := by
  rcases command_next h with ⟨-, rfl⟩ | ⟨-, -, rfl⟩ | ⟨-, -, hr⟩
  · exact .ignored _
  · exact .event _ _
  · exact hrun hr

theorem InstrEffect.of_conversion {fdo fdi : BitVec 4} {lvl : BitVec 8} {i : Instr}
    (hi : i ∈ conversionCommands fdo fdi lvl) {s t : State} (h : exec i s = .next t) :
    InstrEffect s i t := by
  obtain ⟨up, plan, l, hp, hexec⟩ := exec_conversion hi
  rw [hexec] at h
  refine .of_command h fun hr => ?_
  rcases crConvert_next hp hr with ⟨-, rfl⟩ | ⟨e, -, rfl⟩ | ⟨-, rfl⟩ | ⟨-, -, P, hl, -, rfl⟩
  · exact .event _ _
  · exact .event _ _
  · exact .event _ _
  · exact .convert _ _ _ _ hi P hl

/-- Every next state of a command. -/
theorem InstrEffect.of_exec {i : Instr} {s t : State} (h : exec i s = .next t) :
    InstrEffect s i t := by
  cases i with
  | ctSetup =>
    refine .of_command h fun hr => ?_
    split at hr <;> cases hr
    · exact .event _ _
    · exact .ctSetup
  | ctProc fdo fdi =>
    refine .of_command h fun hr => ?_
    rcases ctProc_next hr with ⟨-, rfl⟩ | ⟨-, -, rfl⟩ | ⟨-, -, rfl⟩ | ⟨-, -, P, hl, rfl⟩
    · exact .event _ _
    · exact .noop _ _
    · exact .event _ _
    · exact .transform _ _ P hl
  | ctGetm cp => exact .of_command h fun hr => by cases hr; exact .ctGetm _ _ _
  | ctGety cp => exact .of_command h fun hr => by cases hr; exact .ctGety _ _ _
  | crSetup =>
    refine .of_command h fun hr => ?_
    split at hr
    · cases hr
      exact .event _ _
    · split at hr <;> cases hr
      · exact .event _ _
      · exact .crSetup
  | crDnGen fdo fdi lvl | crUpGen fdo fdi lvl =>
    exact .of_conversion (fdo := fdo) (fdi := fdi) (lvl := lvl) (by simp [conversionCommands]) h
  | crDnBnd fdo fdi | crDnAdp fdo fdi | crUpBnd fdo fdi =>
    exact .of_conversion (fdo := fdo) (fdi := fdi) (lvl := 0) (by simp [conversionCommands]) h

/-! ## The flags a command leaves -/

theorem lockSize_status (s : State) (i : Fin 4) :
    (lockSize s i).status = s.status.setCrLocked := by
  unfold lockSize
  split
  · simp [Status.setCrLocked, ← ‹s.status.crLocked = true›]
  · rfl

/-- Every flag of `f` but `CR_LOCKED` is set in `g` too. -/
structure Status.KeptBy (f g : Status) : Prop where
  fatal : f.fatal = true → g.fatal = true
  cmdErr : f.cmdErr = true → g.cmdErr = true
  unsup : f.unsup = true → g.unsup = true
  warnIdent : f.warnIdent = true → g.warnIdent = true
  noop : f.noop = true → g.noop = true
  ctValid : f.ctValid = true → g.ctValid = true
  crValid : f.crValid = true → g.crValid = true

namespace Status.KeptBy

variable (f : Status)

theorem refl : f.KeptBy f := ⟨id, id, id, id, id, id, id⟩

theorem mark (c : EventClass) : f.KeptBy (f.mark c) := by
  cases c <;> constructor <;> simp

theorem warn (w : Bool) : f.KeptBy (f.warn w) := by
  constructor <;> simp +contextual

theorem setCtValid : f.KeptBy f.setCtValid := by constructor <;> simp

theorem setNoop : f.KeptBy f.setNoop := by constructor <;> simp

theorem setCrValid : f.KeptBy f.setCrValid := by constructor <;> simp

theorem setCrLocked : f.KeptBy f.setCrLocked := ⟨id, id, id, id, id, id, id⟩

theorem trans {f g k : Status} (h : f.KeptBy g) (h' : g.KeptBy k) : f.KeptBy k where
  fatal := h'.fatal ∘ h.fatal
  cmdErr := h'.cmdErr ∘ h.cmdErr
  unsup := h'.unsup ∘ h.unsup
  warnIdent := h'.warnIdent ∘ h.warnIdent
  noop := h'.noop ∘ h.noop
  ctValid := h'.ctValid ∘ h.ctValid
  crValid := h'.crValid ∘ h.crValid

end Status.KeptBy

/-- No command clears a flag but `CR_LOCKED` (10_state.md R26). -/
theorem InstrEffect.flags_kept {s t : State} {i : Instr} (h : InstrEffect s i t) :
    s.status.KeptBy t.status := by
  cases h with
  | ignored => exact .refl _
  | event _ e => exact .mark _ e.cls
  | ctSetup =>
    obtain ⟨_, _, _, _, w, -, -, heq⟩ := ctResolve_cases s
    rw [heq]
    exact (Status.KeptBy.warn _ w).trans (.setCtValid _)
  | ctGetm _ _ w | ctGety _ _ w => exact .warn _ w
  | crSetup => exact .setCrValid _
  | noop => rw [ctNoop_status]; exact .setNoop _
  | transform => exact .refl _
  | convert => rw [State.commit_status, lockSize_status]; exact .setCrLocked _

/-- Only `CR.SETUP` unlocks the frame size (41_filter_primitives.md R198). -/
theorem InstrEffect.locked_kept {s t : State} {i : Instr} (h : InstrEffect s i t)
    (hi : i ≠ .crSetup) (hl : s.status.crLocked = true) : t.status.crLocked = true := by
  cases h with
  | ignored | ctGetm | ctGety | transform => exact hl
  | event _ e => simpa using hl
  | ctSetup =>
    obtain ⟨_, _, _, _, w, -, -, heq⟩ := ctResolve_cases s
    rw [heq]
    exact hl
  | crSetup => exact absurd rfl hi
  | noop => rw [ctNoop_status]; exact hl
  | convert => rw [State.commit_status, lockSize_status]; rfl

/-! ## The word of `CR.SETUP` -/

/-- A word is its five fields (30_encoding.md R100). -/
theorem word_eq_fields (w : Word) :
    w = opcField w ++ fdoField w ++ fdiField w ++ argField w ++ zField w := by
  unfold opcField fdoField fdiField argField zField
  rw [BitVec.extractLsb'_append_extractLsb'_eq_extractLsb' (by rfl),
    BitVec.extractLsb'_append_extractLsb'_eq_extractLsb' (by rfl),
    BitVec.extractLsb'_append_extractLsb'_eq_extractLsb' (by rfl),
    BitVec.extractLsb'_append_extractLsb'_eq_extractLsb' (by rfl)]
  exact BitVec.extractLsb'_eq_self.symm

theorem decode_ok {w : Word} {i : Instr} (h : decode w = .ok i) :
    opcodeInstr w = some i ∧ i.wellFormed = true ∧ unusedZero w i = true := by
  unfold decode at h
  split at h
  · cases h
  · rename_i j hj
    split at h
    · rename_i hok
      cases h
      exact ⟨hj, Bool.and_eq_true_iff.1 hok⟩
    · cases h

theorem opcodeInstr_crSetup {w : Word} (h : opcodeInstr w = some .crSetup) : opcField w = 0x20 := by
  unfold opcodeInstr at h
  split at h <;> cases h
  exact BitVec.eq_of_toNat_eq ‹_›

/-- One word alone is `CR.SETUP` (30_encoding.md R102). -/
theorem eq_encode_of_decode_crSetup {w : Word} (h : decode w = .ok .crSetup) :
    w = encode .crSetup := by
  obtain ⟨hop, -, hz⟩ := decode_ok h
  simp only [unusedZero, Bool.and_eq_true, beq_iff_eq] at hz
  obtain ⟨⟨⟨hfdo, hfdi⟩, harg⟩, hzero⟩ := hz
  rw [word_eq_fields w, opcodeInstr_crSetup hop, hfdo, hfdi, harg, hzero]
  rfl

/-! ## The flags a step leaves -/

theorem State.writeReg_status_of_ne (s : State) {r : Reg} (hr : r ≠ .status) (v : Word) :
    (s.writeReg r v).status = s.status := by
  cases r with
  | status => exact absurd rfl hr
  | _ => rfl

/-- What a step does to the flags: reset, a W1C write, a `CR.SETUP`, or it keeps them. -/
theorem step_flags {s t : State} (h : step s = .next t) :
    s.pending.head? = some .reset ∨
    (∃ v, s.pending.head? = some (.regWrite .word 0x008 v) ∧ t.status = s.status.clear v) ∨
    s.status.KeptBy t.status ∧ ((s.status.crLocked = true → t.status.crLocked = true) ∨
      s.pending.head? = some (.regWrite .word 0x004 (encode .crSetup))) := by
  rcases OpEffect.of_step h with rfl | ⟨op, rest, hq, he⟩
  · exact .inr (.inr ⟨.refl _, .inl id⟩)
  rw [hq]
  cases he with
  | ignored | hostData => exact .inr (.inr ⟨.refl _, .inl id⟩)
  | command w i _ hf hd hi =>
    have heff := InstrEffect.of_exec hi
    refine .inr (.inr ⟨heff.flags_kept, ?_⟩)
    by_cases hset : i = .crSetup
    · subst hset
      exact .inr (by rw [eq_encode_of_decode_crSetup hd])
    · exact .inl (heff.locked_kept hset)
  | illegal w e =>
    exact .inr (.inr ⟨.mark _ e.cls, .inl fun hl => by simpa using hl⟩)
  | write off v hf ha =>
    by_cases hr : State.regOf { s with pending := rest } off = .status
    · have hoff := (State.regOf_eq_iff _ ha).2.2.1 hr
      rw [hr]
      exact .inr (.inl ⟨v, by rw [hoff], rfl⟩)
    · rw [State.writeReg_status_of_ne _ hr]
      exact .inr (.inr ⟨.refl _, .inl id⟩)
  | reset => exact .inl rfl

/-- A W1C flag that a write clears was written with 1. -/
theorem bit_of_cleared {b x : Bool} (hb : b = true) (h : (b && !x) = false) : x = true := by
  simpa [hb] using h

/-- Settles O15: `InstrEffect.flags_kept` for the commands, `step_flags` for the steps. -/
theorem stickyFlagsStay : Obligations.StickyFlagsStay := by
  refine ⟨fun i s t h => ?_, ?_⟩
  · have hk := (InstrEffect.of_exec h).flags_kept
    exact ⟨hk.cmdErr, hk.unsup, hk.warnIdent, hk.noop⟩
  intro s t h isReset clears
  have lost : ∀ {a b : Bool}, (a = true → b = true) → a = true → b = false → False :=
    fun hab ha hb => by simp [hab ha] at hb
  rcases step_flags h with hr | ⟨v, hq, hs⟩ | ⟨hk, hlock⟩
  · exact ⟨fun _ _ => .inl hr, fun _ _ => .inl hr, fun _ _ => .inl hr, fun _ _ => .inl hr,
      fun _ _ => hr, fun _ _ => hr, fun _ _ => hr, fun _ _ => .inl hr⟩
  · rw [hs]
    exact ⟨fun ha hb => .inr ⟨v, bit_of_cleared ha hb, hq⟩,
      fun ha hb => .inr ⟨v, bit_of_cleared ha hb, hq⟩,
      fun ha hb => .inr ⟨v, bit_of_cleared ha hb, hq⟩,
      fun ha hb => .inr ⟨v, bit_of_cleared ha hb, hq⟩,
      fun ha hb => (lost id ha hb).elim, fun ha hb => (lost id ha hb).elim,
      fun ha hb => (lost id ha hb).elim, fun ha hb => (lost id ha hb).elim⟩
  · exact ⟨fun ha hb => (lost hk.cmdErr ha hb).elim, fun ha hb => (lost hk.unsup ha hb).elim,
      fun ha hb => (lost hk.warnIdent ha hb).elim, fun ha hb => (lost hk.noop ha hb).elim,
      fun ha hb => (lost hk.fatal ha hb).elim, fun ha hb => (lost hk.ctValid ha hb).elim,
      fun ha hb => (lost hk.crValid ha hb).elim,
      fun ha hb => .inr (hlock.resolve_left fun hl => lost hl ha hb)⟩

/-! ## Who writes the caches -/

@[simp] theorem lockSize_latches (s : State) (i : Fin 4) :
    (lockSize s i).crObj.loc = s.crObj.loc ∧ (lockSize s i).crObj.dn = s.crObj.dn ∧
      (lockSize s i).crObj.up = s.crObj.up := by
  unfold lockSize
  split <;> exact ⟨rfl, rfl, rfl⟩

section
variable {s t : State} {i : Instr} (h : InstrEffect s i t)
include h

theorem InstrEffect.ctObj_kept (hi : i ≠ .ctSetup) : t.ctObj = s.ctObj := by
  cases h with
  | ctSetup => exact absurd rfl hi
  | noop => exact ctNoop_ctObj ..
  | convert => exact lockSize_ctObj ..
  | _ => rfl

theorem InstrEffect.mres_kept (hi : ∀ cp, i ≠ .ctGetm cp ∧ i ≠ .ctGety cp) : t.mres = s.mres := by
  cases h with
  | ctGetm cp => exact absurd rfl (hi cp).1
  | ctGety cp => exact absurd rfl (hi cp).2
  | ctSetup => exact ctResolve_mres ..
  | noop => exact ctNoop_mres ..
  | convert => exact lockSize_mres ..
  | _ => rfl

theorem InstrEffect.latches_kept (hi : i ≠ .crSetup) : t.crObj.loc = s.crObj.loc ∧
    t.crObj.dn = s.crObj.dn ∧ t.crObj.up = s.crObj.up := by
  cases h with
  | crSetup => exact absurd rfl hi
  | ctSetup => simp
  | noop => simp
  | convert => exact lockSize_latches ..
  | _ => exact ⟨rfl, rfl, rfl⟩

theorem InstrEffect.cfg_kept : t.cfg = s.cfg := by
  cases h with
  | ctSetup => exact ctResolve_cfg ..
  | noop => exact ctNoop_cfg ..
  | convert => exact lockSize_cfg ..
  | _ => rfl

end

theorem State.writeReg_caches (s : State) (r : Reg) (v : Word) :
    (s.writeReg r v).ctObj = s.ctObj ∧ (s.writeReg r v).mres = s.mres ∧
      (s.writeReg r v).crObj = s.crObj ∧ (s.writeReg r v).cfg = s.cfg := by
  cases r <;> exact ⟨rfl, rfl, rfl, rfl⟩

/-- What a step does to the caches and the tables: reset, a command, or nothing. -/
theorem step_caches {s t : State} (h : step s = .next t) :
    (s.pending.head? = some .reset ∧ t.cfg = s.cfg) ∨
    (∃ w i rest, decode w = .ok i ∧ s.pending.head? = some (.regWrite .word 0x004 w) ∧
      InstrEffect { s with pending := rest } i t) ∨
    (t.ctObj = s.ctObj ∧ t.mres = s.mres ∧ t.crObj = s.crObj ∧ t.cfg = s.cfg) := by
  rcases OpEffect.of_step h with rfl | ⟨op, rest, hq, he⟩
  · exact .inr (.inr ⟨rfl, rfl, rfl, rfl⟩)
  cases he with
  | command w i _ hf hd hi => exact .inr (.inl ⟨w, i, rest, hd, hq, .of_exec hi⟩)
  | write off v => exact .inr (.inr (State.writeReg_caches _ _ v))
  | reset => exact .inl ⟨hq, rfl⟩
  | _ => exact .inr (.inr ⟨rfl, rfl, rfl, rfl⟩)

/-- Settles O58: by `step_caches` only reset and a command change a cache, and by the lemmas of
`InstrEffect` no other command than the ones named does. -/
theorem whoWritesWhat : Obligations.WhoWritesWhat := by
  intro s t h isReset runs
  rcases step_caches h with ⟨hr, hcfg⟩ | ⟨w, i, rest, hd, hq, he⟩ | ⟨hct, hmres, hcr, hcfg⟩
  · exact ⟨fun _ => .inl hr, fun _ => .inl hr, fun _ => .inl hr, hcfg⟩
  · have hruns : ∀ {P : Instr → Prop}, P i → runs P := fun hP => ⟨w, i, hd, hP, hq⟩
    refine ⟨fun hne => .inr (hruns ?_), fun hne => .inr (hruns ?_), fun hne => .inr (hruns ?_),
      he.cfg_kept⟩
    · exact by_contra fun hi => hne (he.ctObj_kept hi)
    · exact by_contra fun hi => hne (he.mres_kept fun cp =>
        ⟨fun h => hi ⟨cp, .inl h⟩, fun h => hi ⟨cp, .inr h⟩⟩)
    · refine by_contra fun hi => ?_
      obtain ⟨hloc, hdn, hup⟩ := he.latches_kept hi
      exact hne.elim (· hloc) (·.elim (· hdn) (· hup))
  · rw [hcr]
    exact ⟨fun hne => absurd hct hne, fun hne => absurd hmres hne,
      fun hne => (hne.elim (· rfl) (·.elim (· rfl) (· rfl))).elim, hcfg⟩

/-! ## The frame of the commands with frames -/

/-- What a command leaves alone whose output slot is `o` and whose input slot is `i`. -/
structure OutputFrame (s t : State) (o i : Fin 4) : Prop where
  mem : ∀ a, ¬ (s.slot o).covers a → t.mem.read a = s.mem.read a
  otherSlots : ∀ x, x ≠ o → t.slot x = s.slot x
  outSlot : t.slot o = s.slot o ∨ t.slot o = (s.slot o).stamp (s.slot i)
  ctPar : t.ctPar = s.ctPar
  ctObj : t.ctObj = s.ctObj
  mres : t.mres = s.mres
  crPar : t.crPar = s.crPar
  latches : t.crObj.loc = s.crObj.loc ∧ t.crObj.dn = s.crObj.dn ∧ t.crObj.up = s.crObj.up
  cfg : t.cfg = s.cfg
  pending : t.pending = s.pending
  busData : t.busData = s.busData

theorem OutputFrame.commit (s : State) (o i : Fin 4) {P : Fin 4 → List Nat}
    (hl : ∀ p ∈ planes, (P p).length = (s.slot o).count p) :
    OutputFrame s (s.commit o i (P 0) (P 1) (P 2)) o i :=
  { s.commandFrame_commit o i hl with
    outSlot := .inr (s.commandFrame_commit o i hl).outSlot
    latches := ⟨rfl, rfl, rfl⟩ }

/-- The size lock before a commit changes `STATUS` and the lock only. -/
theorem OutputFrame.lockSize_commit (s : State) (o i : Fin 4) {P : Fin 4 → List Nat}
    (hl : ∀ p ∈ planes, (P p).length = (s.slot o).count p) :
    OutputFrame s ((lockSize s i).commit o i (P 0) (P 1) (P 2)) o i := by
  have h := OutputFrame.commit (lockSize s i) o i (P := P) (by simpa using hl)
  constructor
  · simpa using h.mem
  · simpa using h.otherSlots
  · simpa using h.outSlot
  all_goals simp

theorem OutputFrame.ctNoop (s : State) (o i : Fin 4) : OutputFrame s (ctNoop s o i) o i where
  mem _ _ := by simp
  otherSlots x hx := by
    unfold Machine.ctNoop
    dsimp only
    split
    · exact State.slot_setSlot_other _ (Ne.symm hx) _
    · rfl
  outSlot := by
    unfold Machine.ctNoop
    dsimp only
    split
    · exact .inr (State.slot_setSlot_same ..)
    · exact .inl rfl
  ctPar := by simp
  ctObj := by simp
  mres := by simp
  crPar := by simp
  latches := by simp
  cfg := by simp
  pending := by simp
  busData := by simp

theorem OutputFrame.of_event (s : State) (e : Event) (o i : Fin 4) :
    OutputFrame s (s.raise e) o i :=
  ⟨fun _ _ => rfl, fun _ _ => rfl, .inl rfl, rfl, rfl, rfl, rfl, ⟨rfl, rfl, rfl⟩, rfl, rfl, rfl⟩

theorem OutputFrame.refl (s : State) (o i : Fin 4) : OutputFrame s s o i :=
  ⟨fun _ _ => rfl, fun _ _ => rfl, .inl rfl, rfl, rfl, rfl, rfl, ⟨rfl, rfl, rfl⟩, rfl, rfl, rfl⟩

/-- A command with frames names its slots. -/
theorem slots_of_mem {fdo fdi : BitVec 4} {lvl : BitVec 8} {i : Instr}
    (hi : i ∈ .ctProc fdo fdi :: conversionCommands fdo fdi lvl) : i.slots = [fdo, fdi] := by
  rcases List.mem_cons.1 hi with rfl | hi
  · rfl
  · rcases mem_conversionCommands.1 hi with rfl | rfl | rfl | rfl | rfl <;> rfl

/-- The frame of a command with frames, whatever it answers short of a stop. -/
theorem InstrEffect.outputFrame {s t : State} {fdo fdi : BitVec 4} {i : Instr}
    (hi : i.slots = [fdo, fdi]) (h : InstrEffect s i t) :
    OutputFrame s t (slotIdx fdo) (slotIdx fdi) := by
  cases h with
  | ignored => exact .refl ..
  | event _ e => exact .of_event ..
  | ctSetup | ctGetm | ctGety | crSetup => cases hi
  | noop => cases hi; exact .ctNoop ..
  | transform _ _ P hl => cases hi; exact .commit _ _ _ hl
  | convert _ _ lvl _ hc P hl =>
    have hslots := slots_of_mem (List.mem_cons_of_mem _ hc)
    rw [hi] at hslots
    cases hslots
    exact .lockSize_commit _ _ _ hl

/-- Settles O57: `InstrEffect.outputFrame`, read for the six commands. -/
theorem frameCommandsKeepTheRest : Obligations.FrameCommandsKeepTheRest := by
  intro s t fdo fdi lvl i hi h o
  obtain ⟨hmem, hother, hout, hctPar, hctObj, hmres, hcrPar, ⟨hloc, hdn, hup⟩, hcfg, hq, hbus⟩ :=
    (InstrEffect.of_exec h).outputFrame (slots_of_mem hi)
  exact ⟨hmem, hother, hout, hctPar, hctObj, hmres, hcrPar, hloc, hdn, hup, hcfg, hq, hbus⟩

end Sys2Proof.Machine
end

section
/-! Of which registers the commands with frames are independent (spec/10_state.md R31 to R38,
70_reset_and_hazards.md R370). -/

namespace Sys2Proof.Machine

open Sys2Proof

/-- An outcome with its next state changed. -/
def mapNext (g : State → State) : Outcome → Outcome
  | .next t => .next (g t)
  | .fault r => .fault r
  | .refused r => .refused r

/-- The head of a command passes on a change of the state that its tests do not see. -/
theorem command_mapNext {g : State → State} {s : State} {i : Instr} {run run' : Outcome}
    (hfatal : (g s).status.fatal = s.status.fatal) (hadmits : (g s).admits i = s.admits i)
    (hraise : ∀ e, (g s).raise e = g (s.raise e)) (hrun : run' = mapNext g run) :
    command i (g s) run' = mapNext g (command i s run) := by
  unfold command
  rw [hfatal, hadmits, hrun, hraise]
  split
  · rfl
  · split <;> rfl

/-! ## CT.PROC -/

/-- The state with other parameter registers of the CTU, another `MRES` and another CRU. -/
def withoutCtCache (c : CtParams) (m : Mat3) (p : CrParams) (r : CrObject) (s : State) : State :=
  { s with ctPar := c, mres := m, crPar := p, crObj := r }

section
variable {s : State} {c : CtParams} (m : Mat3) (p : CrParams) (r : CrObject)
  (hmin : c.min = s.ctPar.min) (hmax : c.max = s.ctPar.max)
include hmin hmax

theorem ctDuties_withoutCtCache (o i : Fin 4) :
    ctDuties (withoutCtCache c m p r s) o i = ctDuties s o i := by
  simp only [ctDuties, withoutCtCache, hmin, hmax]
  rfl

theorem ctOut_withoutCtCache (fo : FrameDesc) (q : Fin 4) (vs : List Fp) :
    ctOut (withoutCtCache c m p r s) fo q vs = ctOut s fo q vs := by
  have hclip : ctClip (withoutCtCache c m p r s) = ctClip s := by
    funext v
    simp only [ctClip, withoutCtCache, hmin, hmax]
  simp only [ctOut, hclip]
  rfl

theorem ctTransform_withoutCtCache (o i : Fin 4) :
    ctTransform (withoutCtCache c m p r s) o i =
      mapNext (withoutCtCache c m p r) (ctTransform s o i) := by
  have hslot : ∀ x, (withoutCtCache c m p r s).slot x = s.slot x := fun _ => rfl
  have hread : ∀ f q, (withoutCtCache c m p r s).readPlane f q = s.readPlane f q := fun _ _ => rfl
  unfold ctTransform
  simp only [ctOut_withoutCtCache m p r hmin hmax, hslot, hread]
  cases s.readPlane (s.slot i) 0 <;> cases s.readPlane (s.slot i) 1 <;>
    cases s.readPlane (s.slot i) 2 <;> rfl

theorem ctProc_withoutCtCache (o i : Fin 4) :
    ctProc (withoutCtCache c m p r s) o i = mapNext (withoutCtCache c m p r) (ctProc s o i) := by
  have hslot : ∀ x, (withoutCtCache c m p r s).slot x = s.slot x := fun _ => rfl
  have hnoop : ctNoop (withoutCtCache c m p r s) o i = withoutCtCache c m p r (ctNoop s o i) := by
    have hcfg : (withoutCtCache c m p r s).cfg = s.cfg := rfl
    unfold ctNoop
    dsimp only
    rw [hcfg]
    split <;> rfl
  have hvalid : (withoutCtCache c m p r s).status.ctValid = s.status.ctValid := rfl
  have hcli : (withoutCtCache c m p r s).ctObj.cli = s.ctObj.cli := rfl
  unfold ctProc
  rw [hvalid, hcli, hslot, hslot, ctDuties_withoutCtCache m p r hmin hmax,
    ctTransform_withoutCtCache m p r hmin hmax, hnoop]
  cases s.status.ctValid with
  | false => rfl
  | true =>
    cases firstProblem (ctDuties s o i) with
    | some q => rfl
    | none =>
      cases countsEqual (s.slot o) (s.slot i) with
      | false => rfl
      | true => cases s.ctObj.cli <;> rfl

end

/-- Settles O31: `ctProc_withoutCtCache` under the head of the command. -/
theorem ctProcReadsOnlyItsCache : Obligations.CtProcReadsOnlyItsCache := by
  intro s t fdo fdi c m p r hmin hmax h
  show execCtProc fdo fdi (withoutCtCache c m p r s) = mapNext (withoutCtCache c m p r) (.next t)
  rw [← h]
  exact command_mapNext rfl rfl (fun _ => rfl) (ctProc_withoutCtCache m p r hmin hmax _ _)

/-! ## The conversions -/

/-- The state with other parameter registers, another CTU cache and `MRES`. -/
def withoutCrLatches (p : CrParams) (c : CtParams) (o : CtObject) (m : Mat3) (s : State) : State :=
  { s with crPar := p, ctPar := c, ctObj := o, mres := m }

section
variable {s : State} {p : CrParams} (c : CtParams) (b : CtObject) (m : Mat3)
  (hmin : p.fmin = s.crPar.fmin) (hmax : p.fmax = s.crPar.fmax)
include hmin hmax

theorem crPlane_withoutCrLatches (up : Bool) (plan : Plan) (lvl : Nat) (fo fi : FrameDesc)
    (q : Fin 4) (ws : List Nat) :
    crPlane up plan lvl (withoutCrLatches p c b m s) fo fi q ws =
      crPlane up plan lvl s fo fi q ws := by
  have henv : crEnv (withoutCrLatches p c b m s) fi lvl = crEnv s fi lvl := by
    simp only [crEnv, withoutCrLatches, hmin, hmax]
  unfold crPlane
  rw [henv]
  rfl

theorem crTransform_withoutCrLatches (up : Bool) (plan : Plan) (lvl : Nat) (o i : Fin 4) :
    crTransform up plan lvl (withoutCrLatches p c b m s) o i =
      mapNext (withoutCrLatches p c b m) (crTransform up plan lvl s o i) := by
  have hslot : ∀ x, (withoutCrLatches p c b m s).slot x = s.slot x := fun _ => rfl
  have hread : ∀ f q, (withoutCrLatches p c b m s).readPlane f q = s.readPlane f q := fun _ _ => rfl
  have hlock : lockSize (withoutCrLatches p c b m s) i =
      withoutCrLatches p c b m (lockSize s i) := by
    have hstatus : (withoutCrLatches p c b m s).status = s.status := rfl
    unfold lockSize
    rw [hstatus]
    split <;> rfl
  unfold crTransform
  simp only [crPlane_withoutCrLatches c b m hmin hmax, hslot, hread, hlock]
  cases s.readPlane (s.slot i) 0 with
  | error => rfl
  | ok w0 =>
    cases s.readPlane (s.slot i) 1 with
    | error => rfl
    | ok w1 =>
      cases s.readPlane (s.slot i) 2 with
      | error => rfl
      | ok w2 =>
        dsimp only
        cases crPlane up plan lvl s (s.slot o) (s.slot i) 1 w1 <;>
          cases crPlane up plan lvl s (s.slot o) (s.slot i) 2 w2 <;> rfl

theorem crConvert_withoutCrLatches (up : Bool) (plan : FilterBank → Option Plan) (lvl : Nat)
    (o i : Fin 4) : crConvert up plan lvl (withoutCrLatches p c b m s) o i =
      mapNext (withoutCrLatches p c b m) (crConvert up plan lvl s o i) := by
  have hslot : ∀ x, (withoutCrLatches p c b m s).slot x = s.slot x := fun _ => rfl
  have hvalid : (withoutCrLatches p c b m s).status.crValid = s.status.crValid := rfl
  have hduties : crDuties up (withoutCrLatches p c b m s) o i = crDuties up s o i := rfl
  have hbank : (withoutCrLatches p c b m s).crBank = s.crBank := rfl
  unfold crConvert
  simp only [hvalid, hslot, hduties, hbank, crTransform_withoutCrLatches c b m hmin hmax]
  cases s.status.crValid with
  | false => rfl
  | true =>
    cases fatalCheck (s.slot o) (s.slot i) with
    | some e => rfl
    | none =>
      cases firstProblem (crDuties up s o i) with
      | some q => rfl
      | none => cases s.crBank.bind plan <;> rfl

end

/-- Settles O56: `crConvert_withoutCrLatches` under the head of the command. -/
theorem conversionsReadOnlyTheirLatches : Obligations.ConversionsReadOnlyTheirLatches := by
  intro s t fdo fdi lvl p c b m hmin hmax i hi h
  obtain ⟨up, plan, l, -, hexec⟩ := exec_conversion hi
  show exec i (withoutCrLatches p c b m s) = mapNext (withoutCrLatches p c b m) (.next t)
  rw [← h, hexec, hexec]
  exact command_mapNext rfl rfl (fun _ => rfl) (crConvert_withoutCrLatches c b m hmin hmax ..)

end Sys2Proof.Machine
end

section
/-! The bounding levels and the outputs of the passes (spec/41_filter_primitives.md R201 to R206,
42_chroma_down.md R237). -/

namespace Sys2Proof.Machine

open Sys2Proof

/-! ## Numbers of the fixed path -/

theorem int32?_eq_ok {v : Int} (h : -(2 ^ 31) ≤ v ∧ v < 2 ^ 31) : int32? v = .ok v := if_pos h

theorem int32?_eq_error {v : Int} (h : ¬ (-(2 ^ 31) ≤ v ∧ v < 2 ^ 31)) :
    int32? v = .error .int32Overflow := if_neg h

/-- A clamp to bounds in order lies between them. -/
theorem clampi_mem (v : Int) {lo hi : Int} (h : lo ≤ hi) :
    lo ≤ clampi v lo hi ∧ clampi v lo hi ≤ hi := by
  unfold clampi
  split
  · exact ⟨le_refl lo, h⟩
  · split <;> omega

/-! ## Bounding -/

section
variable {e : CrEnv} {F : ScaleFilter} {c : Nat}

/-- Level 0 has no window (42_chroma_down.md R237). -/
theorem boundF_of_none (h : e.trim = none) (x : List Fp) (v : Fp) : boundF e F x c v = .ok v := by
  simp only [boundF, h]

theorem boundI_of_none (h : e.trim = none) (x : List Int) (v : Int) : boundI e F x c v = .ok v := by
  simp only [boundI, h]

theorem boundF_of_some {tr : Nat} (h : e.trim = some tr) {x : List Fp} {mn mx : Fp}
    (hx : minmaxF F x c tr = .ok (mn, mx)) (v : Fp) :
    boundF e F x c v = .ok (clampf v mn mx) := by
  simp only [boundF, h, hx]

/-- The raw sum is clamped to the extrema times the gain, where both fit int32. -/
theorem boundI_of_some {tr : Nat} (h : e.trim = some tr) {x : List Int} {mn mx : Int}
    (hx : minmaxI F x c tr = (mn, mx)) (hmn : int32? (mn * gain F) = .ok (mn * gain F))
    (hmx : int32? (mx * gain F) = .ok (mx * gain F)) (v : Int) :
    boundI e F x c v = .ok (clampi v (mn * gain F) (mx * gain F)) := by
  simp only [boundI, h, hx, hmn, hmx]

end

/-- Settles O40: the window by the level, and `bound` with and without one. -/
theorem boundingLevels : Obligations.BoundingLevels := by
  refine ⟨fun s fi => ⟨rfl, rfl, rfl, rfl, fun lvl => ⟨rfl, rfl, rfl, rfl⟩⟩, fun e F c => ?_⟩
  refine ⟨fun h => ⟨boundF_of_none h, boundI_of_none h⟩, fun tr h => ⟨fun x v mn mx hx => ?_,
    fun x v mn mx hx hfit => ?_⟩⟩
  · exact boundF_of_some h hx v
  · exact boundI_of_some h hx (int32?_eq_ok (hfit _ (by simp [gain])))
      (int32?_eq_ok (hfit _ (by simp [gain]))) v

/-! ## The passes -/

section
variable {e : CrEnv} {F : ScaleFilter} {c : Nat}

theorem firstF_of_bound {x : List Fp} {v : Fp} (h : boundF e F x c (fsum F x c) = .ok v) :
    firstF e F x c = .ok v.toF32 := by simp only [firstF, h]

/-- The final float pass is its clip, narrowed (41_filter_primitives.md R203). -/
theorem finalF_of_clip {x : List Fp} {v u : Fp} (h : boundF e F x c (fsum F x c) = .ok v)
    (hu : clipF e F v = .ok u) : finalF e F x c = .ok u.toF32 := by simp only [finalF, h, hu]

theorem finalF_of_clip_error {x : List Fp} {v : Fp} {r : Refusal}
    (h : boundF e F x c (fsum F x c) = .ok v) (hr : clipF e F v = .error r) :
    finalF e F x c = .error r := by simp only [finalF, h, hr]

theorem clipF_noClip (h : F.clip = false) (v : Fp) : clipF e F v = .ok v := by simp [clipF, h]

theorem clipF_clip (h : F.clip = true) (hb : boundsOk e.fmin e.fmax = true) (v : Fp) :
    clipF e F v = .ok (clampf v e.fmin e.fmax) := by simp [clipF, h, hb]

theorem clipF_badBounds (h : F.clip = true) (hb : boundsOk e.fmin e.fmax = false) (v : Fp) :
    clipF e F v = .error .clipBounds := by simp [clipF, h, hb]

theorem firstI_of_sum {x : List Int} {S : Int} (h : isum F x c = .ok S) :
    firstI e F x c = boundI e F x c S := by simp only [firstI, h]

section
variable {x : List Int} {v S : Int} (lo hi : Int) (hv : isum F x c = .ok v)
  (hS : boundI e F x c v = .ok S)
include hv hS

/-- The final fixed pass: both the raw and the bounded sum with the offset are int32
(41_filter_primitives.md R205, R206, log 12). -/
theorem finalI_of_fits {n t : Int} (hn : int32? (v + F.ioffset.toInt) = .ok n)
    (ht : int32? (S + F.ioffset.toInt) = .ok t) :
    finalI e lo hi F x c = .ok (clampi (asr t F.ishift) lo hi) := by
  simp only [finalI, hv, hS, hn, ht]

theorem finalI_of_overflow (h : int32? (v + F.ioffset.toInt) = .error .int32Overflow ∨
      int32? (S + F.ioffset.toInt) = .error .int32Overflow) :
    finalI e lo hi F x c = .error .int32Overflow := by
  rcases h with hn | ht
  · simp only [finalI, hv, hn]
  · cases hn : int32? (v + F.ioffset.toInt) <;> simp only [finalI, hv, hS, hn, ht]

end

/-- Whatever the final fixed pass answers, it clamped it. -/
theorem finalI_ok {x : List Int} {lo hi q : Int} (h : finalI e lo hi F x c = .ok q) :
    ∃ t, q = clampi t lo hi := by
  unfold finalI at h
  split at h
  · cases h
  · split at h
    · split at h
      · cases h
      · cases h
        exact ⟨_, rfl⟩
    · cases h

end

/-- Settles O41: the float passes by their clip, the fixed ones by `finalI_of_fits` and
`finalI_of_overflow`. -/
theorem passOutputs : Obligations.PassOutputs := by
  intro e F c
  refine ⟨fun x v h => ⟨firstF_of_bound h, fun hc => finalF_of_clip h (clipF_noClip hc v),
      fun hc hb => finalF_of_clip h (clipF_clip hc hb v),
      fun hc hb => finalF_of_clip_error h (clipF_badBounds hc hb v)⟩,
    fun x S h => firstI_of_sum h, ?_, fun x lo hi q hle h => ?_⟩
  · intro x v S lo hi hv hS fits
    refine ⟨fun hfv hfS => ?_, fun hnot => finalI_of_overflow lo hi hv hS ?_⟩
    · exact finalI_of_fits lo hi hv hS (int32?_eq_ok hfv) (int32?_eq_ok hfS)
    · by_cases hfv : fits v
      · exact .inr (int32?_eq_error fun hfS => hnot ⟨hfv, hfS⟩)
      · exact .inl (int32?_eq_error hfv)
  · obtain ⟨t, rfl⟩ := finalI_ok h
    exact clampi_mem t hle

end Sys2Proof.Machine
end

section
/-! The host duties of the commands with frames: what refuses a command (spec/10_state.md R31 to
R47, 20_memory.md R72 to R88, 40_color_transform.md R145, R147, 41_filter_primitives.md R211). -/

namespace Sys2Proof.Machine

open Sys2Proof

/-! ## A descriptor, a pair of descriptors -/

/-- What breaks a duty on one descriptor that every command with frames reads
(10_state.md R41, R43, R45; 20_memory.md R86, R88). -/
def FrameDesc.Problem (t : Tables) (f : FrameDesc) : Prop :=
  f.kind = .reserved ∨
    ∃ p ∈ planes, f.addr p % f.kind.size ≠ 0 ∨
      (0 < f.count p ∧ 2 ^ t.aw < f.addr p + f.count p * f.kind.size) ∨
      f.count p ≠ f.w p * f.h p ∨ t.maxSamples < f.count p ∨
      ∃ r a, t.regBase = some r ∧ f.inPlane p a ∧ r ≤ a ∧ a < r + 0x300

theorem Kind.size_pos {k : Kind} (h : k ≠ .reserved) : 0 < k.size := by
  cases k with
  | reserved => exact absurd rfl h
  | _ => decide

/-- Ranges that share a byte are not disjoint. -/
theorem not_disjoint_of_mem {a la b lb x : Nat} (ha : a ≤ x ∧ x < a + la)
    (hb : b ≤ x ∧ x < b + lb) :
    ¬ disjoint a la b lb = true := by
  rw [disjoint_iff]
  omega

section
variable {depth : Bool} {ps : List (Fin 4)} {t : Tables} {f : FrameDesc}
  (h : ∀ d ∈ f.duties depth ps t, d.1 = true)
include h

theorem FrameDesc.kind_of_duties : f.kind ≠ .reserved := by
  simpa using h (f.kind != .reserved, .illFormedDescriptor) (by simp [FrameDesc.duties])

theorem FrameDesc.depthOk_of_duties (hd : depth = true) : f.depthOk = true := by
  simpa [hd] using h (!depth || f.depthOk, .illFormedDescriptor) (by simp [FrameDesc.duties])

theorem FrameDesc.counts_of_duties {p : Fin 4} (hp : p ∈ planes) :
    f.count p = f.w p * f.h p ∧ f.count p ≤ t.maxSamples := by
  have hall := h (f.countsOk t.maxSamples, .illFormedDescriptor) (by simp [FrameDesc.duties])
  simpa using List.all_eq_true.1 hall p hp

theorem FrameDesc.aligned_of_duties {p : Fin 4} (hp : p ∈ planes) :
    f.addr p % f.kind.size = 0 := by
  have hall := h (f.alignedOk, .misalignedPlane) (by simp [FrameDesc.duties])
  simpa using List.all_eq_true.1 hall p hp

theorem FrameDesc.inSpace_of_duties {p : Fin 4} (hp : p ∈ planes) :
    f.bytes p = 0 ∨ f.addr p + f.bytes p ≤ 2 ^ t.aw := by
  have hall := h (f.inSpace t.aw, .planeOutOfSpace) (by simp [FrameDesc.duties])
  simpa using List.all_eq_true.1 hall p hp

theorem FrameDesc.clear_of_duties {r : Nat} (hr : t.regBase = some r) {p : Fin 4}
    (hp : p ∈ planes) : disjoint (f.addr p) (f.bytes p) r 0x300 = true := by
  have hall := h (f.clearOfRegs t.regBase, .planeOutOfSpace) (by simp [FrameDesc.duties])
  simp only [FrameDesc.clearOfRegs, hr] at hall
  exact List.all_eq_true.1 hall p hp

/-- A descriptor that meets its duties has none of the problems. -/
theorem FrameDesc.not_problem_of_duties : ¬ f.Problem t := by
  have hk := FrameDesc.kind_of_duties h
  rintro (hres | ⟨p, hp, halign | ⟨hpos, hspace⟩ | hcount | hmax | ⟨r, a, hr, hin, hreg⟩⟩)
  · exact hk hres
  · exact halign (FrameDesc.aligned_of_duties h hp)
  · rcases FrameDesc.inSpace_of_duties h hp with hzero | hle
    · have := Nat.mul_pos hpos (Kind.size_pos hk)
      unfold FrameDesc.bytes at hzero
      omega
    · exact absurd hspace (Nat.not_lt.2 hle)
  · exact hcount (FrameDesc.counts_of_duties h hp).1
  · exact absurd hmax (Nat.not_lt.2 (FrameDesc.counts_of_duties h hp).2)
  · exact not_disjoint_of_mem hin hreg (FrameDesc.clear_of_duties h hr hp)

end

/-- What breaks a duty of every command with frames. -/
def FramesProblem (s : State) (o i : Fin 4) : Prop :=
  o = i ∨ (s.slot i).kind ≠ (s.slot o).kind ∨
  (∃ f ∈ [s.slot i, s.slot o], f.Problem s.cfg) ∨
  (∃ a, (s.slot o).covers a ∧ (s.slot i).covers a) ∨
  ∃ p ∈ planes, ∃ q ∈ planes, p ≠ q ∧ ∃ a, (s.slot o).inPlane p a ∧ (s.slot o).inPlane q a

theorem FramesOk.not_problem {depth : Bool} {ps : List (Fin 4)} {s : State} {o i : Fin 4}
    (h : FramesOk depth ps s o i) : ¬ FramesProblem s o i := by
  rintro (heq | hkind | ⟨f, hf, hprob⟩ | ⟨a, hao, hai⟩ | ⟨p, hp, q, hq, hpq, a, hpa, hqa⟩)
  · exact h.slots_ne heq
  · exact hkind h.kinds
  · simp only [List.mem_cons, List.not_mem_nil, or_false] at hf
    rcases hf with rfl | rfl
    · exact FrameDesc.not_problem_of_duties h.inOk hprob
    · exact FrameDesc.not_problem_of_duties h.outOk hprob
  · exact h.inputKept hai hao
  · exact not_disjoint_of_mem hpa hqa (h.outDisjoint p hp q hq hpq)

/-- Clamp bounds of an output plane that are not in order within the bit depth (10_state.md R46). -/
def FrameDesc.BadBounds (f : FrameDesc) (p : Fin 4) : Prop :=
  f.isFloat = false ∧ (f.hi p < f.lo p ∨ 2 ^ f.depth ≤ f.hi p)

theorem FramesOk.not_badBounds {depth : Bool} {ps : List (Fin 4)} {s : State} {o i : Fin 4}
    (h : FramesOk depth ps s o i) {p : Fin 4} (hp : p ∈ ps) : ¬ (s.slot o).BadBounds p := by
  rintro ⟨hf, hb⟩
  obtain ⟨hle, hlt⟩ := h.outPels hf hp
  omega

/-- A bit depth outside the container (10_state.md R41). -/
def FrameDesc.BadDepth (f : FrameDesc) : Prop :=
  f.isFloat = false ∧ (f.depth = 0 ∨ 8 * f.kind.size < f.depth)

theorem FrameDesc.not_badDepth {f : FrameDesc} (h : f.depthOk = true) : ¬ f.BadDepth := by
  rintro ⟨hf, hd⟩
  unfold FrameDesc.depthOk at h
  cases hk : f.kind <;> simp only [hk, Kind.size] at h hd
  · simp only [Bool.and_eq_true, decide_eq_true_eq] at h; omega
  · simp only [Bool.and_eq_true, decide_eq_true_eq] at h; omega
  · simp [FrameDesc.isFloat, hk] at hf
  · cases h

/-- Float clip bounds that no clip may use (10_state.md R31, R38). -/
def BadClip (lo hi : Fp) : Prop := lo.isFinite = false ∨ hi.isFinite = false ∨ hi.lt lo = true

theorem boundsOk_eq_false {lo hi : Fp} (h : BadClip lo hi) : boundsOk lo hi = false := by
  rcases h with h | h | h
  · simp [boundsOk, h]
  · simp [boundsOk, h]
  · cases lo with
    | nan | inf => rfl
    | fin a m =>
      cases hi with
      | nan | inf => rfl
      | fin b n =>
        have hlt : Fp.signed b n < Fp.signed a m := of_decide_eq_true h
        simp [boundsOk, Fp.isFinite, Fp.le, hlt]

/-! ## A duty that does not hold refuses the command -/

theorem firstProblem_isSome {ds : List (Bool × Refusal)} (h : firstProblem ds ≠ none) :
    ∃ r, firstProblem ds = some r := Option.ne_none_iff_exists'.1 h

section
variable {s : State} {o i : Fin 4}

theorem ctProc_refused (hv : s.status.ctValid = true) (h : firstProblem (ctDuties s o i) ≠ none) :
    ∃ r, ctProc s o i = .refused r := by
  obtain ⟨r, hr⟩ := firstProblem_isSome h
  exact ⟨r, by simp [ctProc, hv, hr]⟩

/-- A frame with a byte never written cannot be read whole (20_memory.md R72). -/
theorem State.not_read_of_unwritten {a : Nat} {f : FrameDesc} (ha : f.covers a)
    (hu : s.mem.read a = none) {w0 w1 w2 : List Nat} (h0 : s.readPlane f 0 = .ok w0)
    (h1 : s.readPlane f 1 = .ok w1) (h2 : s.readPlane f 2 = .ok w2) : False := by
  obtain ⟨p, hp, hin⟩ := ha
  have herr := State.readPlane_unwritten hin hu
  rcases mem_planes.1 hp with rfl | rfl | rfl
  · rw [h0] at herr; cases herr
  · rw [h1] at herr; cases herr
  · rw [h2] at herr; cases herr

theorem ctTransform_unwritten {a : Nat} (ha : (s.slot i).covers a) (hu : s.mem.read a = none) :
    ∃ r, ctTransform s o i = .refused r := by
  unfold ctTransform
  dsimp only
  split
  · exact (s.not_read_of_unwritten ha hu ‹_› ‹_› ‹_›).elim
  · exact ⟨_, rfl⟩

/-- `CT.PROC` that would transform a byte never written is refused. -/
theorem ctProc_unwritten {a : Nat} (hv : s.status.ctValid = true)
    (hc : countsEqual (s.slot o) (s.slot i) = true) (hcli : s.ctObj.cli = false)
    (ha : (s.slot i).covers a) (hu : s.mem.read a = none) : ∃ r, ctProc s o i = .refused r := by
  by_cases hd : firstProblem (ctDuties s o i) = none
  · obtain ⟨r, hr⟩ := ctTransform_unwritten (o := o) ha hu
    exact ⟨r, by simp [ctProc, hv, hd, hc, hcli, hr]⟩
  · exact ctProc_refused hv hd

theorem clip_of_ctDuties (h : firstProblem (ctDuties s o i) = none) (hc : s.ctObj.clip = .bounds)
    (hf : (s.slot o).isFloat = true) :
    boundsOk (.ofBits32 s.ctPar.min) (.ofBits32 s.ctPar.max) = true := by
  simpa [hc, hf] using firstProblem_eq_none.1 h
    (s.ctObj.clip != .bounds || !(s.slot o).isFloat ||
      boundsOk (.ofBits32 s.ctPar.min) (.ofBits32 s.ctPar.max), .clipBounds) (by simp [ctDuties])

theorem clk_of_ctDuties (h : firstProblem (ctDuties s o i) = none) (hc : s.ctObj.clf = true) :
    s.cfg.clk ≠ none := by
  have hk := firstProblem_eq_none.1 h (!s.ctObj.clf || s.cfg.clk.isSome, .noClk)
    (by simp [ctDuties])
  simpa [hc, Option.isSome_iff_ne_none] using hk

/-- What refuses `CT.PROC` past its set-up. -/
theorem ctProc_refused_of_problem (hv : s.status.ctValid = true)
    (h : FramesProblem s o i ∨ (∃ p ∈ planes, (s.slot o).BadBounds p) ∨
      (s.ctObj.clip = .bounds ∧ (s.slot o).isFloat = true ∧
        BadClip (.ofBits32 s.ctPar.min) (.ofBits32 s.ctPar.max)) ∨
      (s.ctObj.clf = true ∧ s.cfg.clk = none) ∨
      (countsEqual (s.slot o) (s.slot i) = true ∧ s.ctObj.cli = false ∧
        ∃ a, (s.slot i).covers a ∧ s.mem.read a = none)) : ∃ r, ctProc s o i = .refused r := by
  rcases h with hp | ⟨p, hp, hb⟩ | ⟨hc, hf, hb⟩ | ⟨hc, hk⟩ | ⟨hcount, hcli, a, ha, hu⟩
  · exact ctProc_refused hv fun hd => (framesOk_ct hd).not_problem hp
  · exact ctProc_refused hv fun hd => (framesOk_ct hd).not_badBounds hp hb
  · refine ctProc_refused hv fun hd => ?_
    cases (boundsOk_eq_false hb).symm.trans (clip_of_ctDuties hd hc hf)
  · exact ctProc_refused hv fun hd => clk_of_ctDuties hd hc hk
  · exact ctProc_unwritten hv hcount hcli ha hu

/-! ## The conversions past their fatal checks -/

section
variable {up : Bool} {plan : FilterBank → Option Plan} {lvl : Nat} (hv : s.status.crValid = true)
  (hfc : fatalCheck (s.slot o) (s.slot i) = none)
include hv hfc

theorem crConvert_refused (h : firstProblem (crDuties up s o i) ≠ none) :
    ∃ r, crConvert up plan lvl s o i = .refused r := by
  obtain ⟨r, hr⟩ := firstProblem_isSome h
  exact ⟨r, by simp [crConvert, hv, hfc, hr]⟩

theorem crConvert_noPlan (h : firstProblem (crDuties up s o i) = none)
    (hb : s.crBank.bind plan = none) :
    crConvert up plan lvl s o i = .next (s.raise .eBadParam) := by
  simp [crConvert, hv, hfc, h, hb]

theorem crConvert_plan (h : firstProblem (crDuties up s o i) = none) {p : Plan}
    (hb : s.crBank.bind plan = some p) :
    crConvert up plan lvl s o i = crTransform up p lvl s o i := by
  simp [crConvert, hv, hfc, h, hb]

end

theorem crTransform_unwritten {up : Bool} {p : Plan} {lvl a : Nat} (ha : (s.slot i).covers a)
    (hu : s.mem.read a = none) : ∃ r, crTransform up p lvl s o i = .refused r := by
  unfold crTransform
  dsimp only
  split
  · exact (s.not_read_of_unwritten ha hu ‹_› ‹_› ‹_›).elim
  · exact ⟨_, rfl⟩

/-- Past its fatal checks a conversion of a frame with a byte never written is refused or finds its
bank without a member (log 32). -/
theorem crConvert_unwritten {up : Bool} {plan : FilterBank → Option Plan} {lvl a : Nat}
    (hv : s.status.crValid = true) (hfc : fatalCheck (s.slot o) (s.slot i) = none)
    (ha : (s.slot i).covers a) (hu : s.mem.read a = none) :
    (∃ r, crConvert up plan lvl s o i = .refused r) ∨
      crConvert up plan lvl s o i = .next (s.raise .eBadParam) := by
  by_cases hd : firstProblem (crDuties up s o i) = none
  · cases hb : s.crBank.bind plan with
    | none => exact .inr (crConvert_noPlan hv hfc hd hb)
    | some p =>
      rw [crConvert_plan hv hfc hd hb]
      exact .inl (crTransform_unwritten ha hu)
  · exact .inl (crConvert_refused hv hfc hd)

/-- A conversion whose plan refuses plane 1 is refused. -/
theorem crTransform_refused {up : Bool} {p : Plan} {lvl : Nat}
    (h : ∀ ws, s.readPlane (s.slot i) 1 = .ok ws →
      ∃ r, crPlane up p lvl s (s.slot o) (s.slot i) 1 ws = .error r) :
    ∃ r, crTransform up p lvl s o i = .refused r := by
  unfold crTransform
  dsimp only
  split
  · rename_i w0 w1 w2 _ h1 _
    obtain ⟨r, hr⟩ := h w1 h1
    rw [hr]
    exact ⟨r, rfl⟩
  · exact ⟨_, rfl⟩

theorem bank_of_crDuties {up : Bool} (h : firstProblem (crDuties up s o i) = none) {b : FilterBank}
    (hb : s.crBank = some b) : bankOk b = true := by
  have hall := (firstProblem_eq_none.1 h)
  simp only [crDuties, hb] at hall
  simpa using hall (bankOk b, .badBank) (by simp)

/-- What refuses every conversion past its fatal checks. -/
theorem not_duties_of_problem {up : Bool}
    (h : FramesProblem s o i ∨ (s.slot o).BadBounds 1 ∨ (s.slot o).BadBounds 2 ∨
      (s.slot i).BadDepth ∨ ∃ b, s.crBank = some b ∧ bankOk b = false) :
    firstProblem (crDuties up s o i) ≠ none := by
  intro hd
  have hok := framesOk_cr hd
  rcases h with hp | hb | hb | hdepth | ⟨b, hbank, hbad⟩
  · exact hok.not_problem hp
  · exact hok.not_badBounds (by simp) hb
  · exact hok.not_badBounds (by simp) hb
  · exact FrameDesc.not_badDepth (FrameDesc.depthOk_of_duties hok.inOk rfl) hdepth
  · rw [bank_of_crDuties hd hbank] at hbad
    cases hbad

end

/-! ## The geometry -/

/-- Plane-0 sizes and chroma sizes that no conversion of direction `up` takes
(41_filter_primitives.md R211). -/
def BadSize (up : Bool) (fo fi : FrameDesc) : Prop :=
  fo.w 0 ≠ fi.w 0 ∨ fo.h 0 ≠ fi.h 0 ∨ fi.w 0 % 2 = 1 ∨ fi.h 0 % 2 = 1 ∨
    ∃ p : Fin 4, (p = 1 ∨ p = 2) ∧
      ((fi.w p, fi.h p) ≠ (if up then (fi.w 0 / 2, fi.h 0 / 2) else (fi.w 0, fi.h 0)) ∨
        (fo.w p, fo.h p) ≠ (if up then (fi.w 0, fi.h 0) else (fi.w 0 / 2, fi.h 0 / 2)))

theorem chromaSize_iff {f : FrameDesc} {w h : Nat} :
    chromaSize f w h = true ↔ ∀ p, p = 1 ∨ p = 2 → (f.w p, f.h p) = (w, h) := by
  simp [chromaSize, Prod.ext_iff]

/-- The sizes a conversion takes (41_filter_primitives.md R211). -/
theorem geometryOk_iff {up : Bool} {fo fi : FrameDesc} : geometryOk up fo fi = true ↔
    fo.w 0 = fi.w 0 ∧ fo.h 0 = fi.h 0 ∧ fi.w 0 % 2 = 0 ∧ fi.h 0 % 2 = 0 ∧
    ∀ p, p = 1 ∨ p = 2 →
      (fi.w p, fi.h p) = (if up then (fi.w 0 / 2, fi.h 0 / 2) else (fi.w 0, fi.h 0)) ∧
      (fo.w p, fo.h p) = (if up then (fi.w 0, fi.h 0) else (fi.w 0 / 2, fi.h 0 / 2)) := by
  cases up <;> simp [geometryOk, chromaSize_iff, and_assoc, forall_and]

theorem not_geometryOk {up : Bool} {fo fi : FrameDesc} (h : BadSize up fo fi) :
    geometryOk up fo fi ≠ true := by
  rw [ne_eq, geometryOk_iff]
  rintro ⟨hw, hh, hw2, hh2, hp⟩
  rcases h with h | h | h | h | ⟨p, hp12, h⟩
  · exact h hw
  · exact h hh
  · omega
  · omega
  · exact h.elim (· (hp p hp12).1) (· (hp p hp12).2)

end Sys2Proof.Machine
end

section
/-! A clipping filter on bounds it may not use refuses the line, the plane and the command
(spec/10_state.md R38, 41_filter_primitives.md R203). -/

namespace Sys2Proof.Machine

open Sys2Proof

/-- The computation is refused. -/
def Refused {α : Type} (r : Except Refusal α) : Prop := ∃ e, r = .error e

/-! ## From the output to the plane -/

section
variable {α : Type}

theorem downLine_refused {out : List α → Nat → Except Refusal α} {x : List α}
    (hx : 2 ≤ x.length) (h : Refused (out x 0)) : Refused (downLine out x) :=
  mapE_error ⟨0, by simp; omega, h⟩

/-- Both phases of a line that is not empty are run. -/
theorem upLine_refused {out : Nat → List α → Nat → Except Refusal α} {x : List α}
    (hx : 0 < x.length) {ph : Nat} (hph : ph < 2) (h : Refused (out ph x 0)) :
    Refused (upLine out x) := by
  refine mapE_error ⟨ph, by simp; omega, ?_⟩
  rwa [Nat.mod_eq_of_lt hph, Nat.div_eq_of_lt hph]

theorem select_lt {rejects : ScaleFilter → Except Refusal Bool} {L : List ScaleFilter} {q : Nat}
    (hL : L ≠ []) (h : select rejects L = .ok q) : q < L.length := by
  induction L generalizing q with
  | nil => exact absurd rfl hL
  | cons F rest ih =>
    cases rest with
    | nil => cases h; exact Nat.one_pos
    | cons G rest =>
      unfold select at h
      split at h
      · cases h
      · cases h; exact Nat.succ_pos _
      · split at h
        · cases h
        · rename_i q' hq'
          cases h
          exact Nat.succ_lt_succ (ih (List.cons_ne_nil _ _) hq')

/-- A selection among candidates that are all refused is refused. -/
theorem selected_refused {rejects : List α → Nat → ScaleFilter → Except Refusal Bool}
    {out : ScaleFilter → List α → Nat → Except Refusal α} {L : List ScaleFilter} (hL : L ≠ [])
    {x : List α} {c : Nat} (h : ∀ F ∈ L, Refused (out F x c)) :
    Refused (selected rejects out L x c) := by
  unfold selected
  split
  · exact ⟨_, rfl⟩
  · rename_i q hq
    have hlt := select_lt hL hq
    rw [List.getD_eq_getElem _ _ hlt]
    exact h _ (List.getElem_mem hlt)

variable [Inhabited α] {p : Passes α} {w h : Nat} {rows : List (List α)}

theorem horizontalThenVertical_refused_first {x : List α} (hx : x ∈ rows)
    (hr : Refused (p.first x)) :
    Refused (horizontalThenVertical p w h rows) := by
  obtain ⟨e, he⟩ := mapE_error ⟨x, hx, hr⟩
  unfold horizontalThenVertical
  rw [he]
  exact ⟨e, rfl⟩

/-- The final pass down runs on columns as long as there are rows. -/
theorem horizontalThenVertical_refused_final (hw : 0 < w)
    (hr : ∀ x : List α, x.length = rows.length → Refused (p.final x)) :
    Refused (horizontalThenVertical p w h rows) := by
  unfold horizontalThenVertical
  split
  · exact ⟨_, rfl⟩
  · rename_i scratch hs
    have hcol : (columns w scratch)[0]'(by simpa) ∈ columns w scratch := List.getElem_mem _
    obtain ⟨e, he⟩ := mapE_error ⟨_, hcol, hr _ (by rw [columns_row_length hcol, mapE_length hs])⟩
    rw [he]
    exact ⟨e, rfl⟩

/-- The final pass up runs on rows as long as there are columns. -/
theorem verticalThenHorizontal_refused_final (hh : 0 < h)
    (hr : ∀ x : List α, x.length = w → Refused (p.final x)) :
    Refused (verticalThenHorizontal p w h rows) := by
  unfold verticalThenHorizontal
  split
  · exact ⟨_, rfl⟩
  · rename_i cols hc
    have hrow : (columns h cols)[0]'(by simpa) ∈ columns h cols := List.getElem_mem _
    obtain ⟨e, he⟩ := mapE_error ⟨_, hrow,
      hr _ (by rw [columns_row_length hrow, mapE_length hc, columns_length])⟩
    rw [he]
    exact ⟨e, rfl⟩

end

/-! ## Clipping filters -/

section
variable {e : CrEnv} (hb : boundsOk e.fmin e.fmax = false)
include hb

theorem finalF_refused {F : ScaleFilter} (hF : F.clip = true) (x : List Fp) (c : Nat) :
    Refused (finalF e F x c) := by
  cases hv : boundF e F x c (fsum F x c) with
  | error r => exact ⟨r, by simp only [finalF, hv]⟩
  | ok v => exact ⟨_, finalF_of_clip_error hv (clipF_badBounds hF hb v)⟩

/-- A candidate of the Adaptive converter is refused when it clips, or a filter that reconstructs
its line does (42_chroma_down.md R246, R247). -/
theorem roundTrip_refused {F : ScaleFilter} {U : ScaleFilter × ScaleFilter} {x : List Fp}
    (hx : 2 ≤ x.length) (hc : F.clip = true ∨ U.1.clip = true ∨ U.2.clip = true) :
    Refused (roundTrip (finalF e) U x F) := by
  unfold roundTrip
  cases hd : downLine (finalF e F) x with
  | error r => exact ⟨r, rfl⟩
  | ok d =>
    have hlen : 0 < d.length := by rw [downLine_length hd]; omega
    have hback : ∀ ph, ph < 2 → (if ph = 0 then U.1 else U.2).clip = true →
        Refused (upLine (fun ph => finalF e (if ph = 0 then U.1 else U.2)) d) :=
      fun ph hph hU => upLine_refused hlen hph (finalF_refused hb hU d 0)
    rcases hc with hF | h1 | h2
    · obtain ⟨r, hr⟩ := downLine_refused hx (finalF_refused hb hF x 0)
      rw [hr] at hd
      cases hd
    · obtain ⟨r, hr⟩ := hback 0 (by decide) h1
      exact ⟨r, by dsimp only; rw [hr]⟩
    · obtain ⟨r, hr⟩ := hback 1 (by decide) h2
      exact ⟨r, by dsimp only; rw [hr]⟩

theorem adaptF_refused {L : List ScaleFilter} (hL : L ≠ []) {U : ScaleFilter × ScaleFilter}
    {x : List Fp} (hx : 2 ≤ x.length) (hc : ∃ F ∈ L ++ [U.1, U.2], F.clip = true) :
    Refused (adaptF e L U x) := by
  have hcand : ∃ F ∈ L, F.clip = true ∨ U.1.clip = true ∨ U.2.clip = true := by
    obtain ⟨F, hF, hclip⟩ := hc
    rcases List.mem_append.1 hF with hF | hF
    · exact ⟨F, hF, .inl hclip⟩
    · obtain ⟨G, hG⟩ := List.exists_mem_of_ne_nil L hL
      simp only [List.mem_cons, List.not_mem_nil, or_false] at hF
      rcases hF with rfl | rfl
      · exact ⟨G, hG, .inr (.inl hclip)⟩
      · exact ⟨G, hG, .inr (.inr hclip)⟩
  obtain ⟨F, hF, hclip⟩ := hcand
  obtain ⟨r, hr⟩ := mapE_error ⟨F, hF, roundTrip_refused hb hx hclip⟩
  unfold adaptF
  rw [hr]
  exact ⟨r, rfl⟩

end

/-! ## The conversions -/

theorem crPlane_refused {up : Bool} {plan : Plan} {lvl : Nat} {s : State} {fo fi : FrameDesc}
    {q : Fin 4} {ws : List Nat} (hf : fi.isFloat = true)
    (h : Refused (runPasses up (plan.float (crEnv s fi lvl)) (fi.w 0) (fi.h 0)
      (rowsOf (fi.w q) (fi.h q) (ws.map fi.kind.value)))) :
    Refused (crPlane up plan lvl s fo fi q ws) := by
  obtain ⟨e, he⟩ := h
  unfold crPlane
  simp only [hf, if_true, he]
  exact ⟨e, rfl⟩

@[simp] theorem rowsOf_length {α : Type} (w h : Nat) (xs : List α) :
    (rowsOf w h xs).length = h := by
  simp [rowsOf]

/-- The rows of a whole plane are as long as it is wide. -/
theorem rowsOf_row_length {α : Type} {w h : Nat} {xs : List α} (hl : xs.length = w * h) {r : List α}
    (hr : r ∈ rowsOf w h xs) : r.length = w := by
  simp only [rowsOf, List.mem_map, List.mem_range] at hr
  obtain ⟨y, hy, rfl⟩ := hr
  have hle : (y + 1) * w ≤ h * w := Nat.mul_le_mul_right _ hy
  rw [List.length_take, List.length_drop, hl, Nat.mul_comm w h]
  rw [Nat.succ_mul] at hle
  omega

section
variable {s : State} {o i : Fin 4} {up : Bool} {plan : FilterBank → Option Plan} {lvl : Nat}
  (hv : s.status.crValid = true) (hfc : fatalCheck (s.slot o) (s.slot i) = none) {b : FilterBank}
  (hbank : s.crBank = some b) {p : Plan} (hplan : plan b = some p)
  (hf : (s.slot i).isFloat = true)
include hv hfc hbank hplan hf

/-- A conversion whose passes refuse the rows of plane 1 is refused. -/
theorem crConvert_refused_of_passes
    (h : geometryOk up (s.slot o) (s.slot i) = true → ∀ rows : List (List Fp),
      rows.length = (s.slot i).h 1 → (∀ r ∈ rows, r.length = (s.slot i).w 1) →
      Refused (runPasses up (p.float (crEnv s (s.slot i) lvl)) ((s.slot i).w 0) ((s.slot i).h 0)
        rows)) : ∃ r, crConvert up plan lvl s o i = .refused r := by
  by_cases hd : firstProblem (crDuties up s o i) = none
  · have hp : s.crBank.bind plan = some p := by rw [hbank]; exact hplan
    rw [crConvert_plan hv hfc hd hp]
    refine crTransform_refused fun ws hws => crPlane_refused hf ?_
    have hlen := (State.readPlane_ok hws).1.trans ((framesOk_cr hd).inCount (by simp))
    exact h (geometry_cr hd) _ (by simp) fun r hr => rowsOf_row_length (by simpa using hlen) hr
  · exact crConvert_refused hv hfc hd

variable (hw : 0 < (s.slot i).w 0) (hh : 0 < (s.slot i).h 0)
include hw hh

/-- Down: every line of either pass has at least two samples. -/
theorem crConvert_refused_down (hup : up = false)
    (h : (∀ x, 2 ≤ x.length → Refused ((p.float (crEnv s (s.slot i) lvl)).first x)) ∨
      ∀ x, 2 ≤ x.length → Refused ((p.float (crEnv s (s.slot i) lvl)).final x)) :
    ∃ r, crConvert up plan lvl s o i = .refused r := by
  subst hup
  refine crConvert_refused_of_passes hv hfc hbank hplan hf fun hgeo rows hrows hrow => ?_
  obtain ⟨-, -, hw2, hh2, hchroma⟩ := geometryOk_iff.1 hgeo
  obtain ⟨hw1, hh1⟩ := Prod.mk.inj (hchroma 1 (.inl rfl)).1
  rcases h with hfirst | hfinal
  · have hmem : rows[0]'(by omega) ∈ rows := List.getElem_mem _
    exact horizontalThenVertical_refused_first hmem (hfirst _ (by rw [hrow _ hmem]; omega))
  · exact horizontalThenVertical_refused_final (by omega) fun x hx => hfinal x (by omega)

/-- Up: every line of the final pass has a sample. -/
theorem crConvert_refused_up (hup : up = true)
    (h : ∀ x, 0 < x.length → Refused ((p.float (crEnv s (s.slot i) lvl)).final x)) :
    ∃ r, crConvert up plan lvl s o i = .refused r := by
  subst hup
  refine crConvert_refused_of_passes hv hfc hbank hplan hf fun hgeo rows hrows hrow => ?_
  obtain ⟨-, -, hw2, -⟩ := geometryOk_iff.1 hgeo
  exact verticalThenHorizontal_refused_final hh fun x hx => h x (by omega)

end

/-! ## The float passes of each plan -/

section
variable {b : FilterBank}

theorem dnGenPlan_float {H V : ScaleFilter} (hH : b.gdh = some H) (hV : b.gdv = some V) :
    ∃ p, dnGenPlan b = some p ∧ ∀ e, (p.float e).final = downLine (finalF e V) := by
  rw [dnGenPlan, hH, hV]
  exact ⟨_, rfl, fun _ => rfl⟩

theorem upGenPlan_float {H V : ScaleFilter × ScaleFilter} (hH : b.guh = some H)
    (hV : b.guv = some V) : ∃ p, upGenPlan b = some p ∧
      ∀ e, (p.float e).final = upLine fun ph => finalF e (ofPhase H ph) := by
  rw [upGenPlan, hH, hV]
  exact ⟨_, rfl, fun _ => rfl⟩

theorem dnBndPlan_float (hH : b.bdh ≠ []) (hV : b.bdv ≠ []) : ∃ p, dnBndPlan b = some p ∧
    ∀ e, (p.float e).final = downLine (selected (rejectsF e.thrF) (finalF e) b.bdv) := by
  rw [dnBndPlan, if_neg (by simp [hH, hV])]
  exact ⟨_, rfl, fun _ => rfl⟩

theorem upBndPlan_float (hV1 : b.buv.1 ≠ []) (hV2 : b.buv.2 ≠ []) (hH1 : b.buh.1 ≠ [])
    (hH2 : b.buh.2 ≠ []) : ∃ p, upBndPlan b = some p ∧ ∀ e, (p.float e).final =
      upLine fun ph => selected (rejectsF e.thrF) (finalF e) (ofPhase b.buh ph) := by
  rw [upBndPlan, if_neg (by simp [hV1, hV2, hH1, hH2])]
  exact ⟨_, rfl, fun _ => rfl⟩

theorem dnAdpPlan_float {UH UV : ScaleFilter × ScaleFilter} (hlh : b.adh.length = 5)
    (hlv : b.adv.length = 5) (hUH : b.auh = some UH) (hUV : b.auv = some UV) :
    ∃ p, dnAdpPlan b = some p ∧ ∀ e, (p.float e).first = adaptF e b.adh UH ∧
      (p.float e).final = adaptF e b.adv UV := by
  simp only [dnAdpPlan, hUH, hUV, hlh, hlv, and_self, if_true]
  exact ⟨_, rfl, fun _ => ⟨rfl, rfl⟩⟩

end

/-! ## The commands -/

section
variable {s : State} {fdo fdi : BitVec 4} {lvl : BitVec 8} (ho : s.hasSlot fdo = true)
  (hi : s.hasSlot fdi = true) (hl : levelOk lvl = true) (hf : s.status.fatal = false) {c : Instr}
  (hc : c ∈ conversionCommands fdo fdi lvl) {run : Outcome} (hrun : exec c s = command c s run)
include ho hi hl hf hc hrun

/-- A conversion on slots that exist proceeds to its own run. -/
theorem exec_of_conversion : exec c s = run := by
  have hso := State.hasSlot_slotOk ho
  have hsi := State.hasSlot_slotOk hi
  rw [hrun]
  refine command_run hf ?_ run
  rcases mem_conversionCommands.1 hc with rfl | rfl | rfl | rfl | rfl <;>
    simp [State.admits, Instr.wellFormed, Instr.slots, ho, hi, hl, hso, hsi]

theorem exec_refused (h : ∃ r, run = .refused r) : ∃ r, exec c s = .refused r := by
  rwa [exec_of_conversion ho hi hl hf hc hrun]

end

theorem exec_down {fdo fdi : BitVec 4} {lvl : BitVec 8} {c : Instr}
    (hc : c ∈ [Instr.crDnGen fdo fdi lvl, .crDnBnd fdo fdi, .crDnAdp fdo fdi]) :
    c ∈ conversionCommands fdo fdi lvl ∧ ∃ plan l, ∀ s,
      exec c s = command c s (crConvert false plan l s (slotIdx fdo) (slotIdx fdi)) := by
  simp only [List.mem_cons, List.not_mem_nil, or_false] at hc
  rcases hc with rfl | rfl | rfl <;> exact ⟨by simp [conversionCommands], _, _, fun _ => rfl⟩

theorem exec_up {fdo fdi : BitVec 4} {lvl : BitVec 8} {c : Instr}
    (hc : c ∈ [Instr.crUpGen fdo fdi lvl, .crUpBnd fdo fdi]) :
    c ∈ conversionCommands fdo fdi lvl ∧ ∃ plan l, ∀ s,
      exec c s = command c s (crConvert true plan l s (slotIdx fdo) (slotIdx fdi)) := by
  simp only [List.mem_cons, List.not_mem_nil, or_false] at hc
  rcases hc with rfl | rfl <;> exact ⟨by simp [conversionCommands], _, _, fun _ => rfl⟩

section
variable {s : State} {o i : Fin 4} {lvl : Nat} (hv : s.status.crValid = true)
  (hfc : fatalCheck (s.slot o) (s.slot i) = none) {b : FilterBank} (hbank : s.crBank = some b)
  (hf : (s.slot i).isFloat = true)
  (hb : boundsOk (.ofBits32 s.crPar.fmin) (.ofBits32 s.crPar.fmax) = false)
  (hw : 0 < (s.slot i).w 0) (hh : 0 < (s.slot i).h 0)
include hv hfc hbank hf hb hw hh

theorem dnGen_refused_of_clip {H V : ScaleFilter} (hH : b.gdh = some H) (hV : b.gdv = some V)
    (hc : V.clip = true) : ∃ r, crConvert false dnGenPlan lvl s o i = .refused r := by
  obtain ⟨p, hp, hfinal⟩ := dnGenPlan_float hH hV
  refine crConvert_refused_down hv hfc hbank hp hf hw hh rfl (.inr fun x hx => ?_)
  rw [hfinal]
  exact downLine_refused hx (finalF_refused hb hc x 0)

theorem upGen_refused_of_clip {H V : ScaleFilter × ScaleFilter} (hH : b.guh = some H)
    (hV : b.guv = some V) (hc : H.1.clip = true ∨ H.2.clip = true) :
    ∃ r, crConvert true upGenPlan lvl s o i = .refused r := by
  obtain ⟨p, hp, hfinal⟩ := upGenPlan_float hH hV
  refine crConvert_refused_up hv hfc hbank hp hf hw hh rfl fun x hx => ?_
  rw [hfinal]
  rcases hc with hc | hc
  · exact upLine_refused hx (ph := 0) (by decide) (finalF_refused hb hc x 0)
  · exact upLine_refused hx (ph := 1) (by decide) (finalF_refused hb hc x 0)

theorem dnBnd_refused_of_clip (hH : b.bdh ≠ []) (hV : b.bdv ≠ [])
    (hc : ∀ F ∈ b.bdv, F.clip = true) : ∃ r, crConvert false dnBndPlan lvl s o i = .refused r := by
  obtain ⟨p, hp, hfinal⟩ := dnBndPlan_float hH hV
  refine crConvert_refused_down hv hfc hbank hp hf hw hh rfl (.inr fun x hx => ?_)
  rw [hfinal]
  exact downLine_refused hx (selected_refused hV fun F hF => finalF_refused hb (hc F hF) x 0)

theorem upBnd_refused_of_clip (hV1 : b.buv.1 ≠ []) (hV2 : b.buv.2 ≠ []) (hH1 : b.buh.1 ≠ [])
    (hH2 : b.buh.2 ≠ []) (hc : (∀ F ∈ b.buh.1, F.clip = true) ∨ ∀ F ∈ b.buh.2, F.clip = true) :
    ∃ r, crConvert true upBndPlan lvl s o i = .refused r := by
  obtain ⟨p, hp, hfinal⟩ := upBndPlan_float hV1 hV2 hH1 hH2
  refine crConvert_refused_up hv hfc hbank hp hf hw hh rfl fun x hx => ?_
  rw [hfinal]
  rcases hc with hc | hc
  · exact upLine_refused hx (ph := 0) (by decide)
      (selected_refused hH1 fun F hF => finalF_refused hb (hc F hF) x 0)
  · exact upLine_refused hx (ph := 1) (by decide)
      (selected_refused hH2 fun F hF => finalF_refused hb (hc F hF) x 0)

theorem dnAdp_refused_of_clip {UH UV : ScaleFilter × ScaleFilter} (hlh : b.adh.length = 5)
    (hlv : b.adv.length = 5) (hUH : b.auh = some UH) (hUV : b.auv = some UV)
    (hc : ∃ F ∈ b.adh ++ b.adv ++ [UH.1, UH.2, UV.1, UV.2], F.clip = true) :
    ∃ r, crConvert false dnAdpPlan lvl s o i = .refused r := by
  obtain ⟨p, hp, hpasses⟩ := dnAdpPlan_float hlh hlv hUH hUV
  obtain ⟨hfirst, hfinal⟩ := hpasses (crEnv s (s.slot i) lvl)
  have hH : b.adh ≠ [] := by rintro hnil; simp [hnil] at hlh
  have hV : b.adv ≠ [] := by rintro hnil; simp [hnil] at hlv
  have hsides : (∃ F ∈ b.adh ++ [UH.1, UH.2], F.clip = true) ∨
      ∃ F ∈ b.adv ++ [UV.1, UV.2], F.clip = true := by
    obtain ⟨F, hF, hclip⟩ := hc
    have hF : F ∈ b.adh ++ [UH.1, UH.2] ∨ F ∈ b.adv ++ [UV.1, UV.2] := by
      simp only [List.mem_append, List.mem_cons, List.not_mem_nil, or_false] at hF ⊢
      tauto
    exact hF.imp (⟨F, ·, hclip⟩) (⟨F, ·, hclip⟩)
  refine crConvert_refused_down hv hfc hbank hp hf hw hh rfl ?_
  rw [hfirst, hfinal]
  exact hsides.imp (fun h x hx => adaptF_refused hb hH hx h)
    (fun h x hx => adaptF_refused hb hV hx h)

end

/-- Settles O36: the duties by `ctProc_refused_of_problem`, `not_duties_of_problem` and
`not_geometryOk`, the clip bounds by the lemma of each conversion. -/
theorem hostDutiesRefuse : Obligations.HostDutiesRefuse := by
  intro s fdo fdi lvl ho hi hl hf fo fi common badBounds badClip badDepth badSize unwritten refused
  have hshared : common → FramesProblem s (slotIdx fdo) (slotIdx fdi) := by
    rintro (rfl | h)
    · exact .inl rfl
    · exact .inr h
  refine ⟨fun hv h => ?_, fun hv hkind hdepth hcount => ?_⟩
  · show ∃ r, exec (.ctProc fdo fdi) s = .refused r
    rw [exec_ctProc ho hi hf]
    exact ctProc_refused_of_problem hv (h.imp_left hshared)
  have hfc : fatalCheck fo fi = none := fatalCheck_eq_none.2 ⟨hkind, hdepth, hcount⟩
  have hsize : ∀ {up plan l}, badSize up →
      ∃ r, crConvert up plan l s (slotIdx fdo) (slotIdx fdi) = .refused r := fun h =>
    crConvert_refused hv hfc fun hd => not_geometryOk h (geometry_cr hd)
  refine ⟨fun h c hc => ?_, fun h c hc => ?_, fun h c hc => ?_, fun ⟨a, ha, hu⟩ c hc => ?_,
    fun b hbank hfloat hbad hw hh => ?_⟩
  · obtain ⟨up, plan, l, -, hexec⟩ := exec_conversion hc
    exact exec_refused ho hi hl hf hc (hexec s)
      (crConvert_refused hv hfc (not_duties_of_problem (h.imp_left hshared)))
  · obtain ⟨hc, plan, l, hexec⟩ := exec_down hc
    exact exec_refused ho hi hl hf hc (hexec s) (hsize h)
  · obtain ⟨hc, plan, l, hexec⟩ := exec_up hc
    exact exec_refused ho hi hl hf hc (hexec s) (hsize h)
  · obtain ⟨up, plan, l, -, hexec⟩ := exec_conversion hc
    show (∃ r, exec c s = .refused r) ∨ exec c s = .next (s.raise .eBadParam)
    rw [exec_of_conversion ho hi hl hf hc (hexec s)]
    exact crConvert_unwritten hv hfc ha hu
  · have hb := boundsOk_eq_false hbad
    have hc : ∀ {c}, c = .crDnGen fdo fdi lvl ∨ c = .crDnBnd fdo fdi ∨ c = .crDnAdp fdo fdi ∨
        c = .crUpGen fdo fdi lvl ∨ c = .crUpBnd fdo fdi → c ∈ conversionCommands fdo fdi lvl :=
      mem_conversionCommands.2
    refine ⟨fun H V hH hV hclip => exec_refused ho hi hl hf (hc (by simp)) rfl ?_,
      fun H V hH hV hclip => exec_refused ho hi hl hf (hc (by simp)) rfl ?_,
      fun hH hV hclip => exec_refused ho hi hl hf (hc (by simp)) rfl ?_,
      fun hV1 hV2 hH1 hH2 hclip => exec_refused ho hi hl hf (hc (by simp)) rfl ?_,
      fun UH UV hlh hlv hUH hUV hclip => exec_refused ho hi hl hf (hc (by simp)) rfl ?_⟩
    · exact dnGen_refused_of_clip hv hfc hbank hfloat hb hw hh hH hV hclip
    · exact upGen_refused_of_clip hv hfc hbank hfloat hb hw hh hH hV hclip
    · exact dnBnd_refused_of_clip hv hfc hbank hfloat hb hw hh hH hV hclip
    · exact upBnd_refused_of_clip hv hfc hbank hfloat hb hw hh hV1 hV2 hH1 hH2 hclip
    · exact dnAdp_refused_of_clip hv hfc hbank hfloat hb hw hh hlh hlv hUH hUV hclip

end Sys2Proof.Machine
end


section
/-! The host's accesses of sample memory (spec/20_memory.md R70 to R72, R78). -/

namespace Sys2Proof.Machine

open Sys2Proof

/-! ## Host stores and loads inside sample memory -/

/-- Byte k of a word by its place and by division. -/
theorem ofNat_div_256_pow (v : Word) (k : Nat) :
    BitVec.ofNat 8 (v.toNat / 256 ^ k) = v.extractLsb' (8 * k) 8 := by
  have hpow : 256 ^ k = 2 ^ (8 * k) := (Nat.pow_mul 2 8 k).symm
  rw [hpow, ← Nat.shiftRight_eq_div_pow]
  rfl

section
variable {s : State} {w : Width} {addr : Nat} (h : addr + w.bytes ≤ 2 ^ s.cfg.aw)
include h

theorem perform_store (v : Word) : perform (.store w addr v) s =
    .next { s with mem := s.mem.writeLE addr w.bytes v.toNat } :=
  if_neg (Nat.not_lt.2 h)

theorem perform_load {n : Nat} (hn : s.mem.readLE addr w.bytes = some n) :
    perform (.load w addr) s = .next { s with busData := some (BitVec.ofNat 32 n) } := by
  simp only [perform, busLoad, hn]
  exact if_neg (Nat.not_lt.2 h)

end

/-- Settles O10: the memory after the store is `writeLE`, byte by byte `read_writeLE` and
`read_writeLE_other`; `readLE_writeLE` is the load. -/
theorem hostMemoryIsLittleEndian : Obligations.HostMemoryIsLittleEndian := by
  intro s w addr v h
  refine ⟨s.mem.writeLE addr w.bytes v.toNat, perform_store h v, fun k hk => ?_,
    fun a ha => ?_, ?_⟩
  · rw [Memory.read_writeLE s.mem hk, ofNat_div_256_pow]
  · exact Memory.read_writeLE_other s.mem ha v.toNat
  · exact perform_load (s := { s with mem := s.mem.writeLE addr w.bytes v.toNat }) h
      (Memory.readLE_writeLE s.mem addr w.bytes v.toNat)

end Sys2Proof.Machine
end

section
/-! The words of the ten commands (spec/30_encoding.md R100 to R107): a word is its five fields, so
a word decodes to a command exactly when it is that command's word. -/

namespace Sys2Proof.Machine

open Sys2Proof

/-! ## The fields of a word -/

section
variable (opc : BitVec 8) (fdo fdi : BitVec 4) (arg : BitVec 8)

@[simp] theorem fdoField_formatC : fdoField (formatC opc fdo fdi arg) = fdo := by
  unfold fdoField formatC
  rw [BitVec.extractLsb'_append_eq_of_le (by decide),
    BitVec.extractLsb'_append_eq_of_le (by decide),
    BitVec.extractLsb'_append_eq_of_le (by decide)]
  exact BitVec.extractLsb'_append_eq_right

@[simp] theorem fdiField_formatC : fdiField (formatC opc fdo fdi arg) = fdi := by
  unfold fdiField formatC
  rw [BitVec.extractLsb'_append_eq_of_le (by decide),
    BitVec.extractLsb'_append_eq_of_le (by decide)]
  exact BitVec.extractLsb'_append_eq_right

@[simp] theorem argField_formatC : argField (formatC opc fdo fdi arg) = arg := by
  unfold argField formatC
  rw [BitVec.extractLsb'_append_eq_of_le (by decide)]
  exact BitVec.extractLsb'_append_eq_right

end

/-- Two words are equal when their fields are (30_encoding.md R100). -/
theorem word_eq_iff_fields {w v : Word} : w = v ↔ opcField w = opcField v ∧
    fdoField w = fdoField v ∧ fdiField w = fdiField v ∧ argField w = argField v ∧
    zField w = zField v := by
  refine ⟨by rintro rfl; simp, fun ⟨hopc, hfdo, hfdi, harg, hz⟩ => ?_⟩
  rw [word_eq_fields w, hopc, hfdo, hfdi, harg, hz, ← word_eq_fields v]

theorem formatC_eq_iff {opc arg : BitVec 8} {fdo fdi : BitVec 4} {w : Word} :
    formatC opc fdo fdi arg = w ↔ opcField w = opc ∧ fdoField w = fdo ∧ fdiField w = fdi ∧
      argField w = arg ∧ zField w = 0 := by
  rw [eq_comm, word_eq_iff_fields]
  simp only [Laws.formatC_opc, fdoField_formatC, fdiField_formatC, argField_formatC, Laws.formatC_z]

/-- A masked word is an opcode alone when the opcode field and the zero byte, which the mask holds
whole, are, and every operand field is 0 under its part of the mask. -/
theorem and_mask_eq_iff {w m : Word} {opc : BitVec 8} (hopc : opcField m = BitVec.allOnes 8)
    (hz : zField m = BitVec.allOnes 8) : w &&& m = formatC opc 0 0 0 ↔
      opcField w = opc ∧ fdoField w &&& fdoField m = 0 ∧ fdiField w &&& fdiField m = 0 ∧
        argField w &&& argField m = 0 ∧ zField w = 0 := by
  have hopcw : opcField (w &&& m) = opcField w := by
    rw [← BitVec.and_allOnes (x := opcField w), ← hopc]; exact BitVec.extractLsb'_and
  have hzw : zField (w &&& m) = zField w := by
    rw [← BitVec.and_allOnes (x := zField w), ← hz]; exact BitVec.extractLsb'_and
  rw [eq_comm, formatC_eq_iff, hopcw, hzw]
  simp only [fdoField, fdiField, argField, BitVec.extractLsb'_and]

/-! ## Decoding -/

theorem opcodeInstr_encode (i : Instr) : opcodeInstr (encode i) = some i := by
  cases i <;> simp [opcodeInstr, encode, Laws.formatC_opc]

theorem unusedZero_encode (i : Instr) : unusedZero (encode i) i = true := by
  cases i <;> simp [unusedZero, encode, Laws.formatC_z]

/-- The opcode names the command and its operands; with zeros in the unused fields the word is the
command's own (30_encoding.md R101, R102). -/
theorem encode_of_opcodeInstr {w : Word} {i : Instr} (h : opcodeInstr w = some i)
    (hz : unusedZero w i = true) : encode i = w := by
  unfold opcodeInstr at h
  split at h
  case h_11 => cases h
  all_goals
    rename_i hopc
    cases h
    simp only [unusedZero, Bool.and_eq_true, beq_iff_eq] at hz
    exact formatC_eq_iff.2 ⟨BitVec.eq_of_toNat_eq hopc, by simp [hz]⟩

/-- A word decodes to a command exactly when the command is well formed and the word is its own
(30_encoding.md R102, R105, R107). -/
theorem decode_eq_ok_iff {w : Word} {i : Instr} :
    decode w = .ok i ↔ i.wellFormed = true ∧ encode i = w := by
  constructor
  · intro h
    obtain ⟨hop, hwf, hz⟩ := decode_ok h
    exact ⟨hwf, encode_of_opcodeInstr hop hz⟩
  · rintro ⟨hwf, rfl⟩
    simp only [decode, opcodeInstr_encode, hwf, unusedZero_encode, Bool.and_self, if_true]

/-- Settles O1: `decode_eq_ok_iff` from right to left. -/
theorem decodeOfEncode : Obligations.DecodeOfEncode :=
  fun _ hwf => decode_eq_ok_iff.2 ⟨hwf, rfl⟩

/-- Settles O2: `decode_eq_ok_iff` from left to right. -/
theorem encodeOfDecode : Obligations.EncodeOfDecode :=
  fun _ _ h => decode_eq_ok_iff.1 h

/-- Settles O5: a legal word is the word of its command, and the illegal ones are decoded. -/
theorem sampleWordsDecode : Obligations.SampleWordsDecode :=
  ⟨decodeOfEncode .ctSetup rfl, decodeOfEncode (.ctProc 1 0) rfl, decodeOfEncode (.ctGetm 8) rfl,
    decodeOfEncode .crSetup rfl, decodeOfEncode (.crDnGen 3 2 2) rfl,
    decodeOfEncode (.crUpBnd 0 1) rfl, by decide, by decide, by decide, by decide⟩

/-! ## The rows of the opcode map -/

theorem slotOk_iff_and {x : BitVec 4} : slotOk x = true ↔ x &&& 0xC = 0 := by
  revert x; decide

theorem primariesOk_iff_and {x : BitVec 8} : primariesOk x = true ↔ x &&& 0xF0 = 0 := by
  revert x; decide

theorem levelOk_iff_and {x : BitVec 8} : levelOk x = true ↔ x &&& 0xFC = 0 := by
  revert x; decide

section
variable (opc : BitVec 8) (w : Word)

/-- A row of the map for a command without operands. -/
theorem formatC_row_plain :
    (true = true ∧ formatC opc 0 0 0 = w) ↔ w &&& 0xFFFFFFFF = formatC opc 0 0 0 := by
  have hmask : w &&& 0xFFFFFFFF = w := BitVec.and_allOnes
  rw [hmask, eq_comm (a := w)]
  exact and_iff_right rfl

/-- A row of the map for a command with two slots. -/
theorem formatC_row_slots (o i : BitVec 4) :
    ((slotOk o && slotOk i) = true ∧ formatC opc o i 0 = w) ↔
      w &&& 0xFFCCFFFF = formatC opc 0 0 0 ∧ o = fdoField w ∧ i = fdiField w := by
  have harg : argField w &&& argField 0xFFCCFFFF = argField w := BitVec.and_allOnes
  rw [and_mask_eq_iff rfl rfl, harg, formatC_eq_iff, Bool.and_eq_true, slotOk_iff_and,
    slotOk_iff_and]
  constructor
  · rintro ⟨⟨ho, hi⟩, hopc, rfl, rfl, harg, hz⟩
    exact ⟨⟨hopc, ho, hi, harg, hz⟩, rfl, rfl⟩
  · rintro ⟨⟨hopc, ho, hi, harg, hz⟩, rfl, rfl⟩
    exact ⟨⟨ho, hi⟩, hopc, rfl, rfl, harg, hz⟩

/-- A row of the map for a command with a primaries code. -/
theorem formatC_row_primaries (c : BitVec 8) :
    (primariesOk c = true ∧ formatC opc 0 0 c = w) ↔
      w &&& 0xFFFFF0FF = formatC opc 0 0 0 ∧ c = argField w := by
  have hfdo : fdoField w &&& fdoField 0xFFFFF0FF = fdoField w := BitVec.and_allOnes
  have hfdi : fdiField w &&& fdiField 0xFFFFF0FF = fdiField w := BitVec.and_allOnes
  rw [and_mask_eq_iff rfl rfl, hfdo, hfdi, formatC_eq_iff, primariesOk_iff_and]
  constructor
  · rintro ⟨hc, hopc, ho, hi, rfl, hz⟩
    exact ⟨⟨hopc, ho, hi, hc, hz⟩, rfl⟩
  · rintro ⟨⟨hopc, ho, hi, hc, hz⟩, rfl⟩
    exact ⟨hc, hopc, ho, hi, rfl, hz⟩

/-- A row of the map for a command with two slots and a bounding level. -/
theorem formatC_row_level (o i : BitVec 4) (l : BitVec 8) :
    ((slotOk o && slotOk i && levelOk l) = true ∧ formatC opc o i l = w) ↔
      w &&& 0xFFCCFCFF = formatC opc 0 0 0 ∧ o = fdoField w ∧ i = fdiField w ∧
        l = argField w := by
  rw [and_mask_eq_iff rfl rfl, formatC_eq_iff, Bool.and_eq_true, Bool.and_eq_true,
    slotOk_iff_and, slotOk_iff_and, levelOk_iff_and]
  constructor
  · rintro ⟨⟨⟨ho, hi⟩, hl⟩, hopc, rfl, rfl, rfl, hz⟩
    exact ⟨⟨hopc, ho, hi, hl, hz⟩, rfl, rfl, rfl⟩
  · rintro ⟨⟨hopc, ho, hi, hl, hz⟩, rfl, rfl, rfl⟩
    exact ⟨⟨⟨ho, hi⟩, hl⟩, hopc, rfl, rfl, rfl, hz⟩

end

/-- Settles O3: each row is `decode_eq_ok_iff` with the mask of the command's operands. -/
theorem decodeMatchesOpcodeMap : Obligations.DecodeMatchesOpcodeMap := fun w =>
  ⟨decode_eq_ok_iff.trans (formatC_row_plain 0x10 w),
    fun o i => decode_eq_ok_iff.trans (formatC_row_slots 0x11 w o i),
    fun c => decode_eq_ok_iff.trans (formatC_row_primaries 0x12 w c),
    fun c => decode_eq_ok_iff.trans (formatC_row_primaries 0x13 w c),
    decode_eq_ok_iff.trans (formatC_row_plain 0x20 w),
    fun o i l => decode_eq_ok_iff.trans (formatC_row_level 0x21 w o i l),
    fun o i => decode_eq_ok_iff.trans (formatC_row_slots 0x22 w o i),
    fun o i => decode_eq_ok_iff.trans (formatC_row_slots 0x23 w o i),
    fun o i l => decode_eq_ok_iff.trans (formatC_row_level 0x24 w o i l),
    fun o i => decode_eq_ok_iff.trans (formatC_row_slots 0x25 w o i)⟩

/-! ## Illegal words -/

/-- The first kind of illegal word: an opcode byte that is none of the ten (30_encoding.md R104). -/
theorem decode_eq_opcode_iff {w : Word} : decode w = .error .opcode ↔
    (opcField w).toNat ∉ [0x10, 0x11, 0x12, 0x13, 0x20, 0x21, 0x22, 0x23, 0x24, 0x25] := by
  have hnone : decode w = .error .opcode ↔ opcodeInstr w = none := by
    unfold decode
    split
    · simp [*]
    · split <;> simp [*]
  rw [hnone]
  unfold opcodeInstr
  split <;> simp_all

/-- The second kind: a known opcode in the word of no command (30_encoding.md R104, R105). -/
theorem decode_eq_rsvd {w : Word} (hopc : decode w ≠ .error .opcode)
    (hno : ∀ i, i.wellFormed = true → encode i ≠ w) : decode w = .error .rsvd := by
  match hd : decode w with
  | .ok i =>
    obtain ⟨hwf, hw⟩ := decode_eq_ok_iff.1 hd
    exact absurd hw (hno i hwf)
  | .error .opcode => exact absurd hd hopc
  | .error .rsvd => rfl

/-- The event of an illegal word (30_encoding.md R104). -/
def illegalEvent : DecodeError → Event
  | .opcode => .eOpcode
  | .rsvd => .eRsvd

/-- A write of an illegal word to `CMD` is its event (10_state.md R25, 30_encoding.md R104). -/
theorem perform_illegal {s : State} {w : Word} {e : DecodeError} (hf : s.status.fatal = false)
    (hd : decode w = .error e) :
    perform (.regWrite .word 0x004 w) s = .next (s.raise (illegalEvent e)) := by
  rw [perform_regWrite (by decide) (by decide), hf, if_neg Bool.false_ne_true, if_pos rfl]
  cases e <;> simp [writeCmd, hf, hd, illegalEvent]

/-- Settles O4: `perform_illegal` on the two kinds of illegal word. -/
theorem illegalWordsAreCommandErrors : Obligations.IllegalWordsAreCommandErrors := by
  intro s w hf defined
  refine ⟨fun hopc => perform_illegal hf (decode_eq_opcode_iff.2 hopc), fun hopc hno => ?_⟩
  exact perform_illegal hf (decode_eq_rsvd (fun h => decode_eq_opcode_iff.1 h hopc) hno)

/-! ## Commands that are not configured -/

/-- A command with a slot the instance lacks is `E_RSVD` (30_encoding.md R104, log 18). -/
theorem exec_of_no_slot {s : State} {i : Instr} {x : BitVec 4} (hf : s.status.fatal = false)
    (hx : x ∈ i.slots) (hlack : s.cfg.slots ≤ x.toNat) : exec i s = .next (s.raise .eRsvd) := by
  have hadm : s.admits i = false := by
    have hall : i.slots.all s.hasSlot = false :=
      List.all_eq_false.2 ⟨x, hx, by simpa [State.hasSlot] using hlack⟩
    rw [State.admits, hall, Bool.and_false]
  cases i <;> exact command_notAdmitted hf hadm _

theorem ctProc_notConfigured {s : State} (h : s.status.ctValid = false) (o i : Fin 4) :
    ctProc s o i = .next (s.raise .eNotCfg) := by simp [ctProc, h]

theorem crConvert_notConfigured {s : State} (h : s.status.crValid = false) (up : Bool)
    (plan : FilterBank → Option Plan) (lvl : Nat) (o i : Fin 4) :
    crConvert up plan lvl s o i = .next (s.raise .eNotCfg) := by simp [crConvert, h]

/-- Settles O16: the slots are judged first, by `exec_of_no_slot`; with both there, the command
runs, and its run begins with the setup. -/
theorem notConfigured : Obligations.NotConfigured := by
  intro s fdo fdi lvl hl hf
  refine ⟨fun hlack i hi => ?_, fun ho hi => ⟨fun hv => ?_, fun hv c hc => ?_⟩⟩
  · have hslots := slots_of_mem hi
    rcases hlack with hlack | hlack
    · exact exec_of_no_slot hf (x := fdo) (by simp [hslots]) hlack
    · exact exec_of_no_slot hf (x := fdi) (by simp [hslots]) hlack
  · rw [exec_ctProc (decide_eq_true ho) (decide_eq_true hi) hf, ctProc_notConfigured hv]
    rfl
  · obtain ⟨up, plan, l, -, hexec⟩ := exec_conversion hc
    rw [exec_of_conversion (decide_eq_true ho) (decide_eq_true hi) hl hf hc (hexec s),
      crConvert_notConfigured hv]
    rfl

end Sys2Proof.Machine
end

section
/-! `CT.SETUP`, `CT.GETM` and `CT.GETY`: what the look-up commands leave
(spec/40_color_transform.md R137 to R139, R152 to R154). -/

namespace Sys2Proof.Machine

open Sys2Proof

/-! ## CT.SETUP -/

theorem exec_ctSetup {s : State} (hf : s.status.fatal = false) : exec .ctSetup s =
    if s.ctPar.hiprec = 3 then .next (s.raise .eBadParam) else .next (ctResolve s) :=
  command_run hf rfl _

/-- The row of `RESOLVE` for the parameter registers (40_color_transform.md R135). -/
def State.resolved (s : State) : Option ResolveRow :=
  s.cfg.resolve s.ctPar.ics s.ctPar.ocs s.ctPar.icp s.ctPar.ocp s.ctPar.hiprec

/-- Mapped or not, `CT.SETUP` caches one object: an unmapped tuple is the forward identity mode
without a clip, and warns (40_color_transform.md R137, R138). -/
theorem ctResolve_eq (s : State) : ctResolve s = { s with
    status := (s.status.warn s.resolved.isNone).setCtValid
    ctObj := ctObjectOf s.cfg s.ctPar.tprec ((s.resolved.map ResolveRow.mode).getD 0)
      ((s.resolved.map ResolveRow.isFwd).getD true)
      ((s.resolved.map ResolveRow.clip).getD .none) } := by
  unfold ctResolve State.resolved
  dsimp only
  split
  · rename_i r hr
    simp [hr, Status.warn]
  · rename_i hr
    simp [hr]

/-- The mode that `CT.SETUP` caches fits `CT_MODE.MODE` (10_state.md R32). -/
theorem State.resolved_mode_lt (s : State) : (s.resolved.map ResolveRow.mode).getD 0 < 256 := by
  cases hr : s.resolved with
  | none => decide
  | some r => exact (resolve_mode_lt hr).2

/-- `TPACT` in the order of the rule's conjuncts (40_color_transform.md R139). -/
theorem ctObjectOf_tpAct_eq (t : Tables) (tprec : Bool) (mode : Nat) (fwd : Bool)
    (clip : ClipPolicy) : (ctObjectOf t tprec mode fwd clip).tpAct =
      (tprec && fwd && (t.entry mode).dividers.isSome && !(mode == 5 || mode == 6)) := by
  rw [Bool.not_or, ← Bool.and_assoc]
  rfl

/-- With `TPACT` the cached dividers are those of the entry (10_state.md R34). -/
theorem ctObjectOf_dividers_of_tpAct {t : Tables} {tprec : Bool} {mode : Nat} {fwd : Bool}
    {clip : ClipPolicy} (h : (ctObjectOf t tprec mode fwd clip).tpAct = true) :
    (t.entry mode).dividers = some ((ctObjectOf t tprec mode fwd clip).cbDiv,
      (ctObjectOf t tprec mode fwd clip).crDiv) := by
  have hcached : ((ctObjectOf t tprec mode fwd clip).cbDiv,
      (ctObjectOf t tprec mode fwd clip).crDiv) =
      if (ctObjectOf t tprec mode fwd clip).tpAct then (t.entry mode).dividers.getD (0, 0)
      else (0, 0) := rfl
  have hsome : (t.entry mode).dividers.isSome = true := by
    rw [ctObjectOf_tpAct_eq] at h
    simp only [Bool.and_eq_true] at h
    exact h.1.2
  obtain ⟨d, hd⟩ := Option.isSome_iff_exists.1 hsome
  rw [hcached, if_pos h, hd, Option.getD_some]

/-- Settles O19: `ctResolve_eq` says what is cached, and the cached object field by field. -/
theorem ctSetupEffect : Obligations.CtSetupEffect := by
  intro s hf
  refine ⟨fun h => ?_, fun h => ?_⟩
  · rw [exec_ctSetup hf, if_pos h]
    rfl
  · intro found m fw cp e tp
    have htp := ctObjectOf_tpAct_eq s.cfg s.ctPar.tprec m fw cp
    refine ⟨_, (exec_ctSetup hf).trans ((if_neg h).trans
        (congrArg Host.Outcome.next (ctResolve_eq s))),
      ctObjectOf_mode_toNat s.cfg s.ctPar.tprec fw cp s.resolved_mode_lt, rfl, rfl, rfl, rfl, rfl,
      htp, fun h => ctObjectOf_dividers_of_tpAct (htp.trans h),
      fun h => ctObjectOf_dividers s.cfg s.ctPar.tprec fw cp (htp.trans h), rfl, rfl⟩

/-! ## CT.GETM and CT.GETY -/

section
variable {s : State} {cp : BitVec 8} (hf : s.status.fatal = false) (hcp : primariesOk cp = true)
include hf hcp

theorem exec_ctGetm : exec (.ctGetm cp) s = .next
    { s with
      mres := (s.cfg.entry (s.cfg.xyzMode cp.toNat)).fwd
      status := s.status.warn (s.cfg.xyzMode cp.toNat == 0) } :=
  command_run hf (by simp [State.admits, Instr.wellFormed, Instr.slots, hcp]) _

theorem exec_ctGety : exec (.ctGety cp) s = .next
    { s with
      mres := lumaRow (s.cfg.entry (s.cfg.xyzMode cp.toNat)).fwd s.mres
      status := s.status.warn (s.cfg.xyzMode cp.toNat == 0) } :=
  command_run hf (by simp [State.admits, Instr.wellFormed, Instr.slots, hcp]) _

end

/-- Row 0 of what `CT.GETY` delivers is row 1 of the matrix (40_color_transform.md R154). -/
theorem lumaRow_get_row0 (m r : Mat3) (j : Fin 3) :
    (lumaRow m r).get ⟨j.val, by omega⟩ = m.get ⟨3 + j.val, by omega⟩ := by
  match j with
  | 0 | 1 | 2 => rfl

/-- Rows 1 and 2 of `MRES` stay (40_color_transform.md R154). -/
theorem lumaRow_get_rest (m r : Mat3) {n : Fin 9} (hn : 3 ≤ n.val) :
    (lumaRow m r).get n = r.get n := by
  match n with
  | 0 | 1 | 2 => exact absurd hn (by decide)
  | 3 | 4 | 5 | 6 | 7 | 8 => rfl

/-- Settles O22: `CT.GETM` past its head. -/
theorem ctGetmEffect : Obligations.CtGetmEffect := fun _ _ => exec_ctGetm

/-- Settles O23: `CT.GETY` past its head, and `lumaRow` element by element. -/
theorem ctGetyEffect : Obligations.CtGetyEffect := fun s _ hf hcp =>
  ⟨_, exec_ctGety hf hcp, lumaRow_get_row0 _ s.mres, fun _ => lumaRow_get_rest _ s.mres, rfl⟩

end Sys2Proof.Machine
end

section
/-! `CT.PROC` where it transforms nothing: the no-op, the unsupported inverse, and that no event of
it is fatal (spec/40_color_transform.md R141, R150, R157). -/

namespace Sys2Proof.Machine

open Sys2Proof

section
variable {s : State} {o i : Fin 4} (hv : s.status.ctValid = true)
  (hd : firstProblem (ctDuties s o i) = none)
include hv hd

theorem ctProc_noop (hc : countsEqual (s.slot o) (s.slot i) = false) :
    ctProc s o i = .next (ctNoop s o i) := by simp [ctProc, hv, hd, hc]

theorem ctProc_unsupported (hc : countsEqual (s.slot o) (s.slot i) = true)
    (hcli : s.ctObj.cli = true) : ctProc s o i = .next (s.raise .uClInv) := by
  simp [ctProc, hv, hd, hc, hcli]

end

/-- The no-op changes `STATUS.NOOP` and descriptors only (40_color_transform.md R141). -/
theorem ctNoop_eq (s : State) (o i : Fin 4) : ctNoop s o i =
    { s with status := { s.status with noop := true }, fd := (ctNoop s o i).fd } := by
  unfold ctNoop
  dsimp only
  split <;> rfl

/-- Of the descriptors the no-op stamps that of the output, where the tables say so
(40_color_transform.md R141). -/
theorem ctNoop_slot (s : State) (o i x : Fin 4) : (ctNoop s o i).slot x =
    if s.cfg.noopSetsFrameNo then if o = x then (s.slot o).stamp (s.slot i) else s.slot x
    else s.slot x := by
  unfold ctNoop
  dsimp only
  split
  · exact State.slot_setSlot ..
  · rfl

/-- Settles O26: the six counts are tested after the duties and before the inverse, and the no-op
field by field. -/
theorem ctProcNoop : Obligations.CtProcNoop := by
  intro s fdo fdi ho hi hf hv hd fo fi hne
  have hc : countsEqual fo fi = false := by
    rw [Bool.eq_false_iff, Ne, countsEqual_iff]
    intro h
    have h1 := h 1 (by simp)
    have h2 := h 2 (by simp)
    exact hne ⟨(h 0 (by simp)).1, h1.2, h2.2, h1.1, h2.1⟩
  refine ⟨_, (exec_ctProc ho hi hf).trans (ctProc_noop hv hd hc), ctNoop_eq .., fun x hx => ?_, ?_⟩
  · rw [ctNoop_slot, if_neg (Ne.symm hx), ite_self]
  · rw [ctNoop_slot, if_pos rfl]
    rfl

/-- Settles O27: past the duties and the counts the mode is judged, and the event entered. -/
theorem ctProcUnsupported : Obligations.CtProcUnsupported := fun _ _ _ ho hi hf hv hd hc hcli =>
  (exec_ctProc ho hi hf).trans (ctProc_unsupported hv hd hc hcli)

/-- An event that is not of the fatal class leaves `FATAL` (60_exceptions.md R330, R333). -/
theorem State.raise_fatal_of_ne {e : Event} (s : State) (he : e.cls ≠ .fatal) :
    (s.raise e).status.fatal = s.status.fatal := by
  rw [State.raise_status]
  cases hc : e.cls with
  | fatal => exact absurd hc he
  | cmdErr | unsup => rfl

/-- Settles O28: every next state of `CT.PROC` is the same state, an event that is not fatal, the
no-op or a committed frame. -/
theorem ctProcNeverFatal : Obligations.CtProcNeverFatal := by
  intro fdo fdi s t h
  rcases command_next h with ⟨-, rfl⟩ | ⟨-, -, rfl⟩ | ⟨-, -, hr⟩
  · rfl
  · exact s.raise_fatal_of_ne (by decide)
  · rcases ctProc_next hr with ⟨-, rfl⟩ | ⟨-, -, rfl⟩ | ⟨-, -, rfl⟩ | ⟨-, -, P, -, rfl⟩
    · exact s.raise_fatal_of_ne (by decide)
    · rw [ctNoop_status, Status.setNoop_fatal]
    · exact s.raise_fatal_of_ne (by decide)
    · rw [State.commit_status]

end Sys2Proof.Machine
end

section
/-! The baseline of `RESOLVE` and the entries of `MTAB`
(spec/40_color_transform.md R132 to R136). -/

namespace Sys2Proof

/-! ## RESOLVE -/

/-- The baseline modes exist in all tables (40_color_transform.md R135 (P3)). -/
theorem Tables.modeOk_of_mem_baseline (t : Tables) {r : ResolveRow} (hr : r ∈ baselineRows) :
    t.modeOk r.mode = true := by
  have hlt : ∀ r ∈ baselineRows, r.mode < 7 := by decide
  have hm : r.mode < 7 := hlt r hr
  have hn : t.nModes = 7 + t.moreModes.length := rfl
  simp only [Tables.modeOk, Bool.and_eq_true, decide_eq_true_eq]
  omega

/-- The first baseline row that covers a tuple answers it, whatever rows are added
(40_color_transform.md R135 (P4)). -/
theorem Tables.resolve_of_baseline (t : Tables) {ics ocs : BitVec 3} {icp ocp : BitVec 4}
    {hp : BitVec 2} {r : ResolveRow} (hc : codesOk ics ocs icp ocp = true)
    (hr : baselineRows.find? (fun r => r.covers ics ocs icp ocp hp) = some r) :
    t.resolve ics ocs icp ocp hp = some r := by
  have hfind : baselineRows.find? (fun r => r.covers ics ocs icp ocp hp && t.modeOk r.mode) =
      some r := by
    rw [← hr]
    exact List.find?_congr fun r hmem => by rw [t.modeOk_of_mem_baseline hmem, Bool.and_true]
  rw [Tables.resolve, if_pos hc, List.find?_append, hfind, Option.some_or]

theorem codesOk_eq_false {ics ocs : BitVec 3} {icp ocp : BitVec 4}
    (h : 4 < ics.toNat ∨ 4 < ocs.toNat ∨ 8 < icp.toNat ∨ 8 < ocp.toNat) :
    codesOk ics ocs icp ocp = false := by
  simp only [codesOk, Bool.and_eq_false_iff, decide_eq_false_iff_not]
  omega

/-- The default tables map nothing but the baseline rows. -/
theorem Tables.default_resolve {ics ocs : BitVec 3} {icp ocp : BitVec 4} {hp : BitVec 2}
    (h : ∀ r ∈ baselineRows, (ics, ocs, icp, ocp) ≠ (r.ics, r.ocs, r.icp, r.ocp)) :
    Tables.default.resolve ics ocs icp ocp hp = none := by
  rw [Tables.resolve]
  split
  · refine List.find?_eq_none.2 fun r hr hcov => ?_
    have hmem : r ∈ baselineRows := by simpa [Tables.default] using hr
    simp only [ResolveRow.covers, Bool.and_eq_true, beq_iff_eq] at hcov
    obtain ⟨⟨⟨⟨⟨hics, hocs⟩, hicp⟩, hocp⟩, -⟩, -⟩ := hcov
    exact h r hmem (by rw [hics, hocs, hicp, hocp])
  · rfl

/-- Settles O20: the baseline rows are found first, and an answer is a row with a mode of the
tables. -/
theorem resolveBaseline : Obligations.ResolveBaseline := by
  intro t hp rows
  have hrow : ∀ {i o : BitVec 3} {ip op : BitVec 4} {x : Nat × Bool × ClipPolicy},
      codesOk i o ip op = true →
      (baselineRows.find? fun r => r.covers i o ip op hp).map
        (fun r => (r.mode, r.isFwd, r.clip)) = some x →
      rows i o ip op = some x := fun hc hx => by
    obtain ⟨r, hr, rfl⟩ := Option.map_eq_some_iff.1 hx
    exact congrArg (Option.map _) (t.resolve_of_baseline hc hr)
  have hhiprec : ∀ hp : BitVec 2, hp ≠ 3 → ∀ fw : Bool,
      (baselineRows.find? fun r => r.covers (if fw then 0 else 1) (if fw then 1 else 0) 2 2 hp).map
        (fun r => (r.mode, r.isFwd, r.clip)) = some (2 + hp.toNat, fw, .none) := by decide
  refine ⟨hrow rfl rfl, hrow rfl rfl, fun h => hrow rfl (hhiprec hp h true),
    fun h => hrow rfl (hhiprec hp h false), hrow rfl rfl, hrow rfl rfl,
    fun i o ip op h => ?_, fun i o ip op r h => (Machine.resolve_mode_lt h).1,
    fun i o ip op h => Tables.default_resolve fun r hr heq => h ?_⟩
  · rw [Tables.resolve, codesOk_eq_false h]
    rfl
  · have hlisted : ∀ r ∈ baselineRows, (r.ics, r.ocs, r.icp, r.ocp) ∈
        [((0 : BitVec 3), (1 : BitVec 3), (0 : BitVec 4), (0 : BitVec 4)),
          (1, 0, 0, 0), (0, 1, 2, 2), (1, 0, 2, 2), (0, 4, 2, 2), (4, 0, 2, 2)] := by decide
    exact heq ▸ hlisted r hr

/-! ## MTAB -/

theorem identityEntry_ok : identityEntry.ok = true := by decide +kernel

/-- Every entry of a table within 40_color_transform.md R132 is within it: the supplied ones by
`mtabOk`, the identity, and the open ones by construction. -/
theorem Tables.entry_ok {t : Tables} (h : t.mtabOk = true) (m : Nat) : (t.entry m).ok = true := by
  simp only [Tables.mtabOk, Bool.and_eq_true, List.all_eq_true] at h
  obtain ⟨⟨⟨hlisted, hmore⟩, -⟩, -⟩ := h
  have hopen : ∀ {o : Option MatEntry} (m : Nat), (∀ e, o = some e → e.ok = true) →
      (o.getD (openEntry m)).ok = true := fun {o} m ho => by
    cases o with
    | none => exact Machine.openEntry_ok m
    | some e => exact ho e rfl
  match m with
  | 0 => exact identityEntry_ok
  | 1 => exact hlisted t.mode1 (by simp)
  | 2 => exact hlisted t.mode2 (by simp)
  | 3 => exact hopen 3 fun e he => hlisted e (by simp [he])
  | 4 => exact hopen 4 fun e he => hlisted e (by simp [he])
  | 5 => exact hopen 5 fun e he => hlisted e (by simp [he])
  | 6 => exact hopen 6 fun e he => hlisted e (by simp [he])
  | n + 7 =>
    show (t.moreModes.getD n identityEntry).ok = true
    rw [List.getD_eq_getElem?_getD]
    cases hn : t.moreModes[n]? with
    | none => exact identityEntry_ok
    | some e => exact hmore e (List.mem_of_getElem? hn)

/-- Modes 1 and 2 have dividers (40_color_transform.md R133). -/
theorem Tables.dividers_of_mtabOk {t : Tables} (h : t.mtabOk = true) :
    (t.entry 1).dividers.isSome = true ∧ (t.entry 2).dividers.isSome = true := by
  simp only [Tables.mtabOk, Bool.and_eq_true] at h
  obtain ⟨⟨-, hone⟩, htwo⟩ := h
  exact ⟨hone, htwo⟩

/-- Row k of `fwd` against its construction, element by element (40_color_transform.md R132). -/
theorem rowAgrees_iff {fwd : Mat3} {k i : Fin 3} {d : DWord} : rowAgrees fwd k i d = true ↔
    ∀ j : Fin 3,
      |matUnits fwd k j * (Fp.ofBits64 d).units -
          ((if i = j then 2 ^ 1074 else 0) - matUnits fwd 0 j) * 2 ^ 1074| * 2 ^ 50 ≤
        |matUnits fwd k j * (Fp.ofBits64 d).units| +
          (|if i = j then (2 ^ 1074 : Int) else 0| + |matUnits fwd 0 j|) * 2 ^ 1074 := by
  have hone : (2 ^ 1074 : Int) = (Fp.one : Int) := (Nat.cast_pow 2 1074).symm
  have hmem : ∀ j : Fin 3, j ∈ [(0 : Fin 3), 1, 2] := by decide
  simp only [rowAgrees, List.all_eq_true, decide_eq_true_eq, hmem, forall_const, hone,
    ← Int.natCast_natAbs]
  refine forall_congr' fun j => ?_
  rw [← Int.ofNat_le]
  simp only [Nat.cast_mul, Nat.cast_add, Nat.cast_pow, Nat.cast_ofNat]

section
variable {e : MatEntry} (h : e.ok = true)
include h

/-- The elements of an entry within 40_color_transform.md R132. -/
theorem MatEntry.finite_of_ok (k : Fin 9) : (Fp.ofBits64 (e.fwd.get k)).isFinite = true ∧
    (Fp.ofBits64 (e.inv.get k)).isFinite = true := by
  have hmem : ∀ m : Mat3, m.get k ∈ m.toList := fun m => by simp [Vector.get_eq_getElem]
  simp only [MatEntry.ok, Bool.and_eq_true, List.all_eq_true] at h
  obtain ⟨⟨hfwd, hinv⟩, -⟩ := h
  exact ⟨hfwd _ (hmem _), hinv _ (hmem _)⟩

/-- The dividers of an entry within 40_color_transform.md R132. -/
theorem MatEntry.dividers_of_ok {cb cr : DWord} (hd : e.dividers = some (cb, cr)) :
    (∀ d ∈ [cb, cr], (Fp.ofBits64 d).isFinite = true ∧ (Fp.ofBits64 d).units ≠ 0) ∧
      rowAgrees e.fwd 1 2 cb = true ∧ rowAgrees e.fwd 2 0 cr = true := by
  simp only [MatEntry.ok, hd, Bool.and_eq_true, List.all_eq_true, bne_iff_ne] at h
  obtain ⟨-, ⟨hdiv, hcb⟩, hcr⟩ := h
  exact ⟨hdiv, hcb, hcr⟩

end

/-- Rows 1 and 2 of `fwd` are `(e_2 - fwd[0]) / cbDiv` and `(e_0 - fwd[0]) / crDiv` in binary64
(40_color_transform.md R134). -/
def MatEntry.BuiltWith (e : MatEntry) (cb cr : DWord) : Prop := ∀ j : Fin 3,
  let f := fun k : Fin 3 => Fp.ofBits64 (e.fwd.get ⟨3 * k.val + j.val, by omega⟩)
  let unit := fun i : Fin 3 => if i = j then Fp.ofBits64 0x3FF0000000000000 else Fp.zero
  f 1 = ((unit 2).sub (f 0)).div (Fp.ofBits64 cb) ∧
  f 2 = ((unit 0).sub (f 0)).div (Fp.ofBits64 cr)

theorem entry709_builtWith : entry709.BuiltWith 0x3FFDB089A0275254 0x3FF932617C1BDA51 := by
  unfold MatEntry.BuiltWith
  decide +kernel

theorem entry2020_builtWith : entry2020.BuiltWith 0x3FFE1A36E2EB1C43 0x3FF797F62B6AE7D5 := by
  unfold MatEntry.BuiltWith
  decide +kernel

/-- Settles O21: the identity and the listed patterns; of every other entry what `MatEntry.ok` says;
and the construction of the listed rows, computed. -/
theorem baselineMatrices : Obligations.BaselineMatrices := by
  have hidentity : ∀ k j : Fin 3, identityMat.get ⟨3 * k.val + j.val, by omega⟩ =
      if k = j then 0x3FF0000000000000 else 0 := by decide
  refine ⟨fun t => ⟨rfl, rfl, hidentity⟩, rfl, rfl, fun t h => t.dividers_of_mtabOk h,
    fun t m h => ⟨MatEntry.finite_of_ok (t.entry_ok h m), fun cb cr hd => ?_⟩, fun m hm j => ?_⟩
  · obtain ⟨hdiv, hcb, hcr⟩ := MatEntry.dividers_of_ok (t.entry_ok h m) hd
    exact ⟨hdiv, fun j => ⟨rowAgrees_iff.1 hcb j, rowAgrees_iff.1 hcr j⟩⟩
  · simp only [List.mem_cons, List.not_mem_nil, or_false] at hm
    rcases hm with rfl | rfl
    · exact ⟨_, _, rfl, entry709_builtWith j⟩
    · exact ⟨_, _, rfl, entry2020_builtWith j⟩

end Sys2Proof
end

section
/-! The narrowing to binary32 keeps the order, and `OUT` stays within its clip
(spec/40_color_transform.md R143, R144, R156). -/

namespace Sys2Proof

/-! ## Rounding does not pass a number of the grid -/

section
variable {prec quantum num den z : Nat} (hp : 0 < prec) (hd : 0 < den)
  (hz : OnGrid prec quantum z)
include hp hd hz

theorem roundMag_le (h : num ≤ z * den) : roundMag prec quantum num den ≤ z := by
  have hnear := roundMag_nearest quantum num hp hd hz
  by_contra hlt
  have hden := Nat.mul_lt_mul_of_pos_right (Nat.not_le.1 hlt) hd
  unfold gridDist at hnear
  omega

theorem le_roundMag (h : z * den ≤ num) : z ≤ roundMag prec quantum num den := by
  have hnear := roundMag_nearest quantum num hp hd hz
  by_contra hlt
  have hden := Nat.mul_lt_mul_of_pos_right (Nat.not_le.1 hlt) hd
  unfold gridDist at hnear
  omega

end

/-! ## The order of binary64 values -/

theorem Fp.fin_le_fin {a b : Bool} {m n : Nat} :
    (Fp.fin a m).le (.fin b n) = true ↔ Fp.signed a m ≤ Fp.signed b n := decide_eq_true_iff

theorem Fp.fin_lt_fin {a b : Bool} {m n : Nat} :
    (Fp.fin a m).lt (.fin b n) = true ↔ Fp.signed a m < Fp.signed b n := decide_eq_true_iff

theorem Fp.signed_true (m : Nat) : Fp.signed true m = -(m : Int) := rfl

theorem Fp.signed_false (m : Nat) : Fp.signed false m = m := rfl

theorem Fp.signed_not (a : Bool) (m : Nat) : Fp.signed (!a) m = -Fp.signed a m := by
  cases a <;> simp [Fp.signed_true, Fp.signed_false]

theorem Fp.le_of_signed_le_neg {a : Bool} {v m : Nat} (h : Fp.signed a v ≤ Fp.signed true m) :
    m ≤ v := by
  cases a <;> simp only [Fp.signed_true, Fp.signed_false] at h <;> omega

/-- A magnitude that moves from `m` to `r` without passing `v` keeps the value above `± v`. -/
theorem Fp.signed_le_signed {a n : Bool} {v m r : Nat} (hdown : m ≤ v → r ≤ v)
    (hup : v ≤ m → v ≤ r) (h : Fp.signed a v ≤ Fp.signed n m) :
    Fp.signed a v ≤ Fp.signed n r := by
  cases a <;> cases n <;> simp only [Fp.signed_true, Fp.signed_false] at h ⊢ <;> omega

theorem Fp.le_neg_neg (x y : Fp) : y.neg.le x.neg = x.le y := by
  cases x with
  | nan => cases y <;> rfl
  | inf a =>
    cases y with
    | nan => rfl
    | inf b => simp [Fp.neg, Fp.le, Bool.or_comm]
    | fin b n => simp [Fp.neg, Fp.le]
  | fin a m =>
    cases y with
    | nan | inf => rfl
    | fin b n =>
      rw [Bool.eq_iff_iff, Fp.neg, Fp.neg, Fp.fin_le_fin, Fp.fin_le_fin, Fp.signed_not,
        Fp.signed_not, neg_le_neg_iff]

/-- `≤` is the converse of `>`, but of a NaN neither holds (00_scope.md R9). -/
theorem Fp.le_iff {x y : Fp} :
    x.le y = true ↔ x.isNan = false ∧ y.isNan = false ∧ y.lt x = false := by
  cases x with
  | nan => simp [Fp.le, Fp.isNan]
  | inf a =>
    cases y with
    | nan => simp [Fp.le, Fp.isNan]
    | inf b => cases a <;> cases b <;> decide
    | fin b n => simp [Fp.le, Fp.lt, Fp.isNan]
  | fin a m =>
    cases y with
    | nan => simp [Fp.le, Fp.isNan]
    | inf b => simp [Fp.le, Fp.lt, Fp.isNan]
    | fin b n =>
      rw [Fp.fin_le_fin, Bool.eq_false_iff (b := Fp.lt _ _), Ne, Fp.fin_lt_fin, not_lt]
      simp [Fp.isNan]

theorem Fp.lt_eq_false_of_le {x y : Fp} (h : x.le y = true) : y.lt x = false :=
  (Fp.le_iff.1 h).2.2

theorem Fp.isNan_of_isFinite {x : Fp} (h : x.isFinite = true) : x.isNan = false := by
  cases x with
  | nan => cases h
  | inf | fin => rfl

theorem Fp.le_refl_of_finite {x : Fp} (h : x.isFinite = true) : x.le x = true := by
  cases x with
  | nan | inf => cases h
  | fin a m => exact Fp.fin_le_fin.2 le_rfl

/-! ## Narrowing keeps the order -/

/-- A finite value of binary32. -/
def Fp.Single (x : Fp) : Prop := ∃ n u, Finite32 u ∧ x = .fin n (u * Fp.ulp32)

theorem Fp.single_zero : Fp.zero.Single :=
  ⟨false, 0, finite32_subnormal (by decide), by rw [Nat.zero_mul]; rfl⟩

/-- A finite pattern is a finite value of binary32: narrowing gives it back
(00_scope.md R9). -/
theorem Fp.ofBits32_single {w : Word} (h : (Fp.ofBits32 w).isFinite = true) :
    (Fp.ofBits32 w).Single := by
  have hnarrow := Fp.ofBits32_toBits32_toF32 (Fp.ofBits32 w) 0
  rw [Fp.toBits32_toF32_ofBits32 w 0 (Fp.isNan_of_isFinite h)] at hnarrow
  rcases (Fp.ofBits32 w).toF32_cases with hx | ⟨n, hx⟩ | ⟨n, u, hu, hx⟩
  · rw [hnarrow, hx] at h
    cases h
  · rw [hnarrow, hx] at h
    cases h
  · exact ⟨n, u, hu, hnarrow.trans hx⟩

theorem Fp.neg_single {x : Fp} (h : x.Single) : x.neg.Single := by
  obtain ⟨n, u, hu, rfl⟩ := h
  exact ⟨!n, u, hu, rfl⟩

theorem Fp.toF32_fin (n : Bool) (m : Nat) : (Fp.fin n m).toF32 =
    if 2 ^ 1202 ≤ roundMag 24 925 m 1 then .inf n else .fin n (roundMag 24 925 m 1) := rfl

theorem Fp.toF32_neg (x : Fp) : x.neg.toF32 = x.toF32.neg := by
  cases x with
  | nan | inf => rfl
  | fin n m =>
    rw [Fp.neg, Fp.toF32_fin, Fp.toF32_fin]
    split <;> rfl

/-- A binary32 value stays below a value that is narrowed. -/
theorem Fp.le_toF32 {lo x : Fp} (hlo : lo.Single) (h : lo.le x = true) :
    lo.le x.toF32 = true := by
  obtain ⟨a, u, hu, rfl⟩ := hlo
  cases x with
  | nan | inf => exact h
  | fin n m =>
    have hgrid : OnGrid 24 925 (u * Fp.ulp32) := onGrid_iff.2 ⟨u, hu.1, rfl⟩
    have hdown : m ≤ u * Fp.ulp32 → roundMag 24 925 m 1 ≤ u * Fp.ulp32 := fun hm =>
      roundMag_le (by decide) Nat.one_pos hgrid (by rwa [Nat.mul_one])
    have hup : u * Fp.ulp32 ≤ m → u * Fp.ulp32 ≤ roundMag 24 925 m 1 := fun hm =>
      le_roundMag (by decide) Nat.one_pos hgrid (by rwa [Nat.mul_one])
    have hfits := Fp.lt_overflow32.2 hu.2
    rw [Fp.fin_le_fin] at h
    rw [Fp.toF32_fin]
    split
    · rename_i hover
      cases n with
      | false => rfl
      | true =>
        have hr := hdown (Fp.le_of_signed_le_neg h)
        exact absurd (lt_of_le_of_lt hr hfits) (not_lt.2 hover)
    · exact Fp.fin_le_fin.2 (Fp.signed_le_signed hdown hup h)

/-- A binary32 value stays above a value that is narrowed. -/
theorem Fp.toF32_le {x hi : Fp} (hhi : hi.Single) (h : x.le hi = true) :
    x.toF32.le hi = true := by
  rw [← Fp.le_neg_neg] at h ⊢
  rw [← Fp.toF32_neg]
  exact Fp.le_toF32 (Fp.neg_single hhi) h

end Sys2Proof

namespace Sys2Proof.Machine

open Sys2Proof

/-! ## The clip of `OUT` -/

/-- A float clamp to bounds in order lies between them (40_color_transform.md R143). -/
theorem clampf_mem {v lo hi : Fp} (hb : boundsOk lo hi = true) (hv : v.isNan = false) :
    lo.le (clampf v lo hi) = true ∧ (clampf v lo hi).le hi = true := by
  simp only [boundsOk, Bool.and_eq_true] at hb
  obtain ⟨⟨hlo, hhi⟩, hle⟩ := hb
  obtain ⟨hlonan, hhinan, -⟩ := Fp.le_iff.1 hle
  unfold clampf
  split
  · exact ⟨Fp.le_refl_of_finite hlo, hle⟩
  · rename_i h
    split
    · exact ⟨hle, Fp.le_refl_of_finite hhi⟩
    · rename_i h'
      exact ⟨Fp.le_iff.2 ⟨hlonan, hv, by simpa using h⟩,
        Fp.le_iff.2 ⟨hv, hhinan, by simpa using h'⟩⟩

/-- After the clip to the bounds the stored value lies between them
(40_color_transform.md R143, R156). -/
theorem ctClip_bounds {s : State} {v : Fp} (hc : s.ctObj.clip = .bounds)
    (hb : boundsOk (.ofBits32 s.ctPar.min) (.ofBits32 s.ctPar.max) = true)
    (hv : v.isNan = false) :
    (Fp.ofBits32 s.ctPar.min).le (ctClip s v).toF32 = true ∧
      (ctClip s v).toF32.le (.ofBits32 s.ctPar.max) = true := by
  obtain ⟨hlo, hhi⟩ := clampf_mem hb hv
  simp only [boundsOk, Bool.and_eq_true] at hb
  obtain ⟨⟨hmin, hmax⟩, -⟩ := hb
  simp only [ctClip, hc]
  exact ⟨Fp.le_toF32 (Fp.ofBits32_single hmin) hlo, Fp.toF32_le (Fp.ofBits32_single hmax) hhi⟩

/-- After the clip of the negative values nothing stored is negative
(40_color_transform.md R143, R156). -/
theorem ctClip_nonneg {s : State} (v : Fp) (hc : s.ctObj.clip = .nonneg) :
    (ctClip s v).toF32.lt .zero = false := by
  simp only [ctClip, hc]
  split
  · exact Fp.lt_eq_false_of_le (Fp.le_toF32 Fp.single_zero rfl)
  · rename_i h
    cases hv : v.isNan with
    | true => rw [Fp.isNan_iff.1 hv]; rfl
    | false =>
      have hle : Fp.zero.le v = true := Fp.le_iff.2 ⟨rfl, hv, by simpa using h⟩
      exact Fp.lt_eq_false_of_le (Fp.le_toF32 Fp.single_zero hle)

/-- An integer result lies between its bounds (40_color_transform.md R144). -/
theorem ctRound_mem (draw a : Nat) {lo hi : Nat} (h : lo ≤ hi) (v : Fp) :
    lo ≤ ctRound draw a lo hi v ∧ ctRound draw a lo hi v ≤ hi := by
  have hmem := clampi_mem (((v.add .half).floor?).getD (Config.freeInt draw a))
    (Int.ofNat_le.2 h)
  unfold ctRound
  dsimp only
  omega

/-- Settles O29: each clip lies within its bounds, and narrowing passes none of them. -/
theorem clipConformance : Obligations.ClipConformance := by
  intro s b v lo hi
  refine ⟨ctClip_bounds, fun hc => ⟨ctClip_nonneg v hc, fun h => ?_⟩,
    fun draw a _ _ h => ctRound_mem draw a h v⟩
  simp only [ctClip, hc, h]
  rfl

end Sys2Proof.Machine
end

section
/-! The identity matrix path passes finite values through (spec/40_color_transform.md R151). -/

namespace Sys2Proof

/-! ## Exact operations on binary64 values -/

theorem Fp.one_pos : 0 < Fp.one := by unfold Fp.one; positivity

/-- 2^1024, from where on a binary64 value is an infinity, in units of 2^-1074. -/
def Fp.overflow64 : Nat := 2 ^ 2098

/-- `m` times 2^-1074 is a finite binary64 magnitude: 53 significant bits, below 2^1024. -/
def Finite64 (m : Nat) : Prop := OnGrid 53 0 m ∧ m < Fp.overflow64

theorem lt_overflow64 {m k : Nat} (hm : m < 2 ^ k) (hk : k ≤ 2098) : m < Fp.overflow64 := by
  have hpow := pow_le_pow_right₀ (a := 2) (by decide) hk
  unfold Fp.overflow64
  exact hm.trans_le hpow

theorem finite64_mul_two_pow {c j : Nat} (k : Nat) (hc : c < 2 ^ j) (hj : j ≤ 53)
    (hk : j + k ≤ 2098) : Finite64 (c * 2 ^ k) := by
  have hbits := Nat.pow_le_pow_right (n := 2) (by decide) hj
  have hlt : c * 2 ^ k < 2 ^ (j + k) := by
    rw [Nat.pow_add]
    exact Nat.mul_lt_mul_of_pos_right hc (Nat.two_pow_pos k)
  exact ⟨⟨c, k, Nat.zero_le k, lt_of_lt_of_le hc hbits, rfl⟩, lt_overflow64 hlt hk⟩

theorem finite64_zero : Finite64 0 :=
  ⟨⟨0, 0, le_rfl, by decide, rfl⟩, lt_overflow64 (k := 0) (by decide) (by decide)⟩

/-- A binary32 magnitude is a binary64 one (00_scope.md R9). -/
theorem Finite32.finite64 {u : Nat} (h : Finite32 u) : Finite64 (u * Fp.ulp32) := by
  obtain ⟨⟨c, e, -, hc, rfl⟩, hlt⟩ := h
  refine ⟨⟨c, e + 925, Nat.zero_le _, lt_of_lt_of_le hc (by decide), ?_⟩,
    lt_overflow64 (Fp.lt_overflow32.2 hlt) (by decide)⟩
  rw [Nat.pow_add, ← Nat.mul_assoc]
  rfl

/-- A binary64 magnitude is rounded to itself. -/
theorem Fp.round64_of_finite64 (n : Bool) {m den : Nat} (hm : Finite64 m) (hd : 0 < den) :
    Fp.round64 n (m * den) den = .fin n m := by
  rw [Fp.round64_eq, roundMag_eq_self 0 (by decide) hd hm.1]
  exact if_neg (not_le.2 hm.2)

theorem Fp.round64_one_of_finite64 (n : Bool) {m : Nat} (hm : Finite64 m) :
    Fp.round64 n m 1 = .fin n m := by
  rw [← Fp.round64_of_finite64 n hm Nat.one_pos, Nat.mul_one]

/-- A finite value of binary64. -/
def Fp.Double (x : Fp) : Prop := ∃ n m, Finite64 m ∧ x = .fin n m

theorem Fp.Single.double {x : Fp} (h : x.Single) : x.Double := by
  obtain ⟨n, u, hu, rfl⟩ := h
  exact ⟨n, _, hu.finite64, rfl⟩

theorem Fp.ofNat_double {n : Nat} (h : n < 2 ^ 16) : (Fp.ofNat n).Double :=
  ⟨false, _, finite64_mul_two_pow 1074 h (by decide) (by decide), rfl⟩

theorem Fp.one_mul {x : Fp} (h : x.Double) : (Fp.fin false Fp.one).mul x = x := by
  obtain ⟨n, m, hm, rfl⟩ := h
  calc (Fp.fin false Fp.one).mul (.fin n m)
      = Fp.round64 (false != n) (Fp.one * m) Fp.one := rfl
    _ = .fin n m := by
      rw [Nat.mul_comm, Fp.round64_of_finite64 _ hm Fp.one_pos, Bool.false_bne]

theorem Fp.zero_mul {x : Fp} (h : x.Double) : ∃ b, Fp.zero.mul x = .fin b 0 := by
  obtain ⟨n, m, -, rfl⟩ := h
  refine ⟨false != n, ?_⟩
  calc Fp.zero.mul (.fin n m)
      = Fp.round64 (false != n) (0 * m) Fp.one := rfl
    _ = Fp.round64 (false != n) (0 * Fp.one) Fp.one := by rw [Nat.zero_mul, Nat.zero_mul]
    _ = .fin (false != n) 0 := Fp.round64_of_finite64 _ finite64_zero Fp.one_pos

theorem Fp.add_fin_fin (a b : Bool) (m n : Nat) : (Fp.fin a m).add (.fin b n) =
    if Fp.signed a m + Fp.signed b n = 0 then .fin (a && b) 0
    else Fp.round64 (Fp.signed a m + Fp.signed b n < 0)
      (Fp.signed a m + Fp.signed b n).natAbs 1 := rfl

theorem Fp.fin_add_comm (a b : Bool) (m n : Nat) :
    (Fp.fin a m).add (.fin b n) = (Fp.fin b n).add (.fin a m) := by
  rw [Fp.add_fin_fin, Fp.add_fin_fin, Int.add_comm, Bool.and_comm]

theorem Fp.natAbs_signed (n : Bool) (m : Nat) : (Fp.signed n m).natAbs = m := by
  cases n
  · rw [Fp.signed_false, Int.natAbs_natCast]
  · rw [Fp.signed_true, Int.natAbs_neg, Int.natAbs_natCast]

/-- Adding a zero changes nothing but the sign of -0.0 (00_scope.md R9). -/
theorem Fp.add_zero {x : Fp} (h : x.Double) (hx : x ≠ .fin true 0) (b : Bool) :
    x.add (.fin b 0) = x := by
  obtain ⟨n, m, hm, rfl⟩ := h
  have hzero : Fp.signed b 0 = 0 := by cases b <;> rfl
  rw [Fp.add_fin_fin, hzero, Int.add_zero, Fp.natAbs_signed, Fp.round64_one_of_finite64 _ hm]
  cases n with
  | false =>
    rw [Fp.signed_false]
    split
    · rename_i h0
      rw [Bool.false_and, Int.ofNat_eq_zero.1 h0]
    · rw [decide_eq_false (by omega)]
  | true =>
    have hne : m ≠ 0 := fun h0 => hx (by rw [h0])
    rw [Fp.signed_true, if_neg (by omega), decide_eq_true (by omega)]

theorem Fp.zero_add {x : Fp} (h : x.Double) (hx : x ≠ .fin true 0) (b : Bool) :
    (Fp.fin b 0).add x = x := by
  obtain ⟨n, m, -, rfl⟩ := id h
  rw [Fp.fin_add_comm, Fp.add_zero h hx]

theorem Fp.zero_add_zero (a b : Bool) : (Fp.fin a 0).add (.fin b 0) = .fin (a && b) 0 := by
  cases a <;> cases b <;> rfl

/-- A pattern other than that of -0.0 is no -0.0. -/
theorem Fp.ofBits32_ne_negZero {w : Word} (hw : w ≠ 0x80000000) :
    Fp.ofBits32 w ≠ .fin true 0 := by
  intro h
  have hround := Fp.toBits32_toF32_ofBits32 w 0 (by rw [h]; rfl)
  rw [h] at hround
  exact hw (hround.symm.trans (by decide +kernel))

theorem Fp.ofNat_ne_negZero (n : Nat) : Fp.ofNat n ≠ .fin true 0 := fun h =>
  Bool.false_ne_true (Fp.fin.inj h).1

/-- `floor(v + 0.5)` of an unsigned sample is the sample (40_color_transform.md R144). -/
theorem Fp.floor_ofNat_add_half {n : Nat} (h : n < 2 ^ 16) :
    ((Fp.ofNat n).add .half).floor? = some (n : Int) := by
  obtain ⟨half, hhalf⟩ : ∃ half, half = 2 ^ 1073 := exists_eq
  have hpos : 0 < half := by rw [hhalf]; positivity
  have hone : Fp.one = 2 * half := by
    rw [hhalf, Fp.one, two_pow_split (a := 1) (b := 1073) (c := 1074) rfl, Nat.pow_one]
  have hfin : Finite64 (n * Fp.one + half) := by
    have hsum : n * Fp.one + half = (2 * n + 1) * 2 ^ 1073 := by rw [hone, ← hhalf]; ring
    rw [hsum]
    exact finite64_mul_two_pow (j := 17) 1073 (by omega) (by decide) (by decide)
  have hadd : (Fp.ofNat n).add .half = .fin false (n * Fp.one + half) := by
    rw [Fp.ofNat, Fp.half, ← hhalf, Fp.add_fin_fin, Fp.signed_false, Fp.signed_false,
      ← Nat.cast_add, if_neg (by omega), decide_eq_false (by omega), Int.natAbs_natCast,
      Fp.round64_one_of_finite64 _ hfin]
  have hdiv : (n * Fp.one + half) / Fp.one = n := by
    rw [Nat.mul_comm, Nat.mul_add_div Fp.one_pos, Nat.div_eq_of_lt (by omega), Nat.add_zero]
  rw [hadd, Fp.floor?, Fp.signed_false, ← Int.natCast_ediv, hdiv]

end Sys2Proof

namespace Sys2Proof.Machine

open Sys2Proof

/-! ## The identity matrix path -/

/-- The rows of the identity as values. -/
theorem matRow_identityMat : matRow identityMat 0 = ⟨.fin false Fp.one, .zero, .zero⟩ ∧
    matRow identityMat 1 = ⟨.zero, .fin false Fp.one, .zero⟩ ∧
    matRow identityMat 2 = ⟨.zero, .zero, .fin false Fp.one⟩ := by decide +kernel

/-- A row of the identity picks its component, where the products with 0 are zeros and the
component is no -0.0 (40_color_transform.md R151). -/
theorem dotLeft_identity {a : V3} (h0 : a.x0.Double) (h1 : a.x1.Double) (h2 : a.x2.Double)
    (k : Fin 3) (hk : a.get k.val ≠ .fin true 0) :
    dotLeft (matRow identityMat k) a = a.get k.val := by
  obtain ⟨r0, r1, r2⟩ := matRow_identityMat
  obtain ⟨b0, z0⟩ := Fp.zero_mul h0
  obtain ⟨b1, z1⟩ := Fp.zero_mul h1
  obtain ⟨b2, z2⟩ := Fp.zero_mul h2
  match k with
  | 0 =>
    have hx : a.x0 ≠ .fin true 0 := hk
    simp only [r0, dotLeft, z1, z2, Fp.one_mul h0, Fp.add_zero h0 hx]
    rfl
  | 1 =>
    have hx : a.x1 ≠ .fin true 0 := hk
    simp only [r1, dotLeft, z0, z2, Fp.one_mul h1, Fp.zero_add h1 hx, Fp.add_zero h1 hx]
    rfl
  | 2 =>
    have hx : a.x2 ≠ .fin true 0 := hk
    simp only [r2, dotLeft, z0, z1, Fp.one_mul h2, Fp.zero_add_zero, Fp.zero_add h2 hx]
    rfl

/-- The pixel path of the identity mode, component by component. -/
theorem ctPixel_identity {s : State} {a : V3} (hd : s.cfg.dotKind = .leftToRight)
    (hc : s.ctObj.clf = false) (ht : s.ctObj.tpAct = false) (hm : s.ctObj.mat = identityMat)
    (h0 : a.x0.Double) (h1 : a.x1.Double) (h2 : a.x2.Double)
    (k : Fin 3) (hk : a.get k.val ≠ .fin true 0) : (ctPixel s a).get k.val = a.get k.val := by
  have hrow : (ctPixel s a).get k.val = dotLeft (matRow identityMat k) a := by
    rw [ctPixel_matrix a hc ht, matPath, hd, hm]
    match k with
    | 0 | 1 | 2 => rfl
  rw [hrow, dotLeft_identity h0 h1 h2 k hk]

theorem clampi_of_mem {v lo hi : Int} (h : lo ≤ v ∧ v ≤ hi) : clampi v lo hi = v := by
  rw [clampi, if_neg (not_lt.2 h.1), if_neg (not_lt.2 h.2)]

/-- A sample within its bounds is rounded to itself (40_color_transform.md R144). -/
theorem ctRound_ofNat (draw a : Nat) {lo hi n : Nat} (hn : n < 2 ^ 16) (hlo : lo ≤ n)
    (hhi : n ≤ hi) : ctRound draw a lo hi (.ofNat n) = n := by
  have hmem : (lo : Int) ≤ n ∧ (n : Int) ≤ hi := by omega
  simp only [ctRound, Fp.floor_ofNat_add_half hn, Option.getD_some, clampi_of_mem hmem,
    Int.toNat_natCast]

/-- Component k of a vector given by its components. -/
theorem V3.get_mk (f : Fin 3 → Fp) (k : Fin 3) : (V3.mk (f 0) (f 1) (f 2)).get k.val = f k := by
  match k with
  | 0 | 1 | 2 => rfl

/-- Settles O30: the identity rows pick the component, whose narrowing or rounding is exact. -/
theorem identityPassesThrough : Obligations.IdentityPassesThrough := by
  intro s k hd hc ht hm
  refine ⟨fun w q hw hk => ?_, fun n draw a lo hi hn hlo hhi => ?_⟩
  · have hdouble := fun j => (Fp.ofBits32_single (hw j)).double
    have hget := V3.get_mk (fun j => Fp.ofBits32 (w j)) k
    have hne := Fp.ofBits32_ne_negZero hk
    rw [ctPixel_identity hd hc ht hm (hdouble 0) (hdouble 1) (hdouble 2) k (hget.trans_ne hne),
      hget]
    exact Fp.toBits32_toF32_ofBits32 _ q (Fp.isNan_of_isFinite (hw k))
  · have hdouble := fun j => Fp.ofNat_double (hn j)
    have hget := V3.get_mk (fun j => Fp.ofNat (n j)) k
    have hne := Fp.ofNat_ne_negZero (n k)
    rw [ctPixel_identity hd hc ht hm (hdouble 0) (hdouble 1) (hdouble 2) k (hget.trans_ne hne),
      hget]
    exact ctRound_ofNat draw a (hn k) hlo hhi

end Sys2Proof.Machine
end

section
/-! `CR.SETUP`, the fatal preconditions of the conversions and the members a bank lacks
(spec/41_filter_primitives.md R198, R210). -/

namespace Sys2Proof.Machine

open Sys2Proof

/-! ## CR.SETUP -/

/-- Settles O32: past the head the locations are judged first, then the bank. -/
theorem crSetupEffect : Obligations.CrSetupEffect := by
  intro s hf bad bank
  have hrun := fun run => command_run (i := .crSetup) hf rfl run
  refine ⟨fun hbad => (hrun _).trans (if_pos hbad), fun hbad hnone => ?_, fun hbad hsome => ?_⟩
  · refine (hrun _).trans ((if_neg hbad).trans ?_)
    simp only [show s.cfg.bank s.crPar.locTop s.crPar.dnSel s.crPar.upSel = none from hnone]
    rfl
  · obtain ⟨b, hb⟩ := Option.ne_none_iff_exists'.1 hsome
    refine (hrun _).trans ((if_neg hbad).trans ?_)
    simp only [show s.cfg.bank s.crPar.locTop s.crPar.dnSel s.crPar.upSel = some b from hb]
    rfl

/-! ## The fatal preconditions -/

section
variable {fo fi : FrameDesc}

theorem fatalCheck_kind (h : fi.isFloat ≠ fo.isFloat) : fatalCheck fo fi = some .fKind :=
  if_pos (bne_iff_ne.2 h)

variable (hk : fi.isFloat = fo.isFloat)
include hk

theorem fatalCheck_depth (hi : fi.isFloat = false) (hd : fi.depth ≠ fo.depth) :
    fatalCheck fo fi = some .fDepth := by
  simp [fatalCheck, ← hk, hi, hd]

theorem fatalCheck_size (hd : fi.isFloat = true ∨ fi.depth = fo.depth)
    (hc : fi.count 0 ≠ fo.count 0) : fatalCheck fo fi = some .fSize := by
  rcases hd with hd | hd <;> simp [fatalCheck, ← hk, hd, hc]

end

theorem crConvert_fatal {s : State} {o i : Fin 4} (hv : s.status.crValid = true) {e : Event}
    (h : fatalCheck (s.slot o) (s.slot i) = some e) (up : Bool)
    (plan : FilterBank → Option Plan) (lvl : Nat) :
    crConvert up plan lvl s o i = .next (s.raise e) := by
  simp [crConvert, hv, h]

/-- Settles O33: what `fatalCheck` answers ends the run of each conversion. -/
theorem conversionFatalChecks : Obligations.ConversionFatalChecks := by
  intro s fdo fdi lvl ho hi hl hf hv c hc fo fi stop
  obtain ⟨up, plan, l, -, hexec⟩ := exec_conversion hc
  have hrun : ∀ {e}, fatalCheck fo fi = some e → exec c s = .next (s.raise e) := fun he => by
    rw [exec_of_conversion ho hi hl hf hc (hexec s), crConvert_fatal hv he]
  exact ⟨fun hk => hrun (fatalCheck_kind hk), fun hk hfix hd => hrun (fatalCheck_depth hk hfix hd),
    fun hk hd hn => hrun (fatalCheck_size hk hd hn)⟩

/-! ## A conversion that is ready -/

section
variable {up : Bool} {s : State} {o i : Fin 4} (h : s.crReady up o i)
include h

theorem State.crReady.fatalCheck_none : fatalCheck (s.slot o) (s.slot i) = none :=
  fatalCheck_eq_none.2 ⟨h.sameKind, h.sameDepth, h.sameCount⟩

/-- A conversion that is ready lacks a member of the bank, which is `E_BADPARAM`. -/
theorem State.crReady.crConvert_badParam {plan : FilterBank → Option Plan} {b : FilterBank}
    (hb : s.crBank = some b) (hp : plan b = none) (lvl : Nat) :
    crConvert up plan lvl s o i = .next (s.raise .eBadParam) :=
  crConvert_noPlan h.valid h.fatalCheck_none h.duties (by rw [hb]; exact hp)

/-- A conversion that is ready, with the members it needs, comes to its effects. -/
theorem State.crReady.crConvert_run {plan : FilterBank → Option Plan} {b : FilterBank}
    (hb : s.crBank = some b) {p : Plan} (hp : plan b = some p) (lvl : Nat) :
    crConvert up plan lvl s o i = crTransform up p lvl s o i :=
  crConvert_plan h.valid h.fatalCheck_none h.duties (by rw [hb]; exact hp)

end

section
variable {b : FilterBank}

theorem dnGenPlan_none (h : b.gdh = none ∨ b.gdv = none) : dnGenPlan b = none := by
  unfold dnGenPlan
  split
  · simp_all
  · rfl

theorem dnBndPlan_none (h : b.bdh = [] ∨ b.bdv = []) : dnBndPlan b = none :=
  if_pos (by simpa using h)

theorem dnAdpPlan_none
    (h : b.adh.length ≠ 5 ∨ b.adv.length ≠ 5 ∨ b.auh = none ∨ b.auv = none) :
    dnAdpPlan b = none := by
  unfold dnAdpPlan
  split
  · exact if_neg (by simp_all; tauto)
  · rfl

theorem upGenPlan_none (h : b.guh = none ∨ b.guv = none) : upGenPlan b = none := by
  unfold upGenPlan
  split
  · simp_all
  · rfl

theorem upBndPlan_none (h : b.buh.1 = [] ∨ b.buh.2 = [] ∨ b.buv.1 = [] ∨ b.buv.2 = []) :
    upBndPlan b = none :=
  if_pos (by simp; tauto)

end

/-- Settles O34: a plan the bank has no members for, past the duties. -/
theorem missingMembers : Obligations.MissingMembers := by
  intro s fdo fdi lvl b ho hi hl hb bad
  have hc : ∀ {c}, c = .crDnGen fdo fdi lvl ∨ c = .crDnBnd fdo fdi ∨ c = .crDnAdp fdo fdi ∨
      c = .crUpGen fdo fdi lvl ∨ c = .crUpBnd fdo fdi → c ∈ conversionCommands fdo fdi lvl :=
    mem_conversionCommands.2
  have hrun : ∀ {up plan l c}, s.crReady up (slotIdx fdo) (slotIdx fdi) → plan b = none →
      c ∈ conversionCommands fdo fdi lvl →
      exec c s = command c s (crConvert up plan l s (slotIdx fdo) (slotIdx fdi)) → bad c :=
    fun h hp hc hexec => (exec_of_conversion ho hi hl h.running hc hexec).trans
      (h.crConvert_badParam hb hp _)
  refine ⟨fun h => ⟨fun hm => ?_, fun hm => ?_, fun hm => ?_⟩, fun h => ⟨fun hm => ?_, fun hm => ?_⟩⟩
  · exact hrun h (dnGenPlan_none hm) (hc (by simp)) rfl
  · exact hrun h (dnBndPlan_none hm) (hc (by simp)) rfl
  · exact hrun h (dnAdpPlan_none hm) (hc (by simp)) rfl
  · exact hrun h (upGenPlan_none hm) (hc (by simp)) rfl
  · exact hrun h (upBndPlan_none hm) (hc (by simp)) rfl

end Sys2Proof.Machine
end

section
/-! The sums over a support and the extrema of a trimmed support
(spec/41_filter_primitives.md R193, R194, R200, R202, R204, R206). -/

namespace Sys2Proof.Machine

open Sys2Proof

/-! ## The taps of a support -/

theorem clampIdx_eq_clampi {n : Nat} (hn : 0 < n) (t : Int) :
    clampIdx n t = (clampi t 0 (n - 1)).toNat := by
  unfold clampIdx clampi
  split
  · rfl
  · split <;> omega

theorem clampIdx_lt {n : Nat} (hn : 0 < n) (t : Int) : clampIdx n t < n := by
  unfold clampIdx
  split <;> omega

/-- An index that is in the line stays (41_filter_primitives.md R193). -/
theorem clampIdx_of_lt {n k : Nat} (h : k < n) : clampIdx n k = k := by
  rw [clampIdx, if_neg (by omega)]
  omega

section
variable {α : Type} [Inhabited α]

/-- The sample under tap `k` of the filter at centre `c` (41_filter_primitives.md R194). -/
def tapAt (F : ScaleFilter) (x : List α) (c k : Nat) : α :=
  x.getD (clampIdx x.length ((c : Int) + k - F.posOffset)) default

theorem tapValues_eq (F : ScaleFilter) (x : List α) (c : Nat) :
    tapValues F x c = (List.range (taps F)).map (tapAt F x c) := by
  simp only [tapValues, support, List.map_map, List.bind_eq_flatMap, List.pure_def,
    ← List.map_eq_flatMap]
  rfl

theorem tapAt_eq_clampi (F : ScaleFilter) {x : List α} (hx : x ≠ []) (c k : Nat) :
    tapAt F x c k = x.getD (clampi ((c : Int) + k - F.posOffset) 0 (x.length - 1)).toNat default := by
  rw [tapAt, clampIdx_eq_clampi (List.length_pos_of_ne_nil hx)]

theorem tapAt_mem (F : ScaleFilter) {x : List α} (hx : x ≠ []) (c k : Nat) : tapAt F x c k ∈ x := by
  have hlt := clampIdx_lt (List.length_pos_of_ne_nil hx) ((c : Int) + k - F.posOffset)
  rw [tapAt, List.getD_eq_getElem _ _ hlt]
  exact List.getElem_mem hlt

/-- The coefficients beside the samples they meet. -/
theorem zip_tapValues {β : Type} (F : ScaleFilter) (x : List α) (c : Nat) (K : List β)
    (hK : K.length = taps F) (d : β) :
    K.zip (tapValues F x c) = (List.range (taps F)).map fun k => (K.getD k d, tapAt F x c k) := by
  rw [tapValues_eq]
  refine List.ext_getElem (by simp [hK]) fun k hk _ => ?_
  have hlt : k < K.length := by simp at hk; omega
  simp [hlt]

/-- The taps that a trim leaves (41_filter_primitives.md R202). -/
theorem mem_trimmed {F : ScaleFilter} {x : List α} {c trim : Nat} {v : α} :
    v ∈ trimmed F trim (tapValues F x c) ↔ ∃ k, min trim ((taps F - 1) / 2) ≤ k ∧
      k < taps F - min trim ((taps F - 1) / 2) ∧ tapAt F x c k = v := by
  rw [trimmed, tapValues_eq]
  simp only [List.mem_take_iff_getElem, List.getElem_drop, List.getElem_map, List.getElem_range,
    List.length_drop, List.length_map, List.length_range]
  constructor
  · rintro ⟨k, hk, rfl⟩
    exact ⟨_, by omega, by omega, rfl⟩
  · rintro ⟨k, hlo, hhi, rfl⟩
    exact ⟨k - min trim ((taps F - 1) / 2), by omega, by congr 1; omega⟩

/-- A trim leaves a tap. -/
theorem trimmed_ne_nil {F : ScaleFilter} (hF : F.fcoef ≠ []) (trim : Nat) (x : List α) (c : Nat) :
    trimmed F trim (tapValues F x c) ≠ [] := by
  have htaps : 0 < taps F := List.length_pos_of_ne_nil hF
  refine List.ne_nil_of_mem (mem_trimmed.2 ⟨_, le_rfl, ?_, rfl⟩)
  omega

end

/-! ## FSUM -/

theorem fsumFrom_eq_foldl (acc : Fp) (ps : List (Word × Fp)) :
    fsumFrom acc ps = ps.foldl (fun acc p => acc.add ((Fp.ofBits32 p.1).mul p.2)) acc := by
  induction ps generalizing acc with
  | nil => rfl
  | cons p ps ih => exact ih _

/-- Settles O37: the accumulation is a fold over the taps of the support. -/
theorem floatSum : Obligations.FloatSum := by
  intro F x c hx cl term
  rw [fsum, fsumFrom_eq_foldl, zip_tapValues F x c F.fcoef rfl 0, List.foldl_map]
  simp only [tapAt_eq_clampi F hx]
  rfl

/-! ## ISUM -/

/-- A number of int32 (41_filter_primitives.md R206). -/
def IsInt32 (v : Int) : Prop := -(2 ^ 31) ≤ v ∧ v < 2 ^ 31

/-- Every term and every partial sum from `acc` on is int32 (41_filter_primitives.md R206). -/
def Int32Sums (acc : Int) (ts : List Int) : Prop :=
  ∀ k, k < ts.length → IsInt32 (ts.getD k 0) ∧ IsInt32 (acc + (ts.take (k + 1)).sum)

theorem int32Sums_cons {acc t : Int} {ts : List Int} : Int32Sums acc (t :: ts) ↔
    (IsInt32 t ∧ IsInt32 (acc + t)) ∧ Int32Sums (acc + t) ts := by
  constructor
  · refine fun h => ⟨by simpa using h 0 (Nat.succ_pos _), fun k hk => ?_⟩
    simpa [Int.add_assoc] using h (k + 1) (Nat.succ_lt_succ hk)
  · rintro ⟨h0, hs⟩ k hk
    cases k with
    | zero => simpa using h0
    | succ k => simpa [Int.add_assoc] using hs k (Nat.lt_of_succ_lt_succ hk)

/-- The products of a sum of products. -/
def products (ps : List (Word × Int)) : List Int := ps.map fun p => p.1.toInt * p.2

/-- The exact sum, where every number on the way is int32 (41_filter_primitives.md R204, R206). -/
theorem isumFrom_of_fits {acc : Int} {ps : List (Word × Int)} (h : Int32Sums acc (products ps)) :
    isumFrom acc ps = .ok (acc + (products ps).sum) := by
  induction ps generalizing acc with
  | nil => simp [isumFrom, products]
  | cons p ps ih =>
    obtain ⟨⟨hterm, hacc⟩, hrest⟩ := int32Sums_cons.1 h
    simp only [isumFrom, int32?_eq_ok hterm, int32?_eq_ok hacc]
    rw [ih hrest]
    simp [products, Int.add_assoc]

theorem isumFrom_of_overflow {acc : Int} {ps : List (Word × Int)}
    (h : ¬ Int32Sums acc (products ps)) : isumFrom acc ps = .error .int32Overflow := by
  induction ps generalizing acc with
  | nil => exact absurd (fun k hk => absurd hk (Nat.not_lt_zero k)) h
  | cons p ps ih =>
    by_cases hterm : IsInt32 (p.1.toInt * p.2)
    · by_cases hacc : IsInt32 (acc + p.1.toInt * p.2)
      · simp only [isumFrom, int32?_eq_ok hterm, int32?_eq_ok hacc]
        exact ih fun hrest => h (int32Sums_cons.2 ⟨⟨hterm, hacc⟩, hrest⟩)
      · simp only [isumFrom, int32?_eq_ok hterm, int32?_eq_error hacc]
    · simp only [isumFrom, int32?_eq_error hterm]

/-- The product under tap `k` (41_filter_primitives.md R204). -/
def tapProduct (F : ScaleFilter) (x : List Int) (c k : Nat) : Int :=
  (F.icoef.getD k 0).toInt * tapAt F x c k

theorem products_tapValues {F : ScaleFilter} (hF : F.icoef.length = F.fcoef.length) (x : List Int)
    (c : Nat) : products (F.icoef.zip (tapValues F x c)) =
      (List.range F.icoef.length).map (tapProduct F x c) := by
  rw [zip_tapValues F x c F.icoef hF 0, products, List.map_map, hF]
  rfl

theorem int32Sums_range {n : Nat} {f : Nat → Int} : Int32Sums 0 ((List.range n).map f) ↔
    ∀ k, k < n → IsInt32 (f k) ∧ IsInt32 ((List.range (k + 1)).map f).sum := by
  unfold Int32Sums
  rw [List.length_map, List.length_range]
  refine forall₂_congr fun k hk => ?_
  rw [← List.map_take, List.take_range, Nat.min_eq_left hk, Int.zero_add,
    List.getD_eq_getElem _ _ (by simpa using hk), List.getElem_map, List.getElem_range]

/-- Settles O38: `isumFrom` over the products under the taps. -/
theorem fixedSum : Obligations.FixedSum := by
  intro F x c hx hF cl term sum fits
  have hterm : tapProduct F x c = term := funext fun k => by
    rw [tapProduct, tapAt_eq_clampi F hx]
    rfl
  have hsums : Int32Sums 0 (products (F.icoef.zip (tapValues F x c))) ↔
      ∀ k, k < F.icoef.length → fits (term k) ∧ fits (sum (k + 1)) := by
    rw [products_tapValues hF, hterm]
    exact int32Sums_range
  refine ⟨fun h => ?_, fun h => isumFrom_of_overflow (mt hsums.1 h)⟩
  rw [isum, isumFrom_of_fits (hsums.2 h), products_tapValues hF, hterm, Int.zero_add]

/-! ## MINMAX -/

/-- A fold that keeps one of two, not beyond either in the order `le`, ends with an element that is
not beyond any. -/
theorem foldl_extremum {α : Type} {ok : α → Prop} {le : α → α → Prop} {f : α → α → α}
    (hrefl : ∀ a, ok a → le a a) (htrans : ∀ a b c, le a b → le b c → le a c)
    (hf : ∀ a b, ok a → ok b → ok (f a b) ∧ le (f a b) a ∧ le (f a b) b ∧
      (le a (f a b) ∨ le b (f a b))) {vs : List α} {v : α} (hv : ok v) (hvs : ∀ u ∈ vs, ok u) :
    ok (vs.foldl f v) ∧ (∀ u ∈ v :: vs, le (vs.foldl f v) u) ∧
      ∃ u ∈ v :: vs, le u (vs.foldl f v) := by
  induction vs generalizing v with
  | nil => exact ⟨hv, by simpa using hrefl v hv, v, by simp, hrefl v hv⟩
  | cons w ws ih =>
    obtain ⟨hok, hle, hle', hone⟩ := hf v w hv (hvs w (by simp))
    obtain ⟨hres, hall, u, hu, hback⟩ := ih hok fun u hu => hvs u (by simp [hu])
    have hstep := hall (f v w) (by simp)
    refine ⟨hres, fun u hu => ?_, ?_⟩
    · rcases List.mem_cons.1 hu with rfl | hu
      · exact htrans _ _ _ hstep hle
      · rcases List.mem_cons.1 hu with rfl | hu
        · exact htrans _ _ _ hstep hle'
        · exact hall u (by simp [hu])
    · rcases List.mem_cons.1 hu with rfl | hu
      · exact hone.elim (fun h => ⟨v, by simp, htrans _ _ _ h hback⟩)
          (fun h => ⟨w, by simp, htrans _ _ _ h hback⟩)
      · exact ⟨u, by simp [hu], hback⟩

/-- `MINMAX` on integers: bounds of the trimmed support that are reached. -/
theorem minmaxI_spec {F : ScaleFilter} (hF : F.fcoef ≠ []) (x : List Int) (c trim : Nat) :
    (∀ u ∈ trimmed F trim (tapValues F x c),
      (minmaxI F x c trim).1 ≤ u ∧ u ≤ (minmaxI F x c trim).2) ∧
    (minmaxI F x c trim).1 ∈ trimmed F trim (tapValues F x c) ∧
    (minmaxI F x c trim).2 ∈ trimmed F trim (tapValues F x c) := by
  unfold minmaxI
  have hne := trimmed_ne_nil hF trim x c
  cases hvs : trimmed F trim (tapValues F x c) with
  | nil => exact absurd hvs hne
  | cons v rest =>
    have hmin := foldl_extremum (ok := fun u => u ∈ v :: rest) (le := (· ≤ ·)) (f := min)
      (v := v) (vs := rest) (by simp) (fun _ _ _ => le_trans)
      (fun a b ha hb => by rcases min_choice a b with h | h <;> rw [h] <;> grind)
      (by simp) (by simp +contextual)
    have hmax := foldl_extremum (ok := fun u => u ∈ v :: rest) (le := (· ≥ ·)) (f := max)
      (v := v) (vs := rest) (by simp) (fun _ _ _ => ge_trans)
      (fun a b ha hb => by rcases max_choice a b with h | h <;> rw [h] <;> grind)
      (by simp) (by simp +contextual)
    exact ⟨fun u hu => ⟨hmin.2.1 u hu, hmax.2.1 u hu⟩, hmin.1, hmax.1⟩

end Sys2Proof.Machine

namespace Sys2Proof

/-! ### The order of the numbers of binary64 -/

theorem Fp.le_self {x : Fp} (h : x.isNan = false) : x.le x = true := by
  cases x with
  | nan => cases h
  | inf n => cases n <;> rfl
  | fin n m => exact Fp.fin_le_fin.2 le_rfl

theorem Fp.le_trans {x y z : Fp} (hxy : x.le y = true) (hyz : y.le z = true) : x.le z = true := by
  cases x with
  | nan => cases hxy
  | inf a =>
    cases y with
    | nan => cases hxy
    | inf b => cases z with
      | nan => cases hyz
      | inf c => revert a b c; decide
      | fin c n => simp_all [Fp.le]
    | fin b m =>
      cases z <;> simp_all [Fp.le]
  | fin a l =>
    cases y with
    | nan => cases hxy
    | inf b => cases z <;> simp_all [Fp.le]
    | fin b m =>
      cases z with
      | nan => cases hyz
      | inf c => exact hyz
      | fin c n => exact Fp.fin_le_fin.2 (Int.le_trans (Fp.fin_le_fin.1 hxy) (Fp.fin_le_fin.1 hyz))

theorem Fp.le_of_lt {x y : Fp} (h : x.lt y = true) : x.le y = true := by
  cases x with
  | nan => cases h
  | inf a => cases y with
    | nan => cases h
    | inf b => revert a b; decide
    | fin b n => exact h
  | fin a m => cases y with
    | nan => cases h
    | inf b => exact h
    | fin b n => exact Fp.fin_le_fin.2 (Int.le_of_lt (Fp.fin_lt_fin.1 h))

/-- Of two numbers neither of which is below the other, both are one or both are zeros. -/
theorem Fp.eq_or_zeros {x y : Fp} (hx : x.isNan = false) (hy : y.isNan = false)
    (hxy : x.lt y = false) (hyx : y.lt x = false) :
    x = y ∨ ∃ a b, x = .fin a 0 ∧ y = .fin b 0 := by
  have hle := Fp.le_iff.2 ⟨hx, hy, hyx⟩
  have hge := Fp.le_iff.2 ⟨hy, hx, hxy⟩
  cases x with
  | nan => cases hx
  | inf a =>
    cases y with
    | nan => cases hy
    | inf b => revert a b; decide
    | fin b n => cases a <;> simp_all [Fp.le]
  | fin a m =>
    cases y with
    | nan => cases hy
    | inf b => cases b <;> simp_all [Fp.le]
    | fin b n =>
      have heq := le_antisymm (Fp.fin_le_fin.1 hle) (Fp.fin_le_fin.1 hge)
      cases a <;> cases b <;> simp only [Fp.signed_true, Fp.signed_false] at heq
      · exact .inl (by congr 1; omega)
      · exact .inr ⟨_, _, by congr 1; omega, by congr 1; omega⟩
      · exact .inr ⟨_, _, by congr 1; omega, by congr 1; omega⟩
      · exact .inl (by congr 1; omega)

end Sys2Proof

namespace Sys2Proof.Machine

open Sys2Proof

/-- `a` is at least as extreme as `b`. -/
def Beyond (isMax : Bool) (a b : Fp) : Prop := if isMax then b.le a = true else a.le b = true

theorem beyond_self (isMax : Bool) {a : Fp} (ha : a.isNan = false) : Beyond isMax a a := by
  cases isMax <;> exact Fp.le_self ha

theorem Beyond.trans {isMax : Bool} {a b c : Fp} (hab : Beyond isMax a b) (hbc : Beyond isMax b c) :
    Beyond isMax a c := by
  cases isMax with
  | false => exact Fp.le_trans (x := a) hab hbc
  | true => exact Fp.le_trans (y := b) hbc hab

/-- The two zeros are equal (00_scope.md R9). -/
theorem beyond_zeros (isMax : Bool) (p q : Bool) : Beyond isMax (.fin p 0) (.fin q 0) := by
  have hzero : ∀ n, Fp.signed n 0 = 0 := by decide
  cases isMax <;> exact Fp.fin_le_fin.2 (by rw [hzero, hzero])

/-- The extremum of two numbers is as extreme as either, and one of them is as extreme as it. -/
theorem extremum_spec (isMax : Bool) (vs : List Fp) {a b : Fp} (ha : a.isNan = false)
    (hb : b.isNan = false) :
    (extremum isMax vs a b).isNan = false ∧ Beyond isMax (extremum isMax vs a b) a ∧
      Beyond isMax (extremum isMax vs a b) b ∧
      (Beyond isMax a (extremum isMax vs a b) ∨ Beyond isMax b (extremum isMax vs a b)) := by
  have hself := fun {x : Fp} => beyond_self isMax (a := x)
  unfold extremum
  split
  · have hle := Fp.le_of_lt ‹a.lt b = true›
    cases isMax with
    | false => exact ⟨ha, hself ha, hle, .inl (hself ha)⟩
    | true => exact ⟨hb, hle, hself hb, .inr (hself hb)⟩
  · split
    · have hle := Fp.le_of_lt ‹b.lt a = true›
      cases isMax with
      | false => exact ⟨hb, hle, hself hb, .inr (hself hb)⟩
      | true => exact ⟨ha, hself ha, hle, .inl (hself ha)⟩
    · split
      · subst_vars
        exact ⟨ha, hself ha, hself ha, .inl (hself ha)⟩
      · have hzeros := Fp.eq_or_zeros ha hb (by simpa using ‹¬ a.lt b = true›)
          (by simpa using ‹¬ b.lt a = true›)
        obtain ⟨m, n, rfl, rfl⟩ := hzeros.resolve_left ‹_›
        have hzeros := beyond_zeros isMax
        exact ⟨rfl, hzeros _ _, hzeros _ _, .inl (hzeros _ _)⟩

theorem extremaF_nan {vs : List Fp} (h : ∃ v ∈ vs, v.isNan = true) :
    extremaF vs = .error .nanOrder := if_pos (List.any_eq_true.2 h)

/-- The extrema of numbers: bounds that are reached (41_filter_primitives.md R202). -/
theorem extremaF_spec {vs : List Fp} (hne : vs ≠ []) (h : ∀ v ∈ vs, v.isNan = false) :
    ∃ mn mx, extremaF vs = .ok (mn, mx) ∧ (∀ v ∈ vs, mn.le v = true ∧ v.le mx = true) ∧
      (∃ v ∈ vs, v.le mn = true) ∧ ∃ v ∈ vs, mx.le v = true := by
  cases vs with
  | nil => exact absurd rfl hne
  | cons v rest =>
    have hfold := fun isMax => foldl_extremum (ok := fun u => u.isNan = false) (le := Beyond isMax)
      (f := extremum isMax (v :: rest)) (fun _ => beyond_self isMax) (fun _ _ _ => Beyond.trans)
      (fun _ _ => extremum_spec isMax _) (h v (by simp)) (vs := rest)
      (fun u hu => h u (by simp [hu]))
    obtain ⟨-, hmin, hmin'⟩ := hfold false
    obtain ⟨-, hmax, hmax'⟩ := hfold true
    refine ⟨_, _, ?_, fun u hu => ⟨hmin u hu, hmax u hu⟩, hmin', hmax'⟩
    have hno : ¬ (v :: rest).any Fp.isNan = true := by
      rw [List.any_eq_true]
      rintro ⟨u, hu, hnan⟩
      rw [h u hu] at hnan
      cases hnan
    rw [extremaF, if_neg hno]

/-- Settles O39: the trimmed support is the taps the trim leaves, and `MINMAX` bounds it. -/
theorem minMaxOfSupport : Obligations.MinMaxOfSupport := by
  intro F c trim hF tr tap
  refine ⟨fun x hx => ?_, fun x hx => ?_⟩
  · have hat : ∀ k, x.getD (tap x.length k) 0 = tapAt F x c k := fun k =>
      (tapAt_eq_clampi F hx c k).symm
    obtain ⟨hall, hmin, hmax⟩ := minmaxI_spec hF x c trim
    simp only [hat]
    exact ⟨_, _, rfl, fun k hlo hhi => hall _ (mem_trimmed.2 ⟨k, hlo, hhi, rfl⟩),
      mem_trimmed.1 hmin, mem_trimmed.1 hmax⟩
  · intro at'
    have hat : ∀ k, at' k = tapAt F x c k := fun k => (tapAt_eq_clampi F hx c k).symm
    simp only [hat]
    refine ⟨fun ⟨k, hlo, hhi, hnan⟩ => extremaF_nan ⟨_, mem_trimmed.2 ⟨k, hlo, hhi, rfl⟩, hnan⟩,
      fun h => ?_⟩
    obtain ⟨mn, mx, heq, hall, ⟨u, hu, hmin⟩, w, hw, hmax⟩ :=
      extremaF_spec (trimmed_ne_nil hF trim x c) fun v hv => by
        obtain ⟨k, hlo, hhi, rfl⟩ := mem_trimmed.1 hv
        exact h k hlo hhi
    obtain ⟨k, hk, hk', rfl⟩ := mem_trimmed.1 hu
    obtain ⟨l, hl, hl', rfl⟩ := mem_trimmed.1 hw
    exact ⟨mn, mx, heq, fun k hlo hhi => hall _ (mem_trimmed.2 ⟨k, hlo, hhi, rfl⟩),
      ⟨k, hk, hk', hmin⟩, l, hl, hl', hmax⟩

end Sys2Proof.Machine
end

section
/-! A constant line goes through a well-formed filter unchanged
(spec/41_filter_primitives.md R192, 42_chroma_down.md R243). -/

namespace Sys2Proof.Machine

open Sys2Proof

/-! ## Well-formed filters -/

theorem log2?_eq_some {v : Int} {n : Nat} (h : log2? v = some n) : v = 2 ^ n := by
  unfold log2? at h
  dsimp only at h
  split at h
  · rename_i hv
    cases h
    have hpow : ((2 ^ Nat.log2 v.toNat : Nat) : Int) = v := by omega
    exact hpow.symm.trans (by simp)
  · cases h

/-- What (W1), (W4) and the field ranges say of a filter (41_filter_primitives.md R191, R192). -/
structure FilterFacts (F : ScaleFilter) : Prop where
  taps_ne : F.fcoef ≠ []
  lengths : F.icoef.length = F.fcoef.length
  finite : ∀ w ∈ F.fcoef, (Fp.ofBits32 w).isFinite = true
  integral : ∀ w ∈ F.fcoef, (Fp.ofBits32 w).mag % Fp.one = 0
  modest : (F.fcoef.map fun w => (Fp.ofBits32 w).mag).sum < 2 ^ 20 * Fp.one
  scale : ∃ n, (F.fcoef.map fun w => (Fp.ofBits32 w).int).sum = 2 ^ n ∧
    Fp.ofBits32 F.fscale = .fin false (Fp.one / 2 ^ n)

theorem filterFacts_of_filterOk {F : ScaleFilter} (h : filterOk F = true) : FilterFacts F := by
  simp only [filterOk, taps, Bool.and_eq_true, decide_eq_true_eq, beq_iff_eq, List.all_map,
    List.all_eq_true, List.map_map, Function.comp_apply] at h
  obtain ⟨⟨⟨⟨⟨⟨⟨htaps, hlen⟩, -⟩, -⟩, hfin⟩, hint⟩, hmod⟩, hscale⟩ := h
  refine ⟨List.ne_nil_of_length_pos (of_decide_eq_true htaps), hlen, hfin, hint, hmod, ?_⟩
  split at hscale
  · rename_i n hn
    exact ⟨n, log2?_eq_some hn, eq_of_beq hscale⟩
  · cases hscale

/-! ## Constant integer lines -/

theorem tapAt_replicate {α : Type} [Inhabited α] (F : ScaleFilter) {n : Nat} (hn : 0 < n) (v : α)
    (c k : Nat) : tapAt F (List.replicate n v) c k = v :=
  List.eq_of_mem_replicate (tapAt_mem F (by simp; omega) c k)

/-- The value of `ISUM`, where it has one (41_filter_primitives.md R204). -/
theorem isum_ok {F : ScaleFilter} {x : List Int} {c : Nat} {v : Int} (h : isum F x c = .ok v) :
    v = (products (F.icoef.zip (tapValues F x c))).sum := by
  by_cases hfits : Int32Sums 0 (products (F.icoef.zip (tapValues F x c)))
  · rw [isum, isumFrom_of_fits hfits, Int.zero_add] at h
    cases h
    rfl
  · rw [isum, isumFrom_of_overflow hfits] at h
    cases h

theorem clampi_self (v : Int) : clampi v v v = v := clampi_of_mem ⟨le_rfl, le_rfl⟩

section
variable {F : ScaleFilter} (hF : FilterFacts F) {n : Nat} (hn : 0 < n) {k v : Int} {c : Nat}
include hF hn

/-- The sum of a constant line is the constant times the gain. -/
theorem isum_replicate (h : isum F (List.replicate n k) c = .ok v) : v = k * gain F := by
  have hprod : products (F.icoef.zip (tapValues F (List.replicate n k) c)) =
      F.icoef.map fun w => k * w.toInt := by
    rw [products_tapValues hF.lengths]
    refine List.ext_getElem (by simp) fun j hj _ => ?_
    have hlt : j < F.icoef.length := by simpa using hj
    simp [tapProduct, tapAt_replicate F hn, hlt, Int.mul_comm]
  rw [isum_ok h, hprod, List.sum_map_mul_left, gain]

theorem minmaxI_replicate (trim : Nat) : minmaxI F (List.replicate n k) c trim = (k, k) := by
  obtain ⟨-, hmin, hmax⟩ := minmaxI_spec hF.taps_ne (List.replicate n k) c trim
  obtain ⟨i, -, -, hi⟩ := mem_trimmed.1 hmin
  obtain ⟨j, -, -, hj⟩ := mem_trimmed.1 hmax
  rw [tapAt_replicate F hn] at hi hj
  exact Prod.ext hi.symm hj.symm

/-- The bounds of a constant line are its own sum. -/
theorem boundI_replicate {e : CrEnv} (h : boundI e F (List.replicate n k) c (k * gain F) = .ok v) :
    v = k * gain F := by
  unfold boundI at h
  split at h
  · cases h
    rfl
  · simp only [minmaxI_replicate hF hn] at h
    by_cases hfits : IsInt32 (k * gain F)
    · simp only [int32?_eq_ok hfits, clampi_self] at h
      cases h
      rfl
    · simp only [int32?_eq_error hfits] at h
      cases h

theorem firstI_replicate {e : CrEnv} (h : firstI e F (List.replicate n k) c = .ok v) :
    v = k * gain F := by
  unfold firstI at h
  split at h
  · cases h
  · rename_i S hS
    rw [isum_replicate hF hn hS] at h
    exact boundI_replicate hF hn h

theorem finalI_replicate {e : CrEnv} {lo hi : Int}
    (h : finalI e lo hi F (List.replicate n k) c = .ok v) :
    v = clampi (asr (k * gain F + F.ioffset.toInt) F.ishift) lo hi := by
  unfold finalI at h
  split at h
  · cases h
  · rename_i S hS
    rw [isum_replicate hF hn hS] at h
    split at h
    · rename_i S' _ hS'
      rw [boundI_replicate hF hn hS'] at h
      by_cases hfits : IsInt32 (k * gain F + F.ioffset.toInt)
      · rw [int32?_eq_ok hfits] at h
        cases h
        rfl
      · rw [int32?_eq_error hfits] at h
        cases h
    · cases h

end

/-- The rounding offset is below one unit of the shift (41_filter_primitives.md R192 (W3)). -/
theorem halfOf_mem (s : Nat) : 0 ≤ halfOf s ∧ halfOf s < 2 ^ s := by
  unfold halfOf
  split
  · subst_vars
    decide
  · obtain ⟨r, rfl⟩ := Nat.exists_eq_succ_of_ne_zero ‹s ≠ 0›
    have hpos : (0 : Int) < 2 ^ r := by positivity
    rw [Nat.succ_eq_add_one, Nat.add_sub_cancel, pow_succ]
    omega

/-- Offset and shift undo a gain of `2 ^ s` (41_filter_primitives.md R192 (W3)). -/
theorem asr_halfOf (k : Int) (s : Nat) : asr (k * 2 ^ s + halfOf s) s = k := by
  obtain ⟨hlo, hhi⟩ := halfOf_mem s
  have hpos : (0 : Int) < 2 ^ s := by positivity
  rw [asr, Int.add_comm, Int.add_mul_ediv_right _ _ hpos.ne', Int.ediv_eq_zero_of_lt hlo hhi,
    Int.zero_add]

/-- The gains, the shift and the offset of a chain (41_filter_primitives.md R192 (W2), (W3)). -/
theorem chainOk_gains {fs gs : List ScaleFilter} (h : chainOk fs gs = true) {A B : ScaleFilter}
    (hA : A ∈ fs) (hB : B ∈ gs) : ∃ s1 s2, gain A = 2 ^ s1 ∧ gain B = 2 ^ s2 ∧
      B.ishift = s1 + s2 ∧ B.ioffset.toInt = halfOf (s1 + s2) := by
  unfold chainOk at h
  split at h
  · cases h
  · rename_i s1 _
    simp only [Bool.and_eq_true, List.all_eq_true, beq_iff_eq] at h
    obtain ⟨hfirst, hfinal⟩ := h
    have hok := hfinal B hB
    unfold finalOk at hok
    split at hok
    · cases hok
    · rename_i s2 hs2
      simp only [Bool.and_eq_true, beq_iff_eq] at hok
      obtain ⟨hshift, hoffset⟩ := hok
      exact ⟨s1, s2, hfirst A hA, log2?_eq_some hs2, hshift, hoffset⟩

/-- Settles O46: each pass multiplies by its gain, and offset and shift of the final one undo both
gains. -/
theorem fixedDcPreserved : Obligations.FixedDcPreserved := by
  intro e fs gs A B n m i j k S q lo hi hchain hA hB hokA hokB hn hm hS hq
  obtain ⟨s1, s2, hgA, hgB, hshift, hoffset⟩ := chainOk_gains hchain hA hB
  have hfirst := firstI_replicate (filterFacts_of_filterOk hokA) hn hS
  have hfinal := finalI_replicate (filterFacts_of_filterOk hokB) hm hq
  refine ⟨hfirst, ?_⟩
  rw [hfinal, hfirst, hgA, hgB, hshift, hoffset, Int.mul_assoc, ← Int.pow_add, asr_halfOf]

end Sys2Proof.Machine

namespace Sys2Proof

/-! ## Constant float lines -/

/-- The value of `z` times 2^-1074, +0.0 for 0. -/
def Fp.ofUnits (z : Int) : Fp := .fin (z < 0) z.natAbs

theorem Fp.signed_bne (a b : Bool) (m n : Nat) :
    Fp.signed (a != b) (m * n) = Fp.signed a m * Fp.signed b n := by
  cases a <;> cases b <;> simp [Fp.signed_true, Fp.signed_false]

/-- A sum that binary64 holds is exact (00_scope.md R9). -/
theorem Fp.ofUnits_add {z : Int} {b : Bool} {m : Nat}
    (h : Finite64 (z + Fp.signed b m).natAbs) :
    (Fp.ofUnits z).add (.fin b m) = .ofUnits (z + Fp.signed b m) := by
  have hz : Fp.signed (decide (z < 0)) z.natAbs = z := by
    by_cases hneg : z < 0 <;> simp only [hneg, decide_true, decide_false, Fp.signed_true,
      Fp.signed_false] <;> omega
  rw [Fp.ofUnits, Fp.add_fin_fin, hz, Fp.round64_one_of_finite64 _ h, Fp.ofUnits]
  split
  · rename_i h0
    have hsign : (decide (z < 0) && b) = false := by
      cases b with
      | false => exact Bool.and_false _
      | true =>
        rw [Fp.signed_true] at h0
        simp only [Bool.and_true, decide_eq_false_iff_not]
        omega
    rw [hsign, h0]
    rfl
  · rfl

theorem Fp.mul_fin_one (a b : Bool) (m n : Nat) :
    (Fp.fin a m).mul (.fin b n) = Fp.round64 (a != b) (m * n) Fp.one := rfl

/-- A product with an integer that binary64 holds is exact (00_scope.md R9). -/
theorem Fp.integral_mul (a b : Bool) {j m : Nat} (h : Finite64 (j * m)) :
    (Fp.fin a (j * Fp.one)).mul (.fin b m) = .fin (a != b) (j * m) := by
  have hmul : j * Fp.one * m = j * m * Fp.one := by ring
  rw [Fp.mul_fin_one, hmul, Fp.round64_of_finite64 _ h Fp.one_pos]

/-- A finite integral value (41_filter_primitives.md R192 (W1)). -/
theorem Fp.exists_integral {x : Fp} (hfin : x.isFinite = true) (hint : x.mag % Fp.one = 0) :
    ∃ a j, x = .fin a (j * Fp.one) ∧ x.int = Fp.signed a j ∧ x.mag = j * Fp.one := by
  cases x with
  | nan | inf => cases hfin
  | fin a m =>
    have hm : m / Fp.one * Fp.one = m := Nat.div_mul_cancel (Nat.dvd_of_mod_eq_zero hint)
    exact ⟨a, m / Fp.one, by rw [hm], rfl, hm.symm⟩

/-- A coefficient of at most 20 bits times a binary32 value is held by binary64. -/
theorem Finite32.finite64_mul {u j : Nat} (h : Finite32 u) (hj : j < 2 ^ 20) :
    Finite64 (j * (u * Fp.ulp32)) := by
  obtain ⟨⟨c, e, -, hc, rfl⟩, hlt⟩ := h
  have hjc : j * c < 2 ^ 20 * 2 ^ 24 := Nat.mul_lt_mul'' hj hc
  refine ⟨⟨j * c, e + 925, Nat.zero_le _, lt_of_lt_of_le hjc (by decide), ?_⟩, ?_⟩
  · rw [Nat.pow_add, Fp.ulp32]
    simp only [Nat.mul_assoc]
  · refine lt_overflow64 (k := 1222) ?_ (by decide)
    rw [two_pow_split (a := 20) (b := 1202) rfl]
    exact Nat.mul_lt_mul'' hj (Fp.lt_overflow32.2 hlt)

end Sys2Proof

namespace Sys2Proof.Machine

open Sys2Proof

section
variable {ws : List Word} (hfin : ∀ w ∈ ws, (Fp.ofBits32 w).isFinite = true)
  (hint : ∀ w ∈ ws, (Fp.ofBits32 w).mag % Fp.one = 0)
include hfin hint

/-- The sum of integers is at most that of their magnitudes. -/
theorem natAbs_sum_int_le : (ws.map fun w => (Fp.ofBits32 w).int).sum.natAbs * Fp.one ≤
    (ws.map fun w => (Fp.ofBits32 w).mag).sum := by
  induction ws with
  | nil => simp
  | cons w ws ih =>
    obtain ⟨a, j, -, hj, hmag⟩ := Fp.exists_integral (hfin w (by simp)) (hint w (by simp))
    have hrest := ih (fun w hw => hfin w (by simp [hw])) fun w hw => hint w (by simp [hw])
    simp only [List.map_cons, List.sum_cons, hj, hmag]
    calc _ ≤ (j + (ws.map fun w => (Fp.ofBits32 w).int).sum.natAbs) * Fp.one :=
          Nat.mul_le_mul_right _ ((Int.natAbs_add_le _ _).trans_eq (by rw [Fp.natAbs_signed]))
      _ ≤ _ := by rw [Nat.add_mul]; exact Nat.add_le_add_left hrest _

/-- The accumulation over a constant binary32 value is exact: the sum of the coefficients so far
times the value. -/
theorem fsumFrom_const {b : Bool} {u : Nat} (hu : Finite32 u) {y : Int}
    (hmod : y.natAbs * Fp.one + (ws.map fun w => (Fp.ofBits32 w).mag).sum < 2 ^ 20 * Fp.one) :
    fsumFrom (.ofUnits (y * Fp.signed b (u * Fp.ulp32)))
        (ws.map fun w => (w, .fin b (u * Fp.ulp32))) =
      .ofUnits ((y + (ws.map fun w => (Fp.ofBits32 w).int).sum) * Fp.signed b (u * Fp.ulp32)) := by
  induction ws generalizing y with
  | nil => simp [fsumFrom]
  | cons w ws ih =>
    obtain ⟨a, j, hw, hj, hmag⟩ := Fp.exists_integral (hfin w (by simp)) (hint w (by simp))
    simp only [List.map_cons, List.sum_cons, hj, hmag] at hmod ⊢
    have hsum : (y + Fp.signed a j).natAbs ≤ y.natAbs + j :=
      (Int.natAbs_add_le _ _).trans_eq (by rw [Fp.natAbs_signed])
    have hstep := Nat.mul_le_mul_right Fp.one hsum
    rw [Nat.add_mul] at hstep
    have hsmall : ∀ n, n * Fp.one < 2 ^ 20 * Fp.one → n < 2 ^ 20 := fun n =>
      Nat.lt_of_mul_lt_mul_right
    have hprod := hu.finite64_mul (hsmall j (by omega))
    have hacc := hu.finite64_mul (hsmall (y + Fp.signed a j).natAbs (by omega))
    have hunits : y * Fp.signed b (u * Fp.ulp32) + Fp.signed (a != b) (j * (u * Fp.ulp32)) =
        (y + Fp.signed a j) * Fp.signed b (u * Fp.ulp32) := by rw [Fp.signed_bne]; ring
    have habs : ((y + Fp.signed a j) * Fp.signed b (u * Fp.ulp32)).natAbs =
        (y + Fp.signed a j).natAbs * (u * Fp.ulp32) := by rw [Int.natAbs_mul, Fp.natAbs_signed]
    rw [fsumFrom, hw, Fp.integral_mul a b hprod, Fp.ofUnits_add (by rwa [hunits, habs]), hunits,
      ih (fun w hw => hfin w (by simp [hw])) (fun w hw => hint w (by simp [hw])) (by omega),
      Int.add_assoc]

end

theorem natAbs_two_pow (n : Nat) : ((2 : Int) ^ n).natAbs = 2 ^ n := Int.natAbs_pow 2 n

/-- Scaling by a power of two undoes it (41_filter_primitives.md R192 (W1)). -/
theorem ofUnits_mul_scale {n m : Nat} {b : Bool} (hn : n < 20) (hm : Finite64 m)
    (hv : Fp.fin b m ≠ .fin true 0) :
    (Fp.ofUnits (2 ^ n * Fp.signed b m)).mul (.fin false (Fp.one / 2 ^ n)) = .fin b m := by
  have hone : 2 ^ n * (Fp.one / 2 ^ n) = Fp.one :=
    Nat.mul_div_cancel' (pow_dvd_pow 2 (by omega))
  have hmag : (2 ^ n * Fp.signed b m).natAbs * (Fp.one / 2 ^ n) = m * Fp.one := by
    rw [Int.natAbs_mul, Fp.natAbs_signed, natAbs_two_pow, Nat.mul_right_comm, hone, Nat.mul_comm]
  have hsign : decide (2 ^ n * Fp.signed b m < 0) = b := by
    have hpos : (0 : Int) < 2 ^ n := by positivity
    cases b with
    | false =>
      rw [Fp.signed_false]
      exact decide_eq_false (not_lt.2 (Int.mul_nonneg hpos.le (Int.natCast_nonneg m)))
    | true =>
      have hne : m ≠ 0 := fun h => hv (by rw [h])
      rw [Fp.signed_true]
      exact decide_eq_true (mul_neg_of_pos_of_neg hpos (by omega))
  rw [Fp.ofUnits, Fp.mul_fin_one, hmag, hsign, Bool.bne_false,
    Fp.round64_of_finite64 _ hm Fp.one_pos]

theorem tapValues_replicate {α : Type} [Inhabited α] (F : ScaleFilter) {n : Nat} (hn : 0 < n)
    (v : α) (c : Nat) : tapValues F (List.replicate n v) c = List.replicate (taps F) v := by
  have hconst : tapAt F (List.replicate n v) c = fun _ => v :=
    funext (tapAt_replicate F hn v c)
  rw [tapValues_eq, hconst, List.map_const', List.length_range]

/-- Settles O45: the accumulation of a constant is exact, and the scale undoes the gain. -/
theorem floatDcPreserved : Obligations.FloatDcPreserved := by
  intro F n c w hok hn hfin hw
  have hF := filterFacts_of_filterOk hok
  obtain ⟨s, hgain, hscale⟩ := hF.scale
  obtain ⟨b, u, hu, hv⟩ := Fp.ofBits32_single hfin
  have hs : s < 20 := by
    have hle := natAbs_sum_int_le hF.finite hF.integral
    rw [hgain, natAbs_two_pow] at hle
    have hlt := Nat.lt_of_mul_lt_mul_right (hle.trans_lt hF.modest)
    exact (Nat.pow_lt_pow_iff_right (by decide)).1 hlt
  have hne := Fp.ofBits32_ne_negZero hw
  rw [hv] at hne ⊢
  have hzip : F.fcoef.zip (List.replicate (taps F) (Fp.fin b (u * Fp.ulp32))) =
      F.fcoef.map fun w => (w, .fin b (u * Fp.ulp32)) :=
    List.ext_getElem (by simp [taps]) fun k _ _ => by simp
  have hacc := fsumFrom_const hF.finite hF.integral (b := b) hu (y := 0)
    (by simpa using hF.modest)
  rw [Int.zero_mul, Int.zero_add, hgain] at hacc
  rw [fsum, tapValues_replicate F hn, hzip, hscale]
  exact (congrArg (Fp.mul · _) hacc).trans (ofUnits_mul_scale hs hu.finite64 hne)

end Sys2Proof.Machine
end

section
/-! Planes as rows of numbers, and the two passes of a conversion on them
(spec/41_filter_primitives.md R194, R207, 42_chroma_down.md R232, 43_chroma_up.md R271). -/

namespace Sys2Proof.Machine

open Sys2Proof

/-! ## Planes given sample by sample -/

section
variable {α : Type}

/-- The rows of a plane of `w` by `h` samples, sample `x` of row `y` being `f y x`. -/
def planeOf (w h : Nat) (f : Nat → Nat → α) : List (List α) :=
  (List.range h).map fun y => (List.range w).map (f y)

@[simp] theorem planeOf_length (w h : Nat) (f : Nat → Nat → α) : (planeOf w h f).length = h := by
  simp [planeOf]

theorem planeOf_flatten_length (w h : Nat) (f : Nat → Nat → α) :
    (planeOf w h f).flatten.length = h * w := by
  rw [flatten_length (n := w), planeOf_length]
  intro r hr
  obtain ⟨y, -, rfl⟩ := List.mem_map.1 hr
  simp

/-- Sample `x` of row `y` stands at `y * w + x` (20_memory.md R75). -/
theorem planeOf_flatten_getElem? {w h : Nat} (f : Nat → Nat → α) {y x : Nat} (hy : y < h)
    (hx : x < w) : (planeOf w h f).flatten[y * w + x]? = some (f y x) := by
  induction h with
  | zero => exact absurd hy (Nat.not_lt_zero y)
  | succ h ih =>
    have hsplit : (planeOf w (h + 1) f).flatten =
        (planeOf w h f).flatten ++ (List.range w).map (f h) := by
      simp [planeOf, List.range_succ]
    have hlen := planeOf_flatten_length w h f
    rw [hsplit]
    rcases Nat.lt_or_eq_of_le (Nat.le_of_lt_succ hy) with hlt | rfl
    · have hle : (y + 1) * w ≤ h * w := Nat.mul_le_mul_right w hlt
      rw [Nat.succ_mul] at hle
      rw [List.getElem?_append_left (by omega), ih hlt]
    · rw [List.getElem?_append_right (by omega), hlen, Nat.add_sub_cancel_left]
      simp [hx]

theorem rowsOf_range (w h : Nat) (g : Nat → α) :
    rowsOf w h ((List.range (w * h)).map g) = planeOf w h fun y x => g (y * w + x) := by
  refine List.map_congr_left fun y hy => ?_
  have hle : (y + 1) * w ≤ h * w := Nat.mul_le_mul_right w (List.mem_range.1 hy)
  rw [Nat.succ_mul, Nat.mul_comm h] at hle
  refine List.ext_getElem (by simp; omega) fun x _ _ => by simp

/-- The columns of a plane are the rows of the transposed one. -/
theorem columns_planeOf [Inhabited α] (w h : Nat) (f : Nat → Nat → α) :
    columns w (planeOf w h f) = planeOf h w fun x y => f y x := by
  refine List.map_congr_left fun x hx => ?_
  have hlt := List.mem_range.1 hx
  simp [planeOf, hlt]

/-! ## Lines -/

theorem downLine_eq {out : List α → Nat → Except Refusal α} {x : List α} {f : Nat → α}
    (h : ∀ i, i < x.length / 2 → out x (2 * i) = .ok (f i)) :
    downLine out x = .ok ((List.range (x.length / 2)).map f) :=
  mapE_map fun i hi => h i (List.mem_range.1 hi)

/-- Output `t` of an up-sampled line has centre `t / 2` and phase `t % 2`
(41_filter_primitives.md R194). -/
theorem upLine_eq {out : Nat → List α → Nat → Except Refusal α} {x : List α} {f : Nat → α}
    (h : ∀ i, i < x.length → ∀ ph, ph < 2 → out ph x i = .ok (f (2 * i + ph))) :
    upLine out x = .ok ((List.range (2 * x.length)).map f) :=
  mapE_map fun t ht => by
    have hlt := List.mem_range.1 ht
    rw [h (t / 2) (by omega) (t % 2) (Nat.mod_lt _ (by decide)), Nat.div_add_mod]

theorem forall_mem_of_downLine {out : List α → Nat → Except Refusal α} {P : α → Prop}
    (hP : ∀ x c v, out x c = .ok v → P v) {x y : List α} (h : downLine out x = .ok y) :
    ∀ v ∈ y, P v := fun v hv => by
  obtain ⟨k, hk, rfl⟩ := List.getElem_of_mem hv
  have hmap := mapE_eq_ok.1 h
  have hk' : k < (List.range (x.length / 2)).length := by rw [hmap.length_eq]; exact hk
  exact hP _ _ _ ((List.forall₂_iff_get.1 hmap).2 k hk' hk)

theorem forall_mem_of_upLine {out : Nat → List α → Nat → Except Refusal α} {P : α → Prop}
    (hP : ∀ ph x c v, out ph x c = .ok v → P v) {x y : List α} (h : upLine out x = .ok y) :
    ∀ v ∈ y, P v := fun v hv => by
  obtain ⟨k, hk, rfl⟩ := List.getElem_of_mem hv
  have hmap := mapE_eq_ok.1 h
  have hk' : k < (List.range (2 * x.length)).length := by rw [hmap.length_eq]; exact hk
  exact hP _ _ _ _ ((List.forall₂_iff_get.1 hmap).2 k hk' hk)

/-! ## The skeletons, line by line -/

/-- The skeleton of the up-converters line by line: the first pass on each column of the input, the
final pass on each row of the scratch plane (43_chroma_up.md R271). -/
def UpLineSkeleton (first final : List α → Except Refusal (List α)) (w h : Nat)
    (col : Nat → List α) (out : Nat → Nat → α) : Prop :=
  ∃ scratch : Nat → Nat → α,
    (∀ i, i < w / 2 → first (col i) = .ok ((List.range h).map fun y => scratch y i)) ∧
    (∀ y, y < h → final ((List.range (w / 2)).map (scratch y)) = .ok ((List.range w).map (out y)))

variable {w h : Nat} {out : Nat → Nat → α}

theorem DownSkeleton.lines {first final : List α → Nat → Except Refusal α} {row : Nat → List α}
    (hrow : ∀ y, y < h → (row y).length = w) (hs : DownSkeleton first final w h row out) :
    LineSkeleton (downLine first) (downLine final) w h row out := by
  obtain ⟨scratch, hfirst, hfinal⟩ := hs
  refine ⟨scratch, fun y hy => ?_, fun i hi => ?_⟩
  · rw [downLine_eq (f := scratch y) (by rw [hrow y hy]; exact hfirst y hy), hrow y hy]
  · rw [downLine_eq (f := fun j => out j i) (by simpa using hfinal i hi)]
    simp

theorem UpSkeleton.lines {first final : Nat → List α → Nat → Except Refusal α}
    {col : Nat → List α} (hw : w % 2 = 0) (hh : h % 2 = 0)
    (hcol : ∀ i, i < w / 2 → (col i).length = h / 2) (hs : UpSkeleton first final w h col out) :
    UpLineSkeleton (upLine first) (upLine final) w h col out := by
  obtain ⟨scratch, hfirst, hfinal⟩ := hs
  refine ⟨scratch, fun i hi => ?_, fun y hy => ?_⟩
  · rw [upLine_eq (f := fun y => scratch y i) (by rw [hcol i hi]; exact hfirst i hi), hcol i hi,
      show 2 * (h / 2) = h by omega]
  · rw [upLine_eq (f := out y) (by simpa using hfinal y hy), List.length_map, List.length_range,
      show 2 * (w / 2) = w by omega]

theorem LineSkeleton.forall_out {first final : List α → Except Refusal (List α)}
    {row : Nat → List α} {P : α → Prop} (hP : ∀ x y, final x = .ok y → ∀ v ∈ y, P v)
    (hs : LineSkeleton first final w h row out) {y x : Nat} (hy : y < h / 2) (hx : x < w / 2) :
    P (out y x) := by
  obtain ⟨scratch, -, hfinal⟩ := hs
  exact hP _ _ (hfinal x hx) _ (List.mem_map.2 ⟨y, List.mem_range.2 hy, rfl⟩)

theorem UpLineSkeleton.forall_out {first final : List α → Except Refusal (List α)}
    {col : Nat → List α} {P : α → Prop} (hP : ∀ x y, final x = .ok y → ∀ v ∈ y, P v)
    (hs : UpLineSkeleton first final w h col out) {y x : Nat} (hy : y < h) (hx : x < w) :
    P (out y x) := by
  obtain ⟨scratch, -, hfinal⟩ := hs
  exact hP _ _ (hfinal y hy) _ (List.mem_map.2 ⟨x, List.mem_range.2 hx, rfl⟩)

variable [Inhabited α] {p : Passes α}

/-- The passes down answer the plane of the skeleton (42_chroma_down.md R232). -/
theorem LineSkeleton.runPasses_eq {f : Nat → Nat → α}
    (hs : LineSkeleton p.first p.final w h (fun y => (List.range w).map (f y)) out) :
    runPasses false p w h (planeOf w h f) = .ok (planeOf (w / 2) (h / 2) out).flatten := by
  obtain ⟨scratch, hfirst, hfinal⟩ := hs
  have hscratch : mapE p.first (planeOf w h f) = .ok (planeOf (w / 2) h scratch) := by
    refine mapE_eq_ok.2 (List.forall₂_iff_get.2 ⟨by simp, fun y hy _ => ?_⟩)
    simpa [planeOf] using hfirst y (by simpa using hy)
  have hcols : mapE p.final (planeOf h (w / 2) fun i y => scratch y i) =
      .ok (planeOf (h / 2) (w / 2) fun i j => out j i) := by
    refine mapE_eq_ok.2 (List.forall₂_iff_get.2 ⟨by simp, fun i hi _ => ?_⟩)
    simpa [planeOf] using hfinal i (by simpa using hi)
  simp only [runPasses, Bool.false_eq_true, if_false, horizontalThenVertical, hscratch,
    columns_planeOf, hcols]

/-- The passes up answer the plane of the skeleton (43_chroma_up.md R271). -/
theorem UpLineSkeleton.runPasses_eq {f : Nat → Nat → α}
    (hs : UpLineSkeleton p.first p.final w h
      (fun x => (List.range (h / 2)).map fun y => f y x) out) :
    runPasses true p w h (planeOf (w / 2) (h / 2) f) = .ok (planeOf w h out).flatten := by
  obtain ⟨scratch, hfirst, hfinal⟩ := hs
  have hcols : mapE p.first (planeOf (h / 2) (w / 2) fun x y => f y x) =
      .ok (planeOf h (w / 2) fun i y => scratch y i) := by
    refine mapE_eq_ok.2 (List.forall₂_iff_get.2 ⟨by simp, fun i hi _ => ?_⟩)
    simpa [planeOf] using hfirst i (by simpa using hi)
  have hrows : mapE p.final (planeOf (w / 2) h scratch) = .ok (planeOf w h out) := by
    refine mapE_eq_ok.2 (List.forall₂_iff_get.2 ⟨by simp, fun y hy _ => ?_⟩)
    simpa [planeOf] using hfinal y (by simpa using hy)
  simp only [runPasses, if_true, verticalThenHorizontal, columns_planeOf, hcols, hrows]

end

end Sys2Proof.Machine
end

section
/-! A conversion that is ready, and whose passes answer, completes
(spec/41_filter_primitives.md R211, R212). -/

namespace Sys2Proof.Machine

open Sys2Proof

/-! ## Stored samples -/

theorem Memory.readLE_lt {m : Memory} {a n v : Nat} (h : m.readLE a n = some v) : v < 256 ^ n := by
  induction n generalizing a v with
  | zero =>
    cases h
    exact Nat.one_pos
  | succ n ih =>
    rw [Memory.readLE] at h
    split at h
    · rename_i b r _ hr
      cases h
      have hb := b.isLt
      have hrest := ih hr
      rw [Nat.pow_succ]
      omega
    · cases h

/-- A sample fits the container (20_memory.md R76). -/
theorem State.num_lt (s : State) (f : FrameDesc) (p : Fin 4) (n : Nat) :
    s.num f p n < 256 ^ f.kind.size := by
  unfold State.num
  cases hv : s.sample f p n with
  | none => exact Nat.pow_pos (by decide)
  | some v => exact Memory.readLE_lt hv

theorem State.sample_eq_num {s : State} {f : FrameDesc} (h : s.written f) {p : Fin 4}
    (hp : p ∈ planes) {n : Nat} (hn : n < f.count p) :
    s.sample f p n = some (s.num f p n) := by
  obtain ⟨ws, hws⟩ := State.readPlane_of_written h hp
  obtain ⟨hlen, hget⟩ := State.readPlane_ok hws
  rw [State.num, hget n (by omega), Option.getD_some]

/-- Plane `p` of a frame as stored words. -/
def State.nums (s : State) (f : FrameDesc) (p : Fin 4) : List Nat :=
  (List.range (f.count p)).map (s.num f p)

/-! ## The state a completing conversion leaves -/

theorem lockSize_crObj {s : State} {i : Fin 4} (h : lockOk s (s.slot i) = true) :
    (lockSize s i).crObj = { s.crObj with
      lockW := (s.slot i).width.get 0, lockH := (s.slot i).height.get 0 } := by
  cases hl : s.status.crLocked with
  | true =>
    simp only [lockOk, hl, Bool.not_true, Bool.false_or, Bool.and_eq_true, beq_iff_eq] at h
    rw [lockSize_of_locked hl, h.1, h.2]
  | false =>
    rw [lockSize, if_neg (by simp [hl])]

theorem lockOk_of_crDuties {up : Bool} {s : State} {o i : Fin 4}
    (h : firstProblem (crDuties up s o i) = none) : lockOk s (s.slot i) = true :=
  firstProblem_eq_none.1 h (lockOk s (s.slot i), .sizeLock) (by simp [crDuties])

/-- The commit of a conversion after the size lock changes the output frame only. -/
theorem commandFrame_lockSize_commit (s : State) (o i : Fin 4) {P : Fin 4 → List Nat}
    (hl : ∀ p ∈ planes, (P p).length = (s.slot o).count p) :
    CommandFrame s ((lockSize s i).commit o i (P 0) (P 1) (P 2)) o i := by
  have h := (lockSize s i).commandFrame_commit o i (P := P) (by simpa using hl)
  constructor
  · simpa using h.mem
  · simpa using h.outSlot
  · simpa using h.otherSlots
  all_goals simp

section
variable {up : Bool} {s : State} {o i : Fin 4} (h : s.crReady up o i)
include h

theorem State.crReady.sizes {p : Fin 4} (hp : p = 1 ∨ p = 2) :
    ((s.slot i).w p, (s.slot i).h p) =
      (if up then ((s.slot i).w 0 / 2, (s.slot i).h 0 / 2) else ((s.slot i).w 0, (s.slot i).h 0)) ∧
    ((s.slot o).w p, (s.slot o).h p) =
      (if up then ((s.slot i).w 0, (s.slot i).h 0) else ((s.slot i).w 0 / 2, (s.slot i).h 0 / 2)) :=
  (geometryOk_iff.1 (geometry_cr h.duties)).2.2.2.2 p hp

/-- With words for each plane of the output a conversion completes, and they are its samples
(41_filter_primitives.md R212). -/
theorem State.crReady.completes {plan : FilterBank → Option Plan} {b : FilterBank}
    (hb : s.crBank = some b) {p : Plan} (hp : plan b = some p) {lvl : Nat} {P : Fin 4 → List Nat}
    (hP : ∀ q, q = 1 ∨ q = 2 →
      crPlane up p lvl s (s.slot o) (s.slot i) q (s.nums (s.slot i) q) = .ok (P q))
    (hlen : ∀ q, q = 1 ∨ q = 2 → (P q).length = (s.slot o).w q * (s.slot o).h q) :
    ∃ t, crConvert up plan lvl s o i = .next t ∧ Converted s t o i ∧
      ∀ q, q = 1 ∨ q = 2 → ∀ n w, (P q)[n]? = some w →
        t.sample (s.slot o) q n = some (w % 256 ^ (s.slot o).kind.size) := by
  have hok := framesOk_cr h.duties
  obtain ⟨Q, hQ0, hQ1, hQ2⟩ : ∃ Q : Fin 4 → List Nat,
      Q 0 = s.nums (s.slot i) 0 ∧ Q 1 = P 1 ∧ Q 2 = P 2 :=
    ⟨fun q => if q = 0 then s.nums (s.slot i) 0 else P q, rfl, rfl, rfl⟩
  have hl : ∀ q ∈ planes, (Q q).length = (s.slot o).count q := by
    intro q hq
    rcases mem_planes.1 hq with rfl | rfl | rfl
    · rw [hQ0, State.nums, List.length_map, List.length_range, h.sameCount]
    · rw [hQ1, hlen 1 (by simp), hok.outCount hq]
    · rw [hQ2, hlen 2 (by simp), hok.outCount hq]
  have hsample : ∀ q ∈ planes, ∀ n w, (Q q)[n]? = some w →
      ((lockSize s i).commit o i (Q 0) (Q 1) (Q 2)).sample (s.slot o) q n =
        some (w % 256 ^ (s.slot o).kind.size) := by
    intro q hq n w hw
    obtain ⟨hn, rfl⟩ := List.getElem?_eq_some_iff.1 hw
    have := State.sample_commit (s := lockSize s i) (o := o) (i := i) (P := Q) (by simpa using hl)
      (by simpa using hok.outDisjoint) hq hn
    simpa using this
  have hread : ∀ q ∈ planes, s.readPlane (s.slot i) q = .ok (s.nums (s.slot i) q) := fun q hq =>
    State.readPlane_eq_nums h.input hq
  refine ⟨(lockSize s i).commit o i (Q 0) (Q 1) (Q 2), ?_, ?_, fun q hq n w hw => ?_⟩
  · rw [h.crConvert_run hb hp, crTransform]
    simp only [hread 0 (by simp), hread 1 (by simp), hread 2 (by simp), hP 1 (by simp),
      hP 2 (by simp), hQ0, hQ1, hQ2]
  · refine { commandFrame_lockSize_commit s o i hl with
      status := lockSize_status s i
      crObj := lockSize_crObj (lockOk_of_crDuties h.duties)
      luma := fun n hn => ?_ }
    have hnum : (Q 0)[n]? = some (s.num (s.slot i) 0 n) := by simp [hQ0, State.nums, hn]
    rw [hsample 0 (by simp) n _ hnum, State.sample_eq_num h.input (by simp) hn, ← hok.kinds,
      Nat.mod_eq_of_lt (s.num_lt ..)]
  · refine hsample q (by simp; tauto) n w ?_
    rcases hq with rfl | rfl
    · rwa [hQ1]
    · rwa [hQ2]

/-! ## The planes of the passes -/

/-- The rows of a chroma plane, its samples read as `g`. -/
theorem State.crReady.rows {α : Type} (g : Nat → α) {q : Fin 4} (hq : q = 1 ∨ q = 2) :
    rowsOf ((s.slot i).w q) ((s.slot i).h q) ((s.nums (s.slot i) q).map g) =
      planeOf ((s.slot i).w q) ((s.slot i).h q)
        fun y x => g (s.num (s.slot i) q (y * (s.slot i).w q + x)) := by
  rw [State.nums, List.map_map, (framesOk_cr h.duties).inCount (by simp; tauto), rowsOf_range]
  rfl

variable {plan : FilterBank → Option Plan} {b : FilterBank} (hb : s.crBank = some b) {p : Plan}
  (hp : plan b = some p) {lvl W H : Nat}
  (hsize : ∀ q, q = 1 ∨ q = 2 → ((s.slot o).w q, (s.slot o).h q) = (W, H))
include hb hp hsize

/-- Fixed path: where the passes answer planes within the clamp bounds, the conversion completes
with them (41_filter_primitives.md R205, R212). -/
theorem State.crReady.completes_fixed (hf : (s.slot i).isFloat = false)
    {out : Fin 4 → Nat → Nat → Int}
    (hrun : ∀ q, q = 1 ∨ q = 2 →
      runPasses up (p.fixed (crEnv s (s.slot i) lvl) ((s.slot o).lo q) ((s.slot o).hi q))
        ((s.slot i).w 0) ((s.slot i).h 0)
        (planeOf ((s.slot i).w q) ((s.slot i).h q)
          fun y x => (s.num (s.slot i) q (y * (s.slot i).w q + x) : Int)) =
      .ok (planeOf W H (out q)).flatten)
    (hclamp : ∀ q, q = 1 ∨ q = 2 → ∀ y, y < H → ∀ x, x < W →
      (s.slot o).lo q ≤ out q y x ∧ out q y x ≤ (s.slot o).hi q) :
    ∃ t, crConvert up plan lvl s o i = .next t ∧ Converted s t o i ∧
      ChromaIs t (s.slot o) W H out := by
  have hok := framesOk_cr h.duties
  have hfo : (s.slot o).isFloat = false := h.sameKind ▸ hf
  obtain ⟨t, ht, hconv, hsample⟩ := h.completes hb hp (lvl := lvl)
    (P := fun q => (planeOf W H (out q)).flatten.map Int.toNat)
    (fun q hq => by
      have hrows := h.rows Int.ofNat hq
      simp only [crPlane, hf, Bool.false_eq_true, if_false, hrows]
      have := hrun q hq
      simp only [Int.ofNat_eq_natCast, this])
    (fun q hq => by
      obtain ⟨hw, hh⟩ := Prod.mk.inj (hsize q hq)
      rw [List.length_map, planeOf_flatten_length, hw, hh, Nat.mul_comm])
  refine ⟨t, ht, hconv, fun q hq y hy x hx => ?_⟩
  obtain ⟨hlo, hhi⟩ := hclamp q hq y hy x hx
  have hfit := hok.outFits hfo (p := q) (by simp; tauto)
  refine ⟨?_, by omega⟩
  rw [hsample q hq (y * W + x) (out q y x).toNat
    (by rw [List.getElem?_map, planeOf_flatten_getElem? _ hy hx]; rfl),
    Nat.mod_eq_of_lt (by omega)]

/-- Float path: where the passes answer planes, the conversion completes with their patterns
(20_memory.md R77, 41_filter_primitives.md R212). -/
theorem State.crReady.completes_float (hf : (s.slot i).isFloat = true)
    {out : Fin 4 → Nat → Nat → Fp}
    (hrun : ∀ q, q = 1 ∨ q = 2 →
      runPasses up (p.float (crEnv s (s.slot i) lvl)) ((s.slot i).w 0) ((s.slot i).h 0)
        (planeOf ((s.slot i).w q) ((s.slot i).h q)
          fun y x => s.value (s.slot i) q (y * (s.slot i).w q + x)) =
      .ok (planeOf W H (out q)).flatten) :
    ∃ t, crConvert up plan lvl s o i = .next t ∧ Converted s t o i ∧
      ChromaIsF t (s.slot o) W H out := by
  have hfo : (s.slot o).isFloat = true := h.sameKind ▸ hf
  obtain ⟨t, ht, hconv, hsample⟩ := h.completes hb hp (lvl := lvl)
    (P := fun q => floatWords s.draws ((s.slot o).addr q) (planeOf W H (out q)).flatten)
    (fun q hq => by
      have hrows := h.rows (s.slot i).kind.value hq
      have := hrun q hq
      simp only [State.value] at this
      simp only [crPlane, hf, if_true, hrows, this])
    (fun q hq => by
      obtain ⟨hw, hh⟩ := Prod.mk.inj (hsize q hq)
      rw [floatWords_length, planeOf_flatten_length, hw, hh, Nat.mul_comm])
  refine ⟨t, ht, hconv, fun q hq y hy x hx => ?_⟩
  obtain ⟨hn, hget⟩ := List.getElem?_eq_some_iff.1 (planeOf_flatten_getElem? (out q) hy hx)
  have hword := floatWords_getElem (draw := s.draws) (a := (s.slot o).addr q) hn
  rw [hget] at hword
  refine ⟨Config.freeNan s.draws ((s.slot o).addr q + 4 * (y * W + x)), ?_⟩
  rw [hsample q hq (y * W + x) _ (List.getElem?_eq_some_iff.2 ⟨_, hword⟩),
    FrameDesc.size_of_isFloat hfo]
  exact congrArg some (Nat.mod_eq_of_lt (BitVec.isLt _))

end

end Sys2Proof.Machine
end

section
/-! The five conversions, from their skeletons
(spec/42_chroma_down.md R236, R240, R245, 43_chroma_up.md R273, R277). -/

namespace Sys2Proof.Machine

open Sys2Proof

/-! ## What a final pass clamps -/

theorem finalI_mem {e : CrEnv} {F : ScaleFilter} {x : List Int} {c : Nat} {lo hi v : Int}
    (hle : lo ≤ hi) (h : finalI e lo hi F x c = .ok v) : lo ≤ v ∧ v ≤ hi := by
  obtain ⟨t, rfl⟩ := finalI_ok h
  exact clampi_mem t hle

/-- What is selected is the output of a filter. -/
theorem selected_ok {α : Type} {rejects : List α → Nat → ScaleFilter → Except Refusal Bool}
    {out : ScaleFilter → List α → Nat → Except Refusal α} {L : List ScaleFilter} {x : List α}
    {c : Nat} {v : α} (h : selected rejects out L x c = .ok v) : ∃ F, out F x c = .ok v := by
  unfold selected at h
  split at h
  · cases h
  · exact ⟨_, h⟩

/-- A line of the Adaptive converter is the down-sampled line of a candidate, or there is none. -/
theorem adaptI_ok {e : CrEnv} {lo hi : Int} {L : List ScaleFilter} {U : ScaleFilter × ScaleFilter}
    {x y : List Int} (h : adaptI e lo hi L U x = .ok y) :
    y = [] ∨ ∃ F, downLine (finalI e lo hi F) x = .ok y := by
  unfold adaptI at h
  split at h
  · cases h
  · rename_i cs hcs
    cases h
    rw [List.getD_eq_getElem?_getD]
    cases hc : cs[best (· ≤ ·) (cs.map fun c => distInt (c.2.zip x))]? with
    | none => exact .inl rfl
    | some d =>
      obtain ⟨k, hk, hd⟩ := List.getElem_of_mem (List.mem_of_getElem? hc)
      have hmap := mapE_eq_ok.1 hcs
      have htrip := (List.forall₂_iff_get.1 hmap).2 k (by rw [hmap.length_eq]; exact hk) hk
      simp only [List.get_eq_getElem, hd, roundTrip] at htrip
      split at htrip
      · cases htrip
      · rename_i hdown
        split at htrip
        · cases htrip
        · cases htrip
          exact .inr ⟨_, hdown⟩

/-- The final pass of a plan keeps to the clamp bounds in the fixed path
(41_filter_primitives.md R205). -/
def Plan.Clamps (plan : Plan) : Prop := ∀ e lo hi, lo ≤ hi → ∀ x y,
  (plan.fixed e lo hi).final x = .ok y → ∀ v ∈ y, lo ≤ v ∧ v ≤ hi

theorem clamps_of_downLine {plan : Plan}
    {out : CrEnv → Int → Int → List Int → Nat → Except Refusal Int}
    (hfinal : ∀ e lo hi, (plan.fixed e lo hi).final = downLine (out e lo hi))
    (hout : ∀ e lo hi x c v, lo ≤ hi → out e lo hi x c = .ok v → lo ≤ v ∧ v ≤ hi) :
    plan.Clamps := fun e lo hi hle x y h => by
  rw [hfinal] at h
  exact forall_mem_of_downLine (fun x c v => hout e lo hi x c v hle) h

theorem clamps_of_upLine {plan : Plan}
    {out : CrEnv → Int → Int → Nat → List Int → Nat → Except Refusal Int}
    (hfinal : ∀ e lo hi, (plan.fixed e lo hi).final = upLine (out e lo hi))
    (hout : ∀ e lo hi ph x c v, lo ≤ hi → out e lo hi ph x c = .ok v → lo ≤ v ∧ v ≤ hi) :
    plan.Clamps := fun e lo hi hle x y h => by
  rw [hfinal] at h
  exact forall_mem_of_upLine (fun ph x c v => hout e lo hi ph x c v hle) h

/-! ## The plans -/

section
variable {b : FilterBank}

theorem dnGenPlan_eq {H V : ScaleFilter} (hH : b.gdh = some H) (hV : b.gdv = some V) :
    dnGenPlan b = some
      { float := fun e => ⟨downLine (firstF e H), downLine (finalF e V)⟩
        fixed := fun e lo hi => ⟨downLine (firstI e H), downLine (finalI e lo hi V)⟩ } := by
  rw [dnGenPlan, hH, hV]

theorem dnBndPlan_eq (hH : b.bdh ≠ []) (hV : b.bdv ≠ []) : dnBndPlan b = some
    { float := fun e => ⟨downLine (selected (rejectsF e.thrF) (firstF e) b.bdh),
        downLine (selected (rejectsF e.thrF) (finalF e) b.bdv)⟩
      fixed := fun e lo hi => ⟨downLine (selected (rejectsI e.thrI) (firstI e) b.bdh),
        downLine (selected (rejectsScaled e (listGain b.bdh)) (finalI e lo hi) b.bdv)⟩ } :=
  if_neg (by simp [hH, hV])

theorem dnAdpPlan_eq {UH UV : ScaleFilter × ScaleFilter} (hlh : b.adh.length = 5)
    (hlv : b.adv.length = 5) (hUH : b.auh = some UH) (hUV : b.auv = some UV) :
    dnAdpPlan b = some
      { float := fun e => ⟨adaptF e b.adh UH, adaptF e b.adv UV⟩
        fixed := fun e lo hi => ⟨adaptI e lo hi b.adh UH, adaptI e lo hi b.adv UV⟩ } := by
  simp only [dnAdpPlan, hUH, hUV, hlh, hlv, and_self, if_true]

theorem upGenPlan_eq {H V : ScaleFilter × ScaleFilter} (hH : b.guh = some H)
    (hV : b.guv = some V) : upGenPlan b = some
      { float := fun e =>
          ⟨upLine fun ph => firstF e (ofPhase V ph), upLine fun ph => finalF e (ofPhase H ph)⟩
        fixed := fun e lo hi =>
          ⟨upLine fun ph => firstI e (ofPhase V ph),
            upLine fun ph => finalI e lo hi (ofPhase H ph)⟩ } := by
  rw [upGenPlan, hH, hV]

theorem upBndPlan_eq (hV1 : b.buv.1 ≠ []) (hV2 : b.buv.2 ≠ []) (hH1 : b.buh.1 ≠ [])
    (hH2 : b.buh.2 ≠ []) : upBndPlan b = some
      { float := fun e =>
          ⟨upLine fun ph => selected (rejectsF e.thrF) (firstF e) (ofPhase b.buv ph),
            upLine fun ph => selected (rejectsF e.thrF) (finalF e) (ofPhase b.buh ph)⟩
        fixed := fun e lo hi =>
          ⟨upLine fun ph => selected (rejectsI e.thrI) (firstI e) (ofPhase b.buv ph),
            upLine fun ph => selected (rejectsScaled e (listGain b.buv.1)) (finalI e lo hi)
              (ofPhase b.buh ph)⟩ } :=
  if_neg (by simp [hV1, hV2, hH1, hH2])

end

/-! ## From the skeleton to the command -/

section
variable {s : State} {o i : Fin 4} {plan : FilterBank → Option Plan} {b : FilterBank}
  (hb : s.crBank = some b) {p : Plan} (hp : plan b = some p) {lvl : Nat}
include hb hp

theorem State.crReady.down_fixed (h : s.crReady false o i) (hf : (s.slot i).isFloat = false)
    (hclamps : p.Clamps) {out : Fin 4 → Nat → Nat → Int}
    (hlines : ∀ q, q = 1 ∨ q = 2 → LineSkeleton
      (p.fixed (crEnv s (s.slot i) lvl) ((s.slot o).lo q) ((s.slot o).hi q)).first
      (p.fixed (crEnv s (s.slot i) lvl) ((s.slot o).lo q) ((s.slot o).hi q)).final
      ((s.slot i).w 0) ((s.slot i).h 0) (s.rowI (s.slot i) q) (out q)) :
    ∃ t, crConvert false plan lvl s o i = .next t ∧ Converted s t o i ∧
      ChromaIs t (s.slot o) ((s.slot i).w 0 / 2) ((s.slot i).h 0 / 2) out := by
  have hfo : (s.slot o).isFloat = false := h.sameKind ▸ hf
  refine h.completes_fixed hb hp (fun q hq => (h.sizes hq).2) hf (fun q hq => ?_)
    (fun q hq y hy x hx => ?_)
  · obtain ⟨hw, hh⟩ := Prod.mk.inj (h.sizes hq).1
    have hs := hlines q hq
    unfold State.rowI at hs
    rw [hw] at hs ⊢
    rw [hh]
    exact hs.runPasses_eq
  · have hpels := (framesOk_cr h.duties).outPels hfo (p := q) (by simp; tauto)
    exact (hlines q hq).forall_out (hclamps _ _ _ (by omega)) hy hx

theorem State.crReady.down_float (h : s.crReady false o i) (hf : (s.slot i).isFloat = true)
    {out : Fin 4 → Nat → Nat → Fp}
    (hlines : ∀ q, q = 1 ∨ q = 2 → LineSkeleton (p.float (crEnv s (s.slot i) lvl)).first
      (p.float (crEnv s (s.slot i) lvl)).final ((s.slot i).w 0) ((s.slot i).h 0)
      (s.rowF (s.slot i) q) (out q)) :
    ∃ t, crConvert false plan lvl s o i = .next t ∧ Converted s t o i ∧
      ChromaIsF t (s.slot o) ((s.slot i).w 0 / 2) ((s.slot i).h 0 / 2) out := by
  refine h.completes_float hb hp (fun q hq => (h.sizes hq).2) hf fun q hq => ?_
  obtain ⟨hw, hh⟩ := Prod.mk.inj (h.sizes hq).1
  have hs := hlines q hq
  unfold State.rowF at hs
  rw [hw] at hs ⊢
  rw [hh]
  exact hs.runPasses_eq

theorem State.crReady.up_fixed (h : s.crReady true o i) (hf : (s.slot i).isFloat = false)
    (hclamps : p.Clamps) {out : Fin 4 → Nat → Nat → Int}
    (hlines : ∀ q, q = 1 ∨ q = 2 → UpLineSkeleton
      (p.fixed (crEnv s (s.slot i) lvl) ((s.slot o).lo q) ((s.slot o).hi q)).first
      (p.fixed (crEnv s (s.slot i) lvl) ((s.slot o).lo q) ((s.slot o).hi q)).final
      ((s.slot i).w 0) ((s.slot i).h 0) (s.colI (s.slot i) q) (out q)) :
    ∃ t, crConvert true plan lvl s o i = .next t ∧ Converted s t o i ∧
      ChromaIs t (s.slot o) ((s.slot i).w 0) ((s.slot i).h 0) out := by
  have hfo : (s.slot o).isFloat = false := h.sameKind ▸ hf
  refine h.completes_fixed hb hp (fun q hq => (h.sizes hq).2) hf (fun q hq => ?_)
    (fun q hq y hy x hx => ?_)
  · obtain ⟨hw, hh⟩ := Prod.mk.inj (h.sizes hq).1
    have hs := hlines q hq
    unfold State.colI at hs
    rw [hh] at hs ⊢
    rw [hw] at hs ⊢
    exact hs.runPasses_eq
  · have hpels := (framesOk_cr h.duties).outPels hfo (p := q) (by simp; tauto)
    exact (hlines q hq).forall_out (hclamps _ _ _ (by omega)) hy hx

theorem State.crReady.up_float (h : s.crReady true o i) (hf : (s.slot i).isFloat = true)
    {out : Fin 4 → Nat → Nat → Fp}
    (hlines : ∀ q, q = 1 ∨ q = 2 → UpLineSkeleton (p.float (crEnv s (s.slot i) lvl)).first
      (p.float (crEnv s (s.slot i) lvl)).final ((s.slot i).w 0) ((s.slot i).h 0)
      (s.colF (s.slot i) q) (out q)) :
    ∃ t, crConvert true plan lvl s o i = .next t ∧ Converted s t o i ∧
      ChromaIsF t (s.slot o) ((s.slot i).w 0) ((s.slot i).h 0) out := by
  refine h.completes_float hb hp (fun q hq => (h.sizes hq).2) hf fun q hq => ?_
  obtain ⟨hw, hh⟩ := Prod.mk.inj (h.sizes hq).1
  have hs := hlines q hq
  unfold State.colF at hs
  rw [hh] at hs ⊢
  rw [hw] at hs ⊢
  exact hs.runPasses_eq

end

section
variable {α : Type} {s : State} {o i q : Fin 4} (hq : q = 1 ∨ q = 2) {out : Nat → Nat → α}
include hq

/-- Rows of a plane of the frame, for the skeleton sample by sample. -/
theorem State.crReady.downLines (h : s.crReady false o i)
    {first final : List α → Nat → Except Refusal α} {row : Nat → List α}
    (hrow : ∀ y, (row y).length = (s.slot i).w q)
    (hs : DownSkeleton first final ((s.slot i).w 0) ((s.slot i).h 0) row out) :
    LineSkeleton (downLine first) (downLine final) ((s.slot i).w 0) ((s.slot i).h 0) row out :=
  hs.lines fun y _ => (hrow y).trans (Prod.mk.inj (h.sizes hq).1).1

theorem State.crReady.upLines (h : s.crReady true o i)
    {first final : Nat → List α → Nat → Except Refusal α} {col : Nat → List α}
    (hcol : ∀ x, (col x).length = (s.slot i).h q)
    (hs : UpSkeleton first final ((s.slot i).w 0) ((s.slot i).h 0) col out) :
    UpLineSkeleton (upLine first) (upLine final) ((s.slot i).w 0) ((s.slot i).h 0) col out := by
  obtain ⟨-, -, hw, hh, -⟩ := geometryOk_iff.1 (geometry_cr h.duties)
  exact hs.lines hw hh fun x _ => (hcol x).trans (Prod.mk.inj (h.sizes hq).1).2

end

section
variable (s : State) (f : FrameDesc) (p : Fin 4) (n : Nat)

@[simp] theorem State.rowI_length : (s.rowI f p n).length = f.w p := by simp [State.rowI]

@[simp] theorem State.rowF_length : (s.rowF f p n).length = f.w p := by simp [State.rowF]

@[simp] theorem State.colI_length : (s.colI f p n).length = f.h p := by simp [State.colI]

@[simp] theorem State.colF_length : (s.colF f p n).length = f.h p := by simp [State.colF]

end

/-- A conversion whose run completes, as a command. -/
theorem exec_completes {s : State} {fdo fdi : BitVec 4} {lvl : BitVec 8} {c : Instr}
    {run : Outcome} {P : State → Prop} (ho : s.hasSlot fdo = true) (hi : s.hasSlot fdi = true)
    (hl : levelOk lvl = true) (hf : s.status.fatal = false)
    (hc : c ∈ conversionCommands fdo fdi lvl) (hrun : exec c s = command c s run)
    (h : ∃ t, run = .next t ∧ P t) : ∃ t, exec c s = .next t ∧ P t := by
  rwa [exec_of_conversion ho hi hl hf hc hrun]

/-! ## The Generic converters -/

/-- Settles O48: the skeleton is that of the plan, line by line. -/
theorem crDnGenConverts : Obligations.CrDnGenConverts := by
  intro s fdo fdi lvl b H V ho hi hl h hb hH hV fo fi w ht e
  have hp := dnGenPlan_eq hH hV
  have hc : Instr.crDnGen fdo fdi lvl ∈ conversionCommands fdo fdi lvl := by
    simp [conversionCommands]
  refine ⟨fun out hf hs => exec_completes ho hi hl h.running hc rfl
    (h.down_fixed hb hp hf ?_ fun q hq => ?_), fun out hf hs => exec_completes ho hi hl h.running
    hc rfl (h.down_float hb hp hf fun q hq => ?_)⟩
  · exact clamps_of_downLine (fun _ _ _ => rfl) fun _ _ _ _ _ _ => finalI_mem
  · exact h.downLines hq (s.rowI_length fi q) (hs q hq)
  · exact h.downLines hq (s.rowF_length fi q) (hs q hq)

/-- Settles O51: as O48, with a filter for each phase. -/
theorem crUpGenConverts : Obligations.CrUpGenConverts := by
  intro s fdo fdi lvl b H V ho hi hl h hb hH hV fo fi w ht e
  have hp := upGenPlan_eq hH hV
  have hc : Instr.crUpGen fdo fdi lvl ∈ conversionCommands fdo fdi lvl := by
    simp [conversionCommands]
  refine ⟨fun out hf hs => exec_completes ho hi hl h.running hc rfl
    (h.up_fixed hb hp hf ?_ fun q hq => ?_), fun out hf hs => exec_completes ho hi hl h.running
    hc rfl (h.up_float hb hp hf fun q hq => ?_)⟩
  · exact clamps_of_upLine (out := fun e lo hi ph => finalI e lo hi (ofPhase H ph))
      (fun _ _ _ => rfl) fun _ _ _ _ _ _ _ => finalI_mem
  · exact h.upLines hq (s.colI_length fi q) (hs q hq)
  · exact h.upLines hq (s.colF_length fi q) (hs q hq)

/-! ## The selecting converters -/

/-- A function that answers the output of the selected candidate is `selected`. -/
theorem eq_selected {α : Type} {rejects : List α → Nat → ScaleFilter → Except Refusal Bool}
    {out : ScaleFilter → List α → Nat → Except Refusal α} {L : List ScaleFilter}
    {f : List α → Nat → Except Refusal α}
    (hok : ∀ x c q, select (rejects x c) L = .ok q → f x c = out (L.getD q filterF0) x c)
    (herr : ∀ x c r, select (rejects x c) L = .error r → f x c = .error r) :
    f = selected rejects out L := by
  funext x c
  unfold selected
  split
  · exact herr x c _ ‹_›
  · exact hok x c _ ‹_›

theorem DownSkeleton.congr {α : Type} {first final first' final' : List α → Nat → Except Refusal α}
    {w h : Nat} {row : Nat → List α} {out : Nat → Nat → α}
    (hs : DownSkeleton first final w h row out) (h1 : first = first') (h2 : final = final') :
    DownSkeleton first' final' w h row out := by
  rwa [← h1, ← h2]

theorem UpSkeleton.congr {α : Type}
    {first final first' final' : Nat → List α → Nat → Except Refusal α}
    {w h : Nat} {col : Nat → List α} {out : Nat → Nat → α}
    (hs : UpSkeleton first final w h col out) (h1 : ∀ ph, first ph = first' ph)
    (h2 : ∀ ph, final ph = final' ph) : UpSkeleton first' final' w h col out := by
  rwa [← funext h1, ← funext h2]

theorem listGain_eq (L : List ScaleFilter) :
    listGain L = ((L.headD filterF0).icoef.map BitVec.toInt).sum := by
  cases L <;> rfl

/-- A threshold product of int32 is the threshold of the second pass
(41_filter_primitives.md R206, R208). -/
theorem rejectsScaled_eq {e : CrEnv} {g : Int} (h : IsInt32 (e.thrI * g)) :
    rejectsScaled e g = rejectsI (e.thrI * g) := by
  funext x c F
  simp only [rejectsScaled, int32?_eq_ok h]

section
variable {s : State} {o i : Fin 4} {b : FilterBank} (hb : s.crBank = some b)
  (hf : (s.slot i).isFloat = false) {out : Fin 4 → Nat → Nat → Int}
include hb hf

/-- `CR.DN.BND` in the fixed path, from the skeleton with its selections
(42_chroma_down.md R240). -/
theorem State.crReady.dnBnd_fixed (h : s.crReady false o i) (hH : b.bdh ≠ []) (hV : b.bdv ≠ [])
    (hthr : IsInt32 ((crEnv s (s.slot i) 0).thrI * listGain b.bdh))
    (hs : ∀ q, q = 1 ∨ q = 2 → DownSkeleton
      (selected (rejectsI (crEnv s (s.slot i) 0).thrI) (firstI (crEnv s (s.slot i) 0)) b.bdh)
      (selected (rejectsI ((crEnv s (s.slot i) 0).thrI * listGain b.bdh))
        (finalI (crEnv s (s.slot i) 0) ((s.slot o).lo q) ((s.slot o).hi q)) b.bdv)
      ((s.slot i).w 0) ((s.slot i).h 0) (s.rowI (s.slot i) q) (out q)) :
    ∃ t, crConvert false dnBndPlan 0 s o i = .next t ∧ Converted s t o i ∧
      ChromaIs t (s.slot o) ((s.slot i).w 0 / 2) ((s.slot i).h 0 / 2) out := by
  refine h.down_fixed hb (dnBndPlan_eq hH hV) hf ?_ fun q hq => ?_
  · refine clamps_of_downLine (fun _ _ _ => rfl) fun e lo hi x c v hle hv => ?_
    obtain ⟨F, hF⟩ := selected_ok hv
    exact finalI_mem hle hF
  · dsimp only
    rw [rejectsScaled_eq hthr]
    exact h.downLines hq (s.rowI_length _ q) (hs q hq)

/-- `CR.UP.BND` in the fixed path, from the skeleton with its selections
(43_chroma_up.md R277). -/
theorem State.crReady.upBnd_fixed (h : s.crReady true o i) (hV1 : b.buv.1 ≠ [])
    (hV2 : b.buv.2 ≠ []) (hH1 : b.buh.1 ≠ []) (hH2 : b.buh.2 ≠ [])
    (hthr : IsInt32 ((crEnv s (s.slot i) 0).thrI * listGain b.buv.1))
    (hs : ∀ q, q = 1 ∨ q = 2 → UpSkeleton
      (fun ph => selected (rejectsI (crEnv s (s.slot i) 0).thrI) (firstI (crEnv s (s.slot i) 0))
        (ofPhase b.buv ph))
      (fun ph => selected (rejectsI ((crEnv s (s.slot i) 0).thrI * listGain b.buv.1))
        (finalI (crEnv s (s.slot i) 0) ((s.slot o).lo q) ((s.slot o).hi q)) (ofPhase b.buh ph))
      ((s.slot i).w 0) ((s.slot i).h 0) (s.colI (s.slot i) q) (out q)) :
    ∃ t, crConvert true upBndPlan 0 s o i = .next t ∧ Converted s t o i ∧
      ChromaIs t (s.slot o) ((s.slot i).w 0) ((s.slot i).h 0) out := by
  refine h.up_fixed hb (upBndPlan_eq hV1 hV2 hH1 hH2) hf ?_ fun q hq => ?_
  · refine clamps_of_upLine (out := fun e lo hi ph =>
      selected (rejectsScaled e (listGain b.buv.1)) (finalI e lo hi) (ofPhase b.buh ph))
      (fun _ _ _ => rfl) fun e lo hi ph x c v hle hv => ?_
    obtain ⟨F, hF⟩ := selected_ok hv
    exact finalI_mem hle hF
  · dsimp only
    rw [rejectsScaled_eq hthr]
    exact h.upLines hq (s.colI_length _ q) (hs q hq)

end

/-- Settles O49: the candidate selected for each sample, as the plan selects it. -/
theorem crDnBndConverts : Obligations.CrDnBndConverts := by
  intro s fdo fdi b ho hi h hb hH hV fo fi w ht e g1 thr
  have hc : Instr.crDnBnd fdo fdi ∈ conversionCommands fdo fdi 0 := by simp [conversionCommands]
  have hg : listGain b.bdh = g1 := listGain_eq b.bdh
  refine ⟨fun out hf hmin hmax hs => exec_completes ho hi rfl h.running hc rfl
    (h.dnBnd_fixed hb hf hH hV ?_ fun q hq => ?_), fun out hf hs => exec_completes ho hi rfl
    h.running hc rfl (h.down_float hb (dnBndPlan_eq hH hV) hf fun q hq => ?_)⟩
  · rw [hg]
    exact ⟨hmin, hmax⟩
  · rw [hg]
    refine (hs q hq).congr (eq_selected (rejects := rejectsI thr) (out := firstI e) ?_ ?_)
      (eq_selected (rejects := rejectsI (thr * g1)) (out := finalI e (fo.lo q) (fo.hi q)) ?_ ?_)
    all_goals exact fun x c q h => by simp only [h]
  · refine h.downLines hq (s.rowF_length fi q) ((hs q hq).congr
      (eq_selected (rejects := rejectsF (.ofBits64 s.cfg.edgeThr)) (out := firstF e) ?_ ?_)
      (eq_selected (rejects := rejectsF (.ofBits64 s.cfg.edgeThr)) (out := finalF e) ?_ ?_))
    all_goals exact fun x c q h => by simp only [h]

/-- Settles O52: as O49, with a list of candidates for each phase. -/
theorem crUpBndConverts : Obligations.CrUpBndConverts := by
  intro s fdo fdi b ho hi h hb hV1 hV2 hH1 hH2 fo fi w ht e g1 thr V H
  have hc : Instr.crUpBnd fdo fdi ∈ conversionCommands fdo fdi 0 := by simp [conversionCommands]
  have hg : listGain b.buv.1 = g1 := listGain_eq b.buv.1
  refine ⟨fun out hf hmin hmax hs => exec_completes ho hi rfl h.running hc rfl
    (h.upBnd_fixed hb hf hV1 hV2 hH1 hH2 ?_ fun q hq => ?_), fun out hf hs => exec_completes ho hi
    rfl h.running hc rfl (h.up_float hb (upBndPlan_eq hV1 hV2 hH1 hH2) hf fun q hq => ?_)⟩
  · rw [hg]
    exact ⟨hmin, hmax⟩
  · rw [hg]
    refine (hs q hq).congr
      (fun ph => eq_selected (rejects := rejectsI thr) (out := firstI e) (L := V ph) ?_ ?_)
      (fun ph => eq_selected (rejects := rejectsI (thr * g1))
        (out := finalI e (fo.lo q) (fo.hi q)) (L := H ph) ?_ ?_)
    all_goals exact fun x c q h => by simp only [h]
  · refine h.upLines hq (s.colF_length fi q) ((hs q hq).congr
      (fun ph => eq_selected (rejects := rejectsF (.ofBits64 s.cfg.edgeThr)) (out := firstF e)
        (L := V ph) ?_ ?_)
      (fun ph => eq_selected (rejects := rejectsF (.ofBits64 s.cfg.edgeThr)) (out := finalF e)
        (L := H ph) ?_ ?_))
    all_goals exact fun x c q h => by simp only [h]

/-! ## The Adaptive converter -/

/-- Settles O50: the skeleton is that of the plan. -/
theorem crDnAdpConverts : Obligations.CrDnAdpConverts := by
  intro s fdo fdi b UH UV ho hi h hb hlh hlv hUH hUV fo fi w ht e
  have hp := dnAdpPlan_eq hlh hlv hUH hUV
  have hc : Instr.crDnAdp fdo fdi ∈ conversionCommands fdo fdi 0 := by simp [conversionCommands]
  refine ⟨fun out hf hs => exec_completes ho hi rfl h.running hc rfl
    (h.down_fixed hb hp hf ?_ hs), fun out hf hs => exec_completes ho hi rfl h.running
    hc rfl (h.down_float hb hp hf hs)⟩
  intro e lo hi hle x y hy
  rcases adaptI_ok hy with rfl | ⟨F, hF⟩
  · exact fun v hv => absurd hv List.not_mem_nil
  · exact forall_mem_of_downLine (fun x c v => finalI_mem hle) hF

end Sys2Proof.Machine
end

section
/-! The preset `F0` takes the nearest sample
(spec/41_filter_primitives.md R196, 42_chroma_down.md R236, R237, 43_chroma_up.md R273). -/

namespace Sys2Proof

/-! ## Values of binary32 -/

/-- A binary32 value is its own narrowing (00_scope.md R9). -/
theorem Fp.toF32_ofBits32 (w : Word) : (Fp.ofBits32 w).toF32 = Fp.ofBits32 w := by
  cases hn : (Fp.ofBits32 w).isNan with
  | true =>
    rw [Fp.isNan_iff.1 hn]
    rfl
  | false => rw [← Fp.ofBits32_toBits32_toF32 _ 0, Fp.toBits32_toF32_ofBits32 w 0 hn]

theorem Fp.ofBits32_one : Fp.ofBits32 0x3F800000 = .fin false Fp.one := by decide +kernel

theorem Fp.mul_one {x : Fp} (h : x.Double) : x.mul (.fin false Fp.one) = x := by
  obtain ⟨n, m, hm, rfl⟩ := h
  rw [Fp.mul_fin_one, Bool.bne_false, Fp.round64_of_finite64 _ hm Fp.one_pos]

/-- The value with -0.0 turned into +0.0. -/
def Fp.plusZero (v : Fp) : Fp := if v = .fin true 0 then .zero else v

theorem Fp.plusZero_of_ne {v : Fp} (h : v ≠ .fin true 0) : v.plusZero = v := if_neg h

theorem Fp.toF32_zero : Fp.zero.toF32 = .zero := by
  obtain ⟨n, u, hu, hzero⟩ := Fp.single_zero
  rw [hzero, Fp.toF32_finite32 n hu]

theorem Fp.plusZero_toF32 {v : Fp} (h : v.toF32 = v) : v.plusZero.toF32 = v.plusZero := by
  unfold Fp.plusZero
  split
  · exact Fp.toF32_zero
  · exact h

theorem Fp.plusZero_isNan (v : Fp) : v.plusZero.isNan = v.isNan := by
  unfold Fp.plusZero
  split
  · subst_vars
    rfl
  · rfl

theorem Fp.plusZero_plusZero (v : Fp) : v.plusZero.plusZero = v.plusZero := by
  unfold Fp.plusZero
  split
  · rfl
  · rfl

/-- One times a binary32 value, added to +0.0 and scaled by one. -/
theorem Fp.sum_one {v : Fp} (h : v.toF32 = v) :
    (Fp.zero.add ((Fp.fin false Fp.one).mul v)).mul (.fin false Fp.one) = v.plusZero := by
  have hone := Fp.one_pos.ne'
  rcases v.toF32_cases with hv | ⟨n, hv⟩ | ⟨n, u, hu, hv⟩
  · rw [← h, hv]
    rfl
  · rw [← h, hv]
    simp [Fp.mul, Fp.add, Fp.zero, Fp.plusZero, hone]
  · have hd : v.Double := ⟨n, _, hu.finite64, h.symm.trans hv⟩
    rw [Fp.one_mul hd]
    by_cases hneg : v = .fin true 0
    · rw [hneg]
      exact Fp.mul_one ⟨false, 0, finite64_zero, rfl⟩
    · rw [Fp.plusZero_of_ne hneg, show Fp.zero = .fin false 0 from rfl, Fp.zero_add hd hneg,
        Fp.mul_one hd]

end Sys2Proof

namespace Sys2Proof.Machine

open Sys2Proof

/-! ## The passes of `F0` -/

section
variable {α : Type} [Inhabited α] {x : List α} {c : Nat} {v : α} (hx : x[c]? = some v)
include hx

theorem tapValues_filterF0 : tapValues filterF0 x c = [v] := by
  obtain ⟨hlt, rfl⟩ := List.getElem?_eq_some_iff.1 hx
  have hidx : clampIdx x.length ((c : Int) + (0 : Nat) - filterF0.posOffset) = c := by
    rw [← clampIdx_of_lt hlt]
    congr 1
    simp [filterF0, clampIdx_of_lt hlt]
  have htap : tapAt filterF0 x c 0 = x[c] := by
    rw [tapAt, hidx, List.getD_eq_getElem _ _ hlt]
  exact (tapValues_eq filterF0 x c).trans (congrArg (fun v => [v]) htap)

theorem trimmed_filterF0 (trim : Nat) : trimmed filterF0 trim (tapValues filterF0 x c) = [v] := by
  rw [tapValues_filterF0 hx, trimmed, show (taps filterF0 - 1) / 2 = 0 from rfl, Nat.min_zero]
  rfl

end

section
variable (e : CrEnv) {x : List Int} {c : Nat} {v : Int} (hx : x[c]? = some v) (hv : IsInt32 v)
include hx hv

theorem isum_filterF0 : isum filterF0 x c = .ok v := by
  rw [isum, tapValues_filterF0 hx]
  simp [filterF0, isumFrom, int32?_eq_ok hv]

theorem boundI_filterF0 : boundI e filterF0 x c v = .ok v := by
  have hgain : gain filterF0 = 1 := by decide
  cases he : e.trim with
  | none => exact boundI_of_none he x v
  | some t =>
    have hmm : minmaxI filterF0 x c t = (v, v) := by rw [minmaxI, trimmed_filterF0 hx]; rfl
    rw [boundI_of_some he hmm] <;>
      rw [hgain, Int.mul_one]
    · rw [clampi_self]
    all_goals exact int32?_eq_ok hv

theorem firstI_filterF0 : firstI e filterF0 x c = .ok v := by
  rw [firstI_of_sum (isum_filterF0 hx hv), boundI_filterF0 e hx hv]

theorem finalI_filterF0 (lo hi : Int) : finalI e lo hi filterF0 x c = .ok (clampi v lo hi) := by
  have hoffset : int32? (v + filterF0.ioffset.toInt) = .ok v := by
    rw [show filterF0.ioffset.toInt = 0 by decide, Int.add_zero, int32?_eq_ok hv]
  rw [finalI_of_fits lo hi (isum_filterF0 hx hv) (boundI_filterF0 e hx hv) hoffset hoffset]
  simp [asr, filterF0]

end

section
variable {e : CrEnv} {x : List Fp} {c : Nat} {v : Fp} (hx : x[c]? = some v) (hv : v.toF32 = v)
  (hn : e.trim = none ∨ v.isNan = false)
include hx hv

theorem fsum_filterF0 : fsum filterF0 x c = v.plusZero := by
  have hsum : fsumFrom Fp.zero (filterF0.fcoef.zip [v]) =
      Fp.zero.add ((Fp.ofBits32 0x3F800000).mul v) := by
    rw [filterF0, List.zip_cons_cons, List.zip_nil_left, fsumFrom, fsumFrom]
  have hscale : filterF0.fscale = 0x3F800000 := rfl
  rw [fsum, tapValues_filterF0 hx, hsum, hscale, Fp.ofBits32_one]
  exact Fp.sum_one hv

include hn

/-- A window of one sample bounds nothing. -/
theorem boundF_filterF0 : boundF e filterF0 x c (fsum filterF0 x c) = .ok v.plusZero := by
  rw [fsum_filterF0 hx hv]
  cases he : e.trim with
  | none => exact boundF_of_none he x _
  | some t =>
    have hnan : v.isNan = false := hn.resolve_left (by simp [he])
    have hmm : minmaxF filterF0 x c t = .ok (v, v) := by
      rw [minmaxF, trimmed_filterF0 hx]
      simp [extremaF, hnan]
    have hirrefl := Fp.lt_eq_false_of_le (Fp.le_self hnan)
    have hlt : v.plusZero.lt v = false ∧ v.lt v.plusZero = false := by
      unfold Fp.plusZero
      split
      · rw [‹v = .fin true 0›]
        exact ⟨rfl, rfl⟩
      · exact ⟨hirrefl, hirrefl⟩
    rw [boundF_of_some he hmm, clampf, hlt.1, hlt.2]
    rfl

theorem firstF_filterF0 : firstF e filterF0 x c = .ok v.plusZero := by
  rw [firstF_of_bound (boundF_filterF0 hx hv hn), Fp.plusZero_toF32 hv]

theorem finalF_filterF0 : finalF e filterF0 x c = .ok v.plusZero := by
  rw [finalF_of_clip (boundF_filterF0 hx hv hn) (clipF_noClip rfl _), Fp.plusZero_toF32 hv]

end

/-! ## The samples of a frame -/

/-- Integer samples have at most 16 bits (20_memory.md R73). -/
theorem FrameDesc.container_le_of_fixed {f : FrameDesc} (hf : f.isFloat = false) :
    256 ^ f.kind.size ≤ 2 ^ 16 := by
  unfold FrameDesc.isFloat at hf
  cases hk : f.kind with
  | f32 => rw [hk] at hf; cases hf
  | u8 | u16 | reserved => decide

theorem State.num_lt_of_fixed (s : State) {f : FrameDesc} (hf : f.isFloat = false) (p : Fin 4)
    (n : Nat) : s.num f p n < 2 ^ 16 :=
  lt_of_lt_of_le (s.num_lt f p n) (FrameDesc.container_le_of_fixed hf)

theorem State.num_isInt32 (s : State) {f : FrameDesc} (hf : f.isFloat = false) (p : Fin 4)
    (n : Nat) : IsInt32 (s.num f p n) := by
  have := s.num_lt_of_fixed hf p n
  unfold IsInt32
  omega

theorem State.value_toF32 (s : State) {f : FrameDesc} (hf : f.isFloat = true) (p : Fin 4)
    (n : Nat) : (s.value f p n).toF32 = s.value f p n := by
  rw [State.value, eq_of_beq hf]
  exact Fp.toF32_ofBits32 _

/-! ## The bank at the selects 0 -/

theorem Tables.bank_eq_withF0 {t : Tables} {loc : BitVec 3} {dn up : BitVec 4} {b : FilterBank}
    (h : t.bank loc dn up = some b) : ∃ b' : FilterBank, b = b'.withF0 dn up := by
  unfold Tables.bank at h
  split at h
  · cases h
  · split at h
    · cases h
      exact ⟨_, rfl⟩
    · split at h
      · cases h
        exact ⟨_, rfl⟩
      · cases h

section
variable {s : State} (h : s.crBank.isSome = true)
include h

theorem State.exists_downF0 (hdn : s.crObj.dn = 0) :
    ∃ b, s.crBank = some b ∧ b.gdh = some filterF0 ∧ b.gdv = some filterF0 := by
  obtain ⟨b, hb⟩ := Option.isSome_iff_exists.1 h
  obtain ⟨b', rfl⟩ := Tables.bank_eq_withF0 hb
  exact ⟨_, hb, if_pos hdn, if_pos hdn⟩

theorem State.exists_upF0 (hup : s.crObj.up = 0) : ∃ b, s.crBank = some b ∧
    b.guh = some (filterF0, filterF0) ∧ b.guv = some (filterF0, filterF0) := by
  obtain ⟨b, hb⟩ := Option.isSome_iff_exists.1 h
  obtain ⟨b', rfl⟩ := Tables.bank_eq_withF0 hb
  exact ⟨_, hb, if_pos hup, if_pos hup⟩

end

theorem crEnv_trim_zero (s : State) (f : FrameDesc) : (crEnv s f 0).trim = none := rfl

/-! ## The two conversions -/

section
variable {s : State} {f : FrameDesc} {p : Fin 4} (y x : Nat)

theorem State.rowI_getElem? (hx : x < f.w p) :
    (s.rowI f p y)[x]? = some (s.num f p (y * f.w p + x) : Int) := by simp [State.rowI, hx]

theorem State.rowF_getElem? (hx : x < f.w p) :
    (s.rowF f p y)[x]? = some (s.value f p (y * f.w p + x)) := by simp [State.rowF, hx]

theorem State.colI_getElem? (hy : y < f.h p) :
    (s.colI f p x)[y]? = some (s.num f p (y * f.w p + x) : Int) := by simp [State.colI, hy]

theorem State.colF_getElem? (hy : y < f.h p) :
    (s.colF f p x)[y]? = some (s.value f p (y * f.w p + x)) := by simp [State.colF, hy]

end

theorem map_range_getElem? {α : Type} (g : Nat → α) {n k : Nat} (hk : k < n) :
    ((List.range n).map g)[k]? = some (g k) := by simp [hk]

section
variable {e : CrEnv} {w h : Nat} {g : Nat → Nat → Int} (hg : ∀ y x, IsInt32 (g y x))
  {G : Nat → Nat → Fp} (hG : ∀ y x, (G y x).toF32 = G y x)
include hg

/-- `F0` in both passes down, on a plane with the samples `g` (42_chroma_down.md R236). -/
theorem downSkeleton_filterF0 (lo hi : Int) : DownSkeleton (firstI e filterF0)
    (finalI e lo hi filterF0) w h (fun y => (List.range w).map (g y))
    fun y x => clampi (g (2 * y) (2 * x)) lo hi := by
  refine ⟨fun y i => g y (2 * i), fun y _ i hi => ?_, fun i _ j hj => ?_⟩
  · exact firstI_filterF0 e (map_range_getElem? (g y) (by omega)) (hg y (2 * i))
  · exact finalI_filterF0 e (map_range_getElem? (fun y => g y (2 * i)) (by omega))
      (hg (2 * j) (2 * i)) lo hi

/-- `F0` in both passes and phases up (43_chroma_up.md R273). -/
theorem upSkeleton_filterF0 (lo hi : Int) :
    UpSkeleton (fun _ => firstI e filterF0) (fun _ => finalI e lo hi filterF0) w h
      (fun x => (List.range (h / 2)).map fun y => g y x)
      fun y x => clampi (g (y / 2) (x / 2)) lo hi := by
  refine ⟨fun y i => g (y / 2) i, fun i _ j hj ph hph => ?_, fun y _ i hi ph hph => ?_⟩
  · beta_reduce
    rw [show (2 * j + ph) / 2 = j by omega]
    exact firstI_filterF0 e (map_range_getElem? _ hj) (hg _ _)
  · beta_reduce
    rw [show (2 * i + ph) / 2 = i by omega]
    exact finalI_filterF0 e (map_range_getElem? _ hi) (hg _ _) _ _

omit hg
include hG

theorem downSkeletonF_filterF0
    (hn : ∀ y, y < h → ∀ x, x < w / 2 → e.trim = none ∨ (G y (2 * x)).isNan = false) :
    DownSkeleton (firstF e filterF0) (finalF e filterF0) w h (fun y => (List.range w).map (G y))
    fun y x => (G (2 * y) (2 * x)).plusZero := by
  refine ⟨fun y i => (G y (2 * i)).plusZero, fun y hy i hi => ?_, fun i hi j hj => ?_⟩
  · exact firstF_filterF0 (map_range_getElem? (G y) (by omega)) (hG _ _) (hn y hy i hi)
  · have hfinal := finalF_filterF0 (e := e)
      (map_range_getElem? (fun y => (G y (2 * i)).plusZero) (n := h) (k := 2 * j) (by omega))
      (Fp.plusZero_toF32 (hG _ _)) (by rw [Fp.plusZero_isNan]; exact hn _ (by omega) i hi)
    rwa [Fp.plusZero_plusZero] at hfinal

theorem upSkeletonF_filterF0 (hh : h % 2 = 0)
    (hn : ∀ y, y < h / 2 → ∀ x, x < w / 2 → e.trim = none ∨ (G y x).isNan = false) :
    UpSkeleton (fun _ => firstF e filterF0) (fun _ => finalF e filterF0) w h
      (fun x => (List.range (h / 2)).map fun y => G y x)
      fun y x => (G (y / 2) (x / 2)).plusZero := by
  refine ⟨fun y i => (G (y / 2) i).plusZero, fun i hi j hj ph hph => ?_, fun y hy i hi ph hph => ?_⟩
  · beta_reduce
    rw [show (2 * j + ph) / 2 = j by omega]
    exact firstF_filterF0 (map_range_getElem? _ hj) (hG _ _) (hn j hj i hi)
  · beta_reduce
    rw [show (2 * i + ph) / 2 = i by omega]
    have hfinal := finalF_filterF0 (e := e)
      (map_range_getElem? (fun i => (G (y / 2) i).plusZero) hi)
      (Fp.plusZero_toF32 (hG _ _)) (by rw [Fp.plusZero_isNan]; exact hn _ (by omega) i hi)
    rwa [Fp.plusZero_plusZero] at hfinal

end

/-- Settles O54: `F0` passes each sample on, and the second pass takes the even rows. -/
theorem crDnGenNearest : Obligations.CrDnGenNearest := by
  intro s fdo fdi lvl ho hi hl h hbank hdn fo fi w src hnan
  obtain ⟨b, hb, hH, hV⟩ := State.exists_downF0 hbank hdn
  obtain ⟨hfixed, hfloat⟩ := crDnGenConverts s fdo fdi lvl b _ _ ho hi hl h hb hH hV
  have hwidth : ∀ p, p = 1 ∨ p = 2 → fi.w p = w := fun p hp => (Prod.mk.inj (h.sizes hp).1).1
  cases hf : fi.isFloat with
  | false =>
    obtain ⟨t, ht, hconv, hchroma⟩ := hfixed
      (fun p y x => clampi (s.num fi p (src y x)) (fo.lo p) (fo.hi p)) hf fun p hp => by
        unfold State.rowI
        rw [hwidth p hp]
        exact downSkeleton_filterF0 (fun y x => s.num_isInt32 hf p (y * w + x)) _ _
    exact ⟨t, ht, hconv, fun _ => hchroma, nofun⟩
  | true =>
    obtain ⟨t, ht, hconv, hchroma⟩ := hfloat
      (fun p y x => (s.value fi p (src y x)).plusZero) hf fun p hp => by
        unfold State.rowF
        rw [hwidth p hp]
        refine downSkeletonF_filterF0 (fun y x => s.value_toF32 hf p (y * w + x))
          fun y hy x hx => ?_
        exact (hnan hf).imp (fun h0 => by rw [h0]; rfl) fun hn => hn p hp y hy x hx
    exact ⟨t, ht, hconv, nofun, fun _ => hchroma⟩

/-- Settles O55: `F0` passes each sample on to both phases, in both passes. -/
theorem crUpGenReplicates : Obligations.CrUpGenReplicates := by
  intro s fdo fdi lvl ho hi hl h hbank hup fo fi w src hnan
  obtain ⟨b, hb, hH, hV⟩ := State.exists_upF0 hbank hup
  obtain ⟨hfixed, hfloat⟩ := crUpGenConverts s fdo fdi lvl b _ _ ho hi hl h hb hH hV
  have hsize : ∀ p, p = 1 ∨ p = 2 → fi.w p = w / 2 ∧ fi.h p = fi.h 0 / 2 := fun p hp =>
    Prod.mk.inj (h.sizes hp).1
  obtain ⟨-, -, -, heven, -⟩ := geometryOk_iff.1 (geometry_cr h.duties)
  simp only [ite_self] at hfixed hfloat
  cases hf : fi.isFloat with
  | false =>
    obtain ⟨t, ht, hconv, hchroma⟩ := hfixed
      (fun p y x => clampi (s.num fi p (src y x)) (fo.lo p) (fo.hi p)) hf fun p hp => by
        obtain ⟨hw, hh⟩ := hsize p hp
        unfold State.colI
        rw [hw, hh]
        exact upSkeleton_filterF0 (fun y x => s.num_isInt32 hf p (y * (w / 2) + x)) _ _
    exact ⟨t, ht, hconv, fun _ => hchroma, nofun⟩
  | true =>
    obtain ⟨t, ht, hconv, hchroma⟩ := hfloat
      (fun p y x => (s.value fi p (src y x)).plusZero) hf fun p hp => by
        obtain ⟨hw, hh⟩ := hsize p hp
        have hcount : fi.count p = w / 2 * (fi.h 0 / 2) := by
          rw [(framesOk_cr h.duties).inCount (by simp; tauto), hw, hh]
        unfold State.colF
        rw [hw, hh]
        refine upSkeletonF_filterF0 (fun y x => s.value_toF32 hf p (y * (w / 2) + x)) heven
          fun y hy x hx => ?_
        refine (hnan hf).imp (fun h0 => by rw [h0]; rfl) fun hn => hn p hp _ ?_
        have hle := Nat.mul_le_mul_right (w / 2) hy
        rw [Nat.succ_mul] at hle
        have hlt : y * (w / 2) + x < fi.h 0 / 2 * (w / 2) := lt_of_lt_of_le (Nat.add_lt_add_left hx _) hle
        rwa [hcount, Nat.mul_comm (w / 2)]
    exact ⟨t, ht, hconv, nofun, fun _ => hchroma⟩

end Sys2Proof.Machine
end

section
/-! The conversions complete whatever the samples are: with modest filters in the fixed path, and
the Generic converters at level 0 in the float path
(spec/41_filter_primitives.md R203, R206, R212). -/

namespace Sys2Proof.Machine

open Sys2Proof

/-! ## Skeletons of passes that always answer -/

theorem mapE_total {α β : Type} {f : α → Except Refusal β} {P : β → Prop} {as : List α}
    (h : ∀ a ∈ as, ∃ b, f a = .ok b ∧ P b) : ∃ bs, mapE f as = .ok bs ∧ ∀ b ∈ bs, P b := by
  induction as with
  | nil => exact ⟨[], rfl, by simp⟩
  | cons a as ih =>
    obtain ⟨b, hb, hPb⟩ := h a (by simp)
    obtain ⟨bs, hbs, hPbs⟩ := ih fun a ha => h a (by simp [ha])
    exact ⟨b :: bs, by simp [mapE, hb, hbs], by simpa using ⟨hPb, hPbs⟩⟩

section
variable {α : Type} {P Q R : α → Prop} {w h : Nat}

theorem DownSkeleton.exists_of_total {first final : List α → Nat → Except Refusal α}
    {row : Nat → List α} (hrow : ∀ y, ∀ v ∈ row y, P v)
    (hfirst : ∀ x, (∀ v ∈ x, P v) → ∀ c, ∃ v, first x c = .ok v ∧ Q v)
    (hfinal : ∀ x, (∀ v ∈ x, Q v) → ∀ c, ∃ v, final x c = .ok v ∧ R v) :
    ∃ out, DownSkeleton first final w h row out := by
  choose f hf hQ using fun y => hfirst (row y) (hrow y)
  choose g hg _ using fun i => hfinal ((List.range h).map fun y => f y (2 * i)) (by simp [hQ])
  exact ⟨fun j i => g i (2 * j), fun y i => f y (2 * i), fun y _ i _ => hf y (2 * i),
    fun i _ j _ => hg i (2 * j)⟩

theorem UpSkeleton.exists_of_total {first final : Nat → List α → Nat → Except Refusal α}
    {col : Nat → List α} (hcol : ∀ x, ∀ v ∈ col x, P v)
    (hfirst : ∀ ph x, (∀ v ∈ x, P v) → ∀ c, ∃ v, first ph x c = .ok v ∧ Q v)
    (hfinal : ∀ ph x, (∀ v ∈ x, Q v) → ∀ c, ∃ v, final ph x c = .ok v ∧ R v) :
    ∃ out, UpSkeleton first final w h col out := by
  choose f hf hQ using fun ph i => hfirst ph (col i) (hcol i)
  choose g hg _ using fun ph y =>
    hfinal ph ((List.range (w / 2)).map fun i => f (y % 2) i (y / 2)) (by simp [hQ])
  refine ⟨fun y x => g (x % 2) y (x / 2), fun y i => f (y % 2) i (y / 2),
    fun i _ j _ ph hph => ?_, fun y _ i _ ph hph => ?_⟩
  · have hphase : (2 * j + ph) % 2 = ph ∧ (2 * j + ph) / 2 = j := by omega
    simp only [hphase]
    exact hf ph i j
  · have hphase : (2 * i + ph) % 2 = ph ∧ (2 * i + ph) / 2 = i := by omega
    simp only [hphase]
    exact hg ph y i

theorem range_map_getD [Inhabited α] (y : List α) :
    (List.range y.length).map (fun i => y.getD i default) = y :=
  List.ext_getElem (by simp) fun i hi _ => by
    have hlt : i < y.length := by simpa using hi
    simp [hlt]

theorem LineSkeleton.exists_of_total [Inhabited α]
    {first final : List α → Except Refusal (List α)} {row : Nat → List α}
    (hrow : ∀ y, (row y).length = w ∧ ∀ v ∈ row y, P v)
    (hfirst : ∀ x, (∀ v ∈ x, P v) → ∃ y, first x = .ok y ∧ y.length = x.length / 2 ∧ ∀ v ∈ y, Q v)
    (hdefault : Q default)
    (hfinal : ∀ x, (∀ v ∈ x, Q v) →
      ∃ y, final x = .ok y ∧ y.length = x.length / 2 ∧ ∀ v ∈ y, R v) :
    ∃ out, LineSkeleton first final w h row out := by
  choose f hf hflen hQ using fun y => hfirst (row y) (hrow y).2
  have hget : ∀ y i, Q ((f y).getD i default) := fun y i => by
    rw [List.getD_eq_getElem?_getD]
    cases hv : (f y)[i]? with
    | none => exact hdefault
    | some v => exact hQ y v (List.mem_of_getElem? hv)
  choose g hg hglen _ using fun i =>
    hfinal ((List.range h).map fun y => (f y).getD i default) (by simp only [List.mem_map]; grind)
  refine ⟨fun j i => (g i).getD j default, fun y i => (f y).getD i default, fun y _ => ?_,
    fun i _ => ?_⟩
  · rw [← (hrow y).1, ← hflen, range_map_getD, hf]
  · have hlen := hglen i
    rw [List.length_map, List.length_range] at hlen
    rw [← hlen, range_map_getD, hg]

end

/-! ## Numbers of modest size -/

/-- A filter whose sums stay small (41_filter_primitives.md R206). -/
structure ModestFilter (F : ScaleFilter) : Prop where
  facts : FilterFacts F
  coefs : (F.icoef.map fun k => k.toInt.natAbs).sum ≤ 128
  offset : F.ioffset.toInt.natAbs ≤ 2 ^ 24

theorem isumFrom_total {B : Nat} {ps : List (Word × Int)} (hps : ∀ p ∈ ps, p.2.natAbs ≤ B)
    {acc : Int}
    (hfit : acc.natAbs + (ps.map fun p => p.1.toInt.natAbs).sum * B < 2 ^ 31) :
    ∃ S, isumFrom acc ps = .ok S ∧
      S.natAbs ≤ acc.natAbs + (ps.map fun p => p.1.toInt.natAbs).sum * B := by
  induction ps generalizing acc with
  | nil => exact ⟨acc, rfl, by simp⟩
  | cons p ps ih =>
    have hterm : (p.1.toInt * p.2).natAbs ≤ p.1.toInt.natAbs * B := by
      rw [Int.natAbs_mul]
      exact Nat.mul_le_mul_left _ (hps p (by simp))
    rw [List.map_cons, List.sum_cons, Nat.add_mul] at hfit ⊢
    have hacc : (acc + p.1.toInt * p.2).natAbs ≤ acc.natAbs + p.1.toInt.natAbs * B :=
      (Int.natAbs_add_le _ _).trans (Nat.add_le_add_left hterm _)
    obtain ⟨S, hS, hle⟩ := ih (fun q hq => hps q (by simp [hq])) (acc := acc + p.1.toInt * p.2)
      (by omega)
    refine ⟨S, ?_, by omega⟩
    rw [isumFrom, int32?_eq_ok (by omega), int32?_eq_ok (by omega)]
    exact hS

theorem natAbs_gain_le (F : ScaleFilter) :
    (gain F).natAbs ≤ (F.icoef.map fun k => k.toInt.natAbs).sum := by
  unfold gain
  induction F.icoef with
  | nil => simp
  | cons k ks ih =>
    rw [List.map_cons, List.map_cons, List.sum_cons, List.sum_cons]
    exact (Int.natAbs_add_le _ _).trans (Nat.add_le_add_left ih _)

theorem natAbs_clampi_le {v a b : Int} {B : Nat} (hv : v.natAbs ≤ B) (ha : a.natAbs ≤ B)
    (hb : b.natAbs ≤ B) : (clampi v a b).natAbs ≤ B := by
  unfold clampi
  split
  · exact ha
  · split
    · exact hb
    · exact hv

section
variable {F : ScaleFilter} (hF : ModestFilter F) {B : Nat} (hB : B ≤ 2 ^ 23) {x : List Int}
  (hx : ∀ v ∈ x, v.natAbs ≤ B) (c : Nat)

section
include hx

theorem natAbs_tapAt_le (k : Nat) : (tapAt F x c k).natAbs ≤ B := by
  by_cases hne : x = []
  · simp [tapAt, hne]
  · exact hx _ (tapAt_mem F hne c k)

theorem natAbs_le_of_mem_trimmed {trim : Nat} {v : Int}
    (hv : v ∈ trimmed F trim (tapValues F x c)) : v.natAbs ≤ B := by
  obtain ⟨k, -, -, rfl⟩ := mem_trimmed.1 hv
  exact natAbs_tapAt_le hx c k

end

include hF hB hx

theorem isum_total : ∃ S, isum F x c = .ok S ∧ S.natAbs ≤ 128 * B := by
  have hcoefs := Nat.mul_le_mul_right B hF.coefs
  have htaps : ∀ p ∈ F.icoef.zip (tapValues F x c), p.2.natAbs ≤ B := fun p hp => by
    have hmem := (List.of_mem_zip hp).2
    rw [tapValues_eq] at hmem
    obtain ⟨k, -, hk⟩ := List.mem_map.1 hmem
    rw [← hk]
    exact natAbs_tapAt_le hx c k
  have hfst : (F.icoef.zip (tapValues F x c)).map (fun p => p.1.toInt.natAbs) =
      F.icoef.map fun k => k.toInt.natAbs := by
    have hlen : F.icoef.length ≤ (tapValues F x c).length := by
      rw [tapValues_eq, List.length_map, List.length_range, hF.facts.lengths, taps]
    exact List.map_map.symm.trans
      (congrArg (List.map fun k : Word => k.toInt.natAbs) (List.map_fst_zip hlen))
  obtain ⟨S, hS, hle⟩ := isumFrom_total htaps (acc := 0) (by rw [hfst]; simp; omega)
  rw [hfst] at hle
  exact ⟨S, hS, by simp at hle; omega⟩

theorem boundI_total (e : CrEnv) {v : Int} (hv : v.natAbs ≤ 128 * B) :
    ∃ S, boundI e F x c v = .ok S ∧ S.natAbs ≤ 128 * B := by
  cases he : e.trim with
  | none => exact ⟨v, boundI_of_none he x v, hv⟩
  | some t =>
    obtain ⟨-, hmin, hmax⟩ := minmaxI_spec hF.facts.taps_ne x c t
    have hgain := (natAbs_gain_le F).trans hF.coefs
    have hprod : ∀ u : Int, u.natAbs ≤ B → (u * gain F).natAbs ≤ 128 * B := fun u hu => by
      rw [Int.natAbs_mul, Nat.mul_comm 128]
      exact Nat.mul_le_mul hu hgain
    have hmn := hprod _ (natAbs_le_of_mem_trimmed hx c hmin)
    have hmx := hprod _ (natAbs_le_of_mem_trimmed hx c hmax)
    exact ⟨_, boundI_of_some he (mn := (minmaxI F x c t).1) (mx := (minmaxI F x c t).2) rfl
      (int32?_eq_ok (by omega)) (int32?_eq_ok (by omega)) v, natAbs_clampi_le hv hmn hmx⟩

theorem firstI_total (e : CrEnv) : ∃ S, firstI e F x c = .ok S ∧ S.natAbs ≤ 128 * B := by
  obtain ⟨v, hv, hle⟩ := isum_total hF hB hx c
  rw [firstI_of_sum hv]
  exact boundI_total hF hB hx c e hle

theorem finalI_total (e : CrEnv) {lo hi : Int} (h : lo ≤ hi) :
    ∃ v, finalI e lo hi F x c = .ok v ∧ lo ≤ v ∧ v ≤ hi := by
  obtain ⟨v, hv, hle⟩ := isum_total hF hB hx c
  obtain ⟨S, hS, hle'⟩ := boundI_total hF hB hx c e hle
  have hoffset := hF.offset
  exact ⟨_, finalI_of_fits lo hi hv hS (int32?_eq_ok (by omega)) (int32?_eq_ok (by omega)),
    clampi_mem _ h⟩

end

/-! ## Selections -/

theorem select_total {rejects : ScaleFilter → Except Refusal Bool}
    (h : ∀ F, ∃ r, rejects F = .ok r) (L : List ScaleFilter) : ∃ q, select rejects L = .ok q := by
  induction L with
  | nil => exact ⟨0, rfl⟩
  | cons F rest ih =>
    cases rest with
    | nil => exact ⟨0, rfl⟩
    | cons G rest =>
      obtain ⟨r, hr⟩ := h F
      obtain ⟨q, hq⟩ := ih
      cases r <;> simp [select, hr, hq]

/-- A selection by the fixed test among filters that all answer (42_chroma_down.md R241). -/
theorem selected_total {thr : Int} {out : ScaleFilter → List Int → Nat → Except Refusal Int}
    {L : List ScaleFilter} (hL : L ≠ []) {x : List Int} {c : Nat} {P : Int → Prop}
    (h : ∀ F ∈ L, ∃ v, out F x c = .ok v ∧ P v) :
    ∃ v, selected (rejectsI thr) out L x c = .ok v ∧ P v := by
  obtain ⟨q, hq⟩ := select_total (rejects := rejectsI thr x c) (fun _ => ⟨_, rfl⟩) L
  have hlt := select_lt hL hq
  obtain ⟨v, hv, hP⟩ := h L[q] (List.getElem_mem hlt)
  refine ⟨v, ?_, hP⟩
  rw [selected, hq]
  simpa [hlt] using hv

/-! ## The Adaptive line -/

theorem downLine_total {α : Type} {out : List α → Nat → Except Refusal α} {P : α → Prop}
    {x : List α} (h : ∀ c, ∃ v, out x c = .ok v ∧ P v) :
    ∃ y, downLine out x = .ok y ∧ y.length = x.length / 2 ∧ ∀ v ∈ y, P v := by
  obtain ⟨y, hy, hP⟩ := mapE_total (as := List.range (x.length / 2)) fun i _ => h (2 * i)
  exact ⟨y, hy, downLine_length hy, hP⟩

theorem upLine_total {α : Type} {out : Nat → List α → Nat → Except Refusal α} {P : α → Prop}
    {x : List α} (h : ∀ ph c, ∃ v, out ph x c = .ok v ∧ P v) :
    ∃ y, upLine out x = .ok y ∧ ∀ v ∈ y, P v :=
  mapE_total fun t _ => h (t % 2) (t / 2)

/-- `BEST` finds an index of the list (42_chroma_down.md R248). -/
theorem best_lt {ds : List Int} (h : ds ≠ []) : best (fun a b => decide (a ≤ b)) ds < ds.length := by
  obtain ⟨d, hd, hmin⟩ := Finset.exists_min_image ds.toFinset id
    ((List.toFinset_nonempty_iff ds).2 h)
  refine List.findIdx_lt_length_of_exists ⟨d, List.mem_toFinset.1 hd, ?_⟩
  exact List.all_eq_true.2 fun u hu => decide_eq_true (hmin u (List.mem_toFinset.2 hu))

section
variable {L : List ScaleFilter} (hL : L ≠ []) (hmod : ∀ F ∈ L, ModestFilter F)
  {U : ScaleFilter × ScaleFilter} (hU : ModestFilter U.1 ∧ ModestFilter U.2) {lo hi : Int}
  (hle : lo ≤ hi) (hlo : 0 ≤ lo) (hhi : hi < 2 ^ 16) (e : CrEnv) {x : List Int}
  (hx : ∀ v ∈ x, v.natAbs ≤ 2 ^ 16)
include hmod hU hle hlo hhi hx

theorem roundTrip_total {F : ScaleFilter} (hF : F ∈ L) :
    ∃ c, roundTrip (finalI e lo hi) U x F = .ok c ∧ c.1.length = x.length / 2 ∧
      ∀ v ∈ c.1, lo ≤ v ∧ v ≤ hi := by
  obtain ⟨d, hd, hlen, hmem⟩ := downLine_total fun c =>
    finalI_total (hmod F hF) (by decide) hx c e hle
  have hphase : ∀ ph, ModestFilter (if ph = 0 then U.1 else U.2) := fun ph => by
    split
    · exact hU.1
    · exact hU.2
  have hback : ∀ v ∈ d, v.natAbs ≤ 2 ^ 16 := fun v hv => by
    have := hmem v hv
    omega
  obtain ⟨u, hu, -⟩ := upLine_total (out := fun ph => finalI e lo hi (if ph = 0 then U.1 else U.2))
    fun ph c => finalI_total (hphase ph) (by decide) hback c e hle
  exact ⟨(d, u), by simp only [roundTrip, hd, hu], hlen, hmem⟩

include hL

theorem adaptI_total : ∃ y, adaptI e lo hi L U x = .ok y ∧ y.length = x.length / 2 ∧
    ∀ v ∈ y, v.natAbs ≤ 2 ^ 16 := by
  obtain ⟨cs, hcs, hall⟩ := mapE_total fun F hF => roundTrip_total hmod hU hle hlo hhi e hx hF
  have hne : cs.map (fun c => distInt (c.2.zip x)) ≠ [] := by
    have hlen := mapE_length hcs
    have hpos := List.length_pos_of_ne_nil hL
    exact List.ne_nil_of_length_pos (by simp; omega)
  have hlt := best_lt hne
  rw [List.length_map] at hlt
  obtain ⟨hlen, hmem⟩ := hall _ (List.getElem_mem hlt)
  refine ⟨_, by simp only [adaptI, hcs]; rfl, ?_⟩
  rw [List.getD_eq_getElem _ _ hlt]
  exact ⟨hlen, fun v hv => by have := hmem v hv; omega⟩

end

/-! ## The planes of a ready conversion -/

section
variable {up : Bool} {s : State} {o i : Fin 4} (h : s.crReady up o i)
include h

theorem State.crReady.modest {b : FilterBank} (hb : s.crBank = some b)
    (hmod : ∀ F ∈ bankFilters b, (F.icoef.map fun k => k.toInt.natAbs).sum ≤ 128 ∧
      F.ioffset.toInt.natAbs ≤ 2 ^ 24) : ∀ F ∈ bankFilters b, ModestFilter F := fun F hF => by
  have hok := bank_of_crDuties h.duties hb
  simp only [bankOk, Bool.and_eq_true] at hok
  obtain ⟨⟨⟨⟨⟨hfilters, -⟩, -⟩, -⟩, -⟩, -⟩ := hok
  exact ⟨filterFacts_of_filterOk (List.all_eq_true.1 hfilters F hF), (hmod F hF).1, (hmod F hF).2⟩

variable (hf : (s.slot i).isFloat = false)
include hf

/-- The clamp bounds of a fixed conversion have at most 16 bits (10_state.md R46). -/
theorem State.crReady.pels {q : Fin 4} (hq : q = 1 ∨ q = 2) :
    (s.slot o).lo q ≤ (s.slot o).hi q ∧ (s.slot o).hi q < 2 ^ 16 := by
  have hok := framesOk_cr h.duties
  have hfo : (s.slot o).isFloat = false := h.sameKind ▸ hf
  have hmem : q ∈ [(1 : Fin 4), 2] := by simp; tauto
  exact ⟨(hok.outPels hfo hmem).1,
    lt_of_lt_of_le (hok.outFits hfo hmem) (FrameDesc.container_le_of_fixed hfo)⟩

omit h

theorem State.natAbs_num_le {p : Fin 4} {g : Nat → Nat} {n : Nat} :
    ∀ v ∈ (List.range n).map (fun k => (s.num (s.slot i) p (g k) : Int)), v.natAbs ≤ 2 ^ 16 :=
  fun v hv => by
    obtain ⟨k, -, rfl⟩ := List.mem_map.1 hv
    exact (s.num_lt_of_fixed hf p (g k)).le

include h

/-- Passes of modest filters down, on the samples of an integer frame. -/
theorem State.crReady.exists_downSkeleton {first : List Int → Nat → Except Refusal Int}
    {final : Int → Int → List Int → Nat → Except Refusal Int}
    (hfirst : ∀ x, (∀ v ∈ x, v.natAbs ≤ 2 ^ 16) → ∀ c,
      ∃ v, first x c = .ok v ∧ v.natAbs ≤ 128 * 2 ^ 16)
    (hfinal : ∀ lo hi, lo ≤ hi → ∀ x, (∀ v ∈ x, v.natAbs ≤ 128 * 2 ^ 16) → ∀ c,
      ∃ v, final lo hi x c = .ok v ∧ lo ≤ v ∧ v ≤ hi) :
    ∃ out : Fin 4 → Nat → Nat → Int, ∀ q, q = 1 ∨ q = 2 →
      DownSkeleton first (final ((s.slot o).lo q) ((s.slot o).hi q)) ((s.slot i).w 0)
        ((s.slot i).h 0) (s.rowI (s.slot i) q) (out q) := by
  have hplane := fun (q : Fin 4) (hq : q = 1 ∨ q = 2) => DownSkeleton.exists_of_total
    (w := (s.slot i).w 0) (h := (s.slot i).h 0) (row := s.rowI (s.slot i) q)
    (fun y => State.natAbs_num_le hf) hfirst
    (hfinal _ _ (Int.ofNat_le.2 (h.pels hf hq).1))
  choose! out hout using hplane
  exact ⟨out, hout⟩

/-- Passes of modest filters up, on the samples of an integer frame. -/
theorem State.crReady.exists_upSkeleton {first : Nat → List Int → Nat → Except Refusal Int}
    {final : Int → Int → Nat → List Int → Nat → Except Refusal Int}
    (hfirst : ∀ ph x, (∀ v ∈ x, v.natAbs ≤ 2 ^ 16) → ∀ c,
      ∃ v, first ph x c = .ok v ∧ v.natAbs ≤ 128 * 2 ^ 16)
    (hfinal : ∀ lo hi, lo ≤ hi → ∀ ph x, (∀ v ∈ x, v.natAbs ≤ 128 * 2 ^ 16) → ∀ c,
      ∃ v, final lo hi ph x c = .ok v ∧ lo ≤ v ∧ v ≤ hi) :
    ∃ out : Fin 4 → Nat → Nat → Int, ∀ q, q = 1 ∨ q = 2 →
      UpSkeleton first (final ((s.slot o).lo q) ((s.slot o).hi q)) ((s.slot i).w 0)
        ((s.slot i).h 0) (s.colI (s.slot i) q) (out q) := by
  have hplane := fun (q : Fin 4) (hq : q = 1 ∨ q = 2) => UpSkeleton.exists_of_total
    (w := (s.slot i).w 0) (h := (s.slot i).h 0) (col := s.colI (s.slot i) q)
    (fun x => State.natAbs_num_le hf) hfirst
    (hfinal _ _ (Int.ofNat_le.2 (h.pels hf hq).1))
  choose! out hout using hplane
  exact ⟨out, hout⟩

end

/-- A threshold of 16 bits times the gain of a modest list is int32
(41_filter_primitives.md R206, R208). -/
theorem isInt32_threshold {L : List ScaleFilter} (hL : L ≠ []) (hmod : ∀ F ∈ L, ModestFilter F)
    {thr : Nat} (hthr : thr < 2 ^ 16) : IsInt32 (thr * listGain L) := by
  have hpos := List.length_pos_of_ne_nil hL
  have hgain : (listGain L).natAbs ≤ 128 := by
    rw [listGain, List.getD_eq_getElem _ _ hpos]
    exact (natAbs_gain_le _).trans (hmod _ (List.getElem_mem hpos)).coefs
  have hprod : ((thr : Int) * listGain L).natAbs ≤ 2 ^ 16 * 128 := by
    rw [Int.natAbs_mul]
    exact Nat.mul_le_mul hthr.le hgain
  unfold IsInt32
  omega

/-! ## The fixed path -/

section
variable {s : State} {o i : Fin 4} {b : FilterBank} (hb : s.crBank = some b)
  (hf : (s.slot i).isFloat = false) (hmod : ∀ F ∈ bankFilters b, ModestFilter F)
include hb hf hmod

theorem State.crReady.dnBnd_completes (h : s.crReady false o i)
    (hthr : s.cfg.edgeInt (s.slot i).depth < 2 ^ 16) (hH : b.bdh ≠ []) (hV : b.bdv ≠ []) :
    ∃ t, crConvert false dnBndPlan 0 s o i = .next t ∧ Converted s t o i := by
  have hmH : ∀ F ∈ b.bdh, ModestFilter F := fun F hF => hmod F (by simp [bankFilters, hF])
  have hmV : ∀ F ∈ b.bdv, ModestFilter F := fun F hF => hmod F (by simp [bankFilters, hF])
  obtain ⟨out, hs⟩ := h.exists_downSkeleton hf
    (fun x hx c => selected_total (thr := (crEnv s (s.slot i) 0).thrI) hH fun F hF =>
      firstI_total (hmH F hF) (by decide) hx c (crEnv s (s.slot i) 0))
    (fun lo hi hle x hx c => selected_total
      (thr := (crEnv s (s.slot i) 0).thrI * listGain b.bdh) hV fun F hF =>
      finalI_total (hmV F hF) (by decide) hx c (crEnv s (s.slot i) 0) hle)
  obtain ⟨t, ht, hconv, -⟩ := h.dnBnd_fixed hb hf hH hV (isInt32_threshold hH hmH hthr) hs
  exact ⟨t, ht, hconv⟩

theorem State.crReady.upBnd_completes (h : s.crReady true o i)
    (hthr : s.cfg.edgeInt (s.slot i).depth < 2 ^ 16) (hV1 : b.buv.1 ≠ []) (hV2 : b.buv.2 ≠ [])
    (hH1 : b.buh.1 ≠ []) (hH2 : b.buh.2 ≠ []) :
    ∃ t, crConvert true upBndPlan 0 s o i = .next t ∧ Converted s t o i := by
  have hmV1 : ∀ F ∈ b.buv.1, ModestFilter F := fun F hF => hmod F (by simp [bankFilters, hF])
  have hphase : ∀ {L : List ScaleFilter × List ScaleFilter}, L.1 ≠ [] → L.2 ≠ [] →
      ∀ ph, ofPhase L ph ≠ [] := fun h1 h2 ph => by
    unfold ofPhase
    split
    · exact h1
    · exact h2
  have hmV : ∀ ph, ∀ F ∈ ofPhase b.buv ph, ModestFilter F := fun ph F hF => hmod F (by
    unfold ofPhase at hF
    split at hF <;> simp [bankFilters, hF])
  have hmH : ∀ ph, ∀ F ∈ ofPhase b.buh ph, ModestFilter F := fun ph F hF => hmod F (by
    unfold ofPhase at hF
    split at hF <;> simp [bankFilters, hF])
  obtain ⟨out, hs⟩ := h.exists_upSkeleton hf
    (fun ph x hx c => selected_total (thr := (crEnv s (s.slot i) 0).thrI) (hphase hV1 hV2 ph)
      fun F hF => firstI_total (hmV ph F hF) (by decide) hx c (crEnv s (s.slot i) 0))
    (fun lo hi hle ph x hx c => selected_total
      (thr := (crEnv s (s.slot i) 0).thrI * listGain b.buv.1) (hphase hH1 hH2 ph) fun F hF =>
      finalI_total (hmH ph F hF) (by decide) hx c (crEnv s (s.slot i) 0) hle)
  obtain ⟨t, ht, hconv, -⟩ :=
    h.upBnd_fixed hb hf hV1 hV2 hH1 hH2 (isInt32_threshold hV1 hmV1 hthr) hs
  exact ⟨t, ht, hconv⟩

omit hb

/-- Each line of the Adaptive converter has a best candidate. -/
theorem State.crReady.exists_dnAdpSkeleton (h : s.crReady false o i) (hlh : b.adh.length = 5)
    (hlv : b.adv.length = 5) {UH UV : ScaleFilter × ScaleFilter} (hUH : b.auh = some UH)
    (hUV : b.auv = some UV) (e : CrEnv) : ∃ out : Fin 4 → Nat → Nat → Int, ∀ q, q = 1 ∨ q = 2 →
      LineSkeleton (adaptI e ((s.slot o).lo q) ((s.slot o).hi q) b.adh UH)
        (adaptI e ((s.slot o).lo q) ((s.slot o).hi q) b.adv UV) ((s.slot i).w 0) ((s.slot i).h 0)
        (s.rowI (s.slot i) q) (out q) := by
  have hplane : ∀ q : Fin 4, q = 1 ∨ q = 2 → ∃ out,
      LineSkeleton (adaptI e ((s.slot o).lo q) ((s.slot o).hi q) b.adh UH)
        (adaptI e ((s.slot o).lo q) ((s.slot o).hi q) b.adv UV) ((s.slot i).w 0) ((s.slot i).h 0)
        (s.rowI (s.slot i) q) out := fun q hq => by
    obtain ⟨hle, hhi⟩ := h.pels hf hq
    have hne : ∀ {L : List ScaleFilter}, L.length = 5 → L ≠ [] := fun hL =>
      List.ne_nil_of_length_pos (by omega)
    refine LineSkeleton.exists_of_total (P := fun v => v.natAbs ≤ 2 ^ 16)
      (Q := fun v => v.natAbs ≤ 2 ^ 16) (R := fun v => v.natAbs ≤ 2 ^ 16)
      (fun y => ⟨?_, ?_⟩) (fun x hx => ?_) (by decide) (fun x hx => ?_)
    · rw [State.rowI_length, (Prod.mk.inj (h.sizes hq).1).1]
    · exact State.natAbs_num_le hf
    · exact adaptI_total (hne hlh) (fun F hF => hmod F (by simp [bankFilters, hF]))
        ⟨hmod _ (by simp [bankFilters, pairList, hUH]),
          hmod _ (by simp [bankFilters, pairList, hUH])⟩ (by omega) (by omega) (by omega) e hx
    · exact adaptI_total (hne hlv) (fun F hF => hmod F (by simp [bankFilters, hF]))
        ⟨hmod _ (by simp [bankFilters, pairList, hUV]),
          hmod _ (by simp [bankFilters, pairList, hUV])⟩ (by omega) (by omega) (by omega) e hx
  choose! out hout using hplane
  exact ⟨out, hout⟩

end

/-! ## The float path at level 0 -/

section
variable {e : CrEnv} (he : e.trim = none) {F : ScaleFilter} (x : List Fp) (c : Nat)
include he

theorem firstF_total : ∃ v, firstF e F x c = .ok v :=
  ⟨_, firstF_of_bound (boundF_of_none he x _)⟩

theorem finalF_total (hF : F.clip = true → boundsOk e.fmin e.fmax = true) :
    ∃ v, finalF e F x c = .ok v := by
  cases hc : F.clip with
  | false => exact ⟨_, finalF_of_clip (boundF_of_none he x _) (clipF_noClip hc _)⟩
  | true => exact ⟨_, finalF_of_clip (boundF_of_none he x _) (clipF_clip hc (hF hc) _)⟩

end

theorem DownSkeleton.exists_float {e : CrEnv} (he : e.trim = none) {H V : ScaleFilter}
    (hV : V.clip = true → boundsOk e.fmin e.fmax = true) (w h : Nat)
    (row : Fin 4 → Nat → List Fp) : ∃ out : Fin 4 → Nat → Nat → Fp, ∀ q,
      DownSkeleton (firstF e H) (finalF e V) w h (row q) (out q) := by
  choose out hout using fun q => DownSkeleton.exists_of_total (P := fun _ => True)
    (Q := fun _ => True) (R := fun _ => True) (w := w) (h := h) (row := row q)
    (fun _ _ _ => trivial) (fun x _ c => (firstF_total he (F := H) x c).imp fun _ h => ⟨h, trivial⟩)
    (fun x _ c => (finalF_total he x c hV).imp fun _ h => ⟨h, trivial⟩)
  exact ⟨out, hout⟩

theorem UpSkeleton.exists_float {e : CrEnv} (he : e.trim = none) {H V : Nat → ScaleFilter}
    (hH : ∀ ph, (H ph).clip = true → boundsOk e.fmin e.fmax = true) (w h : Nat)
    (col : Fin 4 → Nat → List Fp) : ∃ out : Fin 4 → Nat → Nat → Fp, ∀ q,
      UpSkeleton (fun ph => firstF e (V ph)) (fun ph => finalF e (H ph)) w h (col q) (out q) := by
  choose out hout using fun q => UpSkeleton.exists_of_total (P := fun _ => True)
    (Q := fun _ => True) (R := fun _ => True) (w := w) (h := h) (col := col q)
    (fun _ _ _ => trivial)
    (fun ph x _ c => (firstF_total he (F := V ph) x c).imp fun _ h => ⟨h, trivial⟩)
    (fun ph x _ c => (finalF_total he x c (hH ph)).imp fun _ h => ⟨h, trivial⟩)
  exact ⟨out, hout⟩

/-- Settles O53: the skeletons exist, so the commands complete with them. -/
theorem conversionsComplete : Obligations.ConversionsComplete := by
  intro s fdo fdi lvl b ho hi hl hb fi completes boundsGood
  have hc : ∀ {c}, c = .crDnGen fdo fdi lvl ∨ c = .crDnBnd fdo fdi ∨ c = .crDnAdp fdo fdi ∨
      c = .crUpGen fdo fdi lvl ∨ c = .crUpBnd fdo fdi → c ∈ conversionCommands fdo fdi lvl :=
    mem_conversionCommands.2
  have hdrop : ∀ {c} {P : State → Prop}, (∃ t, exec c s = .next t ∧
      Converted s t (slotIdx fdo) (slotIdx fdi) ∧ P t) → completes c :=
    fun ⟨t, ht, hconv, _⟩ => ⟨t, ht, hconv⟩
  refine ⟨fun hf hthr hsmall => ⟨fun h => ?_, fun h => ?_⟩, fun hf h0 => ?_⟩
  · have hmod := h.modest hb hsmall
    refine ⟨fun hH hV => ?_, fun hH hV => ?_, fun hlh hlv hUH hUV => ?_⟩
    · obtain ⟨H, hH⟩ := Option.isSome_iff_exists.1 hH
      obtain ⟨V, hV⟩ := Option.isSome_iff_exists.1 hV
      have hmH : ModestFilter H := hmod H (by simp [bankFilters, hH])
      have hmV : ModestFilter V := hmod V (by simp [bankFilters, hV])
      obtain ⟨out, hs⟩ := h.exists_downSkeleton hf
        (fun x hx c => firstI_total hmH (by decide) hx c (crEnv s fi lvl.toNat))
        (fun lo hi hle x hx c => finalI_total hmV (by decide) hx c (crEnv s fi lvl.toNat) hle)
      exact hdrop ((crDnGenConverts s fdo fdi lvl b H V ho hi hl h hb hH hV).1 out hf hs)
    · exact exec_completes ho hi hl h.running (hc (by simp)) rfl
        (h.dnBnd_completes hb hf hmod hthr hH hV)
    · obtain ⟨UH, hUH⟩ := Option.isSome_iff_exists.1 hUH
      obtain ⟨UV, hUV⟩ := Option.isSome_iff_exists.1 hUV
      obtain ⟨out, hs⟩ := h.exists_dnAdpSkeleton hf hmod hlh hlv hUH hUV (crEnv s fi 0)
      exact hdrop ((crDnAdpConverts s fdo fdi b UH UV ho hi h hb hlh hlv hUH hUV).1 out hf hs)
  · have hmod := h.modest hb hsmall
    refine ⟨fun hH hV => ?_, fun hH1 hH2 hV1 hV2 => ?_⟩
    · obtain ⟨H, hH⟩ := Option.isSome_iff_exists.1 hH
      obtain ⟨V, hV⟩ := Option.isSome_iff_exists.1 hV
      have hmH : ∀ ph : Nat, ModestFilter (if ph = 0 then H.1 else H.2) := fun ph => by
        split <;> exact hmod _ (by simp [bankFilters, pairList, hH])
      have hmV : ∀ ph : Nat, ModestFilter (if ph = 0 then V.1 else V.2) := fun ph => by
        split <;> exact hmod _ (by simp [bankFilters, pairList, hV])
      obtain ⟨out, hs⟩ := h.exists_upSkeleton hf
        (fun ph x hx c => firstI_total (hmV ph) (by decide) hx c (crEnv s fi lvl.toNat))
        (fun lo hi hle ph x hx c =>
          finalI_total (hmH ph) (by decide) hx c (crEnv s fi lvl.toNat) hle)
      exact hdrop ((crUpGenConverts s fdo fdi lvl b H V ho hi hl h hb hH hV).1 out hf hs)
    · exact exec_completes ho hi hl h.running (hc (by simp)) rfl
        (h.upBnd_completes hb hf hmod hthr hV1 hV2 hH1 hH2)
  · have he : (crEnv s fi lvl.toNat).trim = none := by rw [h0]; rfl
    refine ⟨fun h H V hH hV hclip => ?_, fun h H V hH hV hclip => ?_⟩
    · obtain ⟨out, hs⟩ := DownSkeleton.exists_float (H := H) (V := V) he hclip (fi.w 0) (fi.h 0)
        (s.rowF fi)
      exact hdrop ((crDnGenConverts s fdo fdi lvl b H V ho hi hl h hb hH hV).2 out hf
        fun q _ => hs q)
    · have hphase : ∀ ph : Nat, (if ph = 0 then H.1 else H.2).clip = true →
          boundsGood = true := fun ph hph => by
        split at hph
        · exact hclip (.inl hph)
        · exact hclip (.inr hph)
      obtain ⟨out, hs⟩ := UpSkeleton.exists_float (V := fun ph => if ph = 0 then V.1 else V.2) he
        hphase (fi.w 0) (fi.h 0) (s.colF fi)
      exact hdrop ((crUpGenConverts s fdo fdi lvl b H V ho hi hl h hb hH hV).2 out hf
        fun q _ => hs q)

end Sys2Proof.Machine
end

section
/-! `SELECT`: the first candidate within the threshold, the last one untested
(spec/42_chroma_down.md R241, R242, 41_filter_primitives.md R208). -/

namespace Sys2Proof.Machine

open Sys2Proof

/-- Where the tests of all candidates but the last answer `test`, `SELECT` answers the first one
that is not rejected, or else the last. -/
theorem select_of_tests {rejects : ScaleFilter → Except Refusal Bool} {L : List ScaleFilter}
    (hL : L ≠ []) {test : Nat → Bool}
    (ht : ∀ q, q + 1 < L.length → rejects (L.getD q filterF0) = .ok (test q)) :
    ∃ q, select rejects L = .ok q ∧ q < L.length ∧ (∀ r, r < q → test r = true) ∧
      (q + 1 < L.length → test q = false) := by
  induction L generalizing test with
  | nil => exact absurd rfl hL
  | cons F rest ih =>
    cases rest with
    | nil => exact ⟨0, rfl, Nat.one_pos, by simp, by simp⟩
    | cons G rest =>
      have hF : rejects F = .ok (test 0) := ht 0 (by simp)
      cases h0 : test 0 with
      | false => exact ⟨0, by simp [select, hF, h0], by simp, by simp, fun _ => h0⟩
      | true =>
        obtain ⟨q, hq, hlt, hrej, hacc⟩ := ih (List.cons_ne_nil G rest)
          (test := fun k => test (k + 1)) fun k hk => ht (k + 1) (Nat.succ_lt_succ hk)
        refine ⟨q + 1, by simp [select, hF, h0, hq], Nat.succ_lt_succ hlt, fun r hr => ?_,
          fun hlast => hacc (Nat.lt_of_succ_lt_succ hlast)⟩
        cases r with
        | zero => exact h0
        | succ r => exact hrej r (Nat.lt_of_succ_lt_succ hr)

/-- The fixed test always answers. -/
theorem rejectsI_eq (thr : Int) (x : List Int) (c : Nat) (F : ScaleFilter) :
    rejectsI thr x c F = .ok (decide (thr < (minmaxI F x c 0).2 - (minmaxI F x c 0).1)) := rfl

/-- The float test answers where the extrema of the support are defined. -/
theorem rejectsF_of_minmax {thr : Fp} {x : List Fp} {c : Nat} {F : ScaleFilter} {m : Fp × Fp}
    (h : minmaxF F x c 0 = .ok m) : rejectsF thr x c F = .ok (thr.lt (m.2.sub m.1)) := by
  rw [rejectsF, h]

/-- Settles O42: both tests answer for every candidate but the last. -/
theorem selectFirstAccepted : Obligations.SelectFirstAccepted := by
  intro c L hL
  constructor
  · intro thr x spread
    obtain ⟨q, hq, hlt, hrej, hacc⟩ := select_of_tests hL
      (test := fun q => decide (thr < spread q)) fun q _ => rejectsI_eq thr x c _
    exact ⟨q, hq, hlt, fun r hr => of_decide_eq_true (hrej r hr),
      fun hlast => of_decide_eq_false (hacc hlast)⟩
  · intro thr x mm hmm
    exact select_of_tests hL (test := fun q => thr.lt ((mm q).2.sub (mm q).1))
      fun q hq => rejectsF_of_minmax (hmm q hq)

/-- Settles O43: in each case `selectFirstAccepted` leaves one index only. -/
theorem selectProperties : Obligations.SelectProperties := by
  intro thr x c L hL spread
  obtain ⟨q, hq, hlt, hrej, hacc⟩ := (selectFirstAccepted c L hL).1 thr x
  have hfirst : ¬ spread (L.getD 0 filterF0) > thr → select (rejectsI thr x c) L = .ok 0 :=
    fun h0 => by
      have hq0 : q = 0 := Nat.eq_zero_of_not_pos fun hpos => h0 (hrej 0 hpos)
      rw [hq, hq0]
  refine ⟨fun hthr hflat => ?_, fun hall => ?_, fun hone => ?_, fun heq => ?_⟩
  · refine hfirst ?_
    rw [List.getD_eq_getElem _ _ (List.length_pos_of_ne_nil hL), hflat _ (List.getElem_mem _)]
    omega
  · have hlast : ¬ q + 1 < L.length := fun h => by
      refine hacc h (hall _ ?_)
      rw [List.getD_eq_getElem _ _ hlt,
        ← List.getElem_dropLast (h := by rw [List.length_dropLast]; omega)]
      exact List.getElem_mem _
    rw [hq, show q = L.length - 1 by omega]
  · rw [hq, show q = 0 by omega]
  · refine hfirst ?_
    cases L with
    | nil => exact absurd rfl hL
    | cons F rest => exact not_lt.2 heq.le

end Sys2Proof.Machine
end

section
/-! The Adaptive choice on a line: the first of the least distortions
(spec/42_chroma_down.md R246, R247, R248). -/

namespace Sys2Proof

theorem Fp.le_total {x y : Fp} (hx : x.isNan = false) (hy : y.isNan = false) :
    x.le y = true ∨ y.le x = true := by
  cases h : y.lt x with
  | false => exact .inl (Fp.le_iff.2 ⟨hx, hy, h⟩)
  | true => exact .inr (Fp.le_of_lt h)

theorem Fp.lt_of_not_le {x y : Fp} (hx : x.isNan = false) (hy : y.isNan = false)
    (h : y.le x = false) : x.lt y = true := by
  cases hlt : x.lt y with
  | false => exact absurd (Fp.le_iff.2 ⟨hy, hx, hlt⟩) (Bool.eq_false_iff.1 h)
  | true => rfl

end Sys2Proof

namespace Sys2Proof.Machine

open Sys2Proof

/-! ## BEST -/

/-- `q` is the first index below `n` at which `dist` is least. -/
def FirstLeast {δ : Type} (le : δ → δ → Bool) (dist : Nat → δ) (n q : Nat) : Prop :=
  q < n ∧ (∀ r, r < n → le (dist q) (dist r) = true) ∧
    ∀ r, r < q → le (dist r) (dist q) = false

section
variable {δ : Type} {le : δ → δ → Bool} {dist : Nat → δ} {n : Nat}
  (htrans : ∀ {a b c}, le a b = true → le b c = true → le a c = true)
  (htotal : ∀ r s, r < n → s < n → le (dist r) (dist s) = true ∨ le (dist s) (dist r) = true)
include htrans htotal

theorem exists_least (hn : 0 < n) : ∃ q, q < n ∧ ∀ r, r < n → le (dist q) (dist r) = true := by
  induction n, hn using Nat.le_induction with
  | base =>
    refine ⟨0, Nat.one_pos, fun r hr => ?_⟩
    obtain rfl : r = 0 := by omega
    exact or_self_iff.1 (htotal 0 0 hr hr)
  | succ n hn ih =>
    obtain ⟨q, hq, hleast⟩ := ih fun r s hr hs => htotal r s (by omega) (by omega)
    rcases htotal q n (by omega) (by omega) with hle | hge
    · refine ⟨q, by omega, fun r hr => ?_⟩
      obtain hr | rfl := Nat.lt_succ_iff_lt_or_eq.1 hr
      · exact hleast r hr
      · exact hle
    · refine ⟨n, by omega, fun r hr => ?_⟩
      obtain hr | rfl := Nat.lt_succ_iff_lt_or_eq.1 hr
      · exact htrans hge (hleast r hr)
      · exact or_self_iff.1 (htotal _ _ hr hr)

/-- `BEST` of a total order answers the first least index (42_chroma_down.md R248). -/
theorem best_firstLeast (hn : 0 < n) :
    FirstLeast le dist n (best le ((List.range n).map dist)) := by
  have hall : ∀ d, ((List.range n).map dist).all (le d) = true ↔
      ∀ r, r < n → le d (dist r) = true := fun d => by simp
  obtain ⟨k, hk, hleast⟩ := exists_least (le := le) htrans htotal hn
  have hlen : best le ((List.range n).map dist) < ((List.range n).map dist).length :=
    List.findIdx_lt_length_of_exists
      ⟨dist k, List.mem_map_of_mem (List.mem_range.2 hk), (hall _).2 hleast⟩
  obtain ⟨hfound, hearlier⟩ := (List.findIdx_eq hlen).1 rfl
  simp only [List.getElem_map, List.getElem_range, hall] at hfound hearlier
  refine ⟨by simpa using hlen, hfound, fun r hr => Bool.eq_false_iff.2 fun hle => ?_⟩
  exact Bool.eq_false_iff.1 (hearlier r hr) ((hall _).2 fun s hs => htrans hle (hfound s hs))

end

/-! ## The candidates of a line -/

theorem roundTrip_eq_ok {α : Type} {smp : ScaleFilter → List α → Nat → Except Refusal α}
    {U : ScaleFilter × ScaleFilter} {x : List α} {F : ScaleFilter} {c : List α × List α} :
    roundTrip smp U x F = .ok c ↔ downLine (smp F) x = .ok c.1 ∧
      upLine (fun ph => smp (if ph = 0 then U.1 else U.2)) c.1 = .ok c.2 := by
  obtain ⟨d, u⟩ := c
  unfold roundTrip
  cases downLine (smp F) x with
  | error r => simp
  | ok d' =>
    dsimp only
    cases hu : upLine (fun ph => smp (if ph = 0 then U.1 else U.2)) d' with
    | error r =>
      simp only [reduceCtorEq, Except.ok.injEq, false_iff, not_and]
      rintro rfl hu'
      cases hu.symm.trans hu'
    | ok u' =>
      simp only [Except.ok.injEq, Prod.mk.injEq, and_congr_right_iff]
      rintro rfl
      rw [hu, Except.ok.injEq]

/-- The answers of a list of filters, by index. -/
theorem mapE_eq_range_map {β : Type} {f : ScaleFilter → Except Refusal β} {L : List ScaleFilter}
    {b : Nat → β} (h : ∀ r, r < L.length → f (L.getD r filterF0) = .ok (b r)) :
    mapE f L = .ok ((List.range L.length).map b) := by
  refine mapE_eq_ok.2 (List.forall₂_iff_get.2 ⟨by simp, fun r hr hr' => ?_⟩)
  simpa [hr] using h r hr

theorem mapE_getD {β : Type} {f : ScaleFilter → Except Refusal β} {L : List ScaleFilter}
    {bs : List β} (h : mapE f L = .ok bs) (b₀ : β) {r : Nat} (hr : r < L.length) :
    f (L.getD r filterF0) = .ok (bs.getD r b₀) := by
  have hr' : r < bs.length := by rwa [mapE_length h]
  rw [List.getD_eq_getElem _ _ hr, List.getD_eq_getElem _ _ hr']
  exact (List.forall₂_iff_get.1 (mapE_eq_ok.1 h)).2 r hr hr'

/-! ## Integer lines -/

section
variable {L : List ScaleFilter} {U : ScaleFilter × ScaleFilter} {e : CrEnv}

/-- Where every candidate `c r` is computed, the line of the first least distortion is the
answer (42_chroma_down.md R246, R247, R248). -/
theorem adaptI_of_candidates (hL : L ≠ []) {lo hi : Int} {x : List Int}
    {c : Nat → List Int × List Int}
    (h : ∀ r, r < L.length → roundTrip (finalI e lo hi) U x (L.getD r filterF0) = .ok (c r)) :
    ∃ q, adaptI e lo hi L U x = .ok (c q).1 ∧
      FirstLeast (· ≤ ·) (fun r => distInt ((c r).2.zip x)) L.length q := by
  have hbest := best_firstLeast (le := fun a b : Int => decide (a ≤ b))
    (dist := fun r => distInt ((c r).2.zip x)) (n := L.length)
    (fun hab hbc => decide_eq_true ((of_decide_eq_true hab).trans (of_decide_eq_true hbc)))
    (fun r s _ _ => by simpa using Int.le_total _ _) (List.length_pos_of_ne_nil hL)
  refine ⟨_, ?_, hbest⟩
  simp only [adaptI, mapE_eq_range_map h, List.map_map, Function.comp_def]
  rw [List.getD_eq_getElem _ _ (by simpa using hbest.1), List.getElem_map, List.getElem_range]

/-- A line that is answered has all its candidates computed. -/
theorem candidates_of_adaptI {lo hi : Int} {x y : List Int} (h : adaptI e lo hi L U x = .ok y) :
    ∃ c : Nat → List Int × List Int, ∀ r, r < L.length →
      roundTrip (finalI e lo hi) U x (L.getD r filterF0) = .ok (c r) := by
  unfold adaptI at h
  split at h
  · cases h
  · rename_i cs hcs
    exact ⟨fun r => cs.getD r ([], []), fun r hr => mapE_getD hcs _ hr⟩

/-! ## Float lines -/

theorem adaptF_of_candidates (hL : L ≠ []) {x : List Fp} {c : Nat → List Fp × List Fp}
    (h : ∀ r, r < L.length → roundTrip (finalF e) U x (L.getD r filterF0) = .ok (c r))
    (hnum : ∀ r, r < L.length → (distFrom .zero ((c r).2.zip x)).isNan = false) :
    ∃ q, adaptF e L U x = .ok (c q).1 ∧
      FirstLeast Fp.le (fun r => distFrom .zero ((c r).2.zip x)) L.length q := by
  have hbest := best_firstLeast (le := Fp.le) (dist := fun r => distFrom .zero ((c r).2.zip x))
    (n := L.length) Fp.le_trans (fun r s hr hs => Fp.le_total (hnum r hr) (hnum s hs))
    (List.length_pos_of_ne_nil hL)
  refine ⟨_, ?_, hbest⟩
  have hany : (((List.range L.length).map fun r => distFrom .zero ((c r).2.zip x)).any
      Fp.isNan) = false := by simpa using hnum
  simp only [adaptF, mapE_eq_range_map h, List.map_map, Function.comp_def, hany]
  rw [if_neg Bool.false_ne_true, List.getD_eq_getElem _ _ (by simpa using hbest.1),
    List.getElem_map, List.getElem_range]

/-- A NaN distortion is refused (93_implementation_defined.md U7). -/
theorem adaptF_of_nan {x : List Fp} {c : Nat → List Fp × List Fp}
    (h : ∀ r, r < L.length → roundTrip (finalF e) U x (L.getD r filterF0) = .ok (c r))
    (hnan : ∃ r, r < L.length ∧ (distFrom .zero ((c r).2.zip x)).isNan = true) :
    adaptF e L U x = .error .nanOrder := by
  have hany : (((List.range L.length).map fun r => distFrom .zero ((c r).2.zip x)).any
      Fp.isNan) = true := by simpa using hnan
  simp only [adaptF, mapE_eq_range_map h, List.map_map, Function.comp_def, hany]
  rfl

end

theorem distFrom_eq_foldl (acc : Fp) (ps : List (Fp × Fp)) : distFrom acc ps =
    ps.foldl (fun acc p => acc.add ((p.1.sub p.2).mul (p.1.sub p.2))) acc := by
  induction ps generalizing acc with
  | nil => rfl
  | cons p ps ih => exact ih _

/-- Settles O44: the candidates of the line, and `BEST` among their distortions. -/
theorem adaptivePicksBest : Obligations.AdaptivePicksBest := by
  intro e L U hL
  constructor
  · intro lo hi x y hy
    obtain ⟨c, hc⟩ := candidates_of_adaptI hy
    obtain ⟨q, hq, hlt, hleast, hfirst⟩ := adaptI_of_candidates hL hc
    exact ⟨fun r => (c r).1, fun r => (c r).2, q, hlt, Except.ok.inj (hy.symm.trans hq),
      fun r hr => roundTrip_eq_ok.1 (hc r hr), fun r hr => of_decide_eq_true (hleast r hr),
      fun r hr => not_le.1 (of_decide_eq_false (hfirst r hr))⟩
  · intro x d u hdu dist
    have hc : ∀ r, r < L.length →
        roundTrip (finalF e) U x (L.getD r filterF0) = .ok (d r, u r) :=
      fun r hr => roundTrip_eq_ok.2 (hdu r hr)
    have hdist : ∀ r, distFrom .zero ((u r).zip x) = dist r := fun r => distFrom_eq_foldl _ _
    refine ⟨fun hnan => adaptF_of_nan hc (by simpa only [hdist] using hnan), fun hnum => ?_⟩
    obtain ⟨q, hq, hlt, hleast, hfirst⟩ :=
      adaptF_of_candidates hL hc (by simpa only [hdist] using hnum)
    simp only [hdist] at hleast hfirst
    exact ⟨q, hlt, hq, hleast, fun r hr =>
      Fp.lt_of_not_le (hnum q hlt) (hnum r (hr.trans hlt)) (hfirst r hr)⟩

end Sys2Proof.Machine
end

section
/-! The three event classes, and the outcomes of a command (spec/60_exceptions.md R320 to R345). -/

namespace Sys2Proof.Machine

open Sys2Proof

/-! ## Event entry, by the class -/

section
variable {e : Event} (s : State)

theorem State.raise_of_fatal (h : e.cls = .fatal) :
    s.raise e = { s with status := { s.status with fatal := true }, cause := e.code } := by
  rw [State.raise, h]
  rfl

theorem State.raise_of_cmdErr (h : e.cls = .cmdErr) :
    s.raise e = { s with status := { s.status with cmdErr := true }, cause := e.code } := by
  rw [State.raise, h]
  rfl

theorem State.raise_of_unsup (h : e.cls = .unsup) :
    s.raise e = { s with status := { s.status with unsup := true }, cause := e.code } := by
  rw [State.raise, h]
  rfl

end

/-- Settles O13: each event by its class; the codes are those of the table. -/
theorem eventEntry : Obligations.EventEntry := fun s =>
  ⟨s.raise_of_fatal rfl, s.raise_of_fatal rfl, s.raise_of_fatal rfl,
    s.raise_of_cmdErr rfl, s.raise_of_cmdErr rfl, s.raise_of_cmdErr rfl, s.raise_of_cmdErr rfl,
    s.raise_of_cmdErr rfl, s.raise_of_unsup rfl⟩

/-! ## The codes of a class (60_exceptions.md R321) -/

theorem Event.code_mem_of_fatal {e : Event} (h : e.cls = .fatal) :
    e.code ∈ [(0x01 : Byte), 0x02, 0x03] := by
  simpa [← BitVec.toNat_inj] using Event.code_fatal h

/-- Of the command errors only `E_OPCODE`, the undefined opcode, is left out. -/
theorem Event.code_mem_of_cmdErr {e : Event} (h : e.cls = .cmdErr) (hop : e ≠ .eOpcode) :
    e.code ∈ [(0x11 : Byte), 0x12, 0x13, 0x14] := by
  cases e with
  | eOpcode => exact absurd rfl hop
  | eRsvd | eNotCfg | eBadLoc | eBadParam => decide
  | _ => cases h

theorem Event.code_of_unsup {e : Event} (h : e.cls = .unsup) : e.code = 0x20 := by
  cases e with
  | uClInv => rfl
  | _ => cases h

/-! ## The effects that are no event -/

/-- No event is entered from `s` to `t`: `CAUSE` and the flags of the three classes stay. -/
structure EventsKept (s t : State) : Prop where
  cause : t.cause = s.cause
  fatal : t.status.fatal = s.status.fatal
  cmdErr : t.status.cmdErr = s.status.cmdErr
  unsup : t.status.unsup = s.status.unsup

theorem EventsKept.ctResolve (s : State) : EventsKept s (ctResolve s) := by
  obtain ⟨_, _, _, _, _, -, -, heq⟩ := ctResolve_cases s
  rw [heq]
  exact ⟨rfl, rfl, rfl, rfl⟩

/-- What a command that is not ignored does is one event, or no event at all. -/
theorem CommandEffect.event_or_kept {s t : State} (h : CommandEffect s t) :
    (∃ e, e ≠ .eOpcode ∧ t = s.raise e) ∨ EventsKept s t := by
  cases h with
  | event e he => exact .inl ⟨e, he, rfl⟩
  | ctSetup => exact .inr (.ctResolve s)
  | noop => exact .inr (by constructor <;> simp)
  | lookUp | transform | crSetup => exact .inr ⟨rfl, rfl, rfl, rfl⟩
  | convert => exact .inr (by constructor <;> simp [lockSize_status])

/-- Settles O14: `exec_next` names the effects, and an event is told apart by its class. -/
theorem commandOutcomes : Obligations.CommandOutcomes := by
  intro i s t h
  rcases exec_next h with hignored | ⟨hf, heffect⟩
  · exact .inl hignored
  refine .inr ?_
  rcases heffect.event_or_kept with ⟨e, hop, rfl⟩ | hkept
  · cases hc : e.cls with
    | fatal => exact .inl ⟨hf, e.code, e.code_mem_of_fatal hc, s.raise_of_fatal hc⟩
    | cmdErr =>
      exact .inr (.inl ⟨hf, e.code, e.code_mem_of_cmdErr hc hop, s.raise_of_cmdErr hc⟩)
    | unsup =>
      refine .inr (.inr (.inl ⟨hf, ?_⟩))
      rw [s.raise_of_unsup hc, e.code_of_unsup hc]
  · exact .inr (.inr (.inr ⟨hf, hkept.cause, hkept.fatal.trans hf, hkept.cmdErr, hkept.unsup⟩))

end Sys2Proof.Machine
end

section
/-! The size lock (spec/70_reset_and_hazards.md R372). -/

namespace Sys2Proof.Machine

open Sys2Proof

/-- Once locked, the CRU takes the frames of the locked plane-0 dimensions and no others. -/
theorem lockOk_iff_of_locked {s : State} {fi : FrameDesc} (h : s.status.crLocked = true) :
    lockOk s fi = true ↔ fi.width.get 0 = s.crObj.lockW ∧ fi.height.get 0 = s.crObj.lockH := by
  simp [lockOk, h]

/-- Settles O35: the lock is one of the duties, so a frame of another size does not meet them all. -/
theorem sizeLockRefuses : Obligations.SizeLockRefuses := by
  intro s fdo fdi lvl ho hi hl hf hv fo fi hkind hdepth hcount hlocked hsize c hc
  obtain ⟨up, plan, l, -, hexec⟩ := exec_conversion hc
  have hfc : fatalCheck fo fi = none := fatalCheck_eq_none.2 ⟨hkind, hdepth, hcount⟩
  have hduties : firstProblem (crDuties up s (slotIdx fdo) (slotIdx fdi)) ≠ none := fun hd =>
    not_and_or.2 hsize ((lockOk_iff_of_locked hlocked).1 (lockOk_of_crDuties hd))
  exact exec_refused ho hi hl hf hc (hexec s) (crConvert_refused hv hfc hduties)

end Sys2Proof.Machine
end
